-- ==== Sys2Proof/Word.lean ====
section
/-! DEFINITION. The machine's words and the numbers that name its units. -/

namespace Sys2Proof

/-- A 64-bit register, symbol, slot or instruction word. -/
abbrev Word := BitVec 64
/-- One 32-bit lane of a vector register (R28). -/
abbrev Lane := BitVec 32
/-- A byte of memory. -/
abbrev Byte := BitVec 8

/-- A general register g0 to g63 (R88). -/
abbrev GReg := BitVec 6
/-- A predicate register q0 to q15 (R88). -/
abbrev QReg := BitVec 4
/-- A vector register v0 to v31 (R88). -/
abbrev VReg := BitVec 5
/-- An accumulator a0 to a3 (R88). -/
abbrev AReg := BitVec 2
/-- A loop counter c0 to c3 (R88). -/
abbrev CReg := BitVec 2
/-- A copy template 0 to 7 (R283). -/
abbrev TmplId := BitVec 3

/-- A context 0 to 3 (R98). -/
abbrev CtxId := Fin 4
/-- A gallery 0 to 3, which is also a die (R10, R313). -/
abbrev GalId := Fin 4
/-- A logical cell 0 to 2,047 (R9). -/
abbrev CellId := Fin 2048
/-- A link: 0 to 3 the bridges, 4 to 19 the Rhafer links 0 to 15 (R381). -/
abbrev LinkId := Fin 20
/-- The content of a flit as 64-bit words (R387). -/
abbrev FlitWords := List Word

end Sys2Proof
end

