-- ==== Sys2Proof/Syntax.lean ====
section
/-! DEFINITION. The instructions: one constructor for each row of the opcode table, with the operand types of R27,
R31, R84 and R86. -/

namespace Sys2Proof

/-- The guard of a cell instruction (R80, R82): none, a predicate, or its inverse. -/
inductive Guard where
  | always
  | ifTrue (q : QReg)
  | ifFalse (q : QReg)
  deriving DecidableEq, Repr, Inhabited

/-- The type codes TY of R27. -/
inductive Ty where
  | i32 | n32 | f32 | bf16x2 | i16x2 | n16x2 | g8x4 | i8x4 | n8x4 | i64 | bpi
  deriving DecidableEq, Repr, Inhabited

/-- The format codes FMT of R27. -/
inductive Fmt where
  | f32 | bf16 | gf8 | i32 | i8 | bpi2 | bpi3 | bpi4 | bpi5 | bpi6 | bpi7 | bpi8
  deriving DecidableEq, Repr, Inhabited

/-- The rounding codes RM of R31. -/
inductive Rm where
  | rne | rtz | rup | rdn | rna | dyn
  deriving DecidableEq, Repr, Inhabited

/-- The integer conditions of CMP and CMPI, in FN order (R86, R198). -/
inductive ICond where
  | eq | ne | lt | le | ltu | leu | gt | ge | gtu | geu
  deriving DecidableEq, Repr, Inhabited

/-- The conditions of FCMP, in FN order (R203). -/
inductive FCond where
  | eq | ne | lt | le | un
  deriving DecidableEq, Repr, Inhabited

/-- The conditions of VCMP, in FN order (R224). -/
inductive VCond where
  | eq | ne | lt | le | gt | ge | un
  deriving DecidableEq, Repr, Inhabited

/-- The operations of reductions and scans, in code order (R86, R166). -/
inductive RedOp where
  | add | min | max | and | or
  deriving DecidableEq, Repr, Inhabited

/-- The access sizes of LD, in FN order (R296). -/
inductive LdSize where
  | i8 | n8 | i16 | n16 | i32 | n32 | w64
  deriving DecidableEq, Repr, Inhabited

/-- The access sizes of ST, in FN order (R296). -/
inductive StSize where
  | w8 | w16 | w32 | w64
  deriving DecidableEq, Repr, Inhabited

/-- The access sizes of LDH, LDS and STS (R301, R305). -/
inductive WSize where
  | w64 | w32
  deriving DecidableEq, Repr, Inhabited

/-- The order codes of R84. -/
inductive OrdCode where
  | relaxed | acquire | release | acqRel
  deriving DecidableEq, Repr, Inhabited

/-- The scope codes of R84. -/
inductive Scope where
  | cell | gallery | package | fabric
  deriving DecidableEq, Repr, Inhabited

/-- The ACC codes of R52 that are not reserved. -/
inductive Acc where
  | overwrite | accumulate | negate
  deriving DecidableEq, Repr, Inhabited

/-- The engines that GIVE and RECL name (R281). -/
inductive Engine where
  | copy | matrix | route
  deriving DecidableEq, Repr, Inhabited

/-- A memory operand: base, index, scale code and signed offset (R84, R295). -/
structure Mem where
  base  : GReg
  idx   : GReg
  scale : BitVec 2
  off   : BitVec 16
  deriving DecidableEq, Repr, Inhabited

/-- The memory operand of VGATH and VSCAT, whose index is a vector register (R295). -/
structure VMem where
  base  : GReg
  idx   : VReg
  scale : BitVec 2
  off   : BitVec 16
  deriving DecidableEq, Repr, Inhabited

/-- The formats, accumulation, check and length fields that MMA and MMAG share (R84, R241, R245). -/
structure MmaForm where
  fa   : Fmt
  fb   : Fmt
  acc  : Acc
  chk  : Bool
  /-- K - 1. -/
  k1   : BitVec 6
  deriving DecidableEq, Repr, Inhabited

/-- An operand of MMA: an even g register of a descriptor pair, or the base of a vector group (R238, R239). -/
inductive MmaSrc where
  | desc (g : GReg)
  | group (v : VReg)
  deriving DecidableEq, Repr, Inhabited

/-- The decode faults of R87. -/
inductive DecodeCause where
  | illop | reggrp
  deriving DecidableEq, Repr, Inhabited

/-- What an event row acts on: which context, cell, gallery, link, template or engine, the entry or record that it
names, and what a host write carries. A turn of the agenda supplies it (DESIGN CHOICE, log 1). -/
structure EventArgs where
  ctx   : CtxId := 0
  cell  : CellId := 0
  gal   : GalId := 0
  link  : LinkId := 0
  tmpl  : TmplId := 0
  eng   : Engine := .copy
  /-- A record in flight, a table entry, a chunk, or a register offset. -/
  id    : Nat := 0
  /-- A second number: a chunk, a lane count, a word of an entry. -/
  idx   : Nat := 0
  /-- The value that a register write carries. -/
  val   : Word := 0
  /-- The bytes of a host store, or the words of a flit as bytes. -/
  bytes : List Byte := []
  words : FlitWords := []
  cells : List CellId := []
  /-- A hardware error met by the event: an uncorrectable memory error, a CRC error, a mismatch. -/
  bad   : Bool := false
  deriving DecidableEq, Repr, Inhabited

/-- Every row of the opcode table. The cell instructions carry their operands and their guard; the host commands, the
register writes and the events of the part's units act on what the turn names (EventArgs). -/
inductive Instr where
  /-- NOP (R207). -/
  | nop (g : Guard)
  /-- HALT (R207). -/
  | halt (g : Guard)
  /-- YIELD (R207). -/
  | yield (g : Guard)
  /-- TRAP (R207). -/
  | trap (g : Guard) (code : BitVec 16)
  /-- BKPT (R209). -/
  | bkpt (g : Guard)
  /-- ABORT (R208). -/
  | abort (g : Guard) (code : BitVec 16)
  /-- WAITEV (R210). -/
  | waitev (g : Guard) (mask : BitVec 6)
  /-- ADD (R194). -/
  | add (g : Guard) (ty : Ty) (sat : Bool) (d : GReg) (a : GReg) (b : GReg)
  /-- SUB (R194). -/
  | sub (g : Guard) (ty : Ty) (sat : Bool) (d : GReg) (a : GReg) (b : GReg)
  /-- AND (R194). -/
  | and (g : Guard) (ty : Ty) (d : GReg) (a : GReg) (b : GReg)
  /-- OR (R194). -/
  | or (g : Guard) (ty : Ty) (d : GReg) (a : GReg) (b : GReg)
  /-- XOR (R194). -/
  | xor (g : Guard) (ty : Ty) (d : GReg) (a : GReg) (b : GReg)
  /-- ANDN (R194). -/
  | andn (g : Guard) (ty : Ty) (d : GReg) (a : GReg) (b : GReg)
  /-- SHL (R194). -/
  | shl (g : Guard) (ty : Ty) (d : GReg) (a : GReg) (b : GReg)
  /-- SHR (R194). -/
  | shr (g : Guard) (ty : Ty) (d : GReg) (a : GReg) (b : GReg)
  /-- SRA (R194). -/
  | sra (g : Guard) (ty : Ty) (d : GReg) (a : GReg) (b : GReg)
  /-- ROT (R194). -/
  | rot (g : Guard) (ty : Ty) (d : GReg) (a : GReg) (b : GReg)
  /-- MIN (R194). -/
  | min (g : Guard) (ty : Ty) (d : GReg) (a : GReg) (b : GReg)
  /-- MAX (R194). -/
  | max (g : Guard) (ty : Ty) (d : GReg) (a : GReg) (b : GReg)
  /-- MINU (R194). -/
  | minu (g : Guard) (ty : Ty) (d : GReg) (a : GReg) (b : GReg)
  /-- MAXU (R194). -/
  | maxu (g : Guard) (ty : Ty) (d : GReg) (a : GReg) (b : GReg)
  /-- SEL (R194). -/
  | sel (g : Guard) (d : GReg) (a : GReg) (b : GReg) (c : QReg)
  /-- MUL (R195). -/
  | mul (g : Guard) (ty : Ty) (sat : Bool) (d : GReg) (a : GReg) (b : GReg)
  /-- MULH (R195). -/
  | mulh (g : Guard) (ty : Ty) (d : GReg) (a : GReg) (b : GReg)
  /-- MULHU (R195). -/
  | mulhu (g : Guard) (ty : Ty) (d : GReg) (a : GReg) (b : GReg)
  /-- DIV (R196). -/
  | div (g : Guard) (ty : Ty) (d : GReg) (a : GReg) (b : GReg)
  /-- DIVU (R196). -/
  | divu (g : Guard) (ty : Ty) (d : GReg) (a : GReg) (b : GReg)
  /-- REM (R196). -/
  | rem (g : Guard) (ty : Ty) (d : GReg) (a : GReg) (b : GReg)
  /-- REMU (R196). -/
  | remu (g : Guard) (ty : Ty) (d : GReg) (a : GReg) (b : GReg)
  /-- MADD (R195). -/
  | madd (g : Guard) (ty : Ty) (sat : Bool) (d : GReg) (a : GReg) (b : GReg) (c : GReg)
  /-- CLZ (R195). -/
  | clz (g : Guard) (ty : Ty) (d : GReg) (a : GReg)
  /-- POPC (R195). -/
  | popc (g : Guard) (ty : Ty) (d : GReg) (a : GReg)
  /-- BFX (R195). -/
  | bfx (g : Guard) (ty : Ty) (d : GReg) (a : GReg) (b : GReg) (c : GReg)
  /-- BFI (R195). -/
  | bfi (g : Guard) (ty : Ty) (d : GReg) (a : GReg) (b : GReg) (c : GReg)
  /-- SEXT (R195). -/
  | sext (g : Guard) (ty : Ty) (d : GReg) (a : GReg) (b : GReg)
  /-- CMP (R198). -/
  | cmp (g : Guard) (cond : ICond) (ty : Ty) (d : QReg) (a : GReg) (b : GReg)
  /-- ADDI (R197). -/
  | addi (g : Guard) (d : GReg) (a : GReg) (imm : BitVec 36)
  /-- ANDI (R197). -/
  | andi (g : Guard) (d : GReg) (a : GReg) (imm : BitVec 36)
  /-- ORI (R197). -/
  | ori (g : Guard) (d : GReg) (a : GReg) (imm : BitVec 36)
  /-- XORI (R197). -/
  | xori (g : Guard) (d : GReg) (a : GReg) (imm : BitVec 36)
  /-- SHLI (R197). -/
  | shli (g : Guard) (d : GReg) (a : GReg) (imm : BitVec 6)
  /-- SHRI (R197). -/
  | shri (g : Guard) (d : GReg) (a : GReg) (imm : BitVec 6)
  /-- SRAI (R197). -/
  | srai (g : Guard) (d : GReg) (a : GReg) (imm : BitVec 6)
  /-- ROTI (R197). -/
  | roti (g : Guard) (d : GReg) (a : GReg) (imm : BitVec 6)
  /-- CMPI (R198). -/
  | cmpi (g : Guard) (cond : ICond) (d : QReg) (a : GReg) (imm : BitVec 36)
  /-- LI (R197). -/
  | li (g : Guard) (d : GReg) (imm : BitVec 46)
  /-- LIH (R197). -/
  | lih (g : Guard) (d : GReg) (imm : BitVec 32)
  /-- BR (R204). -/
  | br (g : Guard) (off : BitVec 36)
  /-- JMP (R204). -/
  | jmp (g : Guard) (a : GReg)
  /-- RET (R204). -/
  | ret (g : Guard)
  /-- CALL (R204). -/
  | call (g : Guard) (off : BitVec 36)
  /-- LOOP (R205). -/
  | loop (g : Guard) (d : CReg) (a : GReg) (len : BitVec 11)
  /-- LOOPI (R205). -/
  | loopi (g : Guard) (d : CReg) (count : BitVec 16) (len : BitVec 11)
  /-- BREAK (R205). -/
  | breakLoop (g : Guard) (d : CReg)
  /-- PAND (R199). -/
  | pand (g : Guard) (d : QReg) (a : QReg) (b : QReg)
  /-- POR (R199). -/
  | por (g : Guard) (d : QReg) (a : QReg) (b : QReg)
  /-- PXOR (R199). -/
  | pxor (g : Guard) (d : QReg) (a : QReg) (b : QReg)
  /-- PANDN (R199). -/
  | pandn (g : Guard) (d : QReg) (a : QReg) (b : QReg)
  /-- PNOT (R199). -/
  | pnot (g : Guard) (d : QReg) (a : QReg)
  /-- PSET (R199). -/
  | pset (g : Guard) (d : QReg) (n : BitVec 7)
  /-- PMOV (R199). -/
  | pmov (g : Guard) (d : QReg) (a : QReg)
  /-- PCNT (R199). -/
  | pcnt (g : Guard) (d : GReg) (a : QReg)
  /-- PFIRST (R199). -/
  | pfirst (g : Guard) (d : GReg) (a : QReg)
  /-- PLD (R199). -/
  | pld (g : Guard) (d : QReg) (a : GReg)
  /-- PST (R199). -/
  | pst (g : Guard) (d : GReg) (a : QReg)
  /-- FADD (R200). -/
  | fadd (g : Guard) (rm : Rm) (d : GReg) (a : GReg) (b : GReg)
  /-- FSUB (R200). -/
  | fsub (g : Guard) (rm : Rm) (d : GReg) (a : GReg) (b : GReg)
  /-- FMUL (R200). -/
  | fmul (g : Guard) (rm : Rm) (d : GReg) (a : GReg) (b : GReg)
  /-- FFMA (R200). -/
  | ffma (g : Guard) (rm : Rm) (d : GReg) (a : GReg) (b : GReg) (c : GReg)
  /-- FDIV (R200). -/
  | fdiv (g : Guard) (rm : Rm) (d : GReg) (a : GReg) (b : GReg)
  /-- FSQRT (R200). -/
  | fsqrt (g : Guard) (rm : Rm) (d : GReg) (a : GReg)
  /-- FMIN (R200). -/
  | fmin (g : Guard) (rm : Rm) (d : GReg) (a : GReg) (b : GReg)
  /-- FMAX (R200). -/
  | fmax (g : Guard) (rm : Rm) (d : GReg) (a : GReg) (b : GReg)
  /-- FABS (R200). -/
  | fabs (g : Guard) (rm : Rm) (d : GReg) (a : GReg)
  /-- FNEG (R200). -/
  | fneg (g : Guard) (rm : Rm) (d : GReg) (a : GReg)
  /-- FCVT (R202). -/
  | fcvt (g : Guard) (sty : Ty) (dty : Ty) (rm : Rm) (sat : Bool) (d : GReg) (a : GReg)
  /-- FCLASS (R201). -/
  | fclass (g : Guard) (rm : Rm) (d : GReg) (a : GReg)
  /-- FCMP (R203). -/
  | fcmp (g : Guard) (cond : FCond) (d : QReg) (a : GReg) (b : GReg)
  /-- VADD (R219). -/
  | vadd (g : Guard) (ty : Ty) (rm : Rm) (sat : Bool) (d : VReg) (a : VReg) (b : VReg)
  /-- VSUB (R219). -/
  | vsub (g : Guard) (ty : Ty) (rm : Rm) (sat : Bool) (d : VReg) (a : VReg) (b : VReg)
  /-- VMUL (R219). -/
  | vmul (g : Guard) (ty : Ty) (rm : Rm) (sat : Bool) (d : VReg) (a : VReg) (b : VReg)
  /-- VFMA (R219). -/
  | vfma (g : Guard) (ty : Ty) (rm : Rm) (sat : Bool) (d : VReg) (a : VReg) (b : VReg) (c : VReg)
  /-- VMIN (R219). -/
  | vmin (g : Guard) (ty : Ty) (rm : Rm) (d : VReg) (a : VReg) (b : VReg)
  /-- VMAX (R219). -/
  | vmax (g : Guard) (ty : Ty) (rm : Rm) (d : VReg) (a : VReg) (b : VReg)
  /-- VABS (R219). -/
  | vabs (g : Guard) (ty : Ty) (rm : Rm) (sat : Bool) (d : VReg) (a : VReg)
  /-- VNEG (R219). -/
  | vneg (g : Guard) (ty : Ty) (rm : Rm) (sat : Bool) (d : VReg) (a : VReg)
  /-- VDIV (R219). -/
  | vdiv (g : Guard) (rm : Rm) (d : VReg) (a : VReg) (b : VReg)
  /-- VSQRT (R219). -/
  | vsqrt (g : Guard) (rm : Rm) (d : VReg) (a : VReg)
  /-- VMULH (R219). -/
  | vmulh (g : Guard) (ty : Ty) (d : VReg) (a : VReg) (b : VReg)
  /-- VAND (R221). -/
  | vand (g : Guard) (ty : Ty) (d : VReg) (a : VReg) (b : VReg)
  /-- VOR (R221). -/
  | vor (g : Guard) (ty : Ty) (d : VReg) (a : VReg) (b : VReg)
  /-- VXOR (R221). -/
  | vxor (g : Guard) (ty : Ty) (d : VReg) (a : VReg) (b : VReg)
  /-- VANDN (R221). -/
  | vandn (g : Guard) (ty : Ty) (d : VReg) (a : VReg) (b : VReg)
  /-- VSHL (R221). -/
  | vshl (g : Guard) (ty : Ty) (d : VReg) (a : VReg) (b : VReg)
  /-- VSHR (R221). -/
  | vshr (g : Guard) (ty : Ty) (d : VReg) (a : VReg) (b : VReg)
  /-- VSRA (R221). -/
  | vsra (g : Guard) (ty : Ty) (d : VReg) (a : VReg) (b : VReg)
  /-- VCLZ (R221). -/
  | vclz (g : Guard) (ty : Ty) (d : VReg) (a : VReg)
  /-- VPOPC (R221). -/
  | vpopc (g : Guard) (ty : Ty) (d : VReg) (a : VReg)
  /-- VRCP (R222). -/
  | vrcp (g : Guard) (rm : Rm) (d : VReg) (a : VReg)
  /-- VRSQ (R222). -/
  | vrsq (g : Guard) (rm : Rm) (d : VReg) (a : VReg)
  /-- VEXP2 (R222). -/
  | vexp2 (g : Guard) (rm : Rm) (d : VReg) (a : VReg)
  /-- VLOG2 (R222). -/
  | vlog2 (g : Guard) (rm : Rm) (d : VReg) (a : VReg)
  /-- VTANH (R222). -/
  | vtanh (g : Guard) (rm : Rm) (d : VReg) (a : VReg)
  /-- VCMP (R224). -/
  | vcmp (g : Guard) (cond : VCond) (ty : Ty) (d : QReg) (a : VReg) (b : VReg)
  /-- VSEL (R225). -/
  | vsel (g : Guard) (d : VReg) (a : VReg) (b : VReg) (c : QReg)
  /-- VCVT (R226). -/
  | vcvt (g : Guard) (sty : Ty) (dty : Ty) (rm : Rm) (sat : Bool) (d : VReg) (a : VReg) (c : QReg)
  /-- VPERM (R231). -/
  | vperm (g : Guard) (d : VReg) (a : VReg) (b : VReg)
  /-- VBCAST (R231). -/
  | vbcast (g : Guard) (d : VReg) (a : GReg)
  /-- VBL (R231). -/
  | vbl (g : Guard) (d : VReg) (a : VReg) (n : BitVec 6)
  /-- VINS (R231). -/
  | vins (g : Guard) (d : VReg) (a : GReg) (n : BitVec 6)
  /-- VEXT (R231). -/
  | vext (g : Guard) (d : GReg) (a : VReg) (n : BitVec 6)
  /-- VSHFU (R231). -/
  | vshfu (g : Guard) (d : VReg) (a : VReg) (n : BitVec 6)
  /-- VSHFD (R231). -/
  | vshfd (g : Guard) (d : VReg) (a : VReg) (n : BitVec 6)
  /-- VMOV (R231). -/
  | vmov (g : Guard) (d : VReg) (a : VReg)
  /-- VRED (R232). -/
  | vred (g : Guard) (op : RedOp) (ty : Ty) (d : GReg) (a : VReg)
  /-- VSCAN (R232). -/
  | vscan (g : Guard) (op : RedOp) (ty : Ty) (d : VReg) (a : VReg)
  /-- MMA (R242). -/
  | mma (g : Guard) (form : MmaForm) (planes : BitVec 3) (d : AReg) (a : MmaSrc) (b : MmaSrc) (c : GReg)
  /-- MMAG (R245). -/
  | mmag (g : Guard) (form : MmaForm) (mb1 : BitVec 2) (nb1 : BitVec 3) (d : AReg) (a : GReg) (b : GReg) (c : GReg)
  /-- MZERO (R247). -/
  | mzero (g : Guard) (d : AReg)
  /-- MLD (R247). -/
  | mld (g : Guard) (fmt : Fmt) (d : AReg) (a : GReg) (c : GReg)
  /-- MST (R247). -/
  | mst (g : Guard) (fmt : Fmt) (d : AReg) (a : GReg) (c : GReg)
  /-- MROWR (R247). -/
  | mrowr (g : Guard) (d : VReg) (a : AReg) (b : GReg)
  /-- MROWW (R247). -/
  | mroww (g : Guard) (d : AReg) (a : VReg) (b : GReg)
  /-- MTRAN (R247). -/
  | mtran (g : Guard) (d : AReg) (a : AReg)
  /-- MCHK (R248). -/
  | mchk (g : Guard) (d : AReg) (a : GReg) (c : GReg)
  /-- MCHKR (R248). -/
  | mchkr (g : Guard) (d : AReg) (a : GReg) (c : GReg)
  /-- LUF (R260). -/
  | luf (g : Guard) (zc : Bool) (d : AReg) (a : GReg)
  /-- CHOL (R262). -/
  | chol (g : Guard) (d : AReg) (a : GReg)
  /-- QRH (R263). -/
  | qrh (g : Guard) (d : AReg) (a : GReg) (b : GReg)
  /-- TRSM (R265). -/
  | trsm (g : Guard) (up : Bool) (unit : Bool) (right : Bool) (d : AReg) (a : GReg) (b : AReg)
  /-- QAPPLY (R264). -/
  | qapply (g : Guard) (t : Bool) (d : AReg) (a : GReg) (b : AReg)
  /-- PAPPLY (R266). -/
  | papply (g : Guard) (d : AReg) (a : GReg)
  /-- PAPPLYT (R266). -/
  | papplyt (g : Guard) (d : AReg) (a : GReg)
  /-- PRID (R268). -/
  | prid (g : Guard)
  /-- PRLD (R268). -/
  | prld (g : Guard) (a : GReg)
  /-- PRST (R268). -/
  | prst (g : Guard) (a : GReg)
  /-- LD (R296). -/
  | ld (g : Guard) (sz : LdSize) (d : GReg) (m : Mem)
  /-- ST (R296). -/
  | st (g : Guard) (sz : StSize) (d : GReg) (m : Mem)
  /-- VLD (R298). -/
  | vld (g : Guard) (d : VReg) (m : Mem)
  /-- VLDS (R298). -/
  | vlds (g : Guard) (d : VReg) (m : Mem) (c : GReg)
  /-- VGATH (R298). -/
  | vgath (g : Guard) (d : VReg) (m : VMem)
  /-- VST (R298). -/
  | vst (g : Guard) (d : VReg) (m : Mem)
  /-- VSTS (R298). -/
  | vsts (g : Guard) (d : VReg) (m : Mem) (c : GReg)
  /-- VSCAT (R298). -/
  | vscat (g : Guard) (d : VReg) (m : VMem)
  /-- LDH (R301). -/
  | ldh (g : Guard) (sz : WSize) (d : GReg) (m : Mem)
  /-- STH (R302). -/
  | sth (g : Guard) (d : GReg) (m : Mem)
  /-- LDS (R305). -/
  | lds (g : Guard) (sz : WSize) (ord : OrdCode) (sc : Scope) (d : GReg) (m : Mem)
  /-- STS (R305). -/
  | sts (g : Guard) (sz : WSize) (ord : OrdCode) (sc : Scope) (d : GReg) (m : Mem)
  /-- STS_MASK (R305). -/
  | stsMask (g : Guard) (ord : OrdCode) (sc : Scope) (d : GReg) (m : Mem) (c : GReg)
  /-- AADD (R306). -/
  | aadd (g : Guard) (ord : OrdCode) (sc : Scope) (d : GReg) (m : Mem) (c : GReg)
  /-- AFADD (R306). -/
  | afadd (g : Guard) (ord : OrdCode) (sc : Scope) (d : GReg) (m : Mem) (c : GReg)
  /-- AMIN (R306). -/
  | amin (g : Guard) (ord : OrdCode) (sc : Scope) (d : GReg) (m : Mem) (c : GReg)
  /-- AMAX (R306). -/
  | amax (g : Guard) (ord : OrdCode) (sc : Scope) (d : GReg) (m : Mem) (c : GReg)
  /-- AAND (R306). -/
  | aand (g : Guard) (ord : OrdCode) (sc : Scope) (d : GReg) (m : Mem) (c : GReg)
  /-- AOR (R306). -/
  | aor (g : Guard) (ord : OrdCode) (sc : Scope) (d : GReg) (m : Mem) (c : GReg)
  /-- AXCHG (R306). -/
  | axchg (g : Guard) (ord : OrdCode) (sc : Scope) (d : GReg) (m : Mem) (c : GReg)
  /-- ACAS (R306). -/
  | acas (g : Guard) (ord : OrdCode) (sc : Scope) (d : GReg) (m : Mem) (c : GReg)
  /-- FENCE_ACQ (R308). -/
  | fenceAcq (g : Guard) (sc : Scope)
  /-- FENCE_REL (R308). -/
  | fenceRel (g : Guard) (sc : Scope)
  /-- FENCE_FULL (R308). -/
  | fenceFull (g : Guard) (sc : Scope)
  /-- TALLOC (R280). -/
  | talloc (g : Guard) (fmt : Fmt) (d : GReg)
  /-- TFREE (R280). -/
  | tfree (g : Guard) (a : GReg)
  /-- TSEAL (R280). -/
  | tseal (g : Guard) (d : GReg) (a : GReg)
  /-- THDR (R280). -/
  | thdr (g : Guard) (d : GReg) (a : GReg) (b : GReg)
  /-- TSETH (R280). -/
  | tseth (g : Guard) (a : GReg) (b : GReg) (c : GReg)
  /-- TPRES (R280). -/
  | tpres (g : Guard) (d : GReg) (a : GReg)
  /-- TDESC (R278). -/
  | tdesc (g : Guard) (d : GReg) (a : GReg)
  /-- CPARM (R283). -/
  | cparm (g : Guard) (t : TmplId) (a : GReg) (b : GReg) (c : GReg)
  /-- CPFIRE (R286). -/
  | cpfire (g : Guard) (t : TmplId)
  /-- CPTEST (R287). -/
  | cptest (g : Guard) (d : QReg) (a : GReg) (b : GReg)
  /-- CPWAIT (R287). -/
  | cpwait (g : Guard) (a : GReg) (b : GReg)
  /-- CPCAN (R287). -/
  | cpcan (g : Guard) (t : TmplId)
  /-- CPCHAIN (R288). -/
  | cpchain (g : Guard) (t : TmplId) (k : TmplId) (b : GReg)
  /-- GIVE (R281). -/
  | give (g : Guard) (eng : Engine) (a : GReg)
  /-- RECL (R281). -/
  | recl (g : Guard) (eng : Engine) (a : GReg)
  /-- OWNQ (R281). -/
  | ownq (g : Guard) (d : GReg) (a : GReg)
  /-- TBCAST (R168). -/
  | tbcast (g : Guard) (ty : Ty) (d : VReg) (a : VReg) (b : GReg)
  /-- TRED (R168). -/
  | tred (g : Guard) (op : RedOp) (ty : Ty) (chk : Bool) (d : VReg) (a : VReg) (b : GReg)
  /-- TSCAN (R168). -/
  | tscan (g : Guard) (op : RedOp) (ty : Ty) (d : VReg) (a : VReg)
  /-- TMCAST (R171). -/
  | tmcast (g : Guard) (a : VReg) (b : GReg)
  /-- TROW (R171). -/
  | trow (g : Guard) (a : VReg) (b : GReg)
  /-- TRECV (R171). -/
  | trecv (g : Guard) (d : VReg)
  /-- TALL (R168). -/
  | tall (g : Guard) (op : RedOp) (ty : Ty) (d : VReg) (a : VReg)
  /-- SYMLD (R137). -/
  | symld (g : Guard) (d : GReg) (a : GReg)
  /-- SYMAN (R137). -/
  | syman (g : Guard) (d : GReg) (a : GReg)
  /-- SYMCNT (R137). -/
  | symcnt (g : Guard) (d : GReg)
  /-- EMIT (R137). -/
  | emit (g : Guard) (a : GReg)
  /-- EMITT (R137). -/
  | emitt (g : Guard) (a : GReg)
  /-- EMITR (R137). -/
  | emitr (g : Guard) (a : GReg) (b : GReg)
  /-- RESV (R138). -/
  | resv (g : Guard) (a : GReg)
  /-- ROUTE (R334). -/
  | route (g : Guard) (d : GReg) (a : GReg) (b : VReg)
  /-- RATWT (R338). -/
  | ratwt (g : Guard) (a : GReg)
  /-- RATRD (R338). -/
  | ratrd (g : Guard) (a : GReg) (b : GReg)
  /-- SRECV (R341). -/
  | srecv (g : Guard) (d : GReg) (a : GReg)
  /-- SRET (R342). -/
  | sret (g : Guard) (a : GReg) (b : GReg)
  /-- SCAP (R343). -/
  | scap (g : Guard) (d : GReg) (a : GReg)
  /-- SCAP_SET (R343). -/
  | scapSet (g : Guard) (d : GReg) (a : GReg)
  /-- BARJ (R352). -/
  | barj (g : Guard) (d : GReg) (a : GReg) (b : GReg)
  /-- BARW (R354). -/
  | barw (g : Guard) (a : GReg) (b : GReg)
  /-- BARQ (R355). -/
  | barq (g : Guard) (d : GReg) (a : GReg) (b : GReg)
  /-- GRAB (R362). -/
  | grab (g : Guard) (d : GReg) (a : GReg)
  /-- STEAL (R363). -/
  | steal (g : Guard) (d : GReg) (a : GReg)
  /-- RNGSET (R364). -/
  | rngset (g : Guard) (a : GReg) (b : GReg) (c : GReg)
  /-- RNGQ (R364). -/
  | rngq (g : Guard) (d : GReg) (a : GReg)
  /-- MFS (R211). -/
  | mfs (g : Guard) (d : GReg) (sreg : BitVec 12)
  /-- MTS (R211). -/
  | mts (g : Guard) (sreg : BitVec 12) (a : GReg)
  /-- NOT_AN_INSTRUCTION (R87). -/
  | notAnInstruction (cause : DecodeCause)
  /-- LOAD (R100). -/
  | load
  /-- START (R100). -/
  | start
  /-- HOLD_SOFT (R326). -/
  | holdSoft
  /-- HOLD_URGENT (R326). -/
  | holdUrgent
  /-- RELEASE (R111). -/
  | release
  /-- SETPRI (R104). -/
  | setpri
  /-- CKPT (R115). -/
  | ckpt
  /-- EVICT (R112). -/
  | evict
  /-- RESTORE (R114). -/
  | restore
  /-- WAKE (R379). -/
  | wake
  /-- READBACK (R417). -/
  | readback
  /-- RETIRE (R100). -/
  | retire
  /-- CMD_UNLISTED (R100). -/
  | cmdUnlisted
  /-- CMD_COMPLETE (R100). -/
  | cmdComplete
  /-- HOLD_COMPLETE (R326). -/
  | holdComplete
  /-- FWLOAD (R412). -/
  | fwload
  /-- FW_VERIFY (R412). -/
  | fwVerify
  /-- OPREG (R96). -/
  | opreg
  /-- FLUSH (R414). -/
  | flush
  /-- HEAPWR (R415). -/
  | heapwr
  /-- ATTEST (R423). -/
  | attest
  /-- TELCLR (R414). -/
  | telclr
  /-- DCMD_UNLISTED (R413). -/
  | dcmdUnlisted
  /-- DCMD_COMPLETE (R413). -/
  | dcmdComplete
  /-- PRI_WRITE (R104). -/
  | priWrite
  /-- TMASK_WRITE (R108). -/
  | tmaskWrite
  /-- TIDYCFG_WRITE (R144). -/
  | tidycfgWrite
  /-- DBGCFG_WRITE (R209). -/
  | dbgcfgWrite
  /-- TLBINV_WRITE (R380). -/
  | tlbinvWrite
  /-- TLBINV_DONE (R380). -/
  | tlbinvDone
  /-- FQCONS_WRITE (R376). -/
  | fqconsWrite
  /-- FQ_POST (R378). -/
  | fqPost
  /-- FABID_WRITE (R393). -/
  | fabidWrite
  /-- LINK_ENABLE (R384). -/
  | linkEnable
  /-- LINK_RETRAIN (R383). -/
  | linkRetrain
  /-- LSTAT_CLEAR (R382). -/
  | lstatClear
  /-- GLIM_WRITE (R420). -/
  | glimWrite
  /-- SLICE_WINDOW_WRITE (R315). -/
  | sliceWindowWrite
  /-- REDUCTION_GROUP_WRITE (R421). -/
  | reductionGroupWrite
  /-- PWRLIM_WRITE (R422). -/
  | pwrlimWrite
  /-- REG_WRITE (R99). -/
  | regWrite
  /-- HOST_STORE (R350). -/
  | hostStore
  /-- PART_RESET (R411). -/
  | partReset
  /-- SELF_TEST_DONE (R411). -/
  | selfTestDone
  /-- CELL_FAILURE (R9). -/
  | cellFailure
  /-- PASS_ARBITRATION (R103). -/
  | passArbitration
  /-- COMMIT (R123). -/
  | commit
  /-- TIDY (R145). -/
  | tidy
  /-- MARK (R126). -/
  | mark
  /-- LAUNCH (R127). -/
  | launch
  /-- LAUNCH_QUEUE_PICK (R368). -/
  | launchQueuePick
  /-- URGENT_PREEMPT (R105). -/
  | urgentPreempt
  /-- COPY_CHUNK_LAND (R286). -/
  | copyChunkLand
  /-- COPY_FIRING_END (R286). -/
  | copyFiringEnd
  /-- TSEAL_READ_DONE (R280). -/
  | tsealReadDone
  /-- ENGINE_WORK_END (R281). -/
  | engineWorkEnd
  /-- MATRIX_ENGINE_EXEC (R235). -/
  | matrixEngineExec
  /-- MATRIX_KBLOCK (R236). -/
  | matrixKblock
  /-- FACT_STEP (R256). -/
  | factStep
  /-- LIMITER_WINDOW (R251). -/
  | limiterWindow
  /-- POWER_CAP_ADJUST (R422). -/
  | powerCapAdjust
  /-- COLLECTIVE_COMPLETE (R167). -/
  | collectiveComplete
  /-- MESSAGE_ARRIVE (R171). -/
  | messageArrive
  /-- STATION_ROW_ARRIVE (R329). -/
  | stationRowArrive
  /-- ROUTE_RETURN (R336). -/
  | routeReturn
  /-- RAT_TIMEOUT (R336). -/
  | ratTimeout
  /-- DEFERRAL_RETRY (R300). -/
  | deferralRetry
  /-- LINE_FILL (R310). -/
  | lineFill
  /-- PAGE_WALK (R373). -/
  | pageWalk
  /-- CKPT_DRAIN_DONE (R118). -/
  | ckptDrainDone
  /-- FLIT_RECEIVE (R387). -/
  | flitReceive
  /-- LINK_NAK_RESEND (R387). -/
  | linkNakResend
  /-- LINK_TRAINING_DONE (R384). -/
  | linkTrainingDone
  /-- LINK_TRAINING_TIMEOUT (R384). -/
  | linkTrainingTimeout
  /-- LANE_LOSS (R384). -/
  | laneLoss
  /-- FLOW_LOSS (R393). -/
  | flowLoss
  /-- LINE_WRITE (R391). -/
  | lineWrite
  /-- REDUCING_LINE (R391). -/
  | reducingLine
  /-- E2E_ACK (R391). -/
  | e2eAck
  /-- BARRIER_ARRIVAL_FLIT (R356). -/
  | barrierArrivalFlit
  /-- BARRIER_RELEASE_FLIT (R356). -/
  | barrierReleaseFlit
  /-- RANGE_REQUEST (R365). -/
  | rangeRequest
  /-- RANGE_REPLY (R365). -/
  | rangeReply
  /-- IMAGE_CHUNK (R117). -/
  | imageChunk
  /-- REDUCTION_FAILURE (R396). -/
  | reductionFailure
  /-- RF_COMBINE (R395). -/
  | rfCombine
  /-- CKPT_CHUNK_DRAINED (R277). -/
  | ckptChunkDrained
  /-- HEAP_SCRUB (R300). -/
  | heapScrub
  /-- STATUS_READ (R99). -/
  | statusRead
  /-- ACCESS_ACCEPTED (R312). -/
  | accessAccepted
  deriving DecidableEq, Repr, Inhabited

end Sys2Proof
end

