-- ==== Sys2Proof/WellFormed.lean ====
section
/-! DEFINITION. Which instructions are well formed: the sub-field values each instruction's entry accepts (the ILLOP
checks of R87 that the types of Syntax do not already make) and the register pairs and groups (its REGGRP checks). -/

namespace Sys2Proof

/-- The scalar integer types that INTA, INTB and CMP accept (R193). -/
def Ty.scalarInt : Ty → Bool
  | .i64 | .i32 | .n32 => true
  | _ => false

/-- The signed scalar types (R195). -/
def Ty.scalarSigned : Ty → Bool
  | .i64 | .i32 => true
  | _ => false

/-- The types of MULHU, DIVU and REMU (R195). -/
def Ty.scalarUnsigned : Ty → Bool
  | .i64 | .n32 => true
  | _ => false

/-- The vector integer types (R218, R221). -/
def Ty.vecInt : Ty → Bool
  | .i32 | .i16x2 | .i8x4 | .n32 | .n16x2 | .n8x4 => true
  | _ => false

/-- The signed vector integer types (R218). -/
def Ty.vecSigned : Ty → Bool
  | .i32 | .i16x2 | .i8x4 => true
  | _ => false

/-- The vector floating types (R218). -/
def Ty.vecFloat : Ty → Bool
  | .f32 | .bf16x2 | .g8x4 => true
  | _ => false

/-- The floating types of VADD, VSUB, VMUL and VFMA (R218). -/
def Ty.vecArithFloat : Ty → Bool
  | .f32 | .bf16x2 => true
  | _ => false

/-- RM is reserved on integer types, and SAT on floating types (R218). -/
def vecForm (float int : Bool) (rm : Rm) (sat : Bool) : Bool :=
  (float && !sat) || (int && rm == .rne)

/-- The types of a reduction or scan with each operation (R166, R232). -/
def RedOp.accepts (op : RedOp) (ty : Ty) : Bool :=
  match op, ty with
  | _, .i32 | _, .n32 => true
  | .and, _ | .or, _ => false
  | _, .f32 => true
  | _, _ => false

/-- The partner types of f32 in FCVT (R202). -/
def Ty.fcvtOther : Ty → Bool
  | .f32 | .bf16x2 | .g8x4 | .i32 | .n32 | .i64 => true
  | _ => false

/-- The type pairs of FCVT (R202). -/
def fcvtPair (s d : Ty) : Bool :=
  (s == .f32 && d.fcvtOther) || (d == .f32 && s.fcvtOther)

/-- The type pairs of VCVT (R226). -/
def vcvtPair (s d : Ty) : Bool :=
  ((s.vecInt || s.vecFloat) && (d.vecInt || d.vecFloat) && s != d) ||
  (s == .f32 && d == .bpi) || (s == .bpi && d == .f32)

/-- The stored planes of a BPI format (R27); 0 for every other. -/
def Fmt.planes : Fmt → Nat
  | .bpi2 => 2 | .bpi3 => 3 | .bpi4 => 4 | .bpi5 => 5 | .bpi6 => 6 | .bpi7 => 7 | .bpi8 => 8
  | _ => 0

/-- A BPI format. -/
def Fmt.isBpi (f : Fmt) : Bool := f.planes != 0

/-- I8 or a BPI format: the integer formats of the matrix unit (R240). -/
def Fmt.isMatrixInt (f : Fmt) : Bool := f == .i8 || f.isBpi

/-- The format pairs that MMA and MMAG accept (R240). -/
def fmtPair (a b : Fmt) : Bool :=
  (a == .f32 && b == .f32) || (a == .bf16 && b == .bf16) || (a == .gf8 && b == .gf8) ||
  (a.isMatrixInt && b.isMatrixInt)

/-- The planes of an operand that MMA reads: the planes field, or all stored when it is 0 (R241). -/
def planesRead (f : Fmt) (planes : BitVec 3) : Nat :=
  if planes = 0 then f.planes else planes.toNat + 1

/-- The planes field of MMA: 0 without a BPI operand, and at most the stored planes of each (R241). -/
def planesOk (fa fb : Fmt) (planes : BitVec 3) : Bool :=
  planes == 0 ||
  ((fa.isBpi || fb.isBpi) && (!fa.isBpi || planes.toNat + 1 ≤ fa.planes) && (!fb.isBpi || planes.toNat + 1 ≤ fb.planes))

/-- A vector group is not available to F32 (R239, R241). -/
def MmaSrc.fmtOk (s : MmaSrc) (f : Fmt) : Bool :=
  match s with
  | .desc _ => true
  | .group _ => f != .f32

/-- The registers of a vector group (R239). -/
def groupRegs (f : Fmt) (planes : BitVec 3) : Nat :=
  match f with
  | .bf16 => 32
  | .gf8 | .i8 => 16
  | .f32 | .i32 => 0
  | _ => 2 * planesRead f planes

/-- An even register number. -/
def evenReg {n : Nat} (r : BitVec n) : Bool := r.toNat % 2 == 0

/-- A descriptor pair starts at an even register; a vector group starts at an even register and ends by v31 (R239). -/
def MmaSrc.groupOk (s : MmaSrc) (f : Fmt) (planes : BitVec 3) : Bool :=
  match s with
  | .desc g => evenReg g
  | .group v => evenReg v && (v.toNat + groupRegs f planes ≤ 32)

/-- The formats of MLD and MST (R247). -/
def Fmt.macc : Fmt → Bool
  | .f32 | .bf16 | .gf8 | .i32 | .i8 => true
  | _ => false

/-- A scope other than 0 needs an order other than 0 (R305, R306). -/
def scopeOk (o : OrdCode) (s : Scope) : Bool := o != .relaxed || s == .cell

/-- The values that each instruction's entry accepts (R87, third row). -/
def Instr.valuesOk : Instr → Bool
  | .trap _ code => 0x40 ≤ code.toNat && code.toNat ≤ 0xFF
  | .abort _ code => 1 ≤ code.toNat && code.toNat ≤ 0xFF
  | .waitev _ mask => mask != 0
  | .add _ ty _ _ _ _ | .sub _ ty _ _ _ _ | .mul _ ty _ _ _ _ | .madd _ ty _ _ _ _ _ => ty.scalarInt
  | .and _ ty _ _ _ | .or _ ty _ _ _ | .xor _ ty _ _ _ | .andn _ ty _ _ _ | .shl _ ty _ _ _ | .shr _ ty _ _ _
  | .sra _ ty _ _ _ | .rot _ ty _ _ _ | .min _ ty _ _ _ | .max _ ty _ _ _ | .minu _ ty _ _ _
  | .maxu _ ty _ _ _ | .clz _ ty _ _ | .popc _ ty _ _ | .bfx _ ty _ _ _ _ | .bfi _ ty _ _ _ _
  | .sext _ ty _ _ _ | .cmp _ _ ty _ _ _ => ty.scalarInt
  | .mulh _ ty _ _ _ | .div _ ty _ _ _ | .rem _ ty _ _ _ => ty.scalarSigned
  | .mulhu _ ty _ _ _ | .divu _ ty _ _ _ | .remu _ ty _ _ _ => ty.scalarUnsigned
  | .loop _ _ _ len | .loopi _ _ _ len => len != 0
  | .pset _ _ n => n.toNat ≤ 64
  | .fcvt _ sty dty _ sat _ _ => fcvtPair sty dty && (!sat || dty == .bf16x2)
  | .vadd _ ty rm sat _ _ _ | .vsub _ ty rm sat _ _ _ | .vmul _ ty rm sat _ _ _ | .vfma _ ty rm sat _ _ _ _ =>
    vecForm ty.vecArithFloat ty.vecInt rm sat
  | .vmin _ ty rm _ _ _ | .vmax _ ty rm _ _ _ => vecForm ty.vecFloat ty.vecInt rm false
  | .vabs _ ty rm sat _ _ | .vneg _ ty rm sat _ _ => vecForm ty.vecFloat ty.vecSigned rm sat
  | .vmulh _ ty _ _ _ | .vand _ ty _ _ _ | .vor _ ty _ _ _ | .vxor _ ty _ _ _ | .vandn _ ty _ _ _
  | .vshl _ ty _ _ _ | .vshr _ ty _ _ _ | .vsra _ ty _ _ _ | .vclz _ ty _ _ | .vpopc _ ty _ _ => ty.vecInt
  | .vcmp _ cond ty _ _ _ => ty.vecFloat || (ty.vecInt && cond != .un)
  | .vcvt _ sty dty _ sat _ _ _ => vcvtPair sty dty && (!sat || dty == .bf16x2)
  | .vred _ op ty _ _ | .vscan _ op ty _ _ | .tred _ op ty _ _ _ _ | .tscan _ op ty _ _ | .tall _ op ty _ _ =>
    op.accepts ty
  | .mma _ form planes _ a b _ =>
    fmtPair form.fa form.fb && planesOk form.fa form.fb planes && a.fmtOk form.fa && b.fmtOk form.fb
  | .mmag _ form _ _ _ _ _ _ => fmtPair form.fa form.fb
  | .mld _ fmt _ _ _ | .mst _ fmt _ _ _ => fmt.macc
  | .trsm _ _ _ _ d _ b | .qapply _ _ d _ b => d != b
  | .lds _ _ o sc _ _ => (o == .relaxed || o == .acquire) && scopeOk o sc
  | .sts _ _ o sc _ _ | .stsMask _ o sc _ _ _ => (o == .relaxed || o == .release) && scopeOk o sc
  | .aadd _ o sc _ _ _ | .afadd _ o sc _ _ _ | .amin _ o sc _ _ _ | .amax _ o sc _ _ _ | .aand _ o sc _ _ _
  | .aor _ o sc _ _ _ | .axchg _ o sc _ _ _ | .acas _ o sc _ _ _ => scopeOk o sc
  | .cpchain _ t k _ => t != k
  | .tbcast _ ty _ _ _ => ty.vecInt || ty.vecFloat
  | _ => true

/-- The register pairs and vector groups of the fourth row of R87. -/
def Instr.groupsOk : Instr → Bool
  | .mma _ form planes _ a b _ => a.groupOk form.fa planes && b.groupOk form.fb planes
  | .mmag _ _ _ _ _ a b _ => evenReg a && evenReg b
  | .mld _ _ _ a _ | .mst _ _ _ a _ => evenReg a
  | .qrh _ _ _ b => evenReg b
  | .tdesc _ d _ => evenReg d
  | .route _ _ _ b => evenReg b
  | _ => true

/-- The special registers that R90 lists, numbers 0x000 to 0x011. -/
def sregListed (n : BitVec 12) : Bool := n.toNat ≤ 0x011

/-- The special registers that MTS may write: FPROG, MSTAT, FPCSR, RAND (R90). -/
def sregWritable (n : BitVec 12) : Bool := n == 0x005 || n == 0x008 || n == 0x00C || n == 0x00E

/-- The last row of R87: MFS and MTS name a listed register, and MTS a writable one. -/
def Instr.sregOk : Instr → Bool
  | .mfs _ _ n => sregListed n
  | .mts _ n _ => sregWritable n
  | _ => true

/-- A well-formed instruction passes every check of R87 that does not depend on the operator's declaration. -/
def Instr.wf (i : Instr) : Bool := i.valuesOk && i.groupsOk && i.sregOk

end Sys2Proof
end

