-- ==== Sys2Proof/Decode.lean ====
section
/-! DEFINITION. The instruction word: its fields (R80, R84), the opcode map (R85, R86), the checks of decode in their
order of precedence (R87), the registers a word names (R89), and the encoder. -/

namespace Sys2Proof

/-- The fields of a word, as R80 lays them out. -/
structure Fields where
  maj : BitVec 6
  ge  : BitVec 1
  gs  : BitVec 1
  gq  : BitVec 4
  d   : BitVec 6
  a   : BitVec 6
  b   : BitVec 6
  c   : BitVec 6
  fn  : BitVec 4
  x   : BitVec 24
  deriving DecidableEq, Repr

/-- A register that a word names, with the registers it reaches implicitly (R88, R89). -/
inductive RegRef where
  | g (r : GReg)
  | q (r : QReg)
  | v (r : VReg)
  | a (r : AReg)
  | cnt (r : CReg)
  | perm
  /-- FPROG, FSTAT and GROW (R258). -/
  | fact
  | mstat
  deriving DecidableEq, Repr

/-- An operator's declaration of registers (R89, R94). -/
structure Decl where
  g : Nat
  v : Nat
  q : Nat
  deriving DecidableEq, Repr

/-- The declaration of an operator without `.regs` (R89). -/
def Decl.full : Decl := ⟨64, 32, 16⟩

/-- The 64-bit word of its fields (R80). -/
def Fields.pack (f : Fields) : Word :=
  f.maj ++ f.ge ++ f.gs ++ f.gq ++ f.d ++ f.a ++ f.b ++ f.c ++ f.fn ++ f.x

/-- The fields of a word (R80). -/
def Fields.unpack (w : Word) : Fields where
  maj := w.extractLsb' 58 6
  ge  := w.extractLsb' 57 1
  gs  := w.extractLsb' 56 1
  gq  := w.extractLsb' 52 4
  d   := w.extractLsb' 46 6
  a   := w.extractLsb' 40 6
  b   := w.extractLsb' 34 6
  c   := w.extractLsb' 28 6
  fn  := w.extractLsb' 24 4
  x   := w.extractLsb' 0 24

/-! ### Codes of the sub-fields -/

/-- TY codes (R27). -/
def Ty.code : Ty → BitVec 5
  | .i32 => 0 | .n32 => 1 | .f32 => 2 | .bf16x2 => 3 | .i16x2 => 4 | .n16x2 => 5
  | .g8x4 => 6 | .i8x4 => 7 | .n8x4 => 8 | .i64 => 9 | .bpi => 10

def Ty.ofCode (c : BitVec 5) : Option Ty :=
  match c.toNat with
  | 0 => some .i32 | 1 => some .n32 | 2 => some .f32 | 3 => some .bf16x2 | 4 => some .i16x2 | 5 => some .n16x2
  | 6 => some .g8x4 | 7 => some .i8x4 | 8 => some .n8x4 | 9 => some .i64 | 10 => some .bpi
  | _ => none

/-- FMT codes (R27). -/
def Fmt.code : Fmt → BitVec 5
  | .f32 => 0 | .bf16 => 1 | .gf8 => 2 | .i32 => 3 | .i8 => 4 | .bpi2 => 0x12 | .bpi3 => 0x13 | .bpi4 => 0x14
  | .bpi5 => 0x15 | .bpi6 => 0x16 | .bpi7 => 0x17 | .bpi8 => 0x18

def Fmt.ofCode (c : BitVec 5) : Option Fmt :=
  match c.toNat with
  | 0 => some .f32 | 1 => some .bf16 | 2 => some .gf8 | 3 => some .i32 | 4 => some .i8 | 0x12 => some .bpi2
  | 0x13 => some .bpi3 | 0x14 => some .bpi4 | 0x15 => some .bpi5 | 0x16 => some .bpi6 | 0x17 => some .bpi7
  | 0x18 => some .bpi8
  | _ => none

/-- RM codes (R31). -/
def Rm.code : Rm → BitVec 3
  | .rne => 0 | .rtz => 1 | .rup => 2 | .rdn => 3 | .rna => 4 | .dyn => 7

def Rm.ofCode (c : BitVec 3) : Option Rm :=
  match c.toNat with
  | 0 => some .rne | 1 => some .rtz | 2 => some .rup | 3 => some .rdn | 4 => some .rna | 7 => some .dyn
  | _ => none

/-- The FN of each integer condition (R86). -/
def ICond.fn : ICond → BitVec 4
  | .eq => 0 | .ne => 1 | .lt => 2 | .le => 3 | .ltu => 4 | .leu => 5 | .gt => 6 | .ge => 7 | .gtu => 8 | .geu => 9

def ICond.ofFn (c : BitVec 4) : Option ICond :=
  match c.toNat with
  | 0 => some .eq | 1 => some .ne | 2 => some .lt | 3 => some .le | 4 => some .ltu | 5 => some .leu | 6 => some .gt
  | 7 => some .ge | 8 => some .gtu | 9 => some .geu
  | _ => none

/-- The FN of each FCMP condition (R203). -/
def FCond.fn : FCond → BitVec 4
  | .eq => 0 | .ne => 1 | .lt => 2 | .le => 3 | .un => 4

def FCond.ofFn (c : BitVec 4) : Option FCond :=
  match c.toNat with
  | 0 => some .eq | 1 => some .ne | 2 => some .lt | 3 => some .le | 4 => some .un
  | _ => none

/-- The FN of each VCMP condition (R224). -/
def VCond.fn : VCond → BitVec 4
  | .eq => 0 | .ne => 1 | .lt => 2 | .le => 3 | .gt => 4 | .ge => 5 | .un => 6

def VCond.ofFn (c : BitVec 4) : Option VCond :=
  match c.toNat with
  | 0 => some .eq | 1 => some .ne | 2 => some .lt | 3 => some .le | 4 => some .gt | 5 => some .ge | 6 => some .un
  | _ => none

/-- The codes of the reduction operations (R86, R166). -/
def RedOp.fn : RedOp → BitVec 4
  | .add => 0 | .min => 1 | .max => 2 | .and => 3 | .or => 4

def RedOp.ofFn (c : BitVec 4) : Option RedOp :=
  match c.toNat with
  | 0 => some .add | 1 => some .min | 2 => some .max | 3 => some .and | 4 => some .or
  | _ => none

def RedOp.code (o : RedOp) : BitVec 3 := o.fn.setWidth 3

def RedOp.ofCode (c : BitVec 3) : Option RedOp := RedOp.ofFn (c.setWidth 4)

/-- The FN of each LD size (R296). -/
def LdSize.fn : LdSize → BitVec 4
  | .i8 => 0 | .n8 => 1 | .i16 => 2 | .n16 => 3 | .i32 => 4 | .n32 => 5 | .w64 => 6

def LdSize.ofFn (c : BitVec 4) : Option LdSize :=
  match c.toNat with
  | 0 => some .i8 | 1 => some .n8 | 2 => some .i16 | 3 => some .n16 | 4 => some .i32 | 5 => some .n32 | 6 => some .w64
  | _ => none

/-- The FN of each ST size (R296). -/
def StSize.fn : StSize → BitVec 4
  | .w8 => 0 | .w16 => 1 | .w32 => 2 | .w64 => 3

def StSize.ofFn (c : BitVec 4) : Option StSize :=
  match c.toNat with
  | 0 => some .w8 | 1 => some .w16 | 2 => some .w32 | 3 => some .w64
  | _ => none

/-- LDH has FN 0 for 32 bits and 1 for 64 (R301). -/
def WSize.ldhFn : WSize → BitVec 4
  | .w32 => 0 | .w64 => 1

/-- LDS has FN 0 for 64 bits and 1 for 32 (R305). -/
def WSize.ldsFn : WSize → BitVec 4
  | .w64 => 0 | .w32 => 1

/-- STS has FN 2 for 64 bits and 3 for 32 (R305). -/
def WSize.stsFn : WSize → BitVec 4
  | .w64 => 2 | .w32 => 3

def WSize.ofFn (is64 : Bool) : Option WSize := some (if is64 then .w64 else .w32)

/-- Order codes (R84). -/
def OrdCode.code : OrdCode → BitVec 2
  | .relaxed => 0 | .acquire => 1 | .release => 2 | .acqRel => 3

def OrdCode.ofCode (c : BitVec 2) : OrdCode :=
  match c.toNat with
  | 0 => .relaxed | 1 => .acquire | 2 => .release | _ => .acqRel

/-- Scope codes (R84). -/
def Scope.code : Scope → BitVec 2
  | .cell => 0 | .gallery => 1 | .package => 2 | .fabric => 3

def Scope.ofCode (c : BitVec 2) : Scope :=
  match c.toNat with
  | 0 => .cell | 1 => .gallery | 2 => .package | _ => .fabric

/-- ACC codes; 0b11 is reserved (R52, R84). -/
def Acc.code : Acc → BitVec 2
  | .overwrite => 0 | .accumulate => 1 | .negate => 2

def Acc.ofCode (c : BitVec 2) : Option Acc :=
  match c.toNat with
  | 0 => some .overwrite | 1 => some .accumulate | 2 => some .negate
  | _ => none

/-- Engine codes; 3 is reserved (R281). -/
def Engine.code : Engine → BitVec 2
  | .copy => 0 | .matrix => 1 | .route => 2

def Engine.ofCode (c : BitVec 2) : Option Engine :=
  match c.toNat with
  | 0 => some .copy | 1 => some .matrix | 2 => some .route
  | _ => none

/-- A Bool as one bit. -/
def bit (b : Bool) : BitVec 1 := if b then 1 else 0

/-! ### The layouts of X (R84, R86) -/

def xR3 (ty : Ty) (rm : Rm) (sat : Bool) : BitVec 24 := ty.code ++ rm.code ++ bit sat ++ (0 : BitVec 15)
def xCvt (s d : Ty) (rm : Rm) (sat : Bool) : BitVec 24 := s.code ++ d.code ++ rm.code ++ bit sat ++ (0 : BitVec 10)
def xMem (o : OrdCode) (sc : Scope) (scale : BitVec 2) (off : BitVec 16) : BitVec 24 :=
  (0 : BitVec 2) ++ sc.code ++ o.code ++ scale ++ off
def xFmt (f : Fmt) : BitVec 24 := f.code ++ (0 : BitVec 19)
def xTree (ty : Ty) (op : RedOp) (chk : Bool) : BitVec 24 := ty.code ++ op.code ++ (0 : BitVec 15) ++ bit chk
def xTk (t k : TmplId) : BitVec 24 := (0 : BitVec 18) ++ k ++ t
def xEng (e : Engine) : BitVec 24 := (0 : BitVec 22) ++ e.code
def xScopeLow (s : Scope) : BitVec 24 := (0 : BitVec 22) ++ s.code
def xBits3 (b0 b1 b2 : Bool) : BitVec 24 := (0 : BitVec 21) ++ bit b2 ++ bit b1 ++ bit b0
def xLow6 (n : BitVec 6) : BitVec 24 := n.setWidth 24
def xLow7 (n : BitVec 7) : BitVec 24 := n.setWidth 24
def xLow11 (n : BitVec 11) : BitVec 24 := n.setWidth 24
def xLow12 (n : BitVec 12) : BitVec 24 := n.setWidth 24
def xLow16 (n : BitVec 16) : BitVec 24 := n.setWidth 24
def xMma (m : MmaForm) (srcA srcB : Bool) (planes : BitVec 3) : BitVec 24 :=
  m.fa.code ++ m.fb.code ++ m.acc.code ++ bit srcA ++ bit srcB ++ bit m.chk ++ planes ++ m.k1
def xMmag (m : MmaForm) (mb1 : BitVec 2) (nb1 : BitVec 3) : BitVec 24 :=
  m.fa.code ++ m.fb.code ++ m.acc.code ++ mb1 ++ nb1 ++ bit m.chk ++ m.k1

namespace Fields

def dQ (f : Fields) : QReg := f.d.setWidth 4
def dV (f : Fields) : VReg := f.d.setWidth 5
def dC (f : Fields) : CReg := f.d.setWidth 2
def dA (f : Fields) : AReg := f.d.setWidth 2
def aQ (f : Fields) : QReg := f.a.setWidth 4
def aV (f : Fields) : VReg := f.a.setWidth 5
def aA (f : Fields) : AReg := f.a.setWidth 2
def bQ (f : Fields) : QReg := f.b.setWidth 4
def bV (f : Fields) : VReg := f.b.setWidth 5
def bA (f : Fields) : AReg := f.b.setWidth 2
def cQ (f : Fields) : QReg := f.c.setWidth 4
def cV (f : Fields) : VReg := f.c.setWidth 5
def xTy (f : Fields) : BitVec 5 := f.x.extractLsb' 19 5
def xRm (f : Fields) : BitVec 3 := f.x.extractLsb' 16 3
def xSat (f : Fields) : Bool := f.x.getLsbD 15
def xDty (f : Fields) : BitVec 5 := f.x.extractLsb' 14 5
def xCvtRm (f : Fields) : BitVec 3 := f.x.extractLsb' 11 3
def xCvtSat (f : Fields) : Bool := f.x.getLsbD 10
def xScope (f : Fields) : Scope := .ofCode (f.x.extractLsb' 20 2)
def xOrd (f : Fields) : OrdCode := .ofCode (f.x.extractLsb' 18 2)
def mem (f : Fields) : Mem := ⟨f.a, f.b, f.x.extractLsb' 16 2, f.x.extractLsb' 0 16⟩
def vmem (f : Fields) : VMem := ⟨f.a, f.bV, f.x.extractLsb' 16 2, f.x.extractLsb' 0 16⟩
def x16 (f : Fields) : BitVec 16 := f.x.extractLsb' 0 16
def x12 (f : Fields) : BitVec 12 := f.x.extractLsb' 0 12
def x11 (f : Fields) : BitVec 11 := f.x.extractLsb' 0 11
def x7 (f : Fields) : BitVec 7 := f.x.extractLsb' 0 7
def x6 (f : Fields) : BitVec 6 := f.x.extractLsb' 0 6
def x2 (f : Fields) : BitVec 2 := f.x.extractLsb' 0 2
def xT (f : Fields) : TmplId := f.x.extractLsb' 0 3
def xK (f : Fields) : TmplId := f.x.extractLsb' 3 3
def xScopeLow (f : Fields) : Scope := .ofCode (f.x.extractLsb' 0 2)
def xOp (f : Fields) : BitVec 3 := f.x.extractLsb' 16 3
def xBit0 (f : Fields) : Bool := f.x.getLsbD 0
def xBit1 (f : Fields) : Bool := f.x.getLsbD 1
def xBit2 (f : Fields) : Bool := f.x.getLsbD 2
def xSrcA (f : Fields) : Bool := f.x.getLsbD 11
def xSrcB (f : Fields) : Bool := f.x.getLsbD 10
def xMmaChk (f : Fields) : Bool := f.x.getLsbD 9
def xPlanes (f : Fields) : BitVec 3 := f.x.extractLsb' 6 3
def xMb (f : Fields) : BitVec 2 := f.x.extractLsb' 10 2
def xNb (f : Fields) : BitVec 3 := f.x.extractLsb' 7 3
def xMmagChk (f : Fields) : Bool := f.x.getLsbD 6
/-- imm36 = [39:28], [23:0] (R84). -/
def imm36 (f : Fields) : BitVec 36 := f.b ++ f.c ++ f.x
/-- imm46 = [45:0] (R84). -/
def imm46 (f : Fields) : BitVec 46 := f.a ++ f.b ++ f.c ++ f.fn ++ f.x
/-- The count of LOOPI = [43:28] (R86). -/
def loopCount (f : Fields) : BitVec 16 := (f.a.setWidth 4 : BitVec 4) ++ f.b ++ f.c

/-- The format fields of MMA and MMAG (R84). -/
def mmaForm (f : Fields) (chk : Bool) : Option MmaForm :=
  (Fmt.ofCode f.xTy).bind fun fa => (Fmt.ofCode f.xDty).bind fun fb =>
    (Acc.ofCode (f.x.extractLsb' 12 2)).bind fun acc => some ⟨fa, fb, acc, chk, f.x6⟩

/-- An operand field of MMA (R84, R241). -/
def mmaSrc (_ : Fields) (isGroup : Bool) (r : BitVec 6) : MmaSrc :=
  if isGroup then .group (r.setWidth 5) else .desc r

/-- The guard of a word; GS and GQ are reserved when GE is 0, which the check of reserved bits sees (R82). -/
def guard (f : Fields) : Guard :=
  if f.ge = 0 then .always else if f.gs = 0 then .ifTrue f.gq else .ifFalse f.gq

/-- GE, GS and GQ of a guard. -/
def ofGuard : Guard → BitVec 1 × BitVec 1 × BitVec 4
  | .always => (0, 0, 0)
  | .ifTrue q => (1, 0, q)
  | .ifFalse q => (1, 1, q)

/-- A word of one major and FN with every operand field zero. -/
def base (maj : BitVec 6) (fn : BitVec 4) (g : Guard) : Fields :=
  { maj := maj, ge := (ofGuard g).1, gs := (ofGuard g).2.1, gq := (ofGuard g).2.2,
    d := 0, a := 0, b := 0, c := 0, fn := fn, x := 0 }

/-- A word of format RI or BR (R84). -/
def ri (maj : BitVec 6) (fn : BitVec 4) (g : Guard) (d a : BitVec 6) (imm : BitVec 36) : Fields :=
  { base maj fn g with d := d, a := a, b := imm.extractLsb' 30 6, c := imm.extractLsb' 24 6, x := imm.extractLsb' 0 24 }

/-- A word of format LI (R84). -/
def li (maj : BitVec 6) (g : Guard) (d : BitVec 6) (imm : BitVec 46) : Fields :=
  { base maj 0 g with d := d, a := imm.extractLsb' 40 6, b := imm.extractLsb' 34 6, c := imm.extractLsb' 28 6,
                      fn := imm.extractLsb' 24 4, x := imm.extractLsb' 0 24 }

/-- The word of LOOPI (R86, R205). -/
def loopi (maj : BitVec 6) (fn : BitVec 4) (g : Guard) (d : BitVec 6) (count : BitVec 16) (len : BitVec 11) : Fields :=
  { base maj fn g with d := d, a := (count.extractLsb' 12 4).setWidth 6, b := count.extractLsb' 6 6,
                       c := count.extractLsb' 0 6, x := xLow11 len }

end Fields

def MmaSrc.isGroup : MmaSrc → Bool
  | .desc _ => false
  | .group _ => true

/-- The operand field of an MMA operand. -/
def MmaSrc.field : MmaSrc → BitVec 6
  | .desc g => g
  | .group v => v.setWidth 6

/-- A register number as a six-bit operand field (R83). -/
def r6 {n : Nat} (r : BitVec n) : BitVec 6 := r.setWidth 6

/-! ### The opcode map -/

/-- The words of major 0x0, SYS (R86). -/
def decSys (g : Guard) (f : Fields) : Option Instr :=
  match f.fn.toNat with
  | 1 => some (.nop g)
  | 2 => some (.halt g)
  | 3 => some (.yield g)
  | 4 => some (.trap g f.x16)
  | 5 => some (.bkpt g)
  | 6 => some (.abort g f.x16)
  | 7 => some (.waitev g f.x6)
  | _ => none

/-- The words of major 0x1, INTA (R86). -/
def decInta (g : Guard) (f : Fields) : Option Instr :=
  match f.fn.toNat with
  | 0 => (Ty.ofCode f.xTy).bind fun ty => some (.add g ty f.xSat f.d f.a f.b)
  | 1 => (Ty.ofCode f.xTy).bind fun ty => some (.sub g ty f.xSat f.d f.a f.b)
  | 2 => (Ty.ofCode f.xTy).bind fun ty => some (.and g ty f.d f.a f.b)
  | 3 => (Ty.ofCode f.xTy).bind fun ty => some (.or g ty f.d f.a f.b)
  | 4 => (Ty.ofCode f.xTy).bind fun ty => some (.xor g ty f.d f.a f.b)
  | 5 => (Ty.ofCode f.xTy).bind fun ty => some (.andn g ty f.d f.a f.b)
  | 6 => (Ty.ofCode f.xTy).bind fun ty => some (.shl g ty f.d f.a f.b)
  | 7 => (Ty.ofCode f.xTy).bind fun ty => some (.shr g ty f.d f.a f.b)
  | 8 => (Ty.ofCode f.xTy).bind fun ty => some (.sra g ty f.d f.a f.b)
  | 9 => (Ty.ofCode f.xTy).bind fun ty => some (.rot g ty f.d f.a f.b)
  | 10 => (Ty.ofCode f.xTy).bind fun ty => some (.min g ty f.d f.a f.b)
  | 11 => (Ty.ofCode f.xTy).bind fun ty => some (.max g ty f.d f.a f.b)
  | 12 => (Ty.ofCode f.xTy).bind fun ty => some (.minu g ty f.d f.a f.b)
  | 13 => (Ty.ofCode f.xTy).bind fun ty => some (.maxu g ty f.d f.a f.b)
  | 14 => some (.sel g f.d f.a f.b f.cQ)
  | _ => none

/-- The words of major 0x2, INTB (R86). -/
def decIntb (g : Guard) (f : Fields) : Option Instr :=
  match f.fn.toNat with
  | 0 => (Ty.ofCode f.xTy).bind fun ty => some (.mul g ty f.xSat f.d f.a f.b)
  | 1 => (Ty.ofCode f.xTy).bind fun ty => some (.mulh g ty f.d f.a f.b)
  | 2 => (Ty.ofCode f.xTy).bind fun ty => some (.mulhu g ty f.d f.a f.b)
  | 3 => (Ty.ofCode f.xTy).bind fun ty => some (.div g ty f.d f.a f.b)
  | 4 => (Ty.ofCode f.xTy).bind fun ty => some (.divu g ty f.d f.a f.b)
  | 5 => (Ty.ofCode f.xTy).bind fun ty => some (.rem g ty f.d f.a f.b)
  | 6 => (Ty.ofCode f.xTy).bind fun ty => some (.remu g ty f.d f.a f.b)
  | 7 => (Ty.ofCode f.xTy).bind fun ty => some (.madd g ty f.xSat f.d f.a f.b f.c)
  | 8 => (Ty.ofCode f.xTy).bind fun ty => some (.clz g ty f.d f.a)
  | 9 => (Ty.ofCode f.xTy).bind fun ty => some (.popc g ty f.d f.a)
  | 10 => (Ty.ofCode f.xTy).bind fun ty => some (.bfx g ty f.d f.a f.b f.c)
  | 11 => (Ty.ofCode f.xTy).bind fun ty => some (.bfi g ty f.d f.a f.b f.c)
  | 12 => (Ty.ofCode f.xTy).bind fun ty => some (.sext g ty f.d f.a f.b)
  | _ => none

/-- The words of major 0x3, CMP (R86). -/
def decCmp (g : Guard) (f : Fields) : Option Instr :=
  (ICond.ofFn f.fn).bind fun cond => (Ty.ofCode f.xTy).bind fun ty => some (.cmp g cond ty f.dQ f.a f.b)

/-- The words of major 0x4, ADDI (R86). -/
def decAddi (g : Guard) (f : Fields) : Option Instr :=
  match f.fn.toNat with
  | 0 => some (.addi g f.d f.a f.imm36)
  | _ => none

/-- The words of major 0x5, ANDI (R86). -/
def decAndi (g : Guard) (f : Fields) : Option Instr :=
  match f.fn.toNat with
  | 0 => some (.andi g f.d f.a f.imm36)
  | _ => none

/-- The words of major 0x6, ORI (R86). -/
def decOri (g : Guard) (f : Fields) : Option Instr :=
  match f.fn.toNat with
  | 0 => some (.ori g f.d f.a f.imm36)
  | _ => none

/-- The words of major 0x7, XORI (R86). -/
def decXori (g : Guard) (f : Fields) : Option Instr :=
  match f.fn.toNat with
  | 0 => some (.xori g f.d f.a f.imm36)
  | _ => none

/-- The words of major 0x8, SHI (R86). -/
def decShi (g : Guard) (f : Fields) : Option Instr :=
  match f.fn.toNat with
  | 0 => some (.shli g f.d f.a (f.imm36.setWidth 6))
  | 1 => some (.shri g f.d f.a (f.imm36.setWidth 6))
  | 2 => some (.srai g f.d f.a (f.imm36.setWidth 6))
  | 3 => some (.roti g f.d f.a (f.imm36.setWidth 6))
  | _ => none

/-- The words of major 0x9, CMPI (R86). -/
def decCmpi (g : Guard) (f : Fields) : Option Instr :=
  (ICond.ofFn f.fn).bind fun cond => some (.cmpi g cond f.dQ f.a f.imm36)

/-- The words of major 0xa, LI (R86). -/
def decLi (g : Guard) (f : Fields) : Option Instr :=
  some (.li g f.d f.imm46)

/-- The words of major 0xb, LIH (R86). -/
def decLih (g : Guard) (f : Fields) : Option Instr :=
  match f.fn.toNat with
  | 0 => some (.lih g f.d (f.imm36.setWidth 32))
  | _ => none

/-- The words of major 0xc, BR (R86). -/
def decBr (g : Guard) (f : Fields) : Option Instr :=
  match f.fn.toNat with
  | 0 => some (.br g f.imm36)
  | _ => none

/-- The words of major 0xd, JMP (R86). -/
def decJmp (g : Guard) (f : Fields) : Option Instr :=
  match f.fn.toNat with
  | 0 => some (.jmp g f.a)
  | 1 => some (.ret g)
  | _ => none

/-- The words of major 0xe, CALL (R86). -/
def decCall (g : Guard) (f : Fields) : Option Instr :=
  match f.fn.toNat with
  | 0 => some (.call g f.imm36)
  | _ => none

/-- The words of major 0xf, LOOP (R86). -/
def decLoop (g : Guard) (f : Fields) : Option Instr :=
  match f.fn.toNat with
  | 0 => some (.loop g f.dC f.a f.x11)
  | 1 => some (.loopi g f.dC f.loopCount f.x11)
  | 2 => some (.breakLoop g f.dC)
  | _ => none

/-- The words of major 0x10, PRED (R86). -/
def decPred (g : Guard) (f : Fields) : Option Instr :=
  match f.fn.toNat with
  | 0 => some (.pand g f.dQ f.aQ f.bQ)
  | 1 => some (.por g f.dQ f.aQ f.bQ)
  | 2 => some (.pxor g f.dQ f.aQ f.bQ)
  | 3 => some (.pandn g f.dQ f.aQ f.bQ)
  | 4 => some (.pnot g f.dQ f.aQ)
  | 5 => some (.pset g f.dQ f.x7)
  | 6 => some (.pmov g f.dQ f.aQ)
  | 7 => some (.pcnt g f.d f.aQ)
  | 8 => some (.pfirst g f.d f.aQ)
  | 9 => some (.pld g f.dQ f.a)
  | 10 => some (.pst g f.d f.aQ)
  | _ => none

/-- The words of major 0x11, FPS (R86). -/
def decFps (g : Guard) (f : Fields) : Option Instr :=
  match f.fn.toNat with
  | 0 => (Rm.ofCode f.xRm).bind fun rm => some (.fadd g rm f.d f.a f.b)
  | 1 => (Rm.ofCode f.xRm).bind fun rm => some (.fsub g rm f.d f.a f.b)
  | 2 => (Rm.ofCode f.xRm).bind fun rm => some (.fmul g rm f.d f.a f.b)
  | 3 => (Rm.ofCode f.xRm).bind fun rm => some (.ffma g rm f.d f.a f.b f.c)
  | 4 => (Rm.ofCode f.xRm).bind fun rm => some (.fdiv g rm f.d f.a f.b)
  | 5 => (Rm.ofCode f.xRm).bind fun rm => some (.fsqrt g rm f.d f.a)
  | 6 => (Rm.ofCode f.xRm).bind fun rm => some (.fmin g rm f.d f.a f.b)
  | 7 => (Rm.ofCode f.xRm).bind fun rm => some (.fmax g rm f.d f.a f.b)
  | 8 => (Rm.ofCode f.xRm).bind fun rm => some (.fabs g rm f.d f.a)
  | 9 => (Rm.ofCode f.xRm).bind fun rm => some (.fneg g rm f.d f.a)
  | 10 => (Ty.ofCode f.xTy).bind fun sty => (Ty.ofCode f.xDty).bind fun dty => (Rm.ofCode f.xCvtRm).bind fun rm => some (.fcvt g sty dty rm f.xCvtSat f.d f.a)
  | 11 => (Rm.ofCode f.xRm).bind fun rm => some (.fclass g rm f.d f.a)
  | _ => none

/-- The words of major 0x12, FCMP (R86). -/
def decFcmp (g : Guard) (f : Fields) : Option Instr :=
  (FCond.ofFn f.fn).bind fun cond => some (.fcmp g cond f.dQ f.a f.b)

/-- The words of major 0x14, VARI (R86). -/
def decVari (g : Guard) (f : Fields) : Option Instr :=
  match f.fn.toNat with
  | 0 => (Ty.ofCode f.xTy).bind fun ty => (Rm.ofCode f.xRm).bind fun rm => some (.vadd g ty rm f.xSat f.dV f.aV f.bV)
  | 1 => (Ty.ofCode f.xTy).bind fun ty => (Rm.ofCode f.xRm).bind fun rm => some (.vsub g ty rm f.xSat f.dV f.aV f.bV)
  | 2 => (Ty.ofCode f.xTy).bind fun ty => (Rm.ofCode f.xRm).bind fun rm => some (.vmul g ty rm f.xSat f.dV f.aV f.bV)
  | 3 => (Ty.ofCode f.xTy).bind fun ty => (Rm.ofCode f.xRm).bind fun rm => some (.vfma g ty rm f.xSat f.dV f.aV f.bV f.cV)
  | 4 => (Ty.ofCode f.xTy).bind fun ty => (Rm.ofCode f.xRm).bind fun rm => some (.vmin g ty rm f.dV f.aV f.bV)
  | 5 => (Ty.ofCode f.xTy).bind fun ty => (Rm.ofCode f.xRm).bind fun rm => some (.vmax g ty rm f.dV f.aV f.bV)
  | 6 => (Ty.ofCode f.xTy).bind fun ty => (Rm.ofCode f.xRm).bind fun rm => some (.vabs g ty rm f.xSat f.dV f.aV)
  | 7 => (Ty.ofCode f.xTy).bind fun ty => (Rm.ofCode f.xRm).bind fun rm => some (.vneg g ty rm f.xSat f.dV f.aV)
  | 8 => (Rm.ofCode f.xRm).bind fun rm => some (.vdiv g rm f.dV f.aV f.bV)
  | 9 => (Rm.ofCode f.xRm).bind fun rm => some (.vsqrt g rm f.dV f.aV)
  | 10 => (Ty.ofCode f.xTy).bind fun ty => some (.vmulh g ty f.dV f.aV f.bV)
  | _ => none

/-- The words of major 0x15, VLOG (R86). -/
def decVlog (g : Guard) (f : Fields) : Option Instr :=
  match f.fn.toNat with
  | 0 => (Ty.ofCode f.xTy).bind fun ty => some (.vand g ty f.dV f.aV f.bV)
  | 1 => (Ty.ofCode f.xTy).bind fun ty => some (.vor g ty f.dV f.aV f.bV)
  | 2 => (Ty.ofCode f.xTy).bind fun ty => some (.vxor g ty f.dV f.aV f.bV)
  | 3 => (Ty.ofCode f.xTy).bind fun ty => some (.vandn g ty f.dV f.aV f.bV)
  | 4 => (Ty.ofCode f.xTy).bind fun ty => some (.vshl g ty f.dV f.aV f.bV)
  | 5 => (Ty.ofCode f.xTy).bind fun ty => some (.vshr g ty f.dV f.aV f.bV)
  | 6 => (Ty.ofCode f.xTy).bind fun ty => some (.vsra g ty f.dV f.aV f.bV)
  | 7 => (Ty.ofCode f.xTy).bind fun ty => some (.vclz g ty f.dV f.aV)
  | 8 => (Ty.ofCode f.xTy).bind fun ty => some (.vpopc g ty f.dV f.aV)
  | _ => none

/-- The words of major 0x16, VFUN (R86). -/
def decVfun (g : Guard) (f : Fields) : Option Instr :=
  match f.fn.toNat with
  | 0 => (Rm.ofCode f.xRm).bind fun rm => some (.vrcp g rm f.dV f.aV)
  | 1 => (Rm.ofCode f.xRm).bind fun rm => some (.vrsq g rm f.dV f.aV)
  | 2 => (Rm.ofCode f.xRm).bind fun rm => some (.vexp2 g rm f.dV f.aV)
  | 3 => (Rm.ofCode f.xRm).bind fun rm => some (.vlog2 g rm f.dV f.aV)
  | 4 => (Rm.ofCode f.xRm).bind fun rm => some (.vtanh g rm f.dV f.aV)
  | _ => none

/-- The words of major 0x17, VCMP (R86). -/
def decVcmp (g : Guard) (f : Fields) : Option Instr :=
  (VCond.ofFn f.fn).bind fun cond => (Ty.ofCode f.xTy).bind fun ty => some (.vcmp g cond ty f.dQ f.aV f.bV)

/-- The words of major 0x18, VSEL (R86). -/
def decVsel (g : Guard) (f : Fields) : Option Instr :=
  match f.fn.toNat with
  | 0 => some (.vsel g f.dV f.aV f.bV f.cQ)
  | _ => none

/-- The words of major 0x19, VCVT (R86). -/
def decVcvt (g : Guard) (f : Fields) : Option Instr :=
  match f.fn.toNat with
  | 0 => (Ty.ofCode f.xTy).bind fun sty => (Ty.ofCode f.xDty).bind fun dty => (Rm.ofCode f.xCvtRm).bind fun rm => some (.vcvt g sty dty rm f.xCvtSat f.dV f.aV f.cQ)
  | _ => none

/-- The words of major 0x1a, VPERM (R86). -/
def decVperm (g : Guard) (f : Fields) : Option Instr :=
  match f.fn.toNat with
  | 0 => some (.vperm g f.dV f.aV f.bV)
  | 1 => some (.vbcast g f.dV f.a)
  | 2 => some (.vbl g f.dV f.aV f.x6)
  | 3 => some (.vins g f.dV f.a f.x6)
  | 4 => some (.vext g f.d f.aV f.x6)
  | 5 => some (.vshfu g f.dV f.aV f.x6)
  | 6 => some (.vshfd g f.dV f.aV f.x6)
  | 7 => some (.vmov g f.dV f.aV)
  | _ => none

/-- The words of major 0x1b, VRED (R86). -/
def decVred (g : Guard) (f : Fields) : Option Instr :=
  if f.fn.toNat < 8 then (RedOp.ofFn f.fn).bind fun op => (Ty.ofCode f.xTy).bind fun ty => some (.vred g op ty f.d f.aV)
  else (RedOp.ofFn (f.fn - 8)).bind fun op => (Ty.ofCode f.xTy).bind fun ty => some (.vscan g op ty f.dV f.aV)

/-- The words of major 0x20, MMA (R86). -/
def decMma (g : Guard) (f : Fields) : Option Instr :=
  match f.fn.toNat with
  | 0 => (f.mmaForm f.xMmaChk).bind fun form => some (.mma g form f.xPlanes f.dA (f.mmaSrc f.xSrcA f.a) (f.mmaSrc f.xSrcB f.b) f.c)
  | _ => none

/-- The words of major 0x21, MMAG (R86). -/
def decMmag (g : Guard) (f : Fields) : Option Instr :=
  match f.fn.toNat with
  | 0 => (f.mmaForm f.xMmagChk).bind fun form => some (.mmag g form f.xMb f.xNb f.dA f.a f.b f.c)
  | _ => none

/-- The words of major 0x22, MACC (R86). -/
def decMacc (g : Guard) (f : Fields) : Option Instr :=
  match f.fn.toNat with
  | 0 => some (.mzero g f.dA)
  | 1 => (Fmt.ofCode f.xTy).bind fun fmt => some (.mld g fmt f.dA f.a f.c)
  | 2 => (Fmt.ofCode f.xTy).bind fun fmt => some (.mst g fmt f.dA f.a f.c)
  | 3 => some (.mrowr g f.dV f.aA f.b)
  | 4 => some (.mroww g f.dA f.aV f.b)
  | 5 => some (.mtran g f.dA f.aA)
  | _ => none

/-- The words of major 0x23, MCHK (R86). -/
def decMchk (g : Guard) (f : Fields) : Option Instr :=
  match f.fn.toNat with
  | 0 => some (.mchk g f.dA f.a f.c)
  | 1 => some (.mchkr g f.dA f.a f.c)
  | _ => none

/-- The words of major 0x24, FACT (R86). -/
def decFact (g : Guard) (f : Fields) : Option Instr :=
  match f.fn.toNat with
  | 0 => some (.luf g f.xBit0 f.dA f.a)
  | 1 => some (.chol g f.dA f.a)
  | 2 => some (.qrh g f.dA f.a f.b)
  | 3 => some (.trsm g f.xBit0 f.xBit1 f.xBit2 f.dA f.a f.bA)
  | 4 => some (.qapply g f.xBit0 f.dA f.a f.bA)
  | 5 => some (.papply g f.dA f.a)
  | 6 => some (.papplyt g f.dA f.a)
  | _ => none

/-- The words of major 0x25, PERMR (R86). -/
def decPermr (g : Guard) (f : Fields) : Option Instr :=
  match f.fn.toNat with
  | 0 => some (.prid g)
  | 1 => some (.prld g f.a)
  | 2 => some (.prst g f.a)
  | _ => none

/-- The words of major 0x28, LD (R86). -/
def decLd (g : Guard) (f : Fields) : Option Instr :=
  (LdSize.ofFn f.fn).bind fun sz => some (.ld g sz f.d f.mem)

/-- The words of major 0x29, ST (R86). -/
def decSt (g : Guard) (f : Fields) : Option Instr :=
  (StSize.ofFn f.fn).bind fun sz => some (.st g sz f.d f.mem)

/-- The words of major 0x2a, VMEM (R86). -/
def decVmem (g : Guard) (f : Fields) : Option Instr :=
  match f.fn.toNat with
  | 0 => some (.vld g f.dV f.mem)
  | 1 => some (.vlds g f.dV f.mem f.c)
  | 2 => some (.vgath g f.dV f.vmem)
  | 3 => some (.vst g f.dV f.mem)
  | 4 => some (.vsts g f.dV f.mem f.c)
  | 5 => some (.vscat g f.dV f.vmem)
  | _ => none

/-- The words of major 0x2c, LDH (R86). -/
def decLdh (g : Guard) (f : Fields) : Option Instr :=
  match f.fn.toNat with
  | 0 | 1 => (WSize.ofFn (f.fn == 1)).bind fun sz => some (.ldh g sz f.d f.mem)
  | _ => none

/-- The words of major 0x2d, STH (R86). -/
def decSth (g : Guard) (f : Fields) : Option Instr :=
  match f.fn.toNat with
  | 0 => some (.sth g f.d f.mem)
  | _ => none

/-- The words of major 0x2e, SYSM (R86). -/
def decSysm (g : Guard) (f : Fields) : Option Instr :=
  match f.fn.toNat with
  | 0 | 1 => (WSize.ofFn (f.fn == 0)).bind fun sz => some (.lds g sz f.xOrd f.xScope f.d f.mem)
  | 2 | 3 => (WSize.ofFn (f.fn == 2)).bind fun sz => some (.sts g sz f.xOrd f.xScope f.d f.mem)
  | 4 => some (.stsMask g f.xOrd f.xScope f.d f.mem f.c)
  | _ => none

/-- The words of major 0x2f, ATOM (R86). -/
def decAtom (g : Guard) (f : Fields) : Option Instr :=
  match f.fn.toNat with
  | 0 => some (.aadd g f.xOrd f.xScope f.d f.mem f.c)
  | 1 => some (.afadd g f.xOrd f.xScope f.d f.mem f.c)
  | 2 => some (.amin g f.xOrd f.xScope f.d f.mem f.c)
  | 3 => some (.amax g f.xOrd f.xScope f.d f.mem f.c)
  | 4 => some (.aand g f.xOrd f.xScope f.d f.mem f.c)
  | 5 => some (.aor g f.xOrd f.xScope f.d f.mem f.c)
  | 6 => some (.axchg g f.xOrd f.xScope f.d f.mem f.c)
  | 7 => some (.acas g f.xOrd f.xScope f.d f.mem f.c)
  | _ => none

/-- The words of major 0x30, FENCE (R86). -/
def decFence (g : Guard) (f : Fields) : Option Instr :=
  match f.fn.toNat with
  | 0 => some (.fenceAcq g f.xScopeLow)
  | 1 => some (.fenceRel g f.xScopeLow)
  | 2 => some (.fenceFull g f.xScopeLow)
  | _ => none

/-- The words of major 0x31, TILE (R86). -/
def decTile (g : Guard) (f : Fields) : Option Instr :=
  match f.fn.toNat with
  | 0 => (Fmt.ofCode f.xTy).bind fun fmt => some (.talloc g fmt f.d)
  | 1 => some (.tfree g f.a)
  | 2 => some (.tseal g f.d f.a)
  | 3 => some (.thdr g f.d f.a f.b)
  | 4 => some (.tseth g f.a f.b f.c)
  | 5 => some (.tpres g f.d f.a)
  | 6 => some (.tdesc g f.d f.a)
  | _ => none

/-- The words of major 0x32, COPY (R86). -/
def decCopy (g : Guard) (f : Fields) : Option Instr :=
  match f.fn.toNat with
  | 0 => some (.cparm g f.xT f.a f.b f.c)
  | 1 => some (.cpfire g f.xT)
  | 2 => some (.cptest g f.dQ f.a f.b)
  | 3 => some (.cpwait g f.a f.b)
  | 4 => some (.cpcan g f.xT)
  | 5 => some (.cpchain g f.xT f.xK f.b)
  | _ => none

/-- The words of major 0x33, OWN (R86). -/
def decOwn (g : Guard) (f : Fields) : Option Instr :=
  match f.fn.toNat with
  | 0 => (Engine.ofCode f.x2).bind fun eng => some (.give g eng f.a)
  | 1 => (Engine.ofCode f.x2).bind fun eng => some (.recl g eng f.a)
  | 2 => some (.ownq g f.d f.a)
  | _ => none

/-- The words of major 0x34, TREE (R86). -/
def decTree (g : Guard) (f : Fields) : Option Instr :=
  match f.fn.toNat with
  | 0 => (Ty.ofCode f.xTy).bind fun ty => some (.tbcast g ty f.dV f.aV f.b)
  | 1 => (RedOp.ofCode f.xOp).bind fun op => (Ty.ofCode f.xTy).bind fun ty => some (.tred g op ty f.xBit0 f.dV f.aV f.b)
  | 2 => (RedOp.ofCode f.xOp).bind fun op => (Ty.ofCode f.xTy).bind fun ty => some (.tscan g op ty f.dV f.aV)
  | 3 => some (.tmcast g f.aV f.b)
  | 4 => some (.trow g f.aV f.b)
  | 5 => some (.trecv g f.dV)
  | 6 => (RedOp.ofCode f.xOp).bind fun op => (Ty.ofCode f.xTy).bind fun ty => some (.tall g op ty f.dV f.aV)
  | _ => none

/-- The words of major 0x35, SYM (R86). -/
def decSym (g : Guard) (f : Fields) : Option Instr :=
  match f.fn.toNat with
  | 0 => some (.symld g f.d f.a)
  | 1 => some (.syman g f.d f.a)
  | 2 => some (.symcnt g f.d)
  | 3 => some (.emit g f.a)
  | 4 => some (.emitt g f.a)
  | 5 => some (.emitr g f.a f.b)
  | 6 => some (.resv g f.a)
  | _ => none

/-- The words of major 0x36, ROUTE (R86). -/
def decRoute (g : Guard) (f : Fields) : Option Instr :=
  match f.fn.toNat with
  | 0 => some (.route g f.d f.a f.bV)
  | 1 => some (.ratwt g f.a)
  | 2 => some (.ratrd g f.a f.b)
  | 3 => some (.srecv g f.d f.a)
  | 4 => some (.sret g f.a f.b)
  | 5 => if f.xBit0 then some (.scapSet g f.d f.a) else some (.scap g f.d f.a)
  | _ => none

/-- The words of major 0x37, SYNC (R86). -/
def decSync (g : Guard) (f : Fields) : Option Instr :=
  match f.fn.toNat with
  | 0 => some (.barj g f.d f.a f.b)
  | 1 => some (.barw g f.a f.b)
  | 2 => some (.barq g f.d f.a f.b)
  | 3 => some (.grab g f.d f.a)
  | 4 => some (.steal g f.d f.a)
  | 5 => some (.rngset g f.a f.b f.c)
  | 6 => some (.rngq g f.d f.a)
  | _ => none

/-- The words of major 0x38, SREG (R86). -/
def decSreg (g : Guard) (f : Fields) : Option Instr :=
  match f.fn.toNat with
  | 0 => some (.mfs g f.d f.x12)
  | 1 => some (.mts g f.x12 f.a)
  | _ => none

/-- The instruction whose opcode and operand fields a word has, before the checks of reserved bits and values:
none for a reserved major, an unlisted FN, or a reserved code in a sub-field. -/
def decodeShape (w : Word) : Option Instr :=
  let f := Fields.unpack w
  let g := f.guard
  match f.maj.toNat with
  | 0x0 => decSys g f
  | 0x1 => decInta g f
  | 0x2 => decIntb g f
  | 0x3 => decCmp g f
  | 0x4 => decAddi g f
  | 0x5 => decAndi g f
  | 0x6 => decOri g f
  | 0x7 => decXori g f
  | 0x8 => decShi g f
  | 0x9 => decCmpi g f
  | 0xa => decLi g f
  | 0xb => decLih g f
  | 0xc => decBr g f
  | 0xd => decJmp g f
  | 0xe => decCall g f
  | 0xf => decLoop g f
  | 0x10 => decPred g f
  | 0x11 => decFps g f
  | 0x12 => decFcmp g f
  | 0x14 => decVari g f
  | 0x15 => decVlog g f
  | 0x16 => decVfun g f
  | 0x17 => decVcmp g f
  | 0x18 => decVsel g f
  | 0x19 => decVcvt g f
  | 0x1a => decVperm g f
  | 0x1b => decVred g f
  | 0x20 => decMma g f
  | 0x21 => decMmag g f
  | 0x22 => decMacc g f
  | 0x23 => decMchk g f
  | 0x24 => decFact g f
  | 0x25 => decPermr g f
  | 0x28 => decLd g f
  | 0x29 => decSt g f
  | 0x2a => decVmem g f
  | 0x2c => decLdh g f
  | 0x2d => decSth g f
  | 0x2e => decSysm g f
  | 0x2f => decAtom g f
  | 0x30 => decFence g f
  | 0x31 => decTile g f
  | 0x32 => decCopy g f
  | 0x33 => decOwn g f
  | 0x34 => decTree g f
  | 0x35 => decSym g f
  | 0x36 => decRoute g f
  | 0x37 => decSync g f
  | 0x38 => decSreg g f
  | _ => none

/-! ### The encoder -/

/-- The fields of a cell instruction's word (R86); none for a row of the table that is no cell instruction. -/
def Instr.fields : Instr → Option Fields
  | .nop g => some (Fields.base 0 1 g)
  | .halt g => some (Fields.base 0 2 g)
  | .yield g => some (Fields.base 0 3 g)
  | .trap g code => some ({ Fields.base 0 4 g with x := xLow16 code })
  | .bkpt g => some (Fields.base 0 5 g)
  | .abort g code => some ({ Fields.base 0 6 g with x := xLow16 code })
  | .waitev g mask => some ({ Fields.base 0 7 g with x := xLow6 mask })
  | .add g ty sat d a b => some ({ Fields.base 1 0 g with d := d, a := a, b := b, x := xR3 ty .rne sat })
  | .sub g ty sat d a b => some ({ Fields.base 1 1 g with d := d, a := a, b := b, x := xR3 ty .rne sat })
  | .and g ty d a b => some ({ Fields.base 1 2 g with d := d, a := a, b := b, x := xR3 ty .rne false })
  | .or g ty d a b => some ({ Fields.base 1 3 g with d := d, a := a, b := b, x := xR3 ty .rne false })
  | .xor g ty d a b => some ({ Fields.base 1 4 g with d := d, a := a, b := b, x := xR3 ty .rne false })
  | .andn g ty d a b => some ({ Fields.base 1 5 g with d := d, a := a, b := b, x := xR3 ty .rne false })
  | .shl g ty d a b => some ({ Fields.base 1 6 g with d := d, a := a, b := b, x := xR3 ty .rne false })
  | .shr g ty d a b => some ({ Fields.base 1 7 g with d := d, a := a, b := b, x := xR3 ty .rne false })
  | .sra g ty d a b => some ({ Fields.base 1 8 g with d := d, a := a, b := b, x := xR3 ty .rne false })
  | .rot g ty d a b => some ({ Fields.base 1 9 g with d := d, a := a, b := b, x := xR3 ty .rne false })
  | .min g ty d a b => some ({ Fields.base 1 10 g with d := d, a := a, b := b, x := xR3 ty .rne false })
  | .max g ty d a b => some ({ Fields.base 1 11 g with d := d, a := a, b := b, x := xR3 ty .rne false })
  | .minu g ty d a b => some ({ Fields.base 1 12 g with d := d, a := a, b := b, x := xR3 ty .rne false })
  | .maxu g ty d a b => some ({ Fields.base 1 13 g with d := d, a := a, b := b, x := xR3 ty .rne false })
  | .sel g d a b c => some ({ Fields.base 1 14 g with d := d, a := a, b := b, c := r6 c, x := xR3 .i64 .rne false })
  | .mul g ty sat d a b => some ({ Fields.base 2 0 g with d := d, a := a, b := b, x := xR3 ty .rne sat })
  | .mulh g ty d a b => some ({ Fields.base 2 1 g with d := d, a := a, b := b, x := xR3 ty .rne false })
  | .mulhu g ty d a b => some ({ Fields.base 2 2 g with d := d, a := a, b := b, x := xR3 ty .rne false })
  | .div g ty d a b => some ({ Fields.base 2 3 g with d := d, a := a, b := b, x := xR3 ty .rne false })
  | .divu g ty d a b => some ({ Fields.base 2 4 g with d := d, a := a, b := b, x := xR3 ty .rne false })
  | .rem g ty d a b => some ({ Fields.base 2 5 g with d := d, a := a, b := b, x := xR3 ty .rne false })
  | .remu g ty d a b => some ({ Fields.base 2 6 g with d := d, a := a, b := b, x := xR3 ty .rne false })
  | .madd g ty sat d a b c => some ({ Fields.base 2 7 g with d := d, a := a, b := b, c := c, x := xR3 ty .rne sat })
  | .clz g ty d a => some ({ Fields.base 2 8 g with d := d, a := a, x := xR3 ty .rne false })
  | .popc g ty d a => some ({ Fields.base 2 9 g with d := d, a := a, x := xR3 ty .rne false })
  | .bfx g ty d a b c => some ({ Fields.base 2 10 g with d := d, a := a, b := b, c := c, x := xR3 ty .rne false })
  | .bfi g ty d a b c => some ({ Fields.base 2 11 g with d := d, a := a, b := b, c := c, x := xR3 ty .rne false })
  | .sext g ty d a b => some ({ Fields.base 2 12 g with d := d, a := a, b := b, x := xR3 ty .rne false })
  | .cmp g cond ty d a b => some ({ Fields.base 3 (cond.fn) g with d := r6 d, a := a, b := b, x := xR3 ty .rne false })
  | .addi g d a imm => some (.ri 4 (0) g (d) (a) imm)
  | .andi g d a imm => some (.ri 5 (0) g (d) (a) imm)
  | .ori g d a imm => some (.ri 6 (0) g (d) (a) imm)
  | .xori g d a imm => some (.ri 7 (0) g (d) (a) imm)
  | .shli g d a imm => some (.ri 8 (0) g d a (imm.setWidth 36))
  | .shri g d a imm => some (.ri 8 (1) g d a (imm.setWidth 36))
  | .srai g d a imm => some (.ri 8 (2) g d a (imm.setWidth 36))
  | .roti g d a imm => some (.ri 8 (3) g d a (imm.setWidth 36))
  | .cmpi g cond d a imm => some (.ri 9 (cond.fn) g (r6 d) (a) imm)
  | .li g d imm => some (.li 10 g d imm)
  | .lih g d imm => some (.ri 11 (0) g d 0 (imm.setWidth 36))
  | .br g off => some (.ri 12 (0) g (0) (0) off)
  | .jmp g a => some ({ Fields.base 13 0 g with a := a })
  | .ret g => some (Fields.base 13 1 g)
  | .call g off => some (.ri 14 (0) g (0) (0) off)
  | .loop g d a len => some ({ Fields.base 15 0 g with d := r6 d, a := a, x := xLow11 len })
  | .loopi g d count len => some (.loopi 15 1 g (r6 d) count len)
  | .breakLoop g d => some ({ Fields.base 15 2 g with d := r6 d })
  | .pand g d a b => some ({ Fields.base 16 0 g with d := r6 d, a := r6 a, b := r6 b })
  | .por g d a b => some ({ Fields.base 16 1 g with d := r6 d, a := r6 a, b := r6 b })
  | .pxor g d a b => some ({ Fields.base 16 2 g with d := r6 d, a := r6 a, b := r6 b })
  | .pandn g d a b => some ({ Fields.base 16 3 g with d := r6 d, a := r6 a, b := r6 b })
  | .pnot g d a => some ({ Fields.base 16 4 g with d := r6 d, a := r6 a })
  | .pset g d n => some ({ Fields.base 16 5 g with d := r6 d, x := xLow7 n })
  | .pmov g d a => some ({ Fields.base 16 6 g with d := r6 d, a := r6 a })
  | .pcnt g d a => some ({ Fields.base 16 7 g with d := d, a := r6 a })
  | .pfirst g d a => some ({ Fields.base 16 8 g with d := d, a := r6 a })
  | .pld g d a => some ({ Fields.base 16 9 g with d := r6 d, a := a })
  | .pst g d a => some ({ Fields.base 16 10 g with d := d, a := r6 a })
  | .fadd g rm d a b => some ({ Fields.base 17 0 g with d := d, a := a, b := b, x := xR3 .f32 rm false })
  | .fsub g rm d a b => some ({ Fields.base 17 1 g with d := d, a := a, b := b, x := xR3 .f32 rm false })
  | .fmul g rm d a b => some ({ Fields.base 17 2 g with d := d, a := a, b := b, x := xR3 .f32 rm false })
  | .ffma g rm d a b c => some ({ Fields.base 17 3 g with d := d, a := a, b := b, c := c, x := xR3 .f32 rm false })
  | .fdiv g rm d a b => some ({ Fields.base 17 4 g with d := d, a := a, b := b, x := xR3 .f32 rm false })
  | .fsqrt g rm d a => some ({ Fields.base 17 5 g with d := d, a := a, x := xR3 .f32 rm false })
  | .fmin g rm d a b => some ({ Fields.base 17 6 g with d := d, a := a, b := b, x := xR3 .f32 rm false })
  | .fmax g rm d a b => some ({ Fields.base 17 7 g with d := d, a := a, b := b, x := xR3 .f32 rm false })
  | .fabs g rm d a => some ({ Fields.base 17 8 g with d := d, a := a, x := xR3 .f32 rm false })
  | .fneg g rm d a => some ({ Fields.base 17 9 g with d := d, a := a, x := xR3 .f32 rm false })
  | .fcvt g sty dty rm sat d a => some ({ Fields.base 17 10 g with d := d, a := a, x := xCvt sty dty rm sat })
  | .fclass g rm d a => some ({ Fields.base 17 11 g with d := d, a := a, x := xR3 .f32 rm false })
  | .fcmp g cond d a b => some ({ Fields.base 18 (cond.fn) g with d := r6 d, a := a, b := b, x := xR3 .f32 .rne false })
  | .vadd g ty rm sat d a b => some ({ Fields.base 20 0 g with d := r6 d, a := r6 a, b := r6 b, x := xR3 ty rm sat })
  | .vsub g ty rm sat d a b => some ({ Fields.base 20 1 g with d := r6 d, a := r6 a, b := r6 b, x := xR3 ty rm sat })
  | .vmul g ty rm sat d a b => some ({ Fields.base 20 2 g with d := r6 d, a := r6 a, b := r6 b, x := xR3 ty rm sat })
  | .vfma g ty rm sat d a b c => some ({ Fields.base 20 3 g with d := r6 d, a := r6 a, b := r6 b, c := r6 c, x := xR3 ty rm sat })
  | .vmin g ty rm d a b => some ({ Fields.base 20 4 g with d := r6 d, a := r6 a, b := r6 b, x := xR3 ty rm false })
  | .vmax g ty rm d a b => some ({ Fields.base 20 5 g with d := r6 d, a := r6 a, b := r6 b, x := xR3 ty rm false })
  | .vabs g ty rm sat d a => some ({ Fields.base 20 6 g with d := r6 d, a := r6 a, x := xR3 ty rm sat })
  | .vneg g ty rm sat d a => some ({ Fields.base 20 7 g with d := r6 d, a := r6 a, x := xR3 ty rm sat })
  | .vdiv g rm d a b => some ({ Fields.base 20 8 g with d := r6 d, a := r6 a, b := r6 b, x := xR3 .f32 rm false })
  | .vsqrt g rm d a => some ({ Fields.base 20 9 g with d := r6 d, a := r6 a, x := xR3 .f32 rm false })
  | .vmulh g ty d a b => some ({ Fields.base 20 10 g with d := r6 d, a := r6 a, b := r6 b, x := xR3 ty .rne false })
  | .vand g ty d a b => some ({ Fields.base 21 0 g with d := r6 d, a := r6 a, b := r6 b, x := xR3 ty .rne false })
  | .vor g ty d a b => some ({ Fields.base 21 1 g with d := r6 d, a := r6 a, b := r6 b, x := xR3 ty .rne false })
  | .vxor g ty d a b => some ({ Fields.base 21 2 g with d := r6 d, a := r6 a, b := r6 b, x := xR3 ty .rne false })
  | .vandn g ty d a b => some ({ Fields.base 21 3 g with d := r6 d, a := r6 a, b := r6 b, x := xR3 ty .rne false })
  | .vshl g ty d a b => some ({ Fields.base 21 4 g with d := r6 d, a := r6 a, b := r6 b, x := xR3 ty .rne false })
  | .vshr g ty d a b => some ({ Fields.base 21 5 g with d := r6 d, a := r6 a, b := r6 b, x := xR3 ty .rne false })
  | .vsra g ty d a b => some ({ Fields.base 21 6 g with d := r6 d, a := r6 a, b := r6 b, x := xR3 ty .rne false })
  | .vclz g ty d a => some ({ Fields.base 21 7 g with d := r6 d, a := r6 a, x := xR3 ty .rne false })
  | .vpopc g ty d a => some ({ Fields.base 21 8 g with d := r6 d, a := r6 a, x := xR3 ty .rne false })
  | .vrcp g rm d a => some ({ Fields.base 22 0 g with d := r6 d, a := r6 a, x := xR3 .f32 rm false })
  | .vrsq g rm d a => some ({ Fields.base 22 1 g with d := r6 d, a := r6 a, x := xR3 .f32 rm false })
  | .vexp2 g rm d a => some ({ Fields.base 22 2 g with d := r6 d, a := r6 a, x := xR3 .f32 rm false })
  | .vlog2 g rm d a => some ({ Fields.base 22 3 g with d := r6 d, a := r6 a, x := xR3 .f32 rm false })
  | .vtanh g rm d a => some ({ Fields.base 22 4 g with d := r6 d, a := r6 a, x := xR3 .f32 rm false })
  | .vcmp g cond ty d a b => some ({ Fields.base 23 (cond.fn) g with d := r6 d, a := r6 a, b := r6 b, x := xR3 ty .rne false })
  | .vsel g d a b c => some ({ Fields.base 24 0 g with d := r6 d, a := r6 a, b := r6 b, c := r6 c })
  | .vcvt g sty dty rm sat d a c => some ({ Fields.base 25 0 g with d := r6 d, a := r6 a, c := r6 c, x := xCvt sty dty rm sat })
  | .vperm g d a b => some ({ Fields.base 26 0 g with d := r6 d, a := r6 a, b := r6 b })
  | .vbcast g d a => some ({ Fields.base 26 1 g with d := r6 d, a := a })
  | .vbl g d a n => some ({ Fields.base 26 2 g with d := r6 d, a := r6 a, x := xLow6 n })
  | .vins g d a n => some ({ Fields.base 26 3 g with d := r6 d, a := a, x := xLow6 n })
  | .vext g d a n => some ({ Fields.base 26 4 g with d := d, a := r6 a, x := xLow6 n })
  | .vshfu g d a n => some ({ Fields.base 26 5 g with d := r6 d, a := r6 a, x := xLow6 n })
  | .vshfd g d a n => some ({ Fields.base 26 6 g with d := r6 d, a := r6 a, x := xLow6 n })
  | .vmov g d a => some ({ Fields.base 26 7 g with d := r6 d, a := r6 a })
  | .vred g op ty d a => some ({ Fields.base 27 (op.fn) g with d := d, a := r6 a, x := xR3 ty .rne false })
  | .vscan g op ty d a => some ({ Fields.base 27 (op.fn + 8) g with d := r6 d, a := r6 a, x := xR3 ty .rne false })
  | .mma g form planes d a b c => some ({ Fields.base 32 0 g with d := r6 d, c := c, a := a.field, b := b.field, x := xMma form a.isGroup b.isGroup planes })
  | .mmag g form mb1 nb1 d a b c => some ({ Fields.base 33 0 g with d := r6 d, a := a, b := b, c := c, x := xMmag form mb1 nb1 })
  | .mzero g d => some ({ Fields.base 34 0 g with d := r6 d })
  | .mld g fmt d a c => some ({ Fields.base 34 1 g with d := r6 d, a := a, c := c, x := xFmt fmt })
  | .mst g fmt d a c => some ({ Fields.base 34 2 g with d := r6 d, a := a, c := c, x := xFmt fmt })
  | .mrowr g d a b => some ({ Fields.base 34 3 g with d := r6 d, a := r6 a, b := b })
  | .mroww g d a b => some ({ Fields.base 34 4 g with d := r6 d, a := r6 a, b := b })
  | .mtran g d a => some ({ Fields.base 34 5 g with d := r6 d, a := r6 a })
  | .mchk g d a c => some ({ Fields.base 35 0 g with d := r6 d, a := a, c := c })
  | .mchkr g d a c => some ({ Fields.base 35 1 g with d := r6 d, a := a, c := c })
  | .luf g zc d a => some ({ Fields.base 36 0 g with d := r6 d, a := a, x := xBits3 zc false false })
  | .chol g d a => some ({ Fields.base 36 1 g with d := r6 d, a := a })
  | .qrh g d a b => some ({ Fields.base 36 2 g with d := r6 d, a := a, b := b })
  | .trsm g up unit right d a b => some ({ Fields.base 36 3 g with d := r6 d, a := a, b := r6 b, x := xBits3 up unit right })
  | .qapply g t d a b => some ({ Fields.base 36 4 g with d := r6 d, a := a, b := r6 b, x := xBits3 t false false })
  | .papply g d a => some ({ Fields.base 36 5 g with d := r6 d, a := a })
  | .papplyt g d a => some ({ Fields.base 36 6 g with d := r6 d, a := a })
  | .prid g => some (Fields.base 37 0 g)
  | .prld g a => some ({ Fields.base 37 1 g with a := a })
  | .prst g a => some ({ Fields.base 37 2 g with a := a })
  | .ld g sz d m => some ({ Fields.base 40 (sz.fn) g with d := d, a := m.base, b := m.idx, x := xMem .relaxed .cell m.scale m.off })
  | .st g sz d m => some ({ Fields.base 41 (sz.fn) g with d := d, a := m.base, b := m.idx, x := xMem .relaxed .cell m.scale m.off })
  | .vld g d m => some ({ Fields.base 42 0 g with d := r6 d, a := m.base, b := m.idx, x := xMem .relaxed .cell m.scale m.off })
  | .vlds g d m c => some ({ Fields.base 42 1 g with d := r6 d, c := c, a := m.base, b := m.idx, x := xMem .relaxed .cell m.scale m.off })
  | .vgath g d m => some ({ Fields.base 42 2 g with d := r6 d, a := m.base, b := r6 m.idx, x := xMem .relaxed .cell m.scale m.off })
  | .vst g d m => some ({ Fields.base 42 3 g with d := r6 d, a := m.base, b := m.idx, x := xMem .relaxed .cell m.scale m.off })
  | .vsts g d m c => some ({ Fields.base 42 4 g with d := r6 d, c := c, a := m.base, b := m.idx, x := xMem .relaxed .cell m.scale m.off })
  | .vscat g d m => some ({ Fields.base 42 5 g with d := r6 d, a := m.base, b := r6 m.idx, x := xMem .relaxed .cell m.scale m.off })
  | .ldh g sz d m => some ({ Fields.base 44 (sz.ldhFn) g with d := d, a := m.base, b := m.idx, x := xMem .relaxed .cell m.scale m.off })
  | .sth g d m => some ({ Fields.base 45 0 g with d := d, a := m.base, b := m.idx, x := xMem .relaxed .cell m.scale m.off })
  | .lds g sz ord sc d m => some ({ Fields.base 46 (sz.ldsFn) g with d := d, a := m.base, b := m.idx, x := xMem ord sc m.scale m.off })
  | .sts g sz ord sc d m => some ({ Fields.base 46 (sz.stsFn) g with d := d, a := m.base, b := m.idx, x := xMem ord sc m.scale m.off })
  | .stsMask g ord sc d m c => some ({ Fields.base 46 4 g with d := d, c := c, a := m.base, b := m.idx, x := xMem ord sc m.scale m.off })
  | .aadd g ord sc d m c => some ({ Fields.base 47 0 g with d := d, c := c, a := m.base, b := m.idx, x := xMem ord sc m.scale m.off })
  | .afadd g ord sc d m c => some ({ Fields.base 47 1 g with d := d, c := c, a := m.base, b := m.idx, x := xMem ord sc m.scale m.off })
  | .amin g ord sc d m c => some ({ Fields.base 47 2 g with d := d, c := c, a := m.base, b := m.idx, x := xMem ord sc m.scale m.off })
  | .amax g ord sc d m c => some ({ Fields.base 47 3 g with d := d, c := c, a := m.base, b := m.idx, x := xMem ord sc m.scale m.off })
  | .aand g ord sc d m c => some ({ Fields.base 47 4 g with d := d, c := c, a := m.base, b := m.idx, x := xMem ord sc m.scale m.off })
  | .aor g ord sc d m c => some ({ Fields.base 47 5 g with d := d, c := c, a := m.base, b := m.idx, x := xMem ord sc m.scale m.off })
  | .axchg g ord sc d m c => some ({ Fields.base 47 6 g with d := d, c := c, a := m.base, b := m.idx, x := xMem ord sc m.scale m.off })
  | .acas g ord sc d m c => some ({ Fields.base 47 7 g with d := d, c := c, a := m.base, b := m.idx, x := xMem ord sc m.scale m.off })
  | .fenceAcq g sc => some ({ Fields.base 48 0 g with x := xScopeLow sc })
  | .fenceRel g sc => some ({ Fields.base 48 1 g with x := xScopeLow sc })
  | .fenceFull g sc => some ({ Fields.base 48 2 g with x := xScopeLow sc })
  | .talloc g fmt d => some ({ Fields.base 49 0 g with d := d, x := xFmt fmt })
  | .tfree g a => some ({ Fields.base 49 1 g with a := a })
  | .tseal g d a => some ({ Fields.base 49 2 g with d := d, a := a })
  | .thdr g d a b => some ({ Fields.base 49 3 g with d := d, a := a, b := b })
  | .tseth g a b c => some ({ Fields.base 49 4 g with a := a, b := b, c := c })
  | .tpres g d a => some ({ Fields.base 49 5 g with d := d, a := a })
  | .tdesc g d a => some ({ Fields.base 49 6 g with d := d, a := a })
  | .cparm g t a b c => some ({ Fields.base 50 0 g with a := a, b := b, c := c, x := xTk t 0 })
  | .cpfire g t => some ({ Fields.base 50 1 g with x := xTk t 0 })
  | .cptest g d a b => some ({ Fields.base 50 2 g with d := r6 d, a := a, b := b })
  | .cpwait g a b => some ({ Fields.base 50 3 g with a := a, b := b })
  | .cpcan g t => some ({ Fields.base 50 4 g with x := xTk t 0 })
  | .cpchain g t k b => some ({ Fields.base 50 5 g with b := b, x := xTk t k })
  | .give g eng a => some ({ Fields.base 51 0 g with a := a, x := xEng eng })
  | .recl g eng a => some ({ Fields.base 51 1 g with a := a, x := xEng eng })
  | .ownq g d a => some ({ Fields.base 51 2 g with d := d, a := a })
  | .tbcast g ty d a b => some ({ Fields.base 52 0 g with d := r6 d, a := r6 a, b := b, x := xR3 ty .rne false })
  | .tred g op ty chk d a b => some ({ Fields.base 52 1 g with d := r6 d, a := r6 a, b := b, x := xTree ty op chk })
  | .tscan g op ty d a => some ({ Fields.base 52 2 g with d := r6 d, a := r6 a, x := xTree ty op false })
  | .tmcast g a b => some ({ Fields.base 52 3 g with a := r6 a, b := b })
  | .trow g a b => some ({ Fields.base 52 4 g with a := r6 a, b := b })
  | .trecv g d => some ({ Fields.base 52 5 g with d := r6 d })
  | .tall g op ty d a => some ({ Fields.base 52 6 g with d := r6 d, a := r6 a, x := xTree ty op false })
  | .symld g d a => some ({ Fields.base 53 0 g with d := d, a := a })
  | .syman g d a => some ({ Fields.base 53 1 g with d := d, a := a })
  | .symcnt g d => some ({ Fields.base 53 2 g with d := d })
  | .emit g a => some ({ Fields.base 53 3 g with a := a })
  | .emitt g a => some ({ Fields.base 53 4 g with a := a })
  | .emitr g a b => some ({ Fields.base 53 5 g with a := a, b := b })
  | .resv g a => some ({ Fields.base 53 6 g with a := a })
  | .route g d a b => some ({ Fields.base 54 0 g with d := d, a := a, b := r6 b })
  | .ratwt g a => some ({ Fields.base 54 1 g with a := a })
  | .ratrd g a b => some ({ Fields.base 54 2 g with a := a, b := b })
  | .srecv g d a => some ({ Fields.base 54 3 g with d := d, a := a })
  | .sret g a b => some ({ Fields.base 54 4 g with a := a, b := b })
  | .scap g d a => some ({ Fields.base 54 5 g with d := d, a := a, x := 0 })
  | .scapSet g d a => some ({ Fields.base 54 5 g with d := d, a := a, x := 1 })
  | .barj g d a b => some ({ Fields.base 55 0 g with d := d, a := a, b := b })
  | .barw g a b => some ({ Fields.base 55 1 g with a := a, b := b })
  | .barq g d a b => some ({ Fields.base 55 2 g with d := d, a := a, b := b })
  | .grab g d a => some ({ Fields.base 55 3 g with d := d, a := a })
  | .steal g d a => some ({ Fields.base 55 4 g with d := d, a := a })
  | .rngset g a b c => some ({ Fields.base 55 5 g with a := a, b := b, c := c })
  | .rngq g d a => some ({ Fields.base 55 6 g with d := d, a := a })
  | .mfs g d sreg => some ({ Fields.base 56 0 g with d := d, x := xLow12 sreg })
  | .mts g sreg a => some ({ Fields.base 56 1 g with a := a, x := xLow12 sreg })
  | _ => none

/-- The word of a cell instruction. -/
def encode (i : Instr) : Option Word := i.fields.map Fields.pack

/-! ### The registers that a word names -/

/-- The registers of an MMA operand: a descriptor pair or a vector group (R238, R239). -/
def MmaSrc.refs (s : MmaSrc) (f : Fmt) (planes : BitVec 3) : List RegRef :=
  match s with
  | .desc g => [.g g, .g (g + 1)]
  | .group v => (List.range (groupRegs f planes)).map fun i => .v (v + BitVec.ofNat 5 i)

/-- The guard of an instruction; always for a row that is no cell instruction. -/
def Instr.guard : Instr → Guard
  | .nop g
  | .halt g
  | .yield g
  | .trap g _
  | .bkpt g
  | .abort g _
  | .waitev g _
  | .add g _ _ _ _ _
  | .sub g _ _ _ _ _
  | .and g _ _ _ _
  | .or g _ _ _ _
  | .xor g _ _ _ _
  | .andn g _ _ _ _
  | .shl g _ _ _ _
  | .shr g _ _ _ _
  | .sra g _ _ _ _
  | .rot g _ _ _ _
  | .min g _ _ _ _
  | .max g _ _ _ _
  | .minu g _ _ _ _
  | .maxu g _ _ _ _
  | .sel g _ _ _ _
  | .mul g _ _ _ _ _
  | .mulh g _ _ _ _
  | .mulhu g _ _ _ _
  | .div g _ _ _ _
  | .divu g _ _ _ _
  | .rem g _ _ _ _
  | .remu g _ _ _ _
  | .madd g _ _ _ _ _ _
  | .clz g _ _ _
  | .popc g _ _ _
  | .bfx g _ _ _ _ _
  | .bfi g _ _ _ _ _
  | .sext g _ _ _ _
  | .cmp g _ _ _ _ _
  | .addi g _ _ _
  | .andi g _ _ _
  | .ori g _ _ _
  | .xori g _ _ _
  | .shli g _ _ _
  | .shri g _ _ _
  | .srai g _ _ _
  | .roti g _ _ _
  | .cmpi g _ _ _ _
  | .li g _ _
  | .lih g _ _
  | .br g _
  | .jmp g _
  | .ret g
  | .call g _
  | .loop g _ _ _
  | .loopi g _ _ _
  | .breakLoop g _
  | .pand g _ _ _
  | .por g _ _ _
  | .pxor g _ _ _
  | .pandn g _ _ _
  | .pnot g _ _
  | .pset g _ _
  | .pmov g _ _
  | .pcnt g _ _
  | .pfirst g _ _
  | .pld g _ _
  | .pst g _ _
  | .fadd g _ _ _ _
  | .fsub g _ _ _ _
  | .fmul g _ _ _ _
  | .ffma g _ _ _ _ _
  | .fdiv g _ _ _ _
  | .fsqrt g _ _ _
  | .fmin g _ _ _ _
  | .fmax g _ _ _ _
  | .fabs g _ _ _
  | .fneg g _ _ _
  | .fcvt g _ _ _ _ _ _
  | .fclass g _ _ _
  | .fcmp g _ _ _ _
  | .vadd g _ _ _ _ _ _
  | .vsub g _ _ _ _ _ _
  | .vmul g _ _ _ _ _ _
  | .vfma g _ _ _ _ _ _ _
  | .vmin g _ _ _ _ _
  | .vmax g _ _ _ _ _
  | .vabs g _ _ _ _ _
  | .vneg g _ _ _ _ _
  | .vdiv g _ _ _ _
  | .vsqrt g _ _ _
  | .vmulh g _ _ _ _
  | .vand g _ _ _ _
  | .vor g _ _ _ _
  | .vxor g _ _ _ _
  | .vandn g _ _ _ _
  | .vshl g _ _ _ _
  | .vshr g _ _ _ _
  | .vsra g _ _ _ _
  | .vclz g _ _ _
  | .vpopc g _ _ _
  | .vrcp g _ _ _
  | .vrsq g _ _ _
  | .vexp2 g _ _ _
  | .vlog2 g _ _ _
  | .vtanh g _ _ _
  | .vcmp g _ _ _ _ _
  | .vsel g _ _ _ _
  | .vcvt g _ _ _ _ _ _ _
  | .vperm g _ _ _
  | .vbcast g _ _
  | .vbl g _ _ _
  | .vins g _ _ _
  | .vext g _ _ _
  | .vshfu g _ _ _
  | .vshfd g _ _ _
  | .vmov g _ _
  | .vred g _ _ _ _
  | .vscan g _ _ _ _
  | .mma g _ _ _ _ _ _
  | .mmag g _ _ _ _ _ _ _
  | .mzero g _
  | .mld g _ _ _ _
  | .mst g _ _ _ _
  | .mrowr g _ _ _
  | .mroww g _ _ _
  | .mtran g _ _
  | .mchk g _ _ _
  | .mchkr g _ _ _
  | .luf g _ _ _
  | .chol g _ _
  | .qrh g _ _ _
  | .trsm g _ _ _ _ _ _
  | .qapply g _ _ _ _
  | .papply g _ _
  | .papplyt g _ _
  | .prid g
  | .prld g _
  | .prst g _
  | .ld g _ _ _
  | .st g _ _ _
  | .vld g _ _
  | .vlds g _ _ _
  | .vgath g _ _
  | .vst g _ _
  | .vsts g _ _ _
  | .vscat g _ _
  | .ldh g _ _ _
  | .sth g _ _
  | .lds g _ _ _ _ _
  | .sts g _ _ _ _ _
  | .stsMask g _ _ _ _ _
  | .aadd g _ _ _ _ _
  | .afadd g _ _ _ _ _
  | .amin g _ _ _ _ _
  | .amax g _ _ _ _ _
  | .aand g _ _ _ _ _
  | .aor g _ _ _ _ _
  | .axchg g _ _ _ _ _
  | .acas g _ _ _ _ _
  | .fenceAcq g _
  | .fenceRel g _
  | .fenceFull g _
  | .talloc g _ _
  | .tfree g _
  | .tseal g _ _
  | .thdr g _ _ _
  | .tseth g _ _ _
  | .tpres g _ _
  | .tdesc g _ _
  | .cparm g _ _ _ _
  | .cpfire g _
  | .cptest g _ _ _
  | .cpwait g _ _
  | .cpcan g _
  | .cpchain g _ _ _
  | .give g _ _
  | .recl g _ _
  | .ownq g _ _
  | .tbcast g _ _ _ _
  | .tred g _ _ _ _ _ _
  | .tscan g _ _ _ _
  | .tmcast g _ _
  | .trow g _ _
  | .trecv g _
  | .tall g _ _ _ _
  | .symld g _ _
  | .syman g _ _
  | .symcnt g _
  | .emit g _
  | .emitt g _
  | .emitr g _ _
  | .resv g _
  | .route g _ _ _
  | .ratwt g _
  | .ratrd g _ _
  | .srecv g _ _
  | .sret g _ _
  | .scap g _ _
  | .scapSet g _ _
  | .barj g _ _ _
  | .barw g _ _
  | .barq g _ _ _
  | .grab g _ _
  | .steal g _ _
  | .rngset g _ _ _
  | .rngq g _ _
  | .mfs g _ _
  | .mts g _ _ => g
  | _ => .always

/-- The registers that an instruction reads, its guard apart (R86, R89). -/
def Instr.reads : Instr → List RegRef
  | .add _ _ _ _ a b
  | .sub _ _ _ _ a b
  | .and _ _ _ a b
  | .or _ _ _ a b
  | .xor _ _ _ a b
  | .andn _ _ _ a b
  | .shl _ _ _ a b
  | .shr _ _ _ a b
  | .sra _ _ _ a b
  | .rot _ _ _ a b
  | .min _ _ _ a b
  | .max _ _ _ a b
  | .minu _ _ _ a b
  | .maxu _ _ _ a b => [.g a, .g b]
  | .sel _ _ a b c => [.g a, .g b, .q c]
  | .mul _ _ _ _ a b
  | .mulh _ _ _ a b
  | .mulhu _ _ _ a b
  | .div _ _ _ a b
  | .divu _ _ _ a b
  | .rem _ _ _ a b
  | .remu _ _ _ a b => [.g a, .g b]
  | .madd _ _ _ _ a b c => [.g a, .g b, .g c]
  | .clz _ _ _ a
  | .popc _ _ _ a => [.g a]
  | .bfx _ _ _ a b c => [.g a, .g b, .g c]
  | .bfi _ _ d a b c => [.g d, .g a, .g b, .g c]
  | .sext _ _ _ a b
  | .cmp _ _ _ _ a b => [.g a, .g b]
  | .addi _ _ a _
  | .andi _ _ a _
  | .ori _ _ a _
  | .xori _ _ a _
  | .shli _ _ a _
  | .shri _ _ a _
  | .srai _ _ a _
  | .roti _ _ a _
  | .cmpi _ _ _ a _ => [.g a]
  | .lih _ d _ => [.g d]
  | .jmp _ a => [.g a]
  | .ret _ => [.g 63]
  | .loop _ _ a _ => [.g a]
  | .pand _ _ a b
  | .por _ _ a b
  | .pxor _ _ a b
  | .pandn _ _ a b => [.q a, .q b]
  | .pnot _ _ a
  | .pmov _ _ a
  | .pcnt _ _ a
  | .pfirst _ _ a => [.q a]
  | .pld _ _ a => [.g a]
  | .pst _ _ a => [.q a]
  | .fadd _ _ _ a b
  | .fsub _ _ _ a b
  | .fmul _ _ _ a b => [.g a, .g b]
  | .ffma _ _ _ a b c => [.g a, .g b, .g c]
  | .fdiv _ _ _ a b => [.g a, .g b]
  | .fsqrt _ _ _ a => [.g a]
  | .fmin _ _ _ a b
  | .fmax _ _ _ a b => [.g a, .g b]
  | .fabs _ _ _ a
  | .fneg _ _ _ a
  | .fcvt _ _ _ _ _ _ a
  | .fclass _ _ _ a => [.g a]
  | .fcmp _ _ _ a b => [.g a, .g b]
  | .vadd _ _ _ _ _ a b
  | .vsub _ _ _ _ _ a b
  | .vmul _ _ _ _ _ a b => [.v a, .v b]
  | .vfma _ _ _ _ _ a b c => [.v a, .v b, .v c]
  | .vmin _ _ _ _ a b
  | .vmax _ _ _ _ a b => [.v a, .v b]
  | .vabs _ _ _ _ _ a
  | .vneg _ _ _ _ _ a => [.v a]
  | .vdiv _ _ _ a b => [.v a, .v b]
  | .vsqrt _ _ _ a => [.v a]
  | .vmulh _ _ _ a b
  | .vand _ _ _ a b
  | .vor _ _ _ a b
  | .vxor _ _ _ a b
  | .vandn _ _ _ a b
  | .vshl _ _ _ a b
  | .vshr _ _ _ a b
  | .vsra _ _ _ a b => [.v a, .v b]
  | .vclz _ _ _ a
  | .vpopc _ _ _ a
  | .vrcp _ _ _ a
  | .vrsq _ _ _ a
  | .vexp2 _ _ _ a
  | .vlog2 _ _ _ a
  | .vtanh _ _ _ a => [.v a]
  | .vcmp _ _ _ _ a b => [.v a, .v b]
  | .vsel _ _ a b c => [.v a, .v b, .q c]
  | .vcvt _ _ _ _ _ _ a _ => [.v a]
  | .vperm _ _ a b => [.v a, .v b]
  | .vbcast _ _ a => [.g a]
  | .vbl _ _ a _ => [.v a]
  | .vins _ _ a _ => [.g a]
  | .vext _ _ a _
  | .vshfu _ _ a _
  | .vshfd _ _ a _
  | .vmov _ _ a
  | .vred _ _ _ _ a
  | .vscan _ _ _ _ a => [.v a]
  | .mma _ form planes d a b c => [.a d, .g c] ++ a.refs form.fa planes ++ b.refs form.fb planes
  | .mmag _ _ _ _ d a b c => [.a d, .g a, .g b, .g c, .g (a + 1), .g (b + 1)]
  | .mld _ _ d a c
  | .mst _ _ d a c => [.a d, .g a, .g c, .g (a + 1)]
  | .mrowr _ _ a b => [.a a, .g b]
  | .mroww _ d a b => [.a d, .v a, .g b]
  | .mtran _ _ a => [.a a]
  | .mchk _ d a c
  | .mchkr _ d a c => [.a d, .g a, .g c]
  | .luf _ _ d a
  | .chol _ d a => [.a d, .g a, .fact]
  | .qrh _ d a b => [.a d, .g a, .g b, .g (b + 1), .fact]
  | .trsm _ _ _ _ d a b
  | .qapply _ _ d a b => [.a d, .g a, .a b, .fact]
  | .papply _ d a
  | .papplyt _ d a => [.a d, .g a, .perm, .fact]
  | .prld _ a => [.g a]
  | .prst _ a => [.g a, .perm]
  | .ld _ _ _ m => [.g m.base, .g m.idx]
  | .st _ _ d m => [.g d, .g m.base, .g m.idx]
  | .vld _ _ m => [.g m.base, .g m.idx]
  | .vlds _ _ m c => [.g m.base, .g m.idx, .g c]
  | .vgath _ _ m => [.g m.base, .v m.idx]
  | .vst _ d m => [.v d, .g m.base, .g m.idx]
  | .vsts _ d m c => [.v d, .g m.base, .g m.idx, .g c]
  | .vscat _ d m => [.v d, .g m.base, .v m.idx]
  | .ldh _ _ _ m => [.g m.base, .g m.idx]
  | .sth _ d m => [.g d, .g m.base, .g m.idx]
  | .lds _ _ _ _ _ m => [.g m.base, .g m.idx]
  | .sts _ _ _ _ d m => [.g d, .g m.base, .g m.idx]
  | .stsMask _ _ _ d m c => [.g d, .g m.base, .g m.idx, .g c]
  | .aadd _ _ _ _ m c
  | .afadd _ _ _ _ m c
  | .amin _ _ _ _ m c
  | .amax _ _ _ _ m c
  | .aand _ _ _ _ m c
  | .aor _ _ _ _ m c
  | .axchg _ _ _ _ m c => [.g m.base, .g m.idx, .g c]
  | .acas _ _ _ d m c => [.g d, .g m.base, .g m.idx, .g c]
  | .tfree _ a
  | .tseal _ _ a => [.g a]
  | .thdr _ _ a b => [.g a, .g b]
  | .tseth _ a b c => [.g a, .g b, .g c]
  | .tpres _ _ a
  | .tdesc _ _ a => [.g a]
  | .cparm _ _ a b c => [.g a, .g b, .g c]
  | .cptest _ _ a b
  | .cpwait _ a b => [.g a, .g b]
  | .cpchain _ _ _ b => [.g b]
  | .give _ _ a
  | .recl _ _ a
  | .ownq _ _ a => [.g a]
  | .tbcast _ _ _ a b
  | .tred _ _ _ _ _ a b => [.v a, .g b]
  | .tscan _ _ _ _ a => [.v a]
  | .tmcast _ a b
  | .trow _ a b => [.v a, .g b]
  | .tall _ _ _ _ a => [.v a]
  | .symld _ _ a
  | .syman _ _ a
  | .emit _ a
  | .emitt _ a => [.g a]
  | .emitr _ a b => [.g a, .g b]
  | .resv _ a => [.g a]
  | .route _ _ a b => [.g a, .v b, .v (b + 1)]
  | .ratwt _ a => [.g a]
  | .ratrd _ a b => [.g a, .g b]
  | .srecv _ _ a => [.g a]
  | .sret _ a b => [.g a, .g b]
  | .scap _ _ a
  | .scapSet _ _ a => [.g a]
  | .barj _ _ a b
  | .barw _ a b
  | .barq _ _ a b => [.g a, .g b]
  | .grab _ _ a
  | .steal _ _ a => [.g a]
  | .rngset _ a b c => [.g a, .g b, .g c]
  | .rngq _ _ a
  | .mts _ _ a => [.g a]
  | .mfs _ _ n => if n = 0x005 ∨ n = 0x006 ∨ n = 0x007 then [.fact] else if n = 0x008 then [.mstat]
    else if n = 0x00D then [.cnt 0, .cnt 1, .cnt 2, .cnt 3] else []
  | _ => []

/-- The registers that an instruction writes (R86, R89). -/
def Instr.writes : Instr → List RegRef
  | .add _ _ _ d _ _
  | .sub _ _ _ d _ _
  | .and _ _ d _ _
  | .or _ _ d _ _
  | .xor _ _ d _ _
  | .andn _ _ d _ _
  | .shl _ _ d _ _
  | .shr _ _ d _ _
  | .sra _ _ d _ _
  | .rot _ _ d _ _
  | .min _ _ d _ _
  | .max _ _ d _ _
  | .minu _ _ d _ _
  | .maxu _ _ d _ _
  | .sel _ d _ _ _
  | .mul _ _ _ d _ _
  | .mulh _ _ d _ _
  | .mulhu _ _ d _ _
  | .div _ _ d _ _
  | .divu _ _ d _ _
  | .rem _ _ d _ _
  | .remu _ _ d _ _
  | .madd _ _ _ d _ _ _
  | .clz _ _ d _
  | .popc _ _ d _
  | .bfx _ _ d _ _ _
  | .bfi _ _ d _ _ _
  | .sext _ _ d _ _ => [.g d]
  | .cmp _ _ _ d _ _ => [.q d]
  | .addi _ d _ _
  | .andi _ d _ _
  | .ori _ d _ _
  | .xori _ d _ _
  | .shli _ d _ _
  | .shri _ d _ _
  | .srai _ d _ _
  | .roti _ d _ _ => [.g d]
  | .cmpi _ _ d _ _ => [.q d]
  | .li _ d _
  | .lih _ d _ => [.g d]
  | .call _ _ => [.g 63]
  | .loop _ d _ _
  | .loopi _ d _ _
  | .breakLoop _ d => [.cnt d]
  | .pand _ d _ _
  | .por _ d _ _
  | .pxor _ d _ _
  | .pandn _ d _ _
  | .pnot _ d _
  | .pset _ d _
  | .pmov _ d _ => [.q d]
  | .pcnt _ d _
  | .pfirst _ d _ => [.g d]
  | .pld _ d _ => [.q d]
  | .pst _ d _
  | .fadd _ _ d _ _
  | .fsub _ _ d _ _
  | .fmul _ _ d _ _
  | .ffma _ _ d _ _ _
  | .fdiv _ _ d _ _
  | .fsqrt _ _ d _
  | .fmin _ _ d _ _
  | .fmax _ _ d _ _
  | .fabs _ _ d _
  | .fneg _ _ d _
  | .fcvt _ _ _ _ _ d _
  | .fclass _ _ d _ => [.g d]
  | .fcmp _ _ d _ _ => [.q d]
  | .vadd _ _ _ _ d _ _
  | .vsub _ _ _ _ d _ _
  | .vmul _ _ _ _ d _ _
  | .vfma _ _ _ _ d _ _ _
  | .vmin _ _ _ d _ _
  | .vmax _ _ _ d _ _
  | .vabs _ _ _ _ d _
  | .vneg _ _ _ _ d _
  | .vdiv _ _ d _ _
  | .vsqrt _ _ d _
  | .vmulh _ _ d _ _
  | .vand _ _ d _ _
  | .vor _ _ d _ _
  | .vxor _ _ d _ _
  | .vandn _ _ d _ _
  | .vshl _ _ d _ _
  | .vshr _ _ d _ _
  | .vsra _ _ d _ _
  | .vclz _ _ d _
  | .vpopc _ _ d _
  | .vrcp _ _ d _
  | .vrsq _ _ d _
  | .vexp2 _ _ d _
  | .vlog2 _ _ d _
  | .vtanh _ _ d _ => [.v d]
  | .vcmp _ _ _ d _ _ => [.q d]
  | .vsel _ d _ _ _ => [.v d]
  | .vcvt _ _ _ _ _ d _ c => [.v d, .q c]
  | .vperm _ d _ _
  | .vbcast _ d _
  | .vbl _ d _ _
  | .vins _ d _ _ => [.v d]
  | .vext _ d _ _ => [.g d]
  | .vshfu _ d _ _
  | .vshfd _ d _ _
  | .vmov _ d _ => [.v d]
  | .vred _ _ _ d _ => [.g d]
  | .vscan _ _ _ d _ => [.v d]
  | .mma _ _ _ d _ _ _
  | .mmag _ _ _ _ d _ _ _ => [.a d, .mstat]
  | .mzero _ d
  | .mld _ _ d _ _ => [.a d]
  | .mrowr _ d _ _ => [.v d]
  | .mroww _ d _ _
  | .mtran _ d _ => [.a d]
  | .mchk _ _ _ _ => [.mstat]
  | .luf _ _ d _ => [.a d, .perm, .fact]
  | .chol _ d _
  | .qrh _ d _ _
  | .trsm _ _ _ _ d _ _
  | .qapply _ _ d _ _
  | .papply _ d _
  | .papplyt _ d _ => [.a d, .fact]
  | .prid _
  | .prld _ _ => [.perm]
  | .ld _ _ d _ => [.g d]
  | .vld _ d _
  | .vlds _ d _ _
  | .vgath _ d _ => [.v d]
  | .ldh _ _ d _
  | .lds _ _ _ _ d _
  | .aadd _ _ _ d _ _
  | .afadd _ _ _ d _ _
  | .amin _ _ _ d _ _
  | .amax _ _ _ d _ _
  | .aand _ _ _ d _ _
  | .aor _ _ _ d _ _
  | .axchg _ _ _ d _ _
  | .acas _ _ _ d _ _
  | .talloc _ _ d
  | .tseal _ d _
  | .thdr _ d _ _
  | .tpres _ d _ => [.g d]
  | .tdesc _ d _ => [.g d, .g (d + 1)]
  | .cptest _ d _ _ => [.q d]
  | .ownq _ d _ => [.g d]
  | .tbcast _ _ d _ _
  | .tred _ _ _ _ d _ _
  | .tscan _ _ _ d _
  | .trecv _ d
  | .tall _ _ _ d _ => [.v d]
  | .symld _ d _
  | .syman _ d _
  | .symcnt _ d
  | .route _ d _ _
  | .srecv _ d _
  | .scap _ d _
  | .scapSet _ d _
  | .barj _ d _ _
  | .barq _ d _ _
  | .grab _ d _
  | .steal _ d _
  | .rngq _ d _
  | .mfs _ d _ => [.g d]
  | .mts _ n _ => if n = 0x005 then [.fact] else if n = 0x008 then [.mstat] else []
  | _ => []

/-- A register outside the operator's declaration, g63 excepted (R89). -/
def RegRef.outside (dc : Decl) : RegRef → Bool
  | .g r => dc.g ≤ r.toNat && r != 63
  | .q r => dc.q ≤ r.toNat
  | .v r => dc.v ≤ r.toNat
  | _ => false

/-- A guard predicate outside the declaration (R89). -/
def Guard.outside (dc : Decl) : Guard → Bool
  | .always => false
  | .ifTrue q | .ifFalse q => dc.q ≤ q.toNat

/-- Every register that the word names lies inside the declaration (R89). -/
def Instr.declared (dc : Decl) (i : Instr) : Bool :=
  !i.guard.outside dc && i.reads.all (fun r => !r.outside dc) && i.writes.all (fun r => !r.outside dc)

/-! ### Decode -/

/-- Decode of one word under an operator's declaration, with the checks of R87 in their order of precedence. A
non-zero reserved bit shows as a word other than the encoding of the fields that were read. -/
def decodeWord (dc : Decl) (w : Word) : Except DecodeCause Instr :=
  match decodeShape w with
  | none => .error .illop
  | some i =>
    if encode i ≠ some w ∨ i.valuesOk = false then .error .illop
    else if i.groupsOk = false ∨ i.declared dc = false then .error .reggrp
    else if i.sregOk = false then .error .illop
    else .ok i

/-- The instruction that the cell issues for a fetched word: the decoded one, or the fault that its word raises. -/
def instrOfWord (dc : Decl) (w : Word) : Instr :=
  match decodeWord dc w with
  | .ok i => i
  | .error c => .notAnInstruction c

/-- Eight bytes in address order as a word, little-endian (R80). -/
def wordOfBytes (bs : List Byte) : Word :=
  bs.foldr (fun b acc => (acc <<< 8) ||| b.setWidth 64) 0

/-- The bytes of a word in address order. -/
def bytesOfWord (w : Word) : List Byte :=
  (List.range 8).map fun i => w.extractLsb' (8 * i) 8

/-- The decoder on any bytes: the first eight are one word, and the rest is left. Fewer than eight bytes hold no
word. -/
def decodeBytes (dc : Decl) (bs : List Byte) : Except DecodeCause (Instr × List Byte) :=
  if bs.length < 8 then .error .illop
  else match decodeWord dc (wordOfBytes (bs.take 8)) with
    | .ok i => .ok (i, bs.drop 8)
    | .error c => .error c

/-- The instruction read from a word whose bits are numbered as the opcode table numbers them. -/
def decodeTableWord (nbits w : Nat) : Option Instr :=
  match decodeBytes .full (bytesOfWord (BitVec.ofNat 64 (w % 2 ^ nbits))) with
  | .ok (i, _) => some i
  | .error _ => none

end Sys2Proof
end

