-- ==== Sys2Proof/Machine/Num.lean ====
section
/-! DEFINITION. The numbers of chapter 03: exact values, the rounding functions RoundF32, RoundBF16, ToGF8, ToInt and
Sat with the flags they raise, and the exact operations and functions that the instructions round (R29 to R44, R222). -/

namespace Sys2Proof.Machine

/-! ### Exact values -/

/-- An exact value (R29): NaN, an infinity, or plus or minus m times 2 to the e; m = 0 is a signed zero. A quotient, a
root or a function that is no dyadic number stands as a long truncated value whose last bit is set, which rounds as
the exact value does. -/
inductive Exact where
  | nan
  | inf (neg : Bool)
  | fin (neg : Bool) (m : Nat) (e : Int)
  deriving DecidableEq, Repr, Inhabited

/-- The five sticky flags in the order of FPCSR[12:8]: NX, OF, UF, NV, DZ from bit 0 (R33). -/
abbrev FFlags := BitVec 5
def flagNX : FFlags := 1
def flagOF : FFlags := 2
def flagUF : FFlags := 4
def flagNV : FFlags := 8
def flagDZ : FFlags := 16

/-- The number of bits of m. -/
def bitLen (m : Nat) : Nat := if m = 0 then 0 else Nat.log2 m + 1

/-- m shifted by a signed count, left when it is positive. -/
def shiftBy (m : Nat) (k : Int) : Nat :=
  match k with
  | .ofNat n => m <<< n
  | .negSucc n => m >>> (n + 1)

namespace Exact

def isNan : Exact → Bool
  | .nan => true
  | _ => false

def isInf : Exact → Bool
  | .inf _ => true
  | _ => false

def isZero : Exact → Bool
  | .fin _ 0 _ => true
  | _ => false

def sign : Exact → Bool
  | .nan => false
  | .inf n => n
  | .fin n _ _ => n

def neg : Exact → Exact
  | .nan => .nan
  | .inf n => .inf !n
  | .fin n m e => .fin (!n) m e

def abs : Exact → Exact
  | .nan => .nan
  | .inf _ => .inf false
  | .fin _ m e => .fin false m e

/-- The value of an integer. -/
def ofInt (i : Int) : Exact := .fin (i < 0) i.natAbs 0

/-- A zero of the sign that an exact cancellation has: +0, and -0 in RDN (R29). -/
def cancelZero (rm : Rm) : Exact := .fin (rm == .rdn) 0 0

/-- The signed coefficient of a finite value at exponent e0, which is at most its own. -/
def coeff (neg : Bool) (m : Nat) (e e0 : Int) : Int :=
  let c : Int := (m <<< (e - e0).toNat : Nat)
  if neg then -c else c

/-- The exact sum; the mode fixes the sign of a zero that cancels (R29). -/
def add (rm : Rm) (x y : Exact) : Exact :=
  match x, y with
  | .nan, _ | _, .nan => .nan
  | .inf a, .inf b => if a = b then .inf a else .nan
  | .inf a, _ => .inf a
  | _, .inf b => .inf b
  | .fin n1 m1 e1, .fin n2 m2 e2 =>
    if m1 = 0 ∧ m2 = 0 then (if n1 = n2 then .fin n1 0 0 else cancelZero rm)
    else if m1 = 0 then .fin n2 m2 e2
    else if m2 = 0 then .fin n1 m1 e1
    else
      let e0 := min e1 e2
      let s := coeff n1 m1 e1 e0 + coeff n2 m2 e2 e0
      if s = 0 then cancelZero rm else .fin (s < 0) s.natAbs e0

def sub (rm : Rm) (x y : Exact) : Exact := add rm x y.neg

/-- The exact product; a zero takes the exclusive-or of the signs (R29). -/
def mul (x y : Exact) : Exact :=
  match x, y with
  | .nan, _ | _, .nan => .nan
  | .inf a, .inf b => .inf (a != b)
  | .inf a, .fin n m _ => if m = 0 then .nan else .inf (a != n)
  | .fin n m _, .inf b => if m = 0 then .nan else .inf (n != b)
  | .fin n1 m1 e1, .fin n2 m2 e2 => .fin (n1 != n2) (m1 * m2) (e1 + e2)

/-- x times y plus z, exactly (R29). -/
def fma (rm : Rm) (x y z : Exact) : Exact := add rm (mul x y) z

/-- A quotient of naturals at 2 to the e, as a truncated value with a sticky last bit. -/
def quotient (neg : Bool) (n d : Nat) (e : Int) : Exact :=
  let k := 72 + (bitLen d - bitLen n)
  let q := (n <<< k) / d
  let sticky := if (n <<< k) % d = 0 then 0 else 1
  .fin neg (2 * q + sticky) (e - k - 1)

/-- The quotient; a non-zero value by zero is an infinity (R29). -/
def div (x y : Exact) : Exact :=
  match x, y with
  | .nan, _ | _, .nan => .nan
  | .inf _, .inf _ => .nan
  | .inf a, .fin n _ _ => .inf (a != n)
  | .fin n _ _, .inf b => .fin (n != b) 0 0
  | .fin n1 m1 e1, .fin n2 m2 e2 =>
    if m2 = 0 then (if m1 = 0 then .nan else .inf (n1 != n2))
    else if m1 = 0 then .fin (n1 != n2) 0 0
    else quotient (n1 != n2) m1 m2 (e1 - e2)

/-- The integer square root below x, bit by bit from bit b - 1. -/
def isqrtFrom (x : Nat) : Nat → Nat → Nat
  | 0, r => r
  | b + 1, r =>
    let t := r + 2 ^ b
    isqrtFrom x b (if t * t ≤ x then t else r)

def isqrt (x : Nat) : Nat := isqrtFrom x (bitLen x / 2 + 1) 0

/-- The square root; of -0 it is -0 and of a negative value NaN (R29). -/
def sqrt (x : Exact) : Exact :=
  match x with
  | .nan => .nan
  | .inf n => if n then .nan else .inf false
  | .fin n m e =>
    if m = 0 then .fin n 0 0
    else if n then .nan
    else
      let m' := if e % 2 = 0 then m else 2 * m
      let e' := if e % 2 = 0 then e else e - 1
      let r := isqrt (m' <<< 144)
      let sticky := if r * r = m' <<< 144 then 0 else 1
      .fin false (2 * r + sticky) (e' / 2 - 73)

/-- 1 / sqrt x of a finite value above 0. -/
def rsqFin (m : Nat) (e : Int) : Exact :=
  let m' := if e % 2 = 0 then m else 2 * m
  let e' := if e % 2 = 0 then e else e - 1
  let k := bitLen m' + 72
  let r := isqrt (2 ^ (2 * k) / m')
  let sticky := if r * r * m' = 2 ^ (2 * k) then 0 else 1
  .fin false (2 * r + sticky) (-(e' / 2) - k - 1)

/-- Order of values that are no NaN, with equal zeros. -/
def ltNum (x y : Exact) : Bool :=
  match x, y with
  | .nan, _ | _, .nan => false
  | .inf a, .inf b => a && !b
  | .inf a, _ => a
  | _, .inf b => !b
  | .fin n1 m1 e1, .fin n2 m2 e2 =>
    let e0 := min e1 e2
    coeff n1 m1 e1 e0 < coeff n2 m2 e2 e0

def eqNum (x y : Exact) : Bool := !x.isNan && !y.isNan && !ltNum x y && !ltNum y x

/-- Order with -0 below +0, for minimum and maximum (R200, R219). -/
def ltTotal (x y : Exact) : Bool := ltNum x y || (eqNum x y && x.sign && !y.sign)

def min (x y : Exact) : Exact :=
  if x.isNan || y.isNan then .nan else if ltTotal y x then y else x

def max (x y : Exact) : Exact :=
  if x.isNan || y.isNan then .nan else if ltTotal x y then y else x

end Exact

/-! ### Rounding -/

/-- The bits of m dropped by k round the rest up (R31); `odd` is the last bit kept. -/
def roundsUp (rm : Rm) (neg odd : Bool) (rem half : Nat) : Bool :=
  match rm with
  | .rtz => false
  | .rup => !neg
  | .rdn => neg
  | .rna => half ≤ rem
  | .rne | .dyn => half < rem || (rem == half && odd)

/-- m times 2 to the e at the quantum 2 to the q: the coefficient, and whether it is inexact. -/
def quantise (rm : Rm) (neg : Bool) (m : Nat) (e q : Int) : Nat × Bool :=
  if q ≤ e then (m <<< (e - q).toNat, false)
  else
    let k := (q - e).toNat
    let r := m >>> k
    let rem := m - (r <<< k)
    if rem = 0 then (r, false)
    else (if roundsUp rm neg (r % 2 == 1) rem (2 ^ (k - 1)) then r + 1 else r, true)

/-- A value rounded to p significant bits, the quantum not below 2 to the qmin: coefficient, quantum, inexact. -/
def roundSig (rm : Rm) (neg : Bool) (m : Nat) (e : Int) (p : Nat) (qmin : Option Int) : Nat × Int × Bool :=
  let q0 := e + bitLen m - p
  let q := match qmin with
    | some l => if q0 < l then l else q0
    | none => q0
  let (r, inexact) := quantise rm neg m e q
  if bitLen r > p then (r >>> 1, q + 1, inexact) else (r, q, inexact)

/-- NX and UF of a finite rounding: UF when the value rounded with an unbounded exponent lies below the least normal
2 to the emin and the result is inexact (R34). -/
def roundFlags (rm : Rm) (neg : Bool) (m : Nat) (e : Int) (p : Nat) (emin : Int) (inexact : Bool) : FFlags :=
  if inexact then
    let (_, q, _) := roundSig rm neg m e p none
    if q + p - 1 < emin then flagNX ||| flagUF else flagNX
  else 0

/-- Rounding to a binary format with 8 exponent bits and f fraction bits: RoundF32 for f = 23, RoundBF16 for f = 7
(R29). The mode is not DYN. -/
def roundBin (f : Nat) (x : Exact) (rm : Rm) : Nat × FFlags :=
  let signBit (n : Bool) : Nat := if n then 2 ^ (f + 8) else 0
  let expAll : Nat := 255 * 2 ^ f
  match x with
  | .nan => (expAll + 2 ^ (f - 1), 0)
  | .inf n => (signBit n + expAll, 0)
  | .fin n m e =>
    if m = 0 then (signBit n, 0)
    else
      let (r, q, inexact) := roundSig rm n m e (f + 1) (some (-126 - f))
      let fl := roundFlags rm n m e (f + 1) (-126) inexact
      if r = 0 then (signBit n, fl)
      else if 127 < q + bitLen r - 1 then
        let toInf := match rm with
          | .rne | .rna | .dyn => true
          | .rup => !n
          | .rdn => n
          | .rtz => false
        (signBit n + (if toInf then expAll else expAll - 1), fl ||| flagOF ||| flagNX)
      else if bitLen r = f + 1 then
        (signBit n + ((q + f + 127).toNat) * 2 ^ f + (r - 2 ^ f), fl)
      else (signBit n + r, fl)

/-- RoundF32 (R29). -/
def roundF32 (x : Exact) (rm : Rm) : Lane × FFlags :=
  ((roundBin 23 x rm).1, (roundBin 23 x rm).2)

/-- RoundBF16 (R29). -/
def roundBF16 (x : Exact) (rm : Rm) : BitVec 16 × FFlags :=
  ((roundBin 7 x rm).1, (roundBin 7 x rm).2)

/-- ToGF8 (R37) with the overflow bit, and the flags that VCVT and FCVT raise for it (R202). -/
def toGF8 (x : Exact) (rm : Rm) : BitVec 8 × Bool × FFlags :=
  match x with
  | .nan => (0x80, true, flagNV)
  | .inf n => (if n then 0xFF else 0x7F, true, flagNV)
  | .fin n m e =>
    if m = 0 then (0, false, 0)
    else
      let (r, q, inexact) := roundSig rm n m e 4 (some (-10))
      let fl := roundFlags rm n m e 4 (-7) inexact
      if r = 0 then (0, false, fl)
      else if 0 ≤ q ∧ 240 < r <<< q.toNat then (if n then 0xFF else 0x7F, true, flagOF ||| flagNX)
      else if 8 ≤ r then
        (BitVec.ofNat 8 ((if n then 128 else 0) + (q + 11).toNat * 8 + (r - 8)), false, fl)
      else (BitVec.ofNat 8 ((if n then 128 else 0) + r), false, fl)

/-- Sat (R29): x clamped to lo .. hi, and the overflow bit. -/
def clampInt (x lo hi : Int) : Int × Bool :=
  if x < lo then (lo, true) else if hi < x then (hi, true) else (x, false)

/-- The range of an integer of w bits. -/
def intLo (signed : Bool) (w : Nat) : Int := if signed then -(2 ^ (w - 1) : Nat) else 0
def intHi (signed : Bool) (w : Nat) : Int := if signed then (2 ^ (w - 1) - 1 : Nat) else (2 ^ w - 1 : Nat)

/-- Sat to an integer type of w bits (R29). -/
def satInt (x : Int) (signed : Bool) (w : Nat) : Int × Bool := clampInt x (intLo signed w) (intHi signed w)

/-- ToInt (R29): the integer, the overflow bit, and whether the rounding was inexact. -/
def toInt (x : Exact) (rm : Rm) (signed : Bool) (w : Nat) : Int × Bool × Bool :=
  match x with
  | .nan => (0, true, false)
  | .inf n => (if n then intLo signed w else intHi signed w, true, false)
  | .fin n m e =>
    let (r, inexact) := quantise rm n m e 0
    let (v, ov) := satInt (if n then -(r : Int) else r) signed w
    (v, ov, inexact)

/-! ### The formats -/

/-- The value of a binary format with 8 exponent bits and f fraction bits (R30, R35). -/
def ofBin (f : Nat) (b : Nat) : Exact :=
  let neg := b / 2 ^ (f + 8) % 2 == 1
  let ex := b / 2 ^ f % 256
  let fr := b % 2 ^ f
  if ex = 255 then (if fr = 0 then .inf neg else .nan)
  else if ex = 0 then .fin neg fr (-126 - f)
  else .fin neg (2 ^ f + fr) ((ex : Int) - 127 - f)

/-- The value of a binary32 (R30). -/
def ofF32 (x : Lane) : Exact := ofBin 23 x.toNat

/-- The value of a BF16 (R35). -/
def ofBF16 (x : BitVec 16) : Exact := ofBin 7 x.toNat

/-- The value of a GF8 byte (R36). -/
def ofGF8 (x : BitVec 8) : Exact :=
  if x = 0x80 then .nan
  else
    let ex := x.toNat / 8 % 16
    let m := x.toNat % 8
    let neg := x.getLsbD 7
    if ex = 0 then .fin (neg && m != 0) m (-10) else .fin neg (8 + m) ((ex : Int) - 11)

def isNanF32 (x : Lane) : Bool := (x &&& 0x7FFFFFFF).toNat > 0x7F800000

/-- A signalling NaN: the top fraction bit is clear (R32). -/
def isSnanF32 (x : Lane) : Bool := isNanF32 x && !x.getLsbD 22

def isSnanBF16 (x : BitVec 16) : Bool :=
  (x &&& 0x7FFF).toNat > 0x7F80 && !x.getLsbD 6

/-- The canonical NaN of binary32 (R32). -/
def nanF32 : Lane := 0x7FC00000

/-- RoundF32 to nearest even of a sum, and of a fused product (R52, R54, R58, R260): the forms without flags. -/
def f32AddRne (x y : Lane) : Lane := (roundF32 (.add .rne (ofF32 x) (ofF32 y)) .rne).1

def f32MulRne (x y : Lane) : Lane := (roundF32 (.mul (ofF32 x) (ofF32 y)) .rne).1

def f32SubRne (x y : Lane) : Lane := (roundF32 (.sub .rne (ofF32 x) (ofF32 y)) .rne).1

def f32DivRne (x y : Lane) : Lane := (roundF32 (.div (ofF32 x) (ofF32 y)) .rne).1

def f32SqrtRne (x : Lane) : Lane := (roundF32 (ofF32 x).sqrt .rne).1

/-- RoundF32(z + x y) and RoundF32(z - x y), each one fused operation. -/
def f32FmaRne (x y z : Lane) : Lane := (roundF32 (.fma .rne (ofF32 x) (ofF32 y) (ofF32 z)) .rne).1

def f32FmsRne (z x y : Lane) : Lane := (roundF32 (.fma .rne (ofF32 x).neg (ofF32 y) (ofF32 z)) .rne).1

/-! ### The exact functions of VFUN (R222)

Fixed-point values have 256 fraction bits. Each result is truncated far beyond the point at which binary32 rounding is
decided, and its last bit is set, since the exact value is no dyadic number there. -/

namespace Fix

def one : Nat := 2 ^ 256

def mul (x y : Nat) : Nat := (x * y) >>> 256

/-- The sum over k of t^(2k+1) / (2k+1), n terms, from the power p = t^(2k+1). -/
def atanhFrom (t2 : Nat) : Nat → Nat → Nat → Nat → Nat
  | 0, _, _, acc => acc
  | n + 1, k, p, acc => atanhFrom t2 n (k + 1) (mul p t2) (acc + p / (2 * k + 1))

def atanh (t : Nat) : Nat := atanhFrom (mul t t) 90 0 t 0

/-- ln 2 = 2 atanh (1/3). -/
def ln2 : Nat := 2 * atanh (one / 3)

/-- The sum of the powers y^k / k!, n terms. -/
def expFrom (y : Nat) : Nat → Nat → Nat → Nat → Nat
  | 0, _, _, acc => acc
  | n + 1, k, t, acc => expFrom y n (k + 1) (mul t y / (k + 1)) (acc + t)

/-- e to the y for 0 ≤ y < 1. -/
def exp (y : Nat) : Nat := expFrom y 64 0 one 0

/-- Squared n times. -/
def squares : Nat → Nat → Nat
  | 0, x => x
  | n + 1, x => squares n (mul x x)

/-- A magnitude m times 2 to the e as fixed point, truncated. -/
def ofMag (m : Nat) (e : Int) : Nat := shiftBy m (e + 256)

/-- A truncated fixed-point magnitude whose exact value is no dyadic number. -/
def sticky (neg : Bool) (x : Nat) : Exact := .fin neg (2 * x + 1) (-257)

end Fix

/-- 2 to the x of a finite value. -/
def exp2Fin (neg : Bool) (m : Nat) (e : Int) : Exact :=
  if m = 0 then .fin false 1 0
  else if 1024 ≤ shiftBy m e then (if neg then .fin false 3 (-2048) else .fin false 3 2048)
  else
    let x := Fix.ofMag m e
    let whole : Int := x / Fix.one
    let frac := x % Fix.one
    if frac = 0 then
      if e + bitLen m ≤ -200 then
        (if neg then .fin false (2 ^ 200 - 1) (-200) else .fin false (2 ^ 200 + 1) (-200))
      else .fin false 1 (if neg then -whole else whole)
    else
      let n := if neg then -whole - 1 else whole
      let f := if neg then Fix.one - frac else frac
      match Fix.sticky false (Fix.exp (Fix.mul f Fix.ln2)) with
      | .fin s m' e' => .fin s m' (e' + n)
      | y => y

/-- log2 of a finite value above 0. -/
def log2Fin (m : Nat) (e : Int) : Exact :=
  let l := bitLen m
  let n : Int := e + l - 1
  if m = 2 ^ (l - 1) then .ofInt n
  else
    let z := shiftBy m (257 - l)
    let t := ((z - Fix.one) <<< 256) / (z + Fix.one)
    let lg : Int := ((2 * Fix.atanh t) <<< 256) / Fix.ln2
    let v : Int := n * (Fix.one : Int) + lg
    Fix.sticky (v < 0) v.natAbs

/-- tanh of a non-zero finite value. -/
def tanhFin (neg : Bool) (m : Nat) (e : Int) : Exact :=
  if e + bitLen m < -40 then .fin neg ((m <<< 100) - 1) (e - 100)
  else if 64 ≤ shiftBy m e then .fin neg (2 ^ 100 - 1) (-100)
  else
    let y := Fix.ofMag m (e + 1)
    let ex := Fix.squares 8 (Fix.exp (y >>> 8))
    Fix.sticky neg (((ex - Fix.one) <<< 256) / (ex + Fix.one))

end Sys2Proof.Machine
end

