-- ==== Sys2Proof/Config.lean ====
section
/-! DEFINITION. What is fixed for one part and left open by the manual (free values: constants without a body), and
the turns by which the part's agents move. -/

namespace Sys2Proof

/-- What moves in one step (DESIGN CHOICE, log 1): the live execution of a cell issues its next word, an event row of
the opcode table happens, the host writes or reads a register of BAR0, or the host writes its own memory. -/
inductive Act where
  /-- The live execution of the cell issues its next word; `ecc` when the fetched word has an uncorrectable error
  (R81). -/
  | cell (c : CellId) (ecc : Bool)
  /-- A host command, an event of a unit, a phase of a pass or a link event, with what it acts on. -/
  | event (i : Instr) (arg : EventArgs)
  /-- A host write of a register of BAR0 (R409). -/
  | barWrite (off : Nat) (val : Word)
  /-- A host read of a register of BAR0 (R409). -/
  | barRead (off : Nat)
  /-- The host writes bytes of its own memory. -/
  | hostMemory (addr : Nat) (bytes : List Byte)
  /-- The host reads the word at a physical address (R307). -/
  | hostLoad (pa : Nat)
  /-- The host gives a fabric identifier its mask of links (R393, DESIGN CHOICE, log 16). -/
  | routeMask (dst : BitVec 18) (mask : BitVec 16)
  deriving DecidableEq, Repr, Inhabited

/-- One turn: the cycles that pass before it, and what moves (DESIGN CHOICE, log 1). -/
structure Turn where
  dt  : Nat
  act : Act
  deriving DecidableEq, Repr, Inhabited

namespace Config

/-- Which agent moves at the n-th turn that the agenda does not give: free (DESIGN CHOICE, log 2). -/
opaque freeTurn : Nat → Turn

/-- The deferral channel, 0 to 31, of a physical heap word: free, the manual gives no map (DESIGN CHOICE, log 10). -/
opaque deferralChannel : Nat → Nat

/-- What the management core finds in a firmware image (its bytes): the outcome of the header check, the signature
checks and the digest check, and the image's SVN; free, since the manual gives no image layout
(DESIGN CHOICE, log 11). -/
opaque firmwareHeaderOk : List Byte → Bool
opaque firmwareRsaOk : List Byte → Bool
opaque firmwareHashOk : List Byte → Bool
opaque firmwareDigestOk : List Byte → Bool
opaque firmwareSvn : List Byte → BitVec 16
/-- The fused minimum SVN of the part (DESIGN CHOICE, log 11). -/
opaque fusedSvn : BitVec 16

/-- A byte that a firing reads past the last chunk of its source tile (R427, R430, R432; DEDUCED, log 89). -/
opaque pastTile : Nat → Byte

/-- The CRC-64 of a flit's bytes 0 to 247, as words: free, the manual gives no polynomial (DESIGN CHOICE, log 21). -/
opaque crc64 : List Word → Word

/-- Byte n of the attestation report, of the bytes that it is to attest: the nonce, the cycle, DEVID, SVN, FABID, the
firmware and the registered images (DESIGN CHOICE, log 12). -/
opaque attestByte : List Byte → Nat → Byte

/-- The silicon revision of the part (R410, DESIGN CHOICE, log 12). -/
opaque revision : BitVec 32

/-- The package power in watts at a cycle (DESIGN CHOICE, log 18). -/
opaque packagePower : Nat → Word

/-- The PC and the iteration vector of a trap record that no instruction raised, and the position of one that no
symbol raised (DESIGN CHOICE, log 27). -/
opaque noInstruction : Nat → Word
opaque noSymbol : Nat → Nat

/-- The term that a hardware error in a K-block, named by its cycle, adds to the checker's sum of a column (R244): its
sign, and a magnitude m 2^e (DESIGN CHOICE, log 72). -/
opaque strayTerm : Nat → Nat → Bool × Nat × Int

/-- The set, of 128, in which a slice keeps a line, and the choice of the line that leaves a full set, by a counter; the
manual gives neither the index nor the replacement (R15; DESIGN CHOICE, log 74). -/
opaque sliceSet : Nat → Nat
opaque sliceVictim : Nat → Nat

/-- The set of a gallery's second-level TLB that an entry occupies, by context and page base; each implementation
decides (R374; DESIGN CHOICE, log 78). -/
opaque tlbSet : Nat → Nat → Nat

end Config

end Sys2Proof
end

