-- ==== Sys2Proof/Machine/State.lean ====
section
/-! DEFINITION. The state of the machine: everything the manual gives the part, as plain data, and the state after
reset. The operations on it stand in Ops. -/

namespace Sys2Proof.Machine

/-- A sparse table in one canonical form: keys strictly rising, no entry equal to the table's default. -/
abbrev Tbl (α : Type) := List (Nat × α)

/-- Bytes by address, in the canonical form of Memory.wf. -/
abbrev Memory := List Host.Cell

/-- A vector register (R88). -/
abbrev Vec := Vector Lane 64

/-- An accumulator (R88): row i, column j. -/
abbrev Mat := Vector Vec 64

/-- Why a step of the machine stops. -/
inductive Fault where
  /-- A cell instruction is asked of a cell that has no live execution: raised by every cell instruction; no step of
  the machine asks for one, so it is safe. -/
  | noLiveExecution
  deriving DecidableEq, Repr

/-- Why an instruction has no meaning here. -/
inductive Refusal where
  /-- An instruction of the opcode table that the model does not give a meaning; raised by Dispatch alone, safe. -/
  | notModelled (mnemonic : String)
  deriving DecidableEq, Repr

/-- The fault classes of R108. -/
inductive Class where
  | value | factor | program | memory | user | machine
  deriving DecidableEq, Repr, Inhabited

/-- A cause code of R109. -/
abbrev Cause := BitVec 16

/-- A trap record (R110). -/
structure TrapRec where
  cause : Cause
  nr    : Bool
  pass  : Bool
  cls   : Class
  /-- The row position of the redex's APPO or of the affected symbol: cell and slot. -/
  pos   : Nat
  cell  : Nat
  op    : BitVec 16
  pc    : Word
  iter  : Word
  addr  : Option Word
  /-- The cycle of the fault, which orders the records (R110). -/
  time  : Word := 0
  deriving DecidableEq, Repr, Inhabited

/-! ### Member executions -/

/-- The loop state of one counter (R205). -/
structure LoopState where
  start  : Word := 0
  last   : Word := 0
  count  : BitVec 16 := 0
  active : Bool := false
  /-- The order in which the loops were started. -/
  stamp  : Nat := 0
  deriving DecidableEq, Repr, Inhabited

/-- Why an execution waits (R132, R419). -/
inductive WaitOn where
  | nothing
  /-- A chunk mask of a tile (CPWAIT). -/
  | chunks (tile : Nat) (mask : BitVec 64)
  /-- An engine's work on a tile (RECL). -/
  | engine (tile : Nat) (eng : Engine)
  /-- The end of every engine operation of the member: an issued HALT (R207). -/
  | engines
  /-- A heap word by physical address; the flag tells that the deferral table was full (LDH). -/
  | presence (pa : Nat) (full : Bool)
  /-- A generation of a barrier, by the control block's physical address: its completion (BARW), or the end of the
  current one (BARJ of a member that has arrived). -/
  | barrier (pa : Nat) (gen : BitVec 32) (join : Bool)
  /-- The reply to a range request on another part. -/
  | reply (id : Nat)
  /-- A completed reassembly entry (RATWT). -/
  | rat (entry : Nat)
  /-- A free reassembly entry (ROUTE). -/
  | ratFree
  /-- A row in the station's inbox (SRECV). -/
  | inbox
  /-- A message in the receive buffer (TRECV). -/
  | message
  /-- Messages sent and not taken by their receivers (TMCAST, TROW). -/
  | sending (ids : List Nat)
  /-- A translation that misses: page base, write. -/
  | page (va : Word) (write : Bool)
  /-- A walk under way. -/
  | walk (id : Nat)
  /-- The completion of a span or MMAG collective. -/
  | collective (mmag : Bool) (count : Nat)
  /-- An event of the mask (WAITEV). -/
  | events (mask : BitVec 6)
  /-- A template held by another execution (CPARM). -/
  | template (t : TmplId)
  /-- A firing of a template in flight (CPARM, CPFIRE). -/
  | firing (t : TmplId)
  /-- YIELD: ready at once. -/
  | yielded
  deriving DecidableEq, Repr, Inhabited

/-- Where a member execution stands in its cell (R121, R367). -/
inductive ExecStatus where
  /-- The place kept for a member whose redex is LOADING (R127, R129). -/
  | loading
  | queued | live | parked | ready | suspended
  deriving DecidableEq, Repr, Inhabited

/-- A message between members (R171): its sender's rank and its vector. -/
structure Message where
  sender : Nat
  vec    : Vec
  deriving DecidableEq, Repr, Inhabited

/-- An entry of the matrix engine's queue (R235): the instruction, the g values read at its issue, and how far it has
gone. -/
structure MatOp where
  pc    : Word
  /-- The iteration vector at its issue. -/
  iter  : Word := 0
  instr : Instr
  ga    : Word := 0
  ga1   : Word := 0
  gb    : Word := 0
  gb1   : Word := 0
  gc    : Word := 0
  /-- The K-block or step to come. -/
  next  : Nat := 0
  /-- The MMAG collective's number (R245). -/
  mmag  : Nat := 0
  /-- The K-blocks, by their cycles, whose check sums a hardware error has struck (R244). -/
  strays : List Nat := []
  started : Bool := false
  deriving DecidableEq, Repr, Inhabited

/-- The identity of perm (R267). -/
def permIdentity : Vector (BitVec 16) 256 :=
  Vector.ofFn fun i => if i.val < 192 then BitVec.ofNat 16 (i.val % 64) else 0

/-- A member execution with its registers (R88, R121, R131). -/
structure Exec where
  ctx    : CtxId
  /-- The row position of the redex's APPO. -/
  appo   : Nat
  rank   : Nat
  op     : BitVec 16
  status : ExecStatus := .queued
  wait   : WaitOn := .nothing
  /-- What CPWAIT, BARW or a collective awaited has happened, and the word is still to complete. -/
  met    : Bool := false
  /-- The order in which the entry reached its launch queue. -/
  age    : Nat := 0
  pc     : Word := 0
  g      : Vector Word 64 := .replicate 64 0
  q      : Vector (BitVec 64) 16 := .replicate 16 0
  v      : Vector Vec 32 := .replicate 32 (.replicate 64 0)
  a      : Vector Mat 4 := .replicate 4 (.replicate 64 (.replicate 64 0))
  /-- Accumulators written since launch (R131). -/
  aUsed  : BitVec 4 := 0
  cnt    : Vector (BitVec 16) 4 := .replicate 4 0
  loops  : Vector LoopState 4 := .replicate 4 {}
  perm   : Vector (BitVec 16) 256 := permIdentity
  fpcsr  : Word := 0
  rand   : Word := 0
  mstat  : Word := 0
  fprog  : Word := 0
  fstat  : Word := 0
  grow   : Word := 0
  events : BitVec 6 := 0
  /-- Span and MMAG collectives joined (R167, R245). -/
  spans  : Nat := 0
  mmags  : Nat := 0
  recv   : List Message := []
  /-- Ticket positions of a station member (R341). -/
  tickets : Tbl Word := []
  /-- The sequence tags of its routes (R336, R339). -/
  tags : List (BitVec 16) := []
  ratst  : Word := 0
  cpEnds : BitVec 32 := 0
  /-- The matrix engine's queue for this member, the instruction under way first (R235, R236). -/
  mq     : List MatOp := []
  /-- Accesses that must complete before the next word issues (R308). -/
  fence  : List Nat := []
  /-- The reply to its range request: whether it faults, and its value (R365). -/
  reply  : Option (Bool × Word) := none
  /-- The arena address that a TSEAL waiting for a page has taken (R280). -/
  arena  : Option Word := none
  /-- Chunks of tile space, or the save area, that hold its frame (R131). -/
  frame  : List Nat := []
  area   : Option Nat := none
  /-- A save of its files is in an area because it is suspended (R106). -/
  saved  : Bool := false
  /-- Its cell takes the operator's code with this launch (R129). -/
  newCode : Bool := false
  /-- A suspension waits for the boundary of the word that it is inside (R106). -/
  stopAsked : Bool := false
  /-- The K-blocks of its MMA that a member of MMUL or MMULACC has run, and those that a hardware error has struck
  (R187, R244, R251). -/
  blocks : Nat := 0
  strays : List Nat := []
  deriving DecidableEq, Repr, Inhabited

/-! ### Redexes -/

/-- The states of R120 that the part keeps a record for; a RUNNING redex is WAITING when every unhalted member is
parked. -/
inductive RState where
  | innermost | loading | running | halted | commitPending | discarded
  deriving DecidableEq, Repr, Inhabited

/-- What becomes of a discarded or collected redex (R111, R135). -/
inductive Fate where
  | none
  /-- Rewritten to BOT with the cause at the next COMMIT. -/
  | bot (cause : Cause)
  /-- Discarded by a recorded fault; RELEASE decides. -/
  | trapped (cause : Cause)
  deriving DecidableEq, Repr, Inhabited

/-- A held heap write (R133): its value, and the physical address that its page gave. -/
structure Held where
  val : Word
  pa  : Option Nat
  deriving DecidableEq, Repr, Inhabited

/-- A member that has halted: its rank, and the PC and iteration vector of its HALT (R121, R169). -/
structure Halted where
  rank : Nat
  pc   : Word
  iter : Word
  deriving DecidableEq, Repr, Inhabited

/-- A redex (R120, R133). -/
structure Redex where
  state  : RState
  op     : BitVec 16
  first  : Nat
  last   : Nat
  /-- The row positions of APPO and APPC; the redex's slots are the occupied ones between them. -/
  appc   : Nat
  len    : Nat
  elems  : Nat
  serial : Option (BitVec 32) := none
  sdc    : Nat := 0
  /-- Emitted symbols by rank, in program order (R124). -/
  out    : Tbl (List Word) := []
  /-- Held heap words by VA[47:3] (R133). -/
  held   : Tbl Held := []
  resv   : Option (BitVec 32) := none
  /-- The positions that a granted reservation holds, and the first of them (R149). -/
  granted : Nat := 0
  grantAt : Nat := 0
  halts  : List Halted := []
  fate   : Fate := .none
  /-- The annotations that MARK fixed, by row position (R79). -/
  ann    : Tbl Word := []
  loadFails : Nat := 0
  /-- It has been discarded to be replayed: its launch serial, its annotations and its place stay (R79, R92, R135). -/
  replayed : Bool := false
  /-- A page that admission or its held words wait for has been announced since they last asked (R150, R375). -/
  woken  : Bool := false
  /-- The region, VA[47:16], of the sump page that its admission waits for, until the WAKE of that page (R155, R375). -/
  sumpAsk : Option Nat := none
  /-- It was launched as a station, and its span is a station's wall until it is retired or discarded (R142, R330). -/
  station : Bool := false
  /-- Cells and chunks of tile space that hold emitted symbols (R137). -/
  chunks : List (Nat × Nat) := []
  /-- The cause that keeps it INNERMOST, or why admission refused it; the code of readback kind 0x09. -/
  cause  : BitVec 8 := 0
  deriving DecidableEq, Repr, Inhabited

/-! ### Tiles and engines -/

/-- The states of a tile-table entry (R274). -/
inductive TileState where
  | free | priv | shared | copy | matrix | route | pendfree
  deriving DecidableEq, Repr, Inhabited

/-- A tile-table entry (R273), with the reads in flight that PENDFREE waits for. -/
structure Tile where
  base   : Nat := 0
  count  : Nat := 0
  fmt    : Fmt := .f32
  ctx    : CtxId := 0
  state  : TileState := .free
  pin    : Bool := false
  /-- The APPO position of the redex whose member in this cell allocated it; none once no member owns it. -/
  owner  : Option Nat := none
  /-- OWNX: the queue entry of that member; 0xFFFF of a tile that LOAD places, which no member allocated
  (DESIGN CHOICE, log 94). -/
  ownx   : Nat := 0xFFFF
  bitmap : BitVec 64 := 0
  reads  : Nat := 0
  /-- The copy engine is still to read the tile for a TSEAL (R280). -/
  sealing : Bool := false
  /-- An engine has been given work on the tile, and its end has not been reported (R281). -/
  working : Bool := false
  deriving DecidableEq, Repr, Inhabited

/-- A firing of a template in flight (R286). -/
structure Firing where
  num    : BitVec 48
  src    : Word
  dst    : Word
  shape  : Word
  first  : Nat
  last   : Nat
  /-- Chunks that have landed. -/
  landed : BitVec 64 := 0
  /-- Chunks whose remote acknowledgement is still to come. -/
  unacked : List Nat := []
  /-- Of chunks that are being read, the words read so far (R316). -/
  got    : Tbl (Tbl Word) := []
  /-- Of chunks that are being sent to a remote part, the lines sent so far: 4 × chunk + line (R316). -/
  lines  : List Nat := []
  /-- Chunks whose read of an absent heap word holds an entry of a deferral table, and the word's physical address
  (R16, R300). -/
  defer  : Tbl Nat := []
  /-- Regions, VA[47:16], whose page is missing and that wait for WAKE (R375). -/
  stalled : List Nat := []
  /-- The PC and the iteration vector of the word that set it going. -/
  pc     : Word := 0
  iter   : Word := 0
  deriving DecidableEq, Repr, Inhabited

/-- A chain of a template on another (R288). -/
structure Chain where
  k    : TmplId
  mask : BitVec 64
  pc   : Word
  iter : Word
  /-- The context and the APPO position of the redex whose member made it. -/
  owner : CtxId × Nat
  deriving DecidableEq, Repr, Inhabited

/-- A trigger of a template that is still to fire it: the PC and the iteration vector of the CPCHAIN that made the
chain, and its maker (R288). -/
structure Trigger where
  pc    : Word
  iter  : Word
  owner : CtxId × Nat
  deriving DecidableEq, Repr, Inhabited

/-- A copy template (R283 to R288). -/
structure Tmpl where
  /-- The context and the APPO position of the redex whose member armed it. -/
  owner   : Option (CtxId × Nat) := none
  src     : Word := 0
  dst     : Word := 0
  shape   : Word := 0
  num     : BitVec 48 := 0
  firing  : Option Firing := none
  chain   : Option Chain := none
  pending : List Trigger := []
  deriving DecidableEq, Repr, Inhabited

/-- The states of a reassembly entry (R334). -/
inductive RatState where
  | free | opened | complete
  deriving DecidableEq, Repr, Inhabited

/-- What a choice of a row has come to at its origin (R336): not routed, missing, dropped, or returned. -/
inductive Choice where
  | unrouted | missing | dropped
  | row (v : Vec)
  deriving DecidableEq, Repr, Inhabited

/-- A reassembly-table entry (R334 to R336). -/
structure Rat where
  state   : RatState := .free
  /-- The APPO position of the redex whose member routed. -/
  owner   : Nat := 0
  ctx     : CtxId := 0
  /-- The sequence tag. -/
  tag     : BitVec 16 := 0
  rows    : Nat := 0
  cols    : Nat := 0
  pass    : Bool := false
  /-- The timeout in cc, and the cycle of issue. -/
  tmo     : Nat := 0
  issued  : Word := 0
  timeout : Bool := false
  expected : Nat := 0
  drops   : Nat := 0
  late    : Nat := 0
  /-- The source tile and its header's format. -/
  tile    : Nat := 0
  fmt     : Fmt := .f32
  /-- Choices 0 and 1 of each row. -/
  got     : List (Choice × Choice) := []
  /-- At completion: for each row, whether a return survived, and the row of R337. -/
  final   : List (Bool × Vec) := []
  chunks  : List Nat := []
  deriving DecidableEq, Repr, Inhabited

/-- A translation held in a TLB (R374). -/
structure Trans where
  ctx    : CtxId
  base   : Nat
  size   : Nat
  pte    : Word
  deriving DecidableEq, Repr, Inhabited

/-- A scalar register set (R13, R88, R418), apart from what a special register reads elsewhere. -/
structure ScalarSet where
  pc     : Word := 0
  g      : Vector Word 64 := .replicate 64 0
  q      : Vector (BitVec 64) 16 := .replicate 16 0
  cnt    : Vector (BitVec 16) 4 := .replicate 4 0
  loops  : Vector LoopState 4 := .replicate 4 {}
  fpcsr  : Word := 0
  rand   : Word := 0
  mstat  : Word := 0
  fprog  : Word := 0
  fstat  : Word := 0
  grow   : Word := 0
  events : BitVec 6 := 0
  ratst  : Word := 0
  cpEnds : BitVec 32 := 0
  deriving DecidableEq, Repr, Inhabited

/-- A logical cell (R13, R130, R131, R235, R272, R283, R334). -/
structure Cell where
  failed  : Bool := false
  /-- The scalar set of each context as its last holder left it; a live or suspended execution holds it in its own
  record (R13, DEDUCED, log 7). -/
  sets    : Tbl ScalarSet := []
  scratch : Memory := []
  tiles   : Tbl Tile := []
  /-- Chunks taken by park frames, held symbols, inboxes and sum buffers. -/
  taken   : List Nat := []
  /-- Save areas and the queue entry that holds each (R107). -/
  areas   : Tbl Nat := []
  /-- Operators held and when each was last launched (R130). -/
  cache   : Tbl Nat := []
  tmpls   : Vector Tmpl 8 := .replicate 8 {}
  rat     : Tbl Rat := []
  rseq    : BitVec 16 := 0
  defer   : BitVec 16 := 0
  held    : Bool := false
  tlb     : List Trans := []
  deriving DecidableEq, Repr, Inhabited

/-! ### Contexts -/

/-- The states of a context (R98). -/
inductive CtxState where
  | free | loading | held | running | trapped | evicting | evicted | restoring | done
  deriving DecidableEq, Repr, Inhabited

/-- An entry of the host fault queue, as the part keeps it (R377, R378); seq is none while it is PENDING. -/
structure FqEntry where
  /-- The region: VA[47:16]. -/
  region : Nat
  space  : BitVec 2
  kind   : BitVec 5
  count  : Nat := 1
  cell   : Nat
  seq    : Option (BitVec 32) := none
  deriving DecidableEq, Repr, Inhabited

/-- A message of one member to another, in flight (R171). -/
structure MsgFlight where
  id   : Nat
  appo : Nat
  dst  : Nat
  msg  : Message
  deriving DecidableEq, Repr, Inhabited

/-- A member's part in a collective: its word, and when it joined vA and gB, or for MMAG gC (R168, R245). -/
structure Join where
  rank : Nat
  word : Instr
  vec  : Vec
  gb   : Word
  /-- The row and column panels that an MMAG's rank multicasts, element bits by row and column, as far as its K-blocks
  have been sent. -/
  panels : Option (Mat × Mat) := none
  sent  : Nat := 0
  /-- Its block is done. -/
  ended : Bool := false
  deriving DecidableEq, Repr, Inhabited

/-- An open span or MMAG collective: those that have joined (R167, R245). -/
structure Coll where
  appo  : Nat
  count : Nat
  mmag  : Bool
  joins : List Join
  /-- Its completion stands in the pending events of an eviction (R113). -/
  noted : Bool := false
  deriving DecidableEq, Repr, Inhabited

/-- The states of a station (R330). -/
inductive StState where
  | bound | opened | closed
  deriving DecidableEq, Repr, Inhabited

/-- A row of a station's inbox: its ticket, and its elements as stored (R327, R329, R341). -/
structure InboxRow where
  ticket : Word
  vec    : Vec
  deriving DecidableEq, Repr, Inhabited

/-- A station (R327 to R331). -/
structure Station where
  /-- The model's name of this binding, which tells it from a later station of the same number (R329). -/
  id    : Nat := 0
  appo  : Nat
  cell  : Nat
  state : StState
  cap   : Nat
  rows  : List InboxRow := []
  chunks : List Nat := []
  quiescent : Bool := false
  /-- The cycle of the last arrival, and the place of its row in the order of R329. -/
  lastRow : Option (Word × Nat) := none
  deriving DecidableEq, Repr, Inhabited

/-- A routed row that waits to leave, or is on its way to a station (R329, R334). -/
structure RowFlight where
  id     : Nat
  station : Nat
  ticket : Word
  /-- The cycle in which it leaves, or the first in which it can, until it has left. -/
  due    : Word := 0
  /-- The binding of its number as it left; none until then. -/
  bound  : Option Nat := none
  /-- The cell of that station, to which it is on its way. -/
  dst    : Nat := 0
  /-- The elements as stored; none until it has left, from the scratch offset. -/
  vec    : Option Vec
  tile   : Nat
  src    : Nat
  deriving DecidableEq, Repr, Inhabited

/-- A return or DROP on its way to its origin (R336). -/
structure RetFlight where
  id     : Nat
  /-- The cell from which it was sent. -/
  src    : Nat
  ticket : Word
  /-- None for a DROP. -/
  vec    : Option Vec
  deriving DecidableEq, Repr, Inhabited

/-- A checkpoint that drains (R115, R118). -/
structure Drain where
  buf    : BitVec 4
  target : BitVec 2
  addr   : Nat
  fab    : BitVec 18
  /-- The image, in chunks, chunk 0 last of all to be final. -/
  chunks : List (List Word)
  written : List Nat := []
  room   : Nat
  /-- Sump chunks that the image records (R157). -/
  sump   : List Nat := []
  /-- Pinned tiles: cell, index, first and last chunk of the image that holds it. -/
  pins   : List (Nat × Nat × Nat × Nat) := []
  /-- An eviction image on its way to a remote part. -/
  evict  : Bool := false
  deriving DecidableEq, Repr, Inhabited

/-- The registers of a context's block that only the host and the pass touch (R99). -/
structure CtxRegs where
  busy   : Bool := false
  ovr    : Bool := false
  status : Byte := 0
  code   : Byte := 0
  arg0   : Word := 0
  arg1   : Word := 0
  arg2   : Word := 0
  bp     : BitVec 4 := 0
  urg    : Bool := false
  waited : BitVec 16 := 0
  tmask  : BitVec 5 := 0
  /-- The cycle of the last write of TMASK, whose faults the mask before it still governs, and that mask (R108). -/
  tmaskAt : Option Word := none
  tmaskOld : BitVec 5 := 0
  sumpBase : Word := 0
  sumpLim  : Word := 0
  arena  : Word := 0
  ptroot : Word := 0
  /-- RTH of TIDYCFG, at least 64, and S (R144). -/
  rth    : BitVec 12 := 64
  spread : BitVec 4 := 0
  bken   : Bool := false
  /-- The cycle of the last write of DBGCFG, whose BKPTs the BKEN before it still governs, and that BKEN (R209). -/
  bkenAt : Option Word := none
  bkenOld : Bool := false
  tlbinv : Word := 0
  tlbBusy : Bool := false
  fqBase : Word := 0
  fqProd : Word := 0
  fqCons : Word := 0
  ckbuf  : Vector (Word × Word) 16 := .replicate 16 (0, 0)
  ckSeq  : BitVec 32 := 0
  ckErr  : Bool := false
  ckSkip : Bool := false
  ckBuf  : BitVec 4 := 0
  deriving DecidableEq, Repr, Inhabited

/-- A context (R98 to R119). -/
structure Ctx where
  state  : CtxState := .free
  regs   : CtxRegs := {}
  /-- The status that the running command ends with, the state that it found, and the arguments that it took (R100). -/
  pendStatus : Byte := 0
  found  : CtxState := .free
  cmd0   : Word := 0
  cmd1   : Word := 0
  cmd2   : Word := 0
  /-- A pass request stands (R103). -/
  request : Bool := false
  /-- It has been stopped for the host, or restored, and has not been RUNNING since: its firings write to no space that
  the host or another part sees (R326). -/
  still   : Bool := false
  /-- It has been retired, and PTROOT still names the pages of what it held, which the host scrubs (R100, R300). -/
  retired : Bool := false
  traps  : List TrapRec := []
  trapOvf : Bool := false
  rthNow : BitVec 12 := 64
  spreadNow : BitVec 4 := 0
  sumpLimNow : Word := 0
  ops    : List (BitVec 16) := []
  launches : BitVec 32 := 0
  passes : Word := 0
  /-- Symbols by row position, 16 × cell + slot; FREE where nothing is listed (R59). -/
  pockets : Tbl Word := []
  /-- Results committed and not yet placed: the row position they follow, and the symbols (R123). -/
  unplaced : Tbl (List Word) := []
  ann    : Tbl Word := []
  redexes : Tbl Redex := []
  /-- Heap addresses of WAIT symbols whose test met a missing page (R74). -/
  waitStall : List Nat := []
  /-- Heap addresses of WAIT symbols whose deferred read found its channel's table full (R75). -/
  waitRefused : List Nat := []
  /-- Regions, VA[47:16], for whose page a transfer of TIDY waits (R375). -/
  sumpStall : List Nat := []
  /-- Sump chunks in use and their virtual addresses (R151), and those of them that a recall has emptied and a
  draining checkpoint records (R157). -/
  sump   : Tbl Word := []
  sumpDrain : List Nat := []
  /-- How many applications a sump chunk opens more than it closes, by its virtual address, as it was spilled (R78). -/
  sumpNet : Tbl Int := []
  stations : Tbl Station := []
  colls  : List Coll := []
  msgs   : List MsgFlight := []
  rowsIn : List RowFlight := []
  rets   : List RetFlight := []
  events : List Word := []
  eventData : List Byte := []
  /-- The keys of the executions to which the messages among the pending events go, in their order (R113). -/
  msgFor : List Nat := []
  fq     : List FqEntry := []
  fqSeq  : BitVec 32 := 0
  /-- FQPROD's wrap count mod 2 (R377). -/
  fqWrap : Bool := false
  /-- Words of the readback window (R417). -/
  window : Tbl Word := []
  ckptAsked : Option (BitVec 4) := none
  drain  : Option Drain := none
  deriving DecidableEq, Repr, Inhabited

/-! ### Memory system -/

/-- What an access does at its home slice (R305, R306). -/
inductive AccKind where
  | load
  | store
  /-- A store of the bytes that a mask names. -/
  | mask (m : Byte)
  | aadd | afadd | amin | amax | aand | aor | axchg
  | acas (expected : Word)
  deriving DecidableEq, Repr, Inhabited

/-- A system-space access issued and not yet complete (R307, R308, R312). -/
structure Access where
  id     : Nat
  ctx    : CtxId := 0
  cell   : Nat
  entry  : Nat
  kind   : AccKind
  pa     : Nat
  wide   : Bool
  data   : Word := 0
  dest   : Option GReg := none
  direct : Bool := false
  /-- Accepted, with the value to return once the line is filled, and the key of that line (R310, R315). -/
  accepted : Option Word := none
  line   : Nat := 0
  /-- The bits that the value returns; the others are reserved, and read as zero (R7). -/
  keep   : Word := BitVec.allOnes 64
  deriving DecidableEq, Repr, Inhabited

/-- A walk of a page table for an access of an execution (R373). -/
structure Walk where
  id    : Nat
  ctx   : CtxId
  cell  : Nat
  entry : Nat
  va    : Word
  /-- The space that the access requires, in the coding of R371. -/
  want  : Nat
  write : Bool
  deriving DecidableEq, Repr, Inhabited

/-- The record of a reducing line that a home slice has applied (R290). -/
structure RedRec where
  ctx  : CtxId
  cell : Nat
  tmpl : Nat
  num  : BitVec 48
  /-- The line of the copy: 4 × chunk + line of the chunk. -/
  line : Nat
  /-- The physical address of its first byte. -/
  pa   : Nat
  deriving DecidableEq, Repr, Inhabited

/-- A word that a copy has sent to system space or host memory and that does not stand there yet (R307, R316): the
firing and the chunk that it is part of. -/
structure CopyWord where
  id     : Nat
  ctx    : CtxId
  cell   : Nat
  tmpl   : Nat
  num    : BitVec 48
  chunk  : Nat
  pa     : Nat
  host   : Bool
  direct : Bool
  data   : Word
  deriving DecidableEq, Repr, Inhabited

/-- What a barrier unit keeps of a member's arrival (R352): its cycle, and for a fabric home block the part that sent it
and its local block. -/
structure Arrival where
  time  : Word := 0
  src   : BitVec 18 := 0
  block : Word := 0
  deriving DecidableEq, Repr, Inhabited

/-- The memory system: HBM, home slices, presence, host memory, and what is under way (R15, R16, R300 to R315). -/
structure MemSys where
  hbm    : Memory := []
  /-- Lines that a home slice holds and HBM does not, 128 bytes each, keyed by 2^33 × slice + line,
  the slices of the four dies numbered from 0 to 1,023 (R15, R315). -/
  dirty  : Tbl (List Byte) := []
  /-- Lines held in a home slice, and fills under way, by the same key (R310). -/
  lines  : Tbl Bool := []
  fills  : List Nat := []
  /-- Presence of heap words, by physical word address / 8. -/
  present : Tbl Bool := []
  host   : Memory := []
  accs   : List Access := []
  walks  : List Walk := []
  redRecs : List RedRec := []
  copyOut : List CopyWord := []
  /-- Arrivals at barriers, by the record's physical address / 8, and the last arrival at a block: its member and its
  context, by the block's physical address / 64 (R352, R353). -/
  arrivals : Tbl Arrival := []
  lastArr : Tbl (Nat × CtxId) := []
  deriving DecidableEq, Repr, Inhabited

/-- A gallery (R10, R251, R313, R374, R420). -/
structure Gallery where
  glim   : BitVec 16 := 0
  power  : BitVec 16 := 0
  capNow : BitVec 16 := 0
  count  : BitVec 16 := 0
  /-- The limiter's window under way: CLK / 1,024 at its start (R251). -/
  win    : Nat := 0
  /-- The cells whose K-block the limiter holds back, in the order of their issue (R21). -/
  waiting : List Nat := []
  /-- The slice window table by entry: K and BASE; an unlisted entry is K = 8, BASE = 0. -/
  window : Tbl (Nat × Nat) := []
  tlb    : List Trans := []
  deriving DecidableEq, Repr, Inhabited

/-! ### Links -/

/-- The states of a link (R382). -/
inductive LinkSt where
  | down | training | up | degraded | retrying
  deriving DecidableEq, Repr, Inhabited

/-- A link with its sender and receiver (R382 to R387). -/
structure Link where
  st     : LinkSt := .training
  lanes  : Byte := 0
  downs  : Byte := 0
  rtry   : BitVec 16 := 0
  crce   : BitVec 16 := 0
  en     : Bool := true
  rf     : Bool := false
  peer   : BitVec 18 := 0
  began  : Word := 0
  fails  : Nat := 0
  rxSeq  : BitVec 16 := 0
  txSeq  : BitVec 16 := 0
  /-- Flits sent and not yet acknowledged by the link's receiver. -/
  retry  : List (BitVec 16 × FlitWords) := []
  /-- Flits that wait for the allowance of their channel, or for room in the retry buffer of 2,048 (R387, R392). -/
  waiting : List FlitWords := []
  /-- The number that the far receiver's NAK names, until the sender resends from it. -/
  nak    : Option (BitVec 16) := none
  /-- The last flit that was resent, until it is acknowledged. -/
  resent : Option (BitVec 16) := none
  /-- This receiver has sent a NAK and waits for the flit that it named. -/
  nakSent : Bool := false
  deriving DecidableEq, Repr, Inhabited

/-- A message sent over the fabric and not yet acknowledged end to end (R393), with what it is a part of: a line of a
firing, or a chunk of a checkpoint or eviction image. -/
structure FabMsg where
  num   : Nat
  dst   : BitVec 18
  vc    : Nat
  words : FlitWords
  /-- The link that carries it; none while no link of its mask is usable, since the cycle given. -/
  link  : Option Nat := none
  since : Word := 0
  /-- The gallery from which it sets out for its link; none for one that a link unit itself sends (R382). -/
  gal   : Option Nat := none
  /-- The parent link over which a combined line goes while that link is not DOWN (R395). -/
  via   : Option Nat := none
  ctx   : CtxId := 0
  cell  : Nat := 0
  tmpl  : Nat := 0
  firing : BitVec 48 := 0
  /-- The APPO position of the redex whose member fired it. -/
  appo  : Nat := 0
  /-- 4 × chunk + line of a firing, or the chunk part of an image. -/
  part  : Nat := 0
  /-- The range request that it carries. -/
  ask   : Option Nat := none
  /-- The descriptor, by physical address, whose PEND takes the items of a steal when the message is lost. -/
  pend  : Option Nat := none
  /-- It waits in a reduce-and-forward queue of this part (R395). -/
  queued : Bool := false
  /-- The messages that a combined line stands for: source, channel and number (R396). -/
  acks  : List (Nat × Nat × Nat) := []
  deriving DecidableEq, Repr, Inhabited

/-- A range request sent and not yet answered (R365): who waits for it, and the local thief range, with its policy. -/
structure Ask where
  id    : Nat
  /-- The part that was asked. -/
  dst   : BitVec 18 := 0
  /-- The member execution that waits, by key. -/
  exec  : Option Nat := none
  thief : Option (Nat × Bool) := none
  /-- The part that asked this one, and its own request number. -/
  asker : Option (BitVec 18 × Nat) := none
  /-- The cycle from which no link to the part that was asked may have been usable. -/
  since : Word := 0
  deriving DecidableEq, Repr, Inhabited

/-- The fabric side of the part (R393 to R396). -/
structure Fabric where
  fabid : BitVec 18 := 0
  routes : Tbl (BitVec 16) := []
  groups : Tbl (Word × Word) := []
  sent  : List FabMsg := []
  /-- The next message number of each flow. -/
  nextMsg : Tbl Nat := []
  /-- The numbers delivered of each flow, newest first. -/
  seen  : Tbl (List Nat) := []
  /-- Messages accepted for this part and not yet acted on, oldest first (R391). -/
  inbox : List FlitWords := []
  /-- Reduce-and-forward queues: group, line, child, and the lines queued. -/
  rfq   : List (Nat × Nat × Nat × List FlitWords) := []
  /-- The child of a group's entry from which the lines of a flow come: entry × 2^38 + flow (R395, R397). -/
  rfFrom : Tbl Nat := []
  /-- Flits of other parts that wait for a usable link of their mask, since the cycle given. -/
  transit : List (Word × FlitWords) := []
  /-- Flits that met a missing page and wait for the WAKE of its queue entry, each with the context and the region,
  VA[47:16], of that page (R375). -/
  stalled : List (FlitWords × CtxId × Nat) := []
  /-- Of flits that wait here, the gallery of the Rhafer link by which each came (R382). -/
  ports : List (FlitWords × Nat) := []
  /-- Of plain lines that are being written, the words that stand, by a mask (R307, R316). -/
  partly : List (FlitWords × Word) := []
  /-- Flits handed to a Rhafer link: the part's output. -/
  sentOut : List (Nat × FlitWords) := []
  asks  : List Ask := []
  deriving DecidableEq, Repr, Inhabited

/-! ### Device -/

/-- The device states (R411). -/
inductive DevState where
  | reset | locked | loading | verifying | ready
  deriving DecidableEq, Repr, Inhabited

/-- A registered operator image (R94 to R97). -/
structure OpImage where
  hdr0 : Word
  hdr1 : Word
  code : List Word
  data : List Word
  deriving DecidableEq, Repr, Inhabited

/-- The device registers and the chandlery (R14, R409 to R424). -/
structure Device where
  state  : DevState := .reset
  reason : Byte := 0
  svn    : BitVec 16 := 0
  arg0   : Word := 0
  arg1   : Word := 0
  arg2   : Word := 0
  arg3   : Word := 0
  busy   : Bool := false
  ovr    : Bool := false
  code   : Byte := 0
  detail : Word := 0
  status : Byte := 0
  pendStatus : Byte := 0
  pendDetail : Word := 0
  /-- The arguments that the running command took. -/
  cmd0   : Word := 0
  cmd1   : Word := 0
  cmd2   : Word := 0
  /-- The firmware image read by FWLOAD. -/
  fw     : List Byte := []
  pwrlim : BitVec 16 := 3000
  telem  : Vector Word 10 := .replicate 10 0
  thresh : Vector Word 10 := .replicate 10 0
  /-- The words of the MSI-X table by number; an unlisted one stands as at reset, with its vector masked (R416,
  PRESUMED, log 13). -/
  msix   : Tbl Word := []
  /-- The vectors of the pending-bit array that are set (R409, R416). -/
  pba    : Tbl Bool := []
  /-- Messages sent, by vector: the part's output, newest first. -/
  msi    : List Nat := []
  ops    : Tbl OpImage := []
  deriving DecidableEq, Repr, Inhabited

/-! ### The tree -/

/-- The phases of a pass (R122). -/
inductive Phase where
  | commit | tidy | mark | launch
  deriving DecidableEq, Repr, Inhabited

/-- A pass under way: its context, the phase to run next, and the repeats of that phase (R12, R122). -/
structure Pass where
  ctx     : CtxId
  phase   : Phase
  repeats : Nat := 0
  /-- The repeats of the whole pass (R418). -/
  allRepeats : Nat := 0
  /-- The redexes that were HALTED as the pass began: those that its COMMIT collects (R122). -/
  halted  : List Nat := []
  /-- A commit was admitted (R158). -/
  admitted : Bool := false
  deriving DecidableEq, Repr, Inhabited

/-! ### The machine -/

/-- The state of the whole part. -/
structure State where
  clk    : Word := 0
  dev    : Device := {}
  gals   : Vector Gallery 4 := .replicate 4 {}
  mem    : MemSys := {}
  links  : Vector Link 20 := .replicate 20 {}
  fab    : Fabric := {}
  pass   : Option Pass := none
  ctxs   : Vector Ctx 4 := .replicate 4 {}
  cells  : Tbl Cell := []
  /-- Member executions by 256 × cell + queue entry. -/
  execs  : Tbl Exec := []
  /-- The model's own fields (DESIGN CHOICE, log 1, 2): the turns to come, the free turns taken, what the row acts on,
  the cell whose execution issues, a counter of names, and what the last host read returned. -/
  agenda : List Turn := []
  turns  : Nat := 0
  arg    : EventArgs := {}
  cur    : CellId := 0
  nextId : Nat := 0
  lastRead : Word := 0
  deriving DecidableEq, Repr

/-- The machine right after reset (R411): the device in RESET, every context FREE, Rhafer links disabled and so DOWN,
nothing in the chandlery but the built-ins. A register for which the manual gives no reset value is zero
(DESIGN CHOICE, log 4). -/
def State.reset : State :=
  { links := Vector.ofFn fun i => if i.val < 4 then {} else { st := .down, en := false } }

end Sys2Proof.Machine
end

