-- ==== Sys2Proof/Machine/Flags.lean ====
section
/-! DEFINITION. FPCSR (R33, R34), and every element operation with the flags it raises: floating elements (R200 to
R203, R219 to R224), integer elements (R194 to R196, R219 to R221), and conversions (R44, R202, R230). -/

namespace Sys2Proof.Machine

/-! ### FPCSR -/

/-- The five sticky flags of FPCSR, from NX up (R33). -/
def fpcsrFlags (w : Word) : FFlags := w.extractLsb' 8 5

/-- The default rounding mode; the stored mode is 0 to 4 (R33). -/
def fpcsrMode (w : Word) : Rm :=
  match (w.extractLsb' 0 3).toNat with
  | 1 => .rtz | 2 => .rup | 3 => .rdn | 4 => .rna
  | _ => .rne

/-- Flags set besides those that stand (R34). -/
def fpcsrRaise (w : Word) (f : FFlags) : Word := w ||| ((f.setWidth 64) <<< 8)

/-- What an MTS of FPCSR stores: the flags and the mode, a mode of 5 to 7 as 0, reserved bits 0 (R33, R7). -/
def fpcsrStored (w : Word) : Word :=
  let mode := w &&& 7
  (w &&& 0x1F00) ||| (if mode.toNat ≤ 4 then mode else 0)

/-- The mode of an instruction: DYN takes FPCSR's (R31). -/
def rmOf (fpcsr : Word) : Rm → Rm
  | .dyn => fpcsrMode fpcsr
  | rm => rm

/-! ### Floating elements -/

/-- The floating element formats. -/
inductive FloatFmt where
  | f32 | bf16 | gf8
  deriving DecidableEq, Repr

namespace FloatFmt

def dec (t : FloatFmt) (x : Nat) : Exact :=
  match t with
  | .f32 => ofF32 (BitVec.ofNat 32 x)
  | .bf16 => ofBF16 (BitVec.ofNat 16 x)
  | .gf8 => ofGF8 (BitVec.ofNat 8 x)

/-- GF8 has no signalling NaN (R224). -/
def snan (t : FloatFmt) (x : Nat) : Bool :=
  match t with
  | .f32 => isSnanF32 (BitVec.ofNat 32 x)
  | .bf16 => isSnanBF16 (BitVec.ofNat 16 x)
  | .gf8 => false

/-- The rounding that delivers to the format. -/
def enc (t : FloatFmt) (x : Exact) (rm : Rm) : Nat × FFlags :=
  match t with
  | .f32 => roundBin 23 x rm
  | .bf16 => roundBin 7 x rm
  | .gf8 => ((toGF8 x rm).1.toNat, (toGF8 x rm).2.2)

def width : FloatFmt → Nat
  | .f32 => 32
  | .bf16 => 16
  | .gf8 => 8

def nan : FloatFmt → Nat
  | .f32 => 0x7FC00000
  | .bf16 => 0x7FC0
  | .gf8 => 0x80

end FloatFmt

/-- NV of an operation: a signalling operand, or a NaN from operands that are none (R29, R32). -/
def invalidFlag (snan anyNan resNan : Bool) : FFlags := if snan || (resNan && !anyNan) then flagNV else 0

/-- One element result rounded, with its flags. -/
def finishF (t : FloatFmt) (rm : Rm) (snan anyNan : Bool) (r : Exact) : Nat × FFlags :=
  let (b, f) := t.enc r rm
  (b, f ||| invalidFlag snan anyNan r.isNan)

/-- The arithmetic element operations with one rounding. -/
inductive FOp where
  | add | sub | mul | div
  deriving DecidableEq, Repr

/-- A division of a finite non-zero value by zero (R200, R220). -/
def dzFlag (x y : Exact) : FFlags :=
  if !x.isNan && !x.isInf && !x.isZero && y.isZero then flagDZ else 0

/-- FADD, FSUB, FMUL, FDIV and their vector forms (R200, R219, R220). -/
def fArith (t : FloatFmt) (op : FOp) (rm : Rm) (x y : Nat) : Nat × FFlags :=
  let a := t.dec x
  let b := t.dec y
  let r := match op with
    | .add => Exact.add rm a b
    | .sub => Exact.sub rm a b
    | .mul => Exact.mul a b
    | .div => Exact.div a b
  let (v, f) := finishF t rm (t.snan x || t.snan y) (a.isNan || b.isNan) r
  (v, f ||| (if op == .div then dzFlag a b else 0))

/-- FFMA and VFMA: one rounding (R200, R219). -/
def fFma (t : FloatFmt) (rm : Rm) (x y z : Nat) : Nat × FFlags :=
  let a := t.dec x
  let b := t.dec y
  let c := t.dec z
  let prodInvalid := (Exact.mul a b).isNan && !a.isNan && !b.isNan
  let (v, f) := finishF t rm (t.snan x || t.snan y || t.snan z) (a.isNan || b.isNan || c.isNan) (Exact.fma rm a b c)
  (v, f ||| (if prodInvalid then flagNV else 0))

/-- FSQRT and VSQRT (R200, R220). -/
def fSqrt (t : FloatFmt) (rm : Rm) (x : Nat) : Nat × FFlags :=
  let a := t.dec x
  finishF t rm (t.snan x) a.isNan a.sqrt

/-- Minimum and maximum: exact, -0 below +0, any NaN gives the canonical NaN (R200, R219). -/
def fMinMax (t : FloatFmt) (isMax : Bool) (x y : Nat) : Nat × FFlags :=
  let a := t.dec x
  let b := t.dec y
  let f := if t.snan x || t.snan y then flagNV else 0
  if a.isNan || b.isNan then (t.nan, f)
  else
    let takeY := if isMax then a.ltTotal b else b.ltTotal a
    (if takeY then y else x, f)

/-- The sign bit cleared or inverted; a NaN gives the canonical NaN, and a GF8 zero keeps its one code (R200, R219). -/
def fSign (t : FloatFmt) (negate : Bool) (x : Nat) : Nat × FFlags :=
  let a := t.dec x
  let s := 2 ^ (t.width - 1)
  let f := if t.snan x then flagNV else 0
  if a.isNan then (t.nan, f)
  else if t == .gf8 && a.isZero then (0, f)
  else if negate then (if s ≤ x then x - s else x + s, f)
  else (x % s, f)

/-- The class mask of R201. -/
def fClass (x : Lane) : Word :=
  let e := x.extractLsb' 23 8
  let f := x.extractLsb' 0 23
  let neg := x.getLsbD 31
  let b : Nat :=
    if e = 255 then (if f = 0 then (if neg then 0 else 7) else if isSnanF32 x then 8 else 9)
    else if e = 0 then (if f = 0 then (if neg then 3 else 4) else if neg then 2 else 5)
    else if neg then 1 else 6
  1 <<< b

/-- The floating comparisons: the truth value and NV (R203, R224). -/
def fCompare (t : FloatFmt) (cond : VCond) (x y : Nat) : Bool × FFlags :=
  let a := t.dec x
  let b := t.dec y
  let un := a.isNan || b.isNan
  let sn := if t.snan x || t.snan y then flagNV else 0
  let anyNan := if un then flagNV else 0
  match cond with
  | .eq => (a.eqNum b, sn)
  | .ne => (!a.eqNum b, sn)
  | .lt => (a.ltNum b, anyNan)
  | .le => (a.ltNum b || a.eqNum b, anyNan)
  | .gt => (b.ltNum a, anyNan)
  | .ge => (b.ltNum a || a.eqNum b, anyNan)
  | .un => (un, sn)

/-- The functions of VFUN. -/
inductive FFun where
  | rcp | rsq | exp2 | log2 | tanh
  deriving DecidableEq, Repr

/-- The exact value of a VFUN function, and NV or DZ of its special operands (R222, R223). -/
def fFunExact (op : FFun) (a : Exact) : Exact × FFlags :=
  match op, a with
  | _, .nan => (.nan, 0)
  | .rcp, .inf n => (.fin n 0 0, 0)
  | .rcp, .fin n m e => if m = 0 then (.inf n, flagDZ) else (Exact.div (.ofInt 1) (.fin n m e), 0)
  | .rsq, .inf n => if n then (.nan, flagNV) else (.fin false 0 0, 0)
  | .rsq, .fin n m e => if m = 0 then (.inf n, flagDZ) else if n then (.nan, flagNV) else (Exact.rsqFin m e, 0)
  | .exp2, .inf n => if n then (.fin false 0 0, 0) else (.inf false, 0)
  | .exp2, .fin n m e => (exp2Fin n m e, 0)
  | .log2, .inf n => if n then (.nan, flagNV) else (.inf false, 0)
  | .log2, .fin n m e => if m = 0 then (.inf true, flagDZ) else if n then (.nan, flagNV) else (log2Fin m e, 0)
  | .tanh, .inf n => (.fin n 1 0, 0)
  | .tanh, .fin n m e => if m = 0 then (.fin n 0 0, 0) else (tanhFin n m e, 0)

/-- A VFUN element (R222, R223). -/
def fFun (op : FFun) (rm : Rm) (x : Nat) : Nat × FFlags :=
  let a := FloatFmt.f32.dec x
  let (r, f) := fFunExact op a
  let (b, g) := FloatFmt.f32.enc r rm
  (b, f ||| g ||| (if FloatFmt.f32.snan x then flagNV else 0))

/-! ### Integer elements -/

/-- x read as a signed or unsigned integer of w bits. -/
def intOf (signed : Bool) (w x : Nat) : Int :=
  let u := x % 2 ^ w
  if signed && 2 ^ (w - 1) ≤ u then (u : Int) - (2 ^ w : Nat) else u

/-- The w bits of an integer, modulo 2 to the w. -/
def bitsOf (w : Nat) (v : Int) : Nat := (v % (2 ^ w : Nat)).toNat

/-- An exact integer delivered to w bits: Sat, or modulo 2 to the w (R42). -/
def deliver (signed sat : Bool) (w : Nat) (v : Int) : Nat :=
  if sat then bitsOf w (satInt v signed w).1 else bitsOf w v

/-- Division truncated toward zero, with R196's result by zero: all ones, and the remainder x. -/
def divTrunc (signed : Bool) (w x y : Nat) : Nat × Nat :=
  let a := intOf signed w x
  let b := intOf signed w y
  if b = 0 then (2 ^ w - 1, x % 2 ^ w)
  else (bitsOf w (Int.tdiv a b), bitsOf w (Int.tmod a b))

/-- Leading zeros of x in w bits; w when x is 0 (R195, R221). -/
def leadingZeros (w x : Nat) : Nat := w - bitLen (x % 2 ^ w)

/-- One bits of x. -/
def popCount (w x : Nat) : Nat := ((List.range w).filter fun i => x.testBit i).length

/-- A shift left, right with zeros, or right with copies of the sign, by k less than w (R194, R221). -/
inductive ShiftOp where
  | shl | shr | sra | rot
  deriving DecidableEq, Repr

def shiftElem (op : ShiftOp) (w x k : Nat) : Nat :=
  match op with
  | .shl => (x <<< k) % 2 ^ w
  | .shr => (x % 2 ^ w) >>> k
  | .sra => bitsOf w (intOf true w x / (2 ^ k : Nat))
  | .rot => ((x <<< k) % 2 ^ w) ||| ((x % 2 ^ w) >>> (w - k))

/-- The integer conditions in w bits (R198). -/
def iCompare (cond : ICond) (w x y : Nat) : Bool :=
  let s := fun (z : Nat) => intOf true w z
  let u := fun (z : Nat) => z % 2 ^ w
  match cond with
  | .eq => u x == u y
  | .ne => u x != u y
  | .lt => s x < s y
  | .le => s x ≤ s y
  | .ltu => u x < u y
  | .leu => u x ≤ u y
  | .gt => s y < s x
  | .ge => s y ≤ s x
  | .gtu => u y < u x
  | .geu => u y ≤ u x

/-! ### Conversions (R44) -/

/-- The element types of a conversion. -/
inductive ElemTy where
  | float (t : FloatFmt)
  | int (signed : Bool) (w : Nat)
  deriving DecidableEq, Repr

/-- The element type of a TY code. -/
def elemOf : Ty → ElemTy
  | .i32 => .int true 32 | .n32 => .int false 32 | .f32 => .float .f32 | .bf16x2 => .float .bf16
  | .i16x2 => .int true 16 | .n16x2 => .int false 16 | .g8x4 => .float .gf8 | .i8x4 => .int true 8
  | .n8x4 => .int false 8 | .i64 => .int true 64 | .bpi => .int true 8

/-- Bits of an element of a TY code (R27, R28). -/
def elemWidth (ty : Ty) : Nat :=
  match elemOf ty with
  | .float t => t.width
  | .int _ w => w

/-- One conversion: the bits, the overflow bit, and the flags. -/
structure Conv where
  bits : Nat
  ov   : Bool
  fl   : FFlags
  deriving DecidableEq, Repr

/-- A conversion from binary32 to a narrower or integer element (R44, R202). -/
def convFromF32 (d : ElemTy) (rm : Rm) (sat : Bool) (x : Nat) : Conv :=
  let a := FloatFmt.f32.dec x
  let sn := FloatFmt.f32.snan x
  match d with
  | .float .f32 =>
    let (b, f) := finishF .f32 rm sn a.isNan a
    ⟨b, false, f⟩
  | .float .bf16 =>
    let (b, f) := finishF .bf16 rm sn a.isNan a
    let toInf := b % 0x8000 = 0x7F80 && !a.isInf && !a.isNan
    let beyond := (f &&& flagOF) ≠ 0
    ⟨if sat && toInf then b - 1 else b, a.isNan || beyond, f⟩
  | .float .gf8 =>
    let (b, ov, f) := toGF8 a rm
    ⟨b.toNat, ov, f⟩
  | .int signed w =>
    let (v, ov, inexact) := toInt a rm signed w
    ⟨bitsOf w v, ov, if ov then flagNV else if inexact then flagNX else 0⟩

/-- A conversion to binary32 (R44, R202). -/
def convToF32 (s : ElemTy) (rm : Rm) (x : Nat) : Conv :=
  match s with
  | .float t =>
    let (b, f) := finishF .f32 rm (t.snan x) (t.dec x).isNan (t.dec x)
    ⟨b, (t.dec x).isNan, f⟩
  | .int signed w =>
    let (b, f) := roundBin 23 (.ofInt (intOf signed w x)) rm
    ⟨b, false, f⟩

/-- A conversion between any two element types: through binary32 when either is floating, and Sat between integers
(R44, R226). -/
def convElem (s d : ElemTy) (rm : Rm) (sat : Bool) (x : Nat) : Conv :=
  match s, d with
  | .int ss ws, .int ds wd =>
    let (v, ov) := satInt (intOf ss ws x) ds wd
    ⟨bitsOf wd v, ov, 0⟩
  | .float .f32, d => convFromF32 d rm sat x
  | s, .float .f32 => convToF32 s rm x
  | s, d =>
    let c := convToF32 s rm x
    let e := convFromF32 d rm sat c.bits
    ⟨e.bits, e.ov, c.fl ||| e.fl⟩

end Sys2Proof.Machine
end

