-- ==== Sys2Proof/Machine/Operands.lean ====
section
/-! DEFINITION. The registers of a member execution as operands: reads and writes (R88), guards (R82), immediates (R84),
effective addresses (R295), lanes and elements (R28, R216), and the advance to the next word (R81, R205, R206). -/

namespace Sys2Proof.Machine

/-! ### Fixed-length tables -/

/-- A vector of n entries from a function of the index. -/
def tabulate {α : Type} (n : Nat) (f : Nat → α) : Vector α n :=
  ⟨⟨(List.range n).map f⟩, by simp⟩

/-- Lane or entry i of a vector. -/
def vget {α : Type} {n : Nat} (d : α) (v : Vector α n) (i : Nat) : α := v.toArray.toList.getD i d

/-- A vector with entry i replaced; unchanged when i is no index. -/
def vset {α : Type} {n : Nat} (v : Vector α n) (i : Nat) (x : α) : Vector α n :=
  ⟨⟨v.toArray.toList.set i x⟩, by simp⟩

def zeroVec : Vec := .replicate 64 0

def zeroMat : Mat := .replicate 64 zeroVec

/-- Lane i of a vector register. -/
def lane (v : Vec) (i : Nat) : Lane := vget 0 v i

/-- Element (i, j) of an accumulator. -/
def melem (m : Mat) (i j : Nat) : Lane := lane (vget zeroVec m i) j

/-- An accumulator from a function of row and column. -/
def mtab (f : Nat → Nat → Lane) : Mat := tabulate 64 fun i => tabulate 64 fun j => f i j

namespace Exec

/-! ### Reads and writes of registers -/

/-- A g register; g0 reads zero (R88). -/
def getG (e : Exec) (r : GReg) : Word := if r = 0 then 0 else vget 0 e.g r.toNat

/-- A write of a g register; g0 ignores it (R88). -/
def setG (e : Exec) (r : GReg) (x : Word) : Exec := if r = 0 then e else { e with g := vset e.g r.toNat x }

/-- A predicate register, lane i at bit i. -/
def getQ (e : Exec) (r : QReg) : BitVec 64 := vget 0 e.q r.toNat

def setQ (e : Exec) (r : QReg) (x : BitVec 64) : Exec := { e with q := vset e.q r.toNat x }

/-- The same truth value in all 64 lanes of a predicate (R198). -/
def setQAll (e : Exec) (r : QReg) (b : Bool) : Exec := e.setQ r (if b then BitVec.allOnes 64 else 0)

def getV (e : Exec) (r : VReg) : Vec := vget zeroVec e.v r.toNat

def setV (e : Exec) (r : VReg) (x : Vec) : Exec := { e with v := vset e.v r.toNat x }

def getA (e : Exec) (r : AReg) : Mat := vget zeroMat e.a r.toNat

/-- A write of an accumulator, which counts as written since launch (R131). -/
def setA (e : Exec) (r : AReg) (x : Mat) : Exec :=
  { e with a := vset e.a r.toNat x, aUsed := e.aUsed ||| (1 <<< r.toNat) }

def getCnt (e : Exec) (r : CReg) : BitVec 16 := vget 0 e.cnt r.toNat

def setCnt (e : Exec) (r : CReg) (x : BitVec 16) : Exec := { e with cnt := vset e.cnt r.toNat x }

def getLoop (e : Exec) (r : CReg) : LoopState := vget {} e.loops r.toNat

def setLoop (e : Exec) (r : CReg) (x : LoopState) : Exec := { e with loops := vset e.loops r.toNat x }

/-- Flags raised in FPCSR besides those that stand (R34). -/
def raiseF (e : Exec) (f : FFlags) : Exec := { e with fpcsr := fpcsrRaise e.fpcsr f }

/-- The iteration vector c3, c2, c1, c0 (R91). -/
def iter (e : Exec) : Word := e.getCnt 3 ++ e.getCnt 2 ++ e.getCnt 1 ++ e.getCnt 0

/-! ### Guards -/

/-- Lane i of the guard (R82). -/
def guardLane (e : Exec) (g : Guard) (i : Nat) : Bool :=
  match g with
  | .always => true
  | .ifTrue q => (e.getQ q).getLsbD i
  | .ifFalse q => !(e.getQ q).getLsbD i

/-- Lane 0 of the guard, which governs every instruction that is not guarded lane by lane (R82). -/
def guardOn (e : Exec) (g : Guard) : Bool := e.guardLane g 0

/-! ### The next word -/

/-- A counter placed before those whose loops were started earlier. -/
def insertLoop (e : Exec) (c : CReg) : List CReg → List CReg
  | [] => [c]
  | d :: ds => if (e.getLoop d).stamp ≤ (e.getLoop c).stamp then c :: d :: ds else d :: e.insertLoop c ds

/-- The active loops whose last word is w, most recently started first (R205). -/
def loopsAt (e : Exec) (w : Word) : List CReg :=
  (([0, 1, 2, 3] : List CReg).filter fun c => (e.getLoop c).active && (e.getLoop c).last == w).foldr e.insertLoop []

/-- The end check of R205 over the loops whose last word has completed: the first that goes back does; one that has
run its count becomes inactive, and the next is checked. -/
def loopEnd (e : Exec) (w : Word) : List CReg → Exec
  | [] => { e with pc := w + 1 }
  | c :: cs =>
    let l := e.getLoop c
    if (e.getCnt c).toNat + 1 < l.count.toNat then
      { e.setCnt c (e.getCnt c + 1) with pc := l.start }
    else ((e.setCnt c l.count).setLoop c { l with active := false }).loopEnd w cs

/-- The word at the PC has completed without transferring control: the next word, or the start of a loop whose body
ends here (R81, R205). -/
def advance (e : Exec) : Exec := e.loopEnd e.pc (e.loopsAt e.pc)

/-- Control transfers to a word; no end check is made (R204, R206). -/
def jumpTo (e : Exec) (w : Word) : Exec := { e with pc := w }

/-! ### Addresses -/

/-- The effective address of a memory operand (R295). -/
def ea (e : Exec) (m : Mem) : Word :=
  e.getG m.base + (e.getG m.idx <<< m.scale.toNat) + m.off.signExtend 64

/-- The effective address of lane i of VGATH and VSCAT (R295). -/
def eaLane (e : Exec) (m : VMem) (i : Nat) : Word :=
  e.getG m.base + ((lane (e.getV m.idx) i).setWidth 64 <<< m.scale.toNat) + m.off.signExtend 64

/-- The mode of an instruction (R31). -/
def rm (e : Exec) (r : Rm) : Rm := rmOf e.fpcsr r

end Exec

/-- imm36, sign-extended (R84). -/
def simm (imm : BitVec 36) : Word := imm.signExtend 64

/-! ### Scalar operands (R193) -/

/-- The width of a scalar integer operation. -/
def scalarWidth : Ty → Nat
  | .i64 => 64
  | _ => 32

/-- The signedness that Extend, ADD, SUB, MUL and MADD use: i64 and i32 signed, n32 unsigned (R193, R194). -/
def scalarSigned : Ty → Bool
  | .n32 => false
  | _ => true

/-- Extend: a w-bit result in a g register, sign-extended for i64 and i32, zero-extended for n32 (R193). -/
def extend (ty : Ty) (x : Nat) : Word := BitVec.ofInt 64 (intOf (scalarSigned ty) (scalarWidth ty) x)

/-- The w bits of an operand. -/
def operand (ty : Ty) (x : Word) : Nat := x.toNat % 2 ^ scalarWidth ty

/-! ### Lanes of packed elements (R28, R216) -/

/-- The elements of one lane, element 0 first, each of w bits. -/
def laneElems (w : Nat) (x : Lane) : List Nat :=
  (List.range (32 / w)).map fun i => (x.toNat >>> (w * i)) % 2 ^ w

/-- The lane of its elements. -/
def laneOf (w : Nat) (xs : List Nat) : Lane :=
  BitVec.ofNat 32 (xs.foldr (fun x acc => (acc <<< w) + x % 2 ^ w) 0)

/-- Element results with their flags gathered. -/
def gatherFlags (xs : List (Nat × FFlags)) : List Nat × FFlags :=
  (xs.map Prod.fst, xs.foldl (fun f x => f ||| x.2) 0)

/-- One lane of an element-wise operation on one, two or three operands. -/
def laneMap1 (w : Nat) (f : Nat → Nat × FFlags) (x : Lane) : Lane × FFlags :=
  let (r, fl) := gatherFlags ((laneElems w x).map f)
  (laneOf w r, fl)

def laneMap2 (w : Nat) (f : Nat → Nat → Nat × FFlags) (x y : Lane) : Lane × FFlags :=
  let (r, fl) := gatherFlags (List.zipWith f (laneElems w x) (laneElems w y))
  (laneOf w r, fl)

def laneMap3 (w : Nat) (f : Nat → Nat → Nat → Nat × FFlags) (x y z : Lane) : Lane × FFlags :=
  let (r, fl) := gatherFlags
    (List.zipWith (fun g c => g c) (List.zipWith f (laneElems w x) (laneElems w y)) (laneElems w z))
  (laneOf w r, fl)

/-- A vector written lane by lane under a guard, each lane with the flags it raises (R82, R217): lanes whose guard is
false keep their bits and raise nothing. -/
def Exec.vecWrite (e : Exec) (g : Guard) (d : VReg) (f : Nat → Lane × FFlags) : Exec :=
  let rs := (List.range 64).map f
  let old := e.getV d
  let new : Vec := tabulate 64 fun i => if e.guardLane g i then (rs.getD i (0, 0)).1 else lane old i
  let fl := (List.range 64).foldl (fun a i => if e.guardLane g i then a ||| (rs.getD i (0, 0)).2 else a) (0 : FFlags)
  (e.setV d new).raiseF fl

/-- A predicate written lane by lane under a guard (R224). -/
def Exec.predWrite (e : Exec) (g : Guard) (d : QReg) (f : Nat → Bool × FFlags) : Exec :=
  let old := e.getQ d
  let bits := (List.range 64).map fun i => if e.guardLane g i then (f i).1 else old.getLsbD i
  let new : BitVec 64 := BitVec.ofNat 64 (bits.foldr (fun b acc => 2 * acc + b.toNat) 0)
  let fl := (List.range 64).foldl (fun a i => if e.guardLane g i then a ||| (f i).2 else a) (0 : FFlags)
  (e.setQ d new).raiseF fl

end Sys2Proof.Machine
end

