-- ==== Sys2Proof/Machine/Ops.lean ====
section
/-! DEFINITION. The named operations over the state: sparse tables and memory, executions and their issue, operators,
tiles of the tile table, and taking a fault (discard, BOT, replay, trap) with the return from it (R108 to R111, R134,
R135). -/

namespace Sys2Proof.Machine

/-! ### Sparse tables -/

namespace Tbl

/-- The entry at k, or the default. -/
def get {α : Type} (d : α) : Tbl α → Nat → α
  | [], _ => d
  | (i, x) :: t, k => if i = k then x else get d t k

/-- The entry at k. -/
def find {α : Type} : Tbl α → Nat → Option α
  | [], _ => none
  | (i, x) :: t, k => if i = k then some x else find t k

/-- The table with an entry at k, its keys rising. -/
def set {α : Type} : Tbl α → Nat → α → Tbl α
  | [], k, x => [(k, x)]
  | (i, y) :: t, k, x =>
    if k < i then (k, x) :: (i, y) :: t
    else if k = i then (k, x) :: t
    else (i, y) :: set t k x

/-- The table without an entry at k. -/
def erase {α : Type} : Tbl α → Nat → Tbl α
  | [], _ => []
  | (i, y) :: t, k => if i = k then erase t k else (i, y) :: erase t k

/-- The table with x at k, which leaves no entry when x is the default. -/
def put {α : Type} [DecidableEq α] (d : α) (t : Tbl α) (k : Nat) (x : α) : Tbl α :=
  if x = d then erase t k else set t k x

/-- The keys of a table rise strictly. -/
def sorted {α : Type} : Tbl α → Bool
  | [] => true
  | [_] => true
  | (i, _) :: (j, y) :: t => decide (i < j) && sorted ((j, y) :: t)

end Tbl

/-! ### Memory -/

namespace Memory

/-- What an address that is not listed reads as (DESIGN CHOICE, log 3). -/
def unlisted : Byte := 0

/-- The canonical form: addresses strictly rising, and no entry equal to what an unlisted address reads as. -/
def wf (m : Memory) : Bool := Tbl.sorted (α := Byte) m && m.all fun c => c.2 != unlisted

/-- One byte. -/
def read (m : Memory) (a : Nat) : Byte := Tbl.get (α := Byte) unlisted m a

/-- The entries that a run of bytes from address a leaves listed. -/
def listed : Nat → List Byte → Memory
  | _, [] => []
  | a, b :: bs => if b = unlisted then listed (a + 1) bs else (a, b) :: listed (a + 1) bs

/-- Memory with the bytes from address a replaced. -/
def write (m : Memory) (a : Nat) (bs : List Byte) : Memory :=
  (m.filter fun c => c.1 < a) ++ listed a bs ++ m.filter fun c => a + bs.length ≤ c.1

/-- n bytes from address a. -/
def readBytes (m : Memory) (a n : Nat) : List Byte := (List.range n).map fun i => m.read (a + i)

end Memory

/-- Bytes in address order as a number, little-endian (R28). -/
def leNat : List Byte → Nat
  | [] => 0
  | b :: bs => b.toNat + 256 * leNat bs

/-- The n little-endian bytes of a number. -/
def leBytes : Nat → Nat → List Byte
  | 0, _ => []
  | n + 1, x => BitVec.ofNat 8 x :: leBytes n (x / 256)

/-- 64-bit words in memory order. -/
def wordsOfBytes (n : Nat) (bs : List Byte) : List Word :=
  (List.range n).map fun i => BitVec.ofNat 64 (leNat ((bs.drop (8 * i)).take 8))

def bytesOfWords (ws : List Word) : List Byte := ws.flatMap fun w => leBytes 8 w.toNat

def word (n : Nat) : Word := BitVec.ofNat 64 n

/-- The 32 words of a vector register as 256 bytes. -/
def vecWords (v : Vec) : List Word := (List.range 32).map fun i => lane v (2 * i + 1) ++ lane v (2 * i)

def vecBytes (v : Vec) : List Byte := bytesOfWords (vecWords v)

/-- A field of a word. -/
def field (w : Word) (hi lo : Nat) : Nat := (w.toNat / 2 ^ lo) % 2 ^ (hi - lo + 1)

/-- Every bit of a field is zero. -/
def fieldZero (w : Word) (hi lo : Nat) : Bool := field w hi lo == 0

/-- The gallery of a logical cell: 512 cells each (R9). -/
def galOf (cell : Nat) : Nat := cell / 512

/-! ### Parts of the state -/

namespace State

def getCtx (s : State) (k : CtxId) : Ctx := vget {} s.ctxs k.val

def setCtx (s : State) (k : CtxId) (c : Ctx) : State := { s with ctxs := vset s.ctxs k.val c }

def modCtx (s : State) (k : CtxId) (f : Ctx → Ctx) : State := s.setCtx k (f (s.getCtx k))

def modRegs (s : State) (k : CtxId) (f : CtxRegs → CtxRegs) : State :=
  s.modCtx k fun c => { c with regs := f c.regs }

def getCell (s : State) (c : Nat) : Cell := Tbl.get {} s.cells c

def setCell (s : State) (c : Nat) (x : Cell) : State := { s with cells := Tbl.put {} s.cells c x }

def modCell (s : State) (c : Nat) (f : Cell → Cell) : State := s.setCell c (f (s.getCell c))

def getGal (s : State) (g : Nat) : Gallery := vget {} s.gals g

def modGal (s : State) (g : Nat) (f : Gallery → Gallery) : State := { s with gals := vset s.gals g (f (s.getGal g)) }

def getLink (s : State) (l : Nat) : Link := vget {} s.links l

def modLink (s : State) (l : Nat) (f : Link → Link) : State := { s with links := vset s.links l (f (s.getLink l)) }

/-- A bridge carries traffic: it is neither DOWN nor in TRAINING, where flits wait at the sender (R384). -/
def bridgeUp (s : State) (l : Nat) : Bool := (s.getLink l).st != .down && (s.getLink l).st != .training

/-- Every bridge carries traffic: the chimney and the row are whole (R12, R389). -/
def bridgesUp (s : State) : Bool := s.bridgeUp 0 && s.bridgeUp 1 && s.bridgeUp 2 && s.bridgeUp 3

/-- Flits pass from one gallery to another: bridge b joins b to b + 1 modulo 4, and diagonal traffic goes through either
neighbour (R382, R384; which one is the part's choice, DESIGN CHOICE, log 62). -/
def joined (s : State) (a b : Nat) : Bool :=
  let up (i : Nat) : Bool := s.bridgeUp (i % 4)
  if a % 4 = b % 4 then true
  else if (a + 1) % 4 = b % 4 then up a
  else if (b + 1) % 4 = a % 4 then up b
  else (up a && up (a + 1)) || (up (a + 3) && up (a + 2))

def getExec (s : State) (k : Nat) : Option Exec := Tbl.find s.execs k

def setExec (s : State) (k : Nat) (e : Exec) : State := { s with execs := Tbl.set s.execs k e }

def dropExec (s : State) (k : Nat) : State := { s with execs := Tbl.erase s.execs k }

/-- A new name for a record in flight. -/
def fresh (s : State) : State := { s with nextId := s.nextId + 1 }

/-- The live execution of a cell and its key (R121). -/
def liveOf (s : State) (c : Nat) : Option (Nat × Exec) :=
  s.execs.find? fun p => p.1 / 256 = c && p.2.status == .live

/-- The live execution of the cell that issues in this step. -/
def live (s : State) : Option (Nat × Exec) := s.liveOf s.cur.val

def getRedex (s : State) (k : CtxId) (appo : Nat) : Option Redex := Tbl.find (s.getCtx k).redexes appo

def setRedex (s : State) (k : CtxId) (appo : Nat) (r : Redex) : State :=
  s.modCtx k fun c => { c with redexes := Tbl.set c.redexes appo r }

def modRedex (s : State) (k : CtxId) (appo : Nat) (f : Redex → Redex) : State :=
  match s.getRedex k appo with
  | some r => s.setRedex k appo (f r)
  | none => s

/-- The member executions of a redex, by key. -/
def members (s : State) (k : CtxId) (appo : Nat) : List (Nat × Exec) :=
  s.execs.filter fun p => p.2.ctx = k && p.2.appo == appo

/-- What an unlisted word of the MSI-X table reads: a vector's second word has its mask bit set (PRESUMED, log 13). -/
def msixReset (i : Nat) : Word := if i % 2 = 1 then 1 <<< 32 else 0

/-- A word of the MSI-X table, by number. -/
def msixWord (d : Device) (i : Nat) : Word := Tbl.get (msixReset i) d.msix i

/-- A vector's mask bit (PRESUMED, log 13). -/
def msixMasked (d : Device) (vec : Nat) : Bool := (msixWord d (2 * vec + 1)).getLsbD 32

/-- A MSI-X vector is signalled (R416): its message is sent, or held pending while the vector is masked
(PRESUMED, log 13). -/
def signal (s : State) (vec : Nat) : State :=
  if msixMasked s.dev vec then { s with dev := { s.dev with pba := Tbl.set s.dev.pba vec true } }
  else { s with dev := { s.dev with msi := vec :: s.dev.msi } }

/-- A write of a word of the MSI-X table: a pending vector that it leaves unmasked is sent (PRESUMED, log 13). -/
def writeMsix (s : State) (i : Nat) (v : Word) : State :=
  let d := { s.dev with msix := Tbl.put (msixReset i) s.dev.msix i v }
  let vec := i / 2
  if Tbl.get false d.pba vec && !msixMasked d vec then
    { s with dev := { d with pba := Tbl.erase d.pba vec, msi := vec :: d.msi } }
  else { s with dev := d }

/-- 64 bits of the pending-bit array. -/
def pbaWord (d : Device) (i : Nat) : Word :=
  (List.range 64).foldl (fun w b => if Tbl.get false d.pba (64 * i + b) then w ||| (1 <<< b) else w) 0

/-- A telemetry counter counts up, saturating; vector 33 is signalled as it reaches its threshold (R422). -/
def count (s : State) (i n : Nat) : State :=
  let old := (vget 0 s.dev.telem i).toNat
  let new := min (2 ^ 64 - 1) (old + n)
  let th := (vget 0 s.dev.thresh i).toNat
  let s := { s with dev := { s.dev with telem := vset s.dev.telem i (BitVec.ofNat 64 new) } }
  if th ≠ 0 ∧ old < th ∧ th ≤ new then s.signal 33 else s

/-- A pass request stands for a context (R103). -/
def request (s : State) (k : CtxId) : State := s.modCtx k fun c => { c with request := true }

end State

/-! ### Operators -/

/-- The built-in operators: 0x0000 to 0x00FF (R97). -/
def isBuiltin (op : BitVec 16) : Bool := op.toNat < 0x100

namespace OpImage

def num (o : OpImage) : BitVec 16 := o.hdr0.extractLsb' 0 16
def gang (o : OpImage) : Nat := field o.hdr0 22 16
def nr (o : OpImage) : Bool := o.hdr0.getLsbD 23
def sta (o : OpImage) : Bool := o.hdr0.getLsbD 24
def stcap (o : OpImage) : Nat := field o.hdr1 63 48
/-- The registers that the header declares (R89, R94). -/
def decl (o : OpImage) : Decl := ⟨field o.hdr0 38 32, field o.hdr0 45 40, field o.hdr0 52 48⟩
/-- The code word that a fetch returns: the all-zero word outside the code (R81). -/
def fetch (o : OpImage) (pc : Word) : Word := o.code.getD pc.toNat 0

end OpImage

/-! ### What the registers of a context store (R7) -/

/-- SUMPBASE as a write or an image stores it: an address of 48 bits, a whole chunk (R99). -/
def sumpBaseStored (v : Word) : Word := v &&& 0x0000FFFFFFFFFE00

/-- PTROOT as a write or an image stores it (R372). -/
def ptrootStored (v : Word) : Word := v &&& 0x00FF00FFFFFFF000

/-- FQBASE as a write or an image stores it: 4 KiB aligned (R376). -/
def fqBaseStored (v : Word) : Word := v &&& 0xFFFFFFFFFFFFF000

namespace State

def operator (s : State) (op : BitVec 16) : Option OpImage := Tbl.find s.dev.ops op.toNat

/-- The operator is non-replayable (R94); a built-in is replayable. -/
def opNR (s : State) (op : BitVec 16) : Bool :=
  match s.operator op with
  | some o => o.nr
  | none => false

/-- The declaration of an operator (R89). -/
def opDecl (s : State) (op : BitVec 16) : Decl :=
  match s.operator op with
  | some o => o.decl
  | none => .full

/-- The word that an execution fetches next (R81). -/
def fetchWord (s : State) (e : Exec) : Word :=
  match s.operator e.op with
  | some o => o.fetch e.pc
  | none => 0

end State

/-! ### Issue -/

abbrev Out := Host.Outcome State Fault Refusal

/-- A word issues in the live execution of the current cell: the body where lane 0 of its guard is true, and otherwise
only the advance to the next word (R82). -/
def issue (g : Guard) (s : State) (body : Nat → Exec → State) : Out :=
  match s.live with
  | none => .fault .noLiveExecution
  | some (k, e) => if e.guardOn g then .next (body k e) else .next (s.setExec k e.advance)

/-- A word whose guard works lane by lane issues whatever lane 0 holds (R82). -/
def issueLanes (s : State) (body : Nat → Exec → State) : Out :=
  match s.live with
  | none => .fault .noLiveExecution
  | some (k, e) => .next (body k e)

/-- A word that changes only its execution's registers, and completes. -/
def scalar (g : Guard) (s : State) (f : Exec → Exec) : Out :=
  issue g s fun k e => s.setExec k (f e).advance

/-- A lane-wise word that changes only its execution's registers, and completes. -/
def lanewise (s : State) (f : Exec → Exec) : Out :=
  issueLanes s fun k e => s.setExec k (f e).advance

/-! ### Tiles of the tile table -/

def Cell.getTile (c : Cell) (i : Nat) : Tile := Tbl.get {} c.tiles i

def Cell.setTile (c : Cell) (i : Nat) (t : Tile) : Cell := { c with tiles := Tbl.put {} c.tiles i t }

/-- A tile freed: PENDFREE while it is pinned or read, and FREE otherwise (R274, R277, R280). -/
def Tile.freed (t : Tile) : Tile :=
  if t.pin || t.reads != 0 then { t with state := .pendfree, bitmap := 0, owner := none } else {}

def Cell.freeTile (c : Cell) (i : Nat) : Cell := c.setTile i (c.getTile i).freed

/-- The tiles that a predicate picks, freed. -/
def Cell.freeTiles (c : Cell) (p : Tile → Bool) : Cell :=
  c.tiles.foldl (fun c t => if p t.2 then c.freeTile t.1 else c) c

/-! ### Causes (R109) -/

def causeUNDEFOP : Cause := 0x0001
def causeTYPE : Cause := 0x0002
def causeARITH : Cause := 0x0003
def causeZPIVOT : Cause := 0x0004
def causeNOTPD : Cause := 0x0005
def causeZDIAG : Cause := 0x0006
def causeILLOP : Cause := 0x0010
def causeREGGRP : Cause := 0x0011
def causeSCRATCH : Cause := 0x0012
def causeHEAPDUP : Cause := 0x0013
def causeXCTX : Cause := 0x0014
def causePAGE : Cause := 0x0015
def causeSUMPRD : Cause := 0x0016
def causeOWNER : Cause := 0x0017
def causeSTRUCT : Cause := 0x0018
def causeSDC : Cause := 0x0020
def causeECC : Cause := 0x0021
def causeSUMPFULL : Cause := 0x0030
def causeLOADFAULT : Cause := 0x0032

/-- The class of a cause for a registered or a built-in operator, STRUCT being raised by an execution (R108, R208). -/
def classOf (cause : Cause) (builtin : Bool) : Class :=
  match cause.toNat with
  | 0x01 | 0x02 | 0x03 | 0x18 => .value
  | 0x04 | 0x05 | 0x06 => .factor
  | 0x10 | 0x11 | 0x12 | 0x13 | 0x14 | 0x17 => .program
  | 0x15 | 0x16 => .memory
  | 0x20 | 0x21 | 0x30 => .machine
  | 0x32 => if builtin then .machine else .program
  | _ => .user

/-- The code of a class (R108). -/
def Class.code : Class → Nat
  | .value => 0 | .factor => 1 | .program => 2 | .memory => 3 | .user => 4 | .machine => 7

/-- TMASK rewrites faults of the class to BOT (R108). -/
def Class.masked (c : Class) (tmask : BitVec 5) : Bool :=
  match c with
  | .machine => false
  | c => tmask.getLsbD c.code

/-- An execution stands inside the word at its PC, where suspension does not take it: what it waits for is still to
come, or has come and the word is still to complete (R106, R361). One that has joined a collective, which keeps its
contribution, and one that a missing page keeps from its access are taken where they wait (R167, R375; DEDUCED,
log 79). -/
def Exec.insideWord (e : Exec) : Bool :=
  e.met || match e.wait with
    | .walk _ | .reply _ | .sending _ => true
    | _ => false

/-- A discarded redex that is to be replayed: INNERMOST, with its annotations, its launch serial and its place (R79,
R92, R135). -/
def Redex.toReplay (r : Redex) : Redex := { r with state := .innermost, fate := .none, cause := 0, replayed := r.serial.isSome }

/-! ### Discard (R134) -/

/-- A template without a chain that a member made, and without its triggers (R283, R288). -/
def Tmpl.unchained (t : Tmpl) (o : CtxId × Nat) : Tmpl :=
  { t with
    chain := if t.chain.map Chain.owner = some o then none else t.chain
    pending := t.pending.filter fun p => p.owner != o }

/-- A template that a member armed, disarmed; a chain that another made on it stays (R283). -/
def Tmpl.disarmed (t : Tmpl) : Tmpl := { num := t.num, chain := t.chain, pending := t.pending }

namespace State

/-- A read of a tile by a firing ends: the last frees an entry in PENDFREE (R274, R277). -/
def endRead (s : State) (cell : Nat) (f : Firing) : State :=
  let home : Option Nat :=
    if field f.src 63 60 = 0 then some cell
    else if field f.src 63 60 = 3 && !f.src.getLsbD 52 then some (field f.src 42 32)
    else none
  match home with
  | none => s
  | some h =>
    s.modCell h fun c =>
      let t := c.getTile (field f.src 7 0)
      let t := { t with reads := t.reads - 1 }
      c.setTile (field f.src 7 0) (if t.state = .pendfree && t.reads == 0 && !t.pin then {} else t)

/-- What an execution holds in its cell is given back: frame chunks, its save area, its chains, and its armed
templates, whose firings are cancelled (R131, R134, R283). -/
def releaseHold (s : State) (k : Nat) (e : Exec) : State :=
  let mine (t : Tmpl) : Bool := t.owner = some (e.ctx, e.appo)
  let s := (s.getCell (k / 256)).tmpls.toArray.toList.foldl (fun s t =>
    match t.firing with
    | some f => if mine t then s.endRead (k / 256) f else s
    | none => s) s
  s.modCell (k / 256) fun c =>
    { c with
      taken := c.taken.filter fun n => !e.frame.contains n
      areas := match e.area with
        | some a => Tbl.erase c.areas a
        | none => c.areas
      tmpls := tabulate 8 fun i =>
        let t := vget {} c.tmpls i
        ((if mine t then t.disarmed else t).unchained (e.ctx, e.appo)) }

/-- A return row or a DROP sets out for its origin (R329, R331, R336). -/
def sendRet (s : State) (k : CtxId) (src : Nat) (ticket : Word) (vec : Option Vec) : State :=
  s.fresh.modCtx k fun c => { c with rets := c.rets ++ [⟨s.nextId, src, ticket, vec⟩] }

/-- DROP markers for the tickets that the member in a place holds (R331). -/
def dropTickets (s : State) (k : Nat) (e : Exec) : State :=
  e.tickets.foldl (fun s t => s.sendRet e.ctx (k / 256) t.2 none) s

/-- A station ends: DROP for every row of its inbox, its chunks and its number given back (R331). -/
def endStation (s : State) (k : CtxId) (i : Nat) (st : Station) : State :=
  let s := st.rows.foldl (fun s r => s.sendRet k st.cell r.ticket none) s
  let s := s.modCell st.cell fun c => { c with taken := c.taken.filter fun n => !st.chunks.contains n }
  s.modCtx k fun c => { c with stations := Tbl.erase c.stations i }

/-- The stations of a redex end. -/
def endStations (s : State) (k : CtxId) (appo : Nat) : State :=
  (s.getCtx k).stations.foldl (fun s p => if p.2.appo = appo then s.endStation k p.1 p.2 else s) s

/-- The reassembly entries of a member are freed, with the chunks of their sum buffers (R334). -/
def freeRats (s : State) (k : Nat) (e : Exec) : State :=
  s.modCell (k / 256) fun c =>
    { c with
      taken := c.taken.filter fun n =>
        !(c.rat.any fun r => r.2.ctx = e.ctx && r.2.owner == e.appo && r.2.chunks.contains n)
      rat := c.rat.filter fun r => !(r.2.ctx = e.ctx && r.2.owner == e.appo) }

/-- The accesses that a member still has under way return to no register, and are no longer its own. -/
def orphanAccs (s : State) (k : Nat) : State :=
  { s with mem := { s.mem with
      accs := s.mem.accs.map fun a =>
        if a.cell = k / 256 && a.entry = k % 256 then { a with dest := none, entry := 256 } else a } }

/-- No K-block of a cell waits for the limiter any longer (R251). -/
def unhold (s : State) (cell : Nat) : State :=
  (s.modGal (galOf cell) fun g => { g with waiting := g.waiting.filter (· != cell) }).modCell cell fun c =>
    { c with held := false }

/-- One member execution ends with nothing left of it (R134): what it holds, its tiles, its reassembly entries, its
walks, its wait for the limiter, and the destinations of its accesses still under way. -/
def dropMember (s : State) (k : Nat) (e : Exec) : State :=
  let s := if e.status = .live then s.unhold (k / 256) else s
  let s := ((((s.releaseHold k e).freeRats k e).dropTickets k e)).modCell (k / 256) fun c =>
    c.freeTiles fun t => t.state != .free && t.ctx = e.ctx && t.owner == some e.appo
  let s := s.orphanAccs k
  { s with
    execs := Tbl.erase s.execs k
    mem := { s.mem with walks := s.mem.walks.filter fun w => !(w.cell = k / 256 && w.entry = k % 256) } }

/-- Chunks of held symbols given back. -/
def freeSymChunks (s : State) (chunks : List (Nat × Nat)) : State :=
  chunks.foldl (fun s p => s.modCell p.1 fun c => { c with taken := c.taken.filter (· != p.2) }) s

/-- The tiles of the cells of a span that a redex's members allocated and still own, freed: those of members that have
halted too (R134). -/
def freeOwned (s : State) (k : CtxId) (appo : Nat) (r : Redex) : State :=
  (List.range (r.last + 1 - r.first)).foldl (fun s i => s.modCell (r.first + i) fun c =>
    c.freeTiles fun t => t.state != .free && t.ctx = k && t.owner == some appo) s

/-- A discard (R134): every member execution of the redex ends, and its tiles, held effects, collectives, messages and
station are dropped. The redex's record is left with no work. -/
def discard (s : State) (k : CtxId) (appo : Nat) : State :=
  let s := (s.members k appo).foldl (fun s p => s.dropMember p.1 p.2) s
  let s := match s.getRedex k appo with
    | some r => (s.freeOwned k appo r).freeSymChunks r.chunks
    | none => s
  let s := s.endStations k appo
  s.modCtx k fun c =>
    { c with
      colls := c.colls.filter fun x => x.appo != appo
      msgs := c.msgs.filter fun x => x.appo != appo
      redexes := match Tbl.find c.redexes appo with
        | some r => Tbl.set c.redexes appo
            { r with
              out := [], held := [], resv := none, granted := 0, halts := [], chunks := [], sumpAsk := none, station := false }
        | none => c.redexes }

/-! ### Suspension (R106) -/

/-- The lowest save area that is free in a cell (R107). -/
def freeArea (s : State) (c : Nat) : Option Nat :=
  let t := (s.getCell c).areas
  if (Tbl.find t 0).isNone then some 0 else if (Tbl.find t 1).isNone then some 1
  else if (Tbl.find t 2).isNone then some 2 else none

/-- A live execution is suspended at its instruction boundary: its files go to a save area, its scalar set and its queue
of matrix work stay with it, none of which waits for the limiter, and it is ready from this cycle on (R106, R236, R252,
R367). -/
def suspendNow (s : State) (k : Nat) (e : Exec) : State :=
  let s := s.unhold (k / 256)
  let a := s.freeArea (k / 256)
  let s := s.setExec k { e with status := .suspended, area := a, saved := true, stopAsked := false, age := s.clk.toNat }
  match a with
  | some n => s.modCell (k / 256) fun c => { c with areas := Tbl.set c.areas n (k % 256) }
  | none => s

/-- Suspension of a live execution: at once where it stands at an instruction boundary, and at the boundary that ends
its word where it stands inside one. A member whose HALT has issued halts instead (R106, R107, R136). -/
def suspend (s : State) (k : Nat) (e : Exec) : State :=
  if e.wait = .engines then s
  else if e.insideWord then s.setExec k { e with stopAsked := true }
  else s.suspendNow k e

/-- Every live execution of a context is suspended (R105). -/
def suspendAll (s : State) (k : CtxId) : State :=
  (s.execs.filter fun p => p.2.ctx = k && p.2.status == .live).foldl (fun s p => s.suspend p.1 p.2) s

/-! ### Traps (R110) -/

/-- The records with one more, in order of cycle and, within a cycle, of cell (R110). -/
def insertTrap (t : TrapRec) : List TrapRec → List TrapRec
  | [] => [t]
  | r :: rs => if r.time = t.time ∧ t.cell < r.cell then t :: r :: rs else r :: insertTrap t rs

/-- A trap record is written in its place; the seventeenth is lost and sets the overflow bit (R110). -/
def writeTrap (s : State) (k : CtxId) (t : TrapRec) : State :=
  s.modCtx k fun c =>
    let l := insertTrap { t with time := s.clk } c.traps
    { c with traps := l.take 16, trapOvf := c.trapOvf || 16 < l.length }

/-- A context takes a trap: the record, and TRAPPED with its vector (R110, R416). Its live executions are suspended each
at its next instruction boundary, and a fault that one of them raises before is recorded too (R106, R110). The record of
a trap of a context that is EVICTING (of the last pass, by R12) is written, and the eviction goes on: the context stays
EVICTING and no vector is signalled (DESIGN CHOICE, log 64). -/
def trap (s : State) (k : CtxId) (t : TrapRec) : State :=
  let st := (s.getCtx k).state
  let s := if st = .trapped ∨ st = .evicting then s else s.signal (8 * k.val + 2)
  (s.writeTrap k t).modCtx k fun c =>
    { c with state := if c.state = .evicting then .evicting else .trapped }

/-! ### Faults (R135) -/

/-- What a discard reports (R134). -/
structure Report where
  cell : Nat
  pc   : Word
  iter : Word
  addr : Option Word := none
  deriving DecidableEq, Repr, Inhabited

/-- The record of a fault of an execution (R110). -/
def trapRec (s : State) (appo : Nat) (op : BitVec 16) (cause : Cause) (cls : Class) (w : Report) : TrapRec :=
  { cause := cause, nr := s.opNR op, pass := false, cls := cls, pos := appo, cell := w.cell, op := op,
    pc := w.pc, iter := w.iter, addr := w.addr }

/-- A redex discarded by a fault traps its context: RELEASE decides its fate (R110, R111, R135). -/
def faultTrap (s : State) (k : CtxId) (appo : Nat) (r : Redex) (cause : Cause) (cls : Class) (w : Report) : State :=
  ((s.discard k appo).modRedex k appo fun r => { r with state := .discarded, fate := .trapped cause }).trap k
    (s.trapRec appo r.op cause cls w)

/-- A redex discarded by a fault is rewritten to BOT at the next COMMIT (R135). -/
def faultBot (s : State) (k : CtxId) (appo : Nat) (cause : Cause) : State :=
  ((s.discard k appo).modRedex k appo fun r => { r with state := .discarded, fate := .bot cause }).request k

/-- A redex discarded to be replayed returns to INNERMOST with its annotations and launch serial (R135). -/
def replay (s : State) (k : CtxId) (appo : Nat) : State :=
  ((s.discard k appo).modRedex k appo Redex.toReplay).request k

/-- The mask that governs a fault of this cycle: a write of TMASK governs those of the cycles after it (R108). -/
def tmaskNow (s : State) (k : CtxId) : BitVec 5 :=
  let r := (s.getCtx k).regs
  if r.tmaskAt = some s.clk then r.tmaskOld else r.tmask

/-- The BKEN that governs a BKPT of this cycle: a write of DBGCFG governs those of the cycles after it (R209). -/
def bkenNow (s : State) (k : CtxId) : Bool :=
  let r := (s.getCtx k).regs
  if r.bkenAt = some s.clk then r.bkenOld else r.bken

/-- A fault discards the redex of a member, and ends as TMASK, the class and NR decide (R108, R135). -/
def faultRedex (s : State) (k : CtxId) (appo : Nat) (cause : Cause) (cls : Class) (w : Report) : State :=
  match s.getRedex k appo with
  | none => s
  | some r =>
    if !s.opNR r.op && cls.masked (s.tmaskNow k) then s.faultBot k appo cause
    else s.faultTrap k appo r cause cls w

/-- The report of an execution at its PC. -/
def report (k : Nat) (e : Exec) (addr : Option Word) : Report := ⟨k / 256, e.pc, e.iter, addr⟩

/-- Fault(cause) of an instruction of a member execution (R29, R135). -/
def raise (s : State) (k : Nat) (e : Exec) (cause : Cause) (addr : Option Word := none) : State :=
  s.faultRedex e.ctx e.appo cause (classOf cause (isBuiltin e.op)) (report k e addr)

/-- The counters of telemetry, in the order of R422. -/
def telMatrix : Nat := 0
def telTree : Nat := 1
def telLinks : Nat := 2
def telRoot : Nat := 3
def telCorrected : Nat := 4
def telUncorrected : Nat := 5
def telCells : Nat := 6
def telLate : Nat := 7
def telDropped : Nat := 8
def telReduce : Nat := 9

/-- An uncorrectable error reaches a member: counted in telemetry, and a fault ECC of its redex (R81, R388, R422). -/
def eccFault (s : State) (k : Nat) (e : Exec) : State := (s.count telUncorrected 1).raise k e causeECC

/-- A detected SDC, counted in telemetry: replay for the first and second of a replayable redex, and otherwise a trap of
class MACHINE (R135, R422). -/
def raiseSDC (s : State) (counter : Nat) (k : CtxId) (appo : Nat) (w : Report) : State :=
  let s := s.count counter 1
  match s.getRedex k appo with
  | none => s
  | some r =>
    if !s.opNR r.op && r.sdc < 2 then (s.replay k appo).modRedex k appo fun r => { r with sdc := r.sdc + 1 }
    else s.faultTrap k appo r causeSDC .machine w

end State

namespace State

/-! ### Release (R111): the return from a trap -/

/-- Every redex discarded by a recorded fault returns to INNERMOST, or is rewritten to BOT at the next COMMIT. -/
def releaseFate (bot : Bool) (r : Redex) : Redex :=
  match r.fate with
  | .trapped cause => if bot then { r with fate := .bot cause } else r.toReplay
  | _ => r

/-- The records of reducing lines whose firing is no longer in flight go (R290). Until then State holds those of
discarded firings; the readback window has no place for them in R417 and R418 (DEDUCED, log 87). -/
def dropRecs (s : State) (k : CtxId) : State :=
  let stands (r : RedRec) : Bool := (vget {} (s.getCell r.cell).tmpls r.tmpl).firing.any fun f => f.num == r.num
  { s with mem := { s.mem with redRecs := s.mem.redRecs.filter fun r => r.ctx != k || stands r } }

/-- RELEASE: the trap records go, with those of the lines of discarded firings, trapped redexes get their fate, and the
context runs again (R111, R290). -/
def releaseCtx (s : State) (k : CtxId) (bot : Bool) : State :=
  (s.dropRecs k).modCtx k fun c =>
    { c with
      state := .running, traps := [], trapOvf := false, request := true, still := false
      redexes := c.redexes.map fun p => (p.1, releaseFate bot p.2) }

end State

end Sys2Proof.Machine
end

