-- ==== Sys2Proof/Machine/Issue.lean ====
section
/-! DEFINITION. When the word at an execution's PC can issue: the interlocks on registers (R212, R235), the wait of a
factorisation (R259) and the order of fences (R308). -/

namespace Sys2Proof

/-- The guard predicate as a register (R212). -/
def Guard.refs : Guard → List RegRef
  | .always => []
  | .ifTrue q | .ifFalse q => [.q q]

/-- A matrix instruction: handed to the matrix engine (R235). -/
def Instr.isMatrix : Instr → Bool
  | .mma .. | .mmag .. | .mzero .. | .mld .. | .mst .. | .mrowr .. | .mroww .. | .mtran .. | .mchk .. | .mchkr ..
  | .luf .. | .chol .. | .qrh .. | .trsm .. | .qapply .. | .papply .. | .papplyt .. => true
  | _ => false

/-- A FACT instruction (R255). -/
def Instr.isFact : Instr → Bool
  | .luf .. | .chol .. | .qrh .. | .trsm .. | .qapply .. | .papply .. | .papplyt .. => true
  | _ => false

/-- An instruction that may issue while a FACT instruction runs: a matrix instruction, or one of the scalar and vector
chapters that writes only g, q and v registers and flags, MTS and the SYS group apart: a branch writes none but g63, and
an MFS of RAND writes RAND (R259). A word that is no instruction counts by its fault, which waits (R214). -/
def Instr.factFriendly (i : Instr) : Bool :=
  i.isMatrix ||
  match i with
  | .nop .. | .halt .. | .yield .. | .trap .. | .bkpt .. | .abort .. | .waitev .. | .mts .. => false
  | .loop .. | .loopi .. | .breakLoop .. => false
  | .mfs _ _ sreg => sreg != 0x00E
  | .prid .. | .prld .. | .prst .. => false
  | .ld .. | .st .. | .vld .. | .vlds .. | .vgath .. | .vst .. | .vsts .. | .vscat .. => false
  | .ldh .. | .sth .. | .lds .. | .sts .. | .stsMask .. => false
  | .aadd .. | .afadd .. | .amin .. | .amax .. | .aand .. | .aor .. | .axchg .. | .acas .. => false
  | .fenceAcq .. | .fenceRel .. | .fenceFull .. => false
  | .talloc .. | .tfree .. | .tseal .. | .thdr .. | .tseth .. | .tpres .. | .tdesc .. => false
  | .cparm .. | .cpfire .. | .cptest .. | .cpwait .. | .cpcan .. | .cpchain .. => false
  | .give .. | .recl .. | .ownq .. => false
  | .tbcast .. | .tred .. | .tscan .. | .tmcast .. | .trow .. | .trecv .. | .tall .. => false
  | .symld .. | .syman .. | .symcnt .. | .emit .. | .emitt .. | .emitr .. | .resv .. => false
  | .route .. | .ratwt .. | .ratrd .. | .srecv .. | .sret .. | .scap .. | .scapSet .. => false
  | .barj .. | .barw .. | .barq .. | .grab .. | .steal .. | .rngset .. | .rngq .. => false
  | _ => true

/-- The order that an instruction asks for before it issues: every earlier access complete (R308). -/
def Instr.waitsForAll : Instr → Bool
  | .sts _ _ o _ _ _ | .stsMask _ o _ _ _ _ => o == .release
  | .aadd _ o _ _ _ _ | .afadd _ o _ _ _ _ | .amin _ o _ _ _ _ | .amax _ o _ _ _ _ | .aand _ o _ _ _ _
  | .aor _ o _ _ _ _ | .axchg _ o _ _ _ _ | .acas _ o _ _ _ _ => o == .release || o == .acqRel
  | .fenceRel _ _ | .fenceFull _ _ => true
  | _ => false

/-- A fence counts the firings of the member whose destination is system space or host memory as earlier accesses,
and with scope fabric those whose destination is remote (R308). -/
def Instr.fenceScope : Instr → Option Scope
  | .fenceRel _ sc | .fenceFull _ sc => some sc
  | _ => none

namespace Machine

/-- The registers that loads and atomics under way will still write (R305, R306). -/
def State.pendingDest (s : State) (k : Nat) : List RegRef :=
  (s.mem.accs.filter fun a => a.cell = k / 256 && a.entry = k % 256).filterMap fun a => a.dest.map RegRef.g

/-- Some register of the first list stands in the second. -/
def meets (a b : List RegRef) : Bool := a.any fun r => b.contains r

/-- A firing of the member into system space, host memory, or (fabric) a remote part is still in flight, or was
cancelled and a line that it had sent to that part is not acknowledged yet (R287, R308, R320). -/
def State.firingsOut (s : State) (k : Nat) (e : Exec) (sc : Scope) : Bool :=
  ((s.getCell (k / 256)).tmpls.toArray.toList.any fun t =>
    t.owner = some (e.ctx, e.appo) &&
    match t.firing with
    | some f =>
      let kind := field f.dst 63 60
      kind = 1 || kind = 4 || (kind = 6 && sc == .fabric)
    | none => false)
  || (sc == .fabric && s.fab.sent.any fun m =>
    m.firing != 0 && m.ctx == e.ctx && m.cell == k / 256 && m.appo == e.appo)

/-- The accesses of an execution that have not completed (R308). -/
def State.openAccs (s : State) (k : Nat) : List Access :=
  s.mem.accs.filter fun a => a.cell = k / 256 && a.entry = k % 256

/-- An access is a load or an atomic, which returns a value. -/
def AccKind.returns : AccKind → Bool
  | .store | .mask _ => false
  | _ => true

/-- The word at the PC can issue: its registers hold what earlier words deliver, the matrix queue has room, and the
fences before it are met (R212, R235, R259, R308). -/
def State.canIssue (s : State) (k : Nat) (e : Exec) (i : Instr) : Bool :=
  let reads := i.guard.refs ++ i.reads
  let writes := i.writes
  let pend := s.pendingDest k
  let engWrites := e.mq.flatMap fun m => m.instr.writes
  let engReads := e.mq.flatMap fun m => (m.instr.reads).filter fun r => match r with
    | .g _ => false
    | _ => true
  !meets (reads ++ writes) pend
  && (if i.isMatrix then e.mq.length < 4 else !meets (reads ++ writes) engWrites && !meets writes engReads)
  && (!(e.mq.any fun m => m.instr.isFact) || (i.factFriendly && !i.isFact))
  && (e.fence.all fun id => !(s.openAccs k).any fun a => a.id = id)
  && (!i.waitsForAll || !e.guardOn i.guard || ((s.openAccs k).isEmpty &&
      match i.fenceScope with
      | some sc => !s.firingsOut k e sc
      | none => true))

end Machine

end Sys2Proof
end

