-- ==== Sys2Proof/Machine/Slices.lean ====
section
/-! DEFINITION. The home slices: where a physical address lives (R313 to R315), the bytes there, presence, and the words
of the heap (R15, R300, R304). -/

namespace Sys2Proof.Machine

/-- F of R314: the exclusive-or of the K-bit groups of PA[37:7], n groups from a number v = PA[37:7]. -/
def foldBits (k : Nat) : Nat → Nat → Nat
  | 0, _ => 0
  | n + 1, v => (v % 2 ^ k) ^^^ foldBits k n (v / 2 ^ k)

/-- K and BASE of the window of a physical address (R313): at reset K = 8 and BASE = 0. -/
def windowOf (s : State) (pa : Nat) : Nat × Nat :=
  Tbl.get (8, 0) (s.getGal (pa / 2 ^ 38 % 4)).window (pa / 2 ^ 30 % 256)

/-- The home slice of a physical address, numbered from 0 to 1,023 over the four dies (R313). -/
def homeSlice (s : State) (pa : Nat) : Nat :=
  let (k, base) := windowOf s pa
  256 * (pa / 2 ^ 38 % 4) + (base / 2 ^ k * 2 ^ k + foldBits k 8 (pa / 2 ^ 7 % 2 ^ 31)) % 256

/-- The key of a line in its home slice. -/
def lineKey (s : State) (pa : Nat) : Nat := 2 ^ 33 * homeSlice s pa + pa / 128

namespace State

/-- A byte as its home slice gives it: the slice's own, or HBM's (R310). -/
def loadByte (s : State) (pa : Nat) : Byte :=
  match Tbl.find s.mem.dirty (lineKey s pa) with
  | some l => l.getD (pa % 128) 0
  | none => s.mem.hbm.read pa

/-- The line of a physical address as its home slice gives it. -/
def lineBytes (s : State) (pa : Nat) : List Byte :=
  match Tbl.find s.mem.dirty (lineKey s pa) with
  | some l => l
  | none => s.mem.hbm.readBytes (pa / 128 * 128) 128

/-- A byte written at its home slice. -/
def storeByte (s : State) (pa : Nat) (b : Byte) : State :=
  { s with mem := { s.mem with
      dirty := Tbl.set s.mem.dirty (lineKey s pa) ((s.lineBytes pa).set (pa % 128) b) } }

def loadBytes (s : State) (pa n : Nat) : List Byte := (List.range n).map fun i => s.loadByte (pa + i)

def storeBytes (s : State) (pa : Nat) : List Byte → State
  | [] => s
  | b :: bs => (s.storeByte pa b).storeBytes (pa + 1) bs

/-- A little-endian 64-bit word at its home slice (R28). -/
def loadWord (s : State) (pa : Nat) : Word := BitVec.ofNat 64 (leNat (s.loadBytes pa 8))

def storeWord (s : State) (pa : Nat) (x : Word) : State := s.storeBytes pa (leBytes 8 x.toNat)

/-- A DIRECT write: HBM is written as well (R311). -/
def storeDirect (s : State) (pa : Nat) (bs : List Byte) : State :=
  let s := s.storeBytes pa bs
  { s with mem := { s.mem with hbm := s.mem.hbm.write pa bs } }

/-! ### Ways (R15) -/

/-- The lines installed in a home slice that stand in the set of a line, by key. -/
def sameSet (s : State) (key : Nat) : List Nat :=
  let l := (s.mem.lines.map Prod.fst).filter fun x => x / 2 ^ 33 == key / 2 ^ 33 && lineKey s (x % 2 ^ 33 * 128) == x
  if l.length < 16 then l
  else l.filter fun x => Config.sliceSet (x % 2 ^ 33) % 128 == Config.sliceSet (key % 2 ^ 33) % 128

/-- A line leaves its slice, written back to HBM where it is dirty. -/
def writeBack (s : State) (key : Nat) : State :=
  { s with mem := { s.mem with
      hbm := match Tbl.find s.mem.dirty key with
        | some l => s.mem.hbm.write (key % 2 ^ 33 * 128) l
        | none => s.mem.hbm
      dirty := Tbl.erase s.mem.dirty key, lines := Tbl.erase s.mem.lines key } }

/-- A line is to be installed in its slice: where the 16 ways of its set are taken, another line leaves it, of the
part's choice (DESIGN CHOICE, log 74). -/
def makeRoom (s : State) (key : Nat) : State :=
  let l := s.sameSet key
  if l.length < 16 || l.contains key then s else s.writeBack (l.getD (Config.sliceVictim s.nextId % l.length) 0)

/-! ### Presence (R300, R304) -/

/-- The heap word of a physical address is present. -/
def present (s : State) (pa : Nat) : Bool := Tbl.get false s.mem.present (pa / 8)

/-- A heap word is written and becomes present (R300). -/
def putHeap (s : State) (pa : Nat) (x : Word) : State :=
  let s := s.storeWord (pa / 8 * 8) x
  { s with mem := { s.mem with present := Tbl.put false s.mem.present (pa / 8) true } }

end State

end Sys2Proof.Machine
end

