-- ==== Sys2Proof/Machine/Symbols.lean ====
section
/-! DEFINITION. Symbols and expressions (chapter 04): tags, well-formed words, the grammar, and the annotations that
MARK computes. -/

namespace Sys2Proof.Machine

/-! ### Words (R59, R60) -/

def tagFREE : Nat := 0x0
def tagINT : Nat := 0x1
def tagF32 : Nat := 0x2
def tagTILE : Nat := 0x3
def tagOP : Nat := 0x4
def tagAPPO : Nat := 0x5
def tagCOLON : Nat := 0x6
def tagAPPC : Nat := 0x7
def tagSEQO : Nat := 0x8
def tagSEQC : Nat := 0x9
def tagFRMO : Nat := 0xA
def tagFRMC : Nat := 0xB
def tagWAIT : Nat := 0xC
def tagBOT : Nat := 0xD
def tagMARK : Nat := 0xE

def symTag (w : Word) : Nat := field w 63 60
def symCtx (w : Word) : Nat := field w 59 58
/-- The operator number of an OP symbol (R60). -/
def symOp (w : Word) : BitVec 16 := BitVec.ofNat 16 (field w 47 32)

/-- A word of a tag in a context. -/
def mkSym (tag : Nat) (k : CtxId) (payload : Nat) : Word :=
  BitVec.ofNat 64 (tag * 2 ^ 60 + k.val * 2 ^ 58 + payload % 2 ^ 58)

def mkBot (k : CtxId) (cause : Cause) : Word := mkSym tagBOT k cause.toNat

/-- CTX replaced (R62). -/
def setSymCtx (k : CtxId) (w : Word) : Word :=
  if symTag w = tagFREE then w
  else (w &&& ~~~(3 <<< 58 : Word)) ||| (BitVec.ofNat 64 k.val <<< 58)

/-- The format of a TILE symbol or descriptor code, when it is not reserved. -/
def fmtOfCode (n : Nat) : Option Fmt := Fmt.ofCode (BitVec.ofNat 5 n)

/-- A well-formed symbol (R60, R64, R65). -/
def wellFormedSym (w : Word) : Bool :=
  match symTag w with
  | 0x0 => w == 0
  | 0x1 => fieldZero w 57 48
  | 0x2 => fieldZero w 57 32
  | 0x3 =>
    (fmtOfCode (field w 57 53)).isSome &&
      (if w.getLsbD 52 then fieldZero w 51 31 else fieldZero w 51 43 && fieldZero w 31 8)
  | 0x4 => fieldZero w 57 48
  | 0xC => fieldZero w 57 48 && fieldZero w 2 0
  | 0xD => fieldZero w 57 16
  | 0xE => fieldZero w 57 48 && fieldZero w 8 0
  | 0xF => false
  | _ => fieldZero w 57 0

/-- An atom: INT, F32, TILE, OP, WAIT or BOT (R68). -/
def isAtom (w : Word) : Bool :=
  let t := symTag w
  t == tagINT || t == tagF32 || t == tagTILE || t == tagOP || t == tagWAIT || t == tagBOT

/-! ### The grammar (R68) -/

/-- What the reader of an expression stands in: the whole, a sequence, a form before and after its OP, and an
application before its function, its COLON, its object and its APPC. -/
inductive Frame where
  | root | rootDone | seq | form0 | form | app0 | app1 | app2 | app3
  deriving DecidableEq, Repr

/-- The frames that take an expression. -/
def Frame.takesExpr : Frame → Bool
  | .root | .seq | .form | .app2 => true
  | _ => false

/-- An expression has ended inside a frame. -/
def Frame.ended : Frame → Option Frame
  | .root => some .rootDone
  | .seq => some .seq
  | .form => some .form
  | .app2 => some .app3
  | _ => none

/-- A function, an OP symbol or a form, has ended inside a frame. -/
def Frame.endedFun : Frame → Option Frame
  | .app0 => some .app1
  | f => f.ended

/-- The frames after one symbol; none where the grammar has no place for it. -/
def readSym (w : Word) : List Frame → Option (List Frame)
  | [] => none
  | f :: fs =>
    let pop (k : Frame → Option Frame) : Option (List Frame) :=
      match fs with
      | p :: ps => (k p).map (· :: ps)
      | [] => none
    match symTag w with
    | 0x1 | 0x2 | 0x3 | 0xC | 0xD => f.ended.map (· :: fs)
    | 0x4 => if f = .form0 then some (.form :: fs) else f.endedFun.map (· :: fs)
    | 0x5 => if f.takesExpr then some (.app0 :: f :: fs) else none
    | 0x6 => if f = .app1 then some (.app2 :: fs) else none
    | 0x7 => if f = .app3 then pop Frame.ended else none
    | 0x8 => if f.takesExpr then some (.seq :: f :: fs) else none
    | 0x9 => if f = .seq then pop Frame.ended else none
    | 0xA => if f.takesExpr || f = .app0 then some (.form0 :: f :: fs) else none
    | 0xB => if f = .form then pop Frame.endedFun else none
    | _ => none

def readSyms : List Word → List Frame → Option (List Frame)
  | [], fs => some fs
  | w :: ws, fs => match readSym w fs with
    | some fs' => readSyms ws fs'
    | none => none

/-- The words form exactly one expression (R69, R70). -/
def oneExpr (ws : List Word) : Bool := readSyms ws [.root] == some [.rootDone]

/-! ### Innermost applications (R71, R126) -/

/-- Symbols with their row positions, in row order, FREE slots passed over. -/
abbrev Row := List (Nat × Word)

/-- From just after an APPO: the position of its APPC when no APPO and no MARK comes first (R126). -/
def findAppc : Row → Option Nat
  | [] => none
  | (p, w) :: r =>
    let t := symTag w
    if t = tagAPPC then some p
    else if t = tagAPPO ∨ t = tagMARK then none
    else findAppc r

/-- The slots of a row from one position to another, both included. -/
def Row.between (r : Row) (p q : Nat) : Row := r.filter fun x => p ≤ x.1 && x.1 ≤ q

/-! ### Annotations (R77, R78) -/

/-- An annotation word of its fields. -/
def annWord (adepth sdepth : Nat) (inf ino first : Bool) (elem slot : Nat) : Word :=
  BitVec.ofNat 64 (min adepth 255 * 2 ^ 56 + min sdepth 255 * 2 ^ 48 + inf.toNat * 2 ^ 47 + ino.toNat * 2 ^ 46 +
    first.toNat * 2 ^ 45 + elem * 2 ^ 16 + slot)

/-- Where the reader of a redex stands: function part, object part, and the depth of sequences and forms. -/
structure AnnState where
  inObj   : Bool := false
  /-- Open sequences of the object. -/
  sd      : Nat := 0
  /-- Open forms of the object. -/
  fd      : Nat := 0
  /-- The object is a sequence. -/
  objSeq  : Bool := false
  /-- The ordinal of the next top-level element. -/
  elem    : Nat := 0
  started : Bool := false
  deriving Repr

/-- The ELEM of a top-level element's slot. -/
def elemOrd (e : Nat) : Nat := min e 0xFFFE

/-- The annotations of a redex's slots, from the slot with ordinal n (R78). The depths are those of the whole row. -/
def annotate (ad : Tbl Nat) : Nat → AnnState → Row → Tbl Word
  | _, _, [] => []
  | n, st, (p, w) :: r =>
    let t := symTag w
    let a := Tbl.get 0 ad p
    let slot := min n 0xFFFE
    if t = tagAPPO then (p, annWord a 0 false false true 0xFFFF slot) :: annotate ad (n + 1) st r
    else if t = tagAPPC then (p, annWord a 0 false false false 0xFFFF slot) :: annotate ad (n + 1) st r
    else if !st.inObj then
      if t = tagCOLON then
        (p, annWord a 0 false false false 0xFFFF slot) :: annotate ad (n + 1) { inObj := true } r
      else (p, annWord a 0 true false false 0xFFFF slot) :: annotate ad (n + 1) st r
    else
      let isSeq := st.objSeq || (!st.started && t == tagSEQO)
      let sd := if t = tagSEQO then st.sd + 1 else st.sd
      let fd := if t = tagFRMO then st.fd + 1 else st.fd
      let outer := isSeq && fd == 0 && sd == 1 && (t == tagSEQO && !st.started || t == tagSEQC)
      let e := if outer then 0xFFFF else if isSeq then elemOrd st.elem else 0
      let sd' := if t = tagSEQC then sd - 1 else sd
      let fd' := if t = tagFRMC then fd - 1 else fd
      let closes := isSeq && !outer && sd' == 1 && fd' == 0
      let st' : AnnState :=
        { inObj := true, sd := sd', fd := fd', objSeq := isSeq, elem := if closes then st.elem + 1 else st.elem,
          started := true }
      (p, annWord a sd false true false e slot) :: annotate ad (n + 1) st' r

/-- The number of top-level elements of a redex's object (R91). -/
def countElems (anns : Tbl Word) : Nat :=
  (anns.foldl (fun m x => let e := field x.2 31 16; if e = 0xFFFF then m else max m (e + 1)) 0)

/-- The annotation of a slot outside every redex (R78). -/
def outsideAnn (ad : Nat) : Word := annWord ad 0 false false false 0xFFFF 0xFFFF

end Sys2Proof.Machine
end

