-- ==== Sys2Proof/Machine/Member.lean ====
section
/-! DEFINITION. The life of a member execution in its cell: parking and its frame (R131, R132), what it waits for, HALT
(R121, R207), and the becoming ready of what waited (R132, R367). -/

namespace Sys2Proof.Machine

/-! ### Chunks of tile space (R272) -/

/-- A chunk of tile space that neither a tile nor anything else holds. -/
def Cell.chunkFree (c : Cell) (n : Nat) : Bool :=
  !c.taken.contains n && c.tiles.all fun t => t.2.state == .free || !(t.2.base ≤ n && n < t.2.base + t.2.count)

/-- The n highest free chunks (R272). -/
def Cell.topChunks (c : Cell) (n : Nat) : Option (List Nat) :=
  let l := (((List.range 1568).reverse.filter c.chunkFree).take n)
  if l.length < n then none else some l

/-- The lowest run of n free chunks (R272). -/
def Cell.lowRun (c : Cell) (n : Nat) : Option Nat :=
  (List.range (1569 - n)).find? fun b => (List.range n).all fun i => c.chunkFree (b + i)

/-! ### Parking (R131) -/

/-- The accumulators that a frame holds. -/
def aCount (m : BitVec 4) : Nat := popCount 4 m.toNat

/-- The bytes of a park frame (R131, DEDUCED, log 20): PC, FPCSR, RAND, MSTAT, FPROG, FSTAT and GROW; the counters with
their loop states; the event set and the collective counts; the declared registers and g63; perm unless it is the
identity; and each accumulator written. -/
def frameBytes (d : Decl) (e : Exec) : Nat :=
  7 * 8 + 4 * 24 + 3 * 8 + 8 * (d.g + (if d.g < 64 then 1 else 0)) + 8 * d.q + 256 * d.v +
    (if e.perm = permIdentity then 0 else 512) + 16384 * aCount e.aUsed

namespace State

/-- A live execution parks: its frame goes to the highest free chunks, or to a save area when tile space lacks them,
and the cell is free (R131). -/
def park (s : State) (k : Nat) (e : Exec) (w : WaitOn) : State :=
  let n := (frameBytes (s.opDecl e.op) e + 511) / 512
  match (s.getCell (k / 256)).topChunks n with
  | some l =>
    (s.modCell (k / 256) fun c => { c with taken := l ++ c.taken }).setExec k
      { e with status := .parked, wait := w, met := false, stopAsked := false, frame := l }
  | none =>
    match s.freeArea (k / 256) with
    | some a =>
      (s.modCell (k / 256) fun c => { c with areas := Tbl.set c.areas a (k % 256) }).setExec k
        { e with status := .parked, wait := w, met := false, stopAsked := false, area := some a }
    | none => s.setExec k { e with wait := w, met := false }

/-- An execution parks once its matrix queue is empty, and keeps its cell until then (R236). -/
def parkIdle (s : State) (k : Nat) (e : Exec) (w : WaitOn) : State :=
  if e.mq.isEmpty then s.park k e w else s

/-- A word that waits inside its instruction and keeps the cell. -/
def stall (s : State) (k : Nat) (e : Exec) (w : WaitOn) : State := s.setExec k { e with wait := w, met := false }

/-- The messages that pending events hold for an execution, by its key (R113). -/
def notedMessages (s : State) (k : CtxId) (key : Nat) : Nat := (s.getCtx k).msgFor.countP (· == key)

/-- A live execution of whose wait the cell is not kept parks as soon as its matrix queue is empty: a HALT whose engines
work, a missing page, a full target buffer, a collective that others have still to join (R131, R167, R171, R207, R236,
R294). -/
def parksIn (s : State) (e : Exec) : Bool :=
  match e.wait with
  | .engines | .page _ _ => true
  | .sending ids => (s.getCtx e.ctx).msgs.any fun m => ids.contains m.id && (s.execs.any fun p =>
      p.2.ctx = e.ctx && p.2.appo == e.appo && p.2.rank == m.dst && 8 ≤ p.2.recv.length + s.notedMessages e.ctx p.1)
  | .collective mmag n => match (s.getCtx e.ctx).colls.find? fun c => c.appo == e.appo && c.mmag == mmag && c.count == n with
    | some c => match s.getRedex e.ctx e.appo with
      | some r => c.joins.length < r.last + 1 - r.first
      | none => false
    | none => false
  | _ => false

/-- A word completes after a wait. -/
def finishWait (s : State) (k : Nat) (e : Exec) : State := s.setExec k { e.advance with met := false }

/-- The frame or save area that an execution leaves as it becomes live (R131, R106). -/
def unpark (s : State) (k : Nat) (e : Exec) : State :=
  (s.modCell (k / 256) fun c =>
    { c with
      taken := c.taken.filter fun n => !e.frame.contains n
      areas := match e.area with
        | some a => Tbl.erase c.areas a
        | none => c.areas }).setExec k
    { e with status := .live, frame := [], area := none, saved := false
             wait := if e.wait = .yielded then .nothing else e.wait }


/-- The scalar set that an execution holds (R13). -/
def scalarsOf (e : Exec) : ScalarSet :=
  { pc := e.pc, g := e.g, q := e.q, cnt := e.cnt, loops := e.loops, fpcsr := e.fpcsr, rand := e.rand, mstat := e.mstat
    fprog := e.fprog, fstat := e.fstat, grow := e.grow, events := e.events, ratst := e.ratst, cpEnds := e.cpEnds }

/-- An execution that holds its cell's scalar set: live, or suspended (R106, R418). -/
def holdsSet (e : Exec) : Bool := e.status == .live || e.status == .suspended

/-- An execution that is gone has halted, and was not discarded (R121). -/
def hasHalted (s : State) (e : Exec) : Bool :=
  (s.getRedex e.ctx e.appo).any fun r => r.halts.any fun h => h.rank == e.rank

/-- The scalar sets whose holder since an earlier state has parked or ended keep what it left, but for the FPCSR of a
discarded one, which vanishes with it (R13, R34; DEDUCED, log 7). -/
def leaveSets (old s : State) : State :=
  (old.execs.filter fun p => holdsSet p.2).foldl (fun s p =>
    let e := (s.getExec p.1).getD p.2
    let fpcsr := if (s.getExec p.1).isSome || s.hasHalted e then e.fpcsr else 0
    if (s.getExec p.1).any holdsSet then s
    else s.modCell (p.1 / 256) fun c =>
      { c with sets := Tbl.set c.sets p.2.ctx.val { scalarsOf e with fpcsr := fpcsr } }) s

/-! ### What a member waits for -/

/-- A member's engines are idle: no matrix work, no firing in flight or pending, no TSEAL read, and no OPEN reassembly
entry (R207). -/
def enginesIdle (s : State) (k : Nat) (e : Exec) : Bool :=
  let c := s.getCell (k / 256)
  e.mq.isEmpty
  && (c.tmpls.toArray.toList.all fun t =>
      (t.owner != some (e.ctx, e.appo) || t.firing.isNone) &&
      t.pending.all fun p => p.owner != (e.ctx, e.appo))
  && (c.tiles.all fun t => !((t.2.sealing || t.2.working) && t.2.ctx = e.ctx && t.2.owner == some e.appo))
  && (c.rat.all fun r => !(r.2.ctx = e.ctx && r.2.owner == e.appo && r.2.state == .opened))

/-- A firing of a template touches a tile of its cell as source or destination (R284, R286). -/
def firingTouches (f : Firing) (tile : Nat) : Bool :=
  (field f.src 63 60 == 0 && field f.src 7 0 == tile) || (field f.dst 63 60 == 0 && field f.dst 7 0 == tile)

/-- A firing writes a tile of its cell. -/
def firingWrites (f : Firing) (tile : Nat) : Bool := field f.dst 63 60 == 0 && field f.dst 7 0 == tile

/-- The byte range of a tile meets the one that starts at a descriptor's base. -/
def descInTile (t : Tile) (d : Word) : Bool :=
  let b := field d 19 0
  512 * t.base ≤ b && b < 512 * (t.base + t.count)

/-- A queued matrix instruction of a member of a rank works on a tile of the cell: of an MMAG, the operands that the
rank is a source of (R235, R238, R245). -/
def matOpOn (rank : Nat) (m : MatOp) (t : Tile) : Bool :=
  match m.instr with
  | .mma _ _ _ _ a b _ => (!a.isGroup && descInTile t m.ga) || (!b.isGroup && descInTile t m.gb)
  | .mmag _ _ _ nb1 _ _ _ _ =>
    (rank % (nb1.toNat + 1) == 0 && descInTile t m.ga) || (rank ≤ nb1.toNat && descInTile t m.gb)
  | .mld .. | .mst .. | .mchk .. | .mchkr .. => descInTile t m.ga
  | .qrh .. => descInTile t m.gb
  | .qapply .. => descInTile t (m.ga >>> 32)
  | _ => false

/-- Queued or running matrix work of any execution of a cell on a tile. -/
def matrixWork (s : State) (cell tile : Nat) : Bool :=
  let t := (s.getCell cell).getTile tile
  s.execs.any fun p => p.1 / 256 = cell && p.2.ctx = t.ctx && p.2.mq.any fun m => matOpOn p.2.rank m t

/-- The origin cell of a ticket (DESIGN CHOICE, log 25). -/
def ticketCell (w : Word) : Nat := field w 63 53

/-- An engine has queued or running work on a tile, or a trailing write remains (R281, R282). -/
def engineWork (s : State) (cell tile : Nat) (eng : Engine) : Bool :=
  let c := s.getCell cell
  let t := c.getTile tile
  let trailing := c.tmpls.toArray.toList.any fun x => match x.firing with
    | some f => firingWrites f tile
    | none => false
  match eng with
  | .copy => t.sealing || c.tmpls.toArray.toList.any fun x => match x.firing with
      | some f => firingTouches f tile
      | none => false
  | .matrix => trailing || s.matrixWork cell tile
  | .route => trailing || (c.rat.any fun r => r.2.state == .opened && r.2.tile == tile)
      || (s.getCtx t.ctx).rowsIn.any fun r => r.vec.isNone && ticketCell r.ticket == cell && r.tile == tile

/-- The message with an id has been taken, or was dropped (R171). -/
def msgTaken (s : State) (k : CtxId) (id : Nat) : Bool := !(s.getCtx k).msgs.any fun m => m.id == id

/-- The station of a member (R341). -/
def stationOf (s : State) (k : CtxId) (appo : Nat) : Option (Nat × Station) :=
  (s.getCtx k).stations.find? fun p => p.2.appo == appo

/-- A generation counts as completed, by GEN (R354). -/
def genDone (now gen : BitVec 32) : Bool := 1 ≤ (now - gen).toNat && (now - gen).toNat < 2 ^ 31

/-- What an execution waits for has come (R132). -/
def waitMet (s : State) (k : Nat) (e : Exec) : Bool :=
  e.met ||
  let c := s.getCell (k / 256)
  match e.wait with
  | .nothing => false
  | .yielded => true
  | .chunks t m => (c.getTile t).bitmap &&& m == m
  | .engine t eng => !(c.getTile t).working && !s.engineWork (k / 256) t eng
  | .engines => s.enginesIdle k e
  | .presence pa full => (!full && Tbl.get false s.mem.present (pa / 8)) ||
      match s.getRedex e.ctx e.appo with
      | some r => r.held.any fun h => h.2.pa == some (pa / 8 * 8)
      | none => false
  | .barrier pa gen join =>
    let now : BitVec 32 := (s.loadWord (pa + 8)).setWidth 32
    if join then now != gen else genDone now gen
  | .reply _ => false
  | .rat i => (Tbl.get {} c.rat i).state == .complete
  | .ratFree => (List.range 32).any fun i => (Tbl.get {} c.rat i).state == .free
  | .inbox => match s.stationOf e.ctx e.appo with
    | some (_, st) => !st.rows.isEmpty || st.state == .closed || st.quiescent
    | none => true
  | .message => !e.recv.isEmpty
  | .sending ids => ids.all (s.msgTaken e.ctx)
  | .page _ _ => false
  | .walk id => !s.mem.walks.any fun w => w.id == id
  | .collective _ _ => false
  | .events m => e.events &&& m != 0
  | .template t => (vget {} c.tmpls t.toNat).owner.isNone
  | .firing t => (vget {} c.tmpls t.toNat).firing.isNone

/-- An execution whose wait is over is ready, with the age of this cycle; one that kept the cell goes on (R132,
R367). CPWAIT, BARW, collectives and messages sent complete on what they
awaited; one that has yielded is ready and is seen to have yielded until it is live again (R419). -/
def wakeOne (s : State) (k : Nat) (e : Exec) : State :=
  if e.wait = .yielded then
    if e.status = .parked then s.setExec k { e with status := .ready, age := s.clk.toNat } else s
  else if e.wait ≠ .nothing ∧ s.waitMet k e ∧ (e.wait ≠ .engines ∨ (s.getCtx e.ctx).state = .evicting) then
    let met := match e.wait with
      | .chunks _ _ | .collective _ _ | .sending _ | .reply _ => true
      | .barrier _ _ join => !join
      | _ => false
    let e := { e with wait := .nothing, met := met }
    if e.status = .parked then s.setExec k { e with status := .ready, age := s.clk.toNat } else s.setExec k e
  else s

/-- Every execution whose wait is over. -/
def wake (s : State) : State := s.execs.foldl (fun s p => s.wakeOne p.1 p.2) s

/-- The executions that need not keep their cell park (R131, R236). -/
def parkWaiting (s : State) : State :=
  s.execs.foldl (fun s p =>
    if p.2.status = .live ∧ p.2.mq = [] ∧ s.parksIn p.2 then s.park p.1 p.2 p.2.wait else s) s

/-! ### Events of WAITEV (R210) -/

/-- An event of the members of a redex in one cell. -/
def raiseEvent (s : State) (cell : Nat) (k : CtxId) (appo : Nat) (bit : Nat) : State :=
  match s.execs.find? fun p => p.1 / 256 = cell && p.2.ctx = k && p.2.appo == appo with
  | some (key, e) => s.setExec key { e with events := e.events ||| (1 <<< bit) }
  | none => s

/-! ### Pending events of an eviction (R113) -/

/-- An event word is appended, with data of its own. -/
def noteEvent (s : State) (k : CtxId) (kind cell tag : Nat) (data : List Byte) : State :=
  s.modCtx k fun c =>
    { c with events := c.events ++ [word (kind * 2 ^ 60 + cell * 2 ^ 48 + tag)], eventData := c.eventData ++ data }

/-- The offset of the next data of an event. -/
def eventOffset (s : State) (k : CtxId) : Nat := (s.getCtx k).eventData.length

/-- The executions of a redex stay in the image of an eviction: its operator is non-replayable (R112). -/
def keptRedex (s : State) (k : CtxId) (appo : Nat) : Bool :=
  match s.getRedex k appo with
  | some r => s.opNR r.op
  | none => false

/-! ### HALT (R121, R207) -/

/-- The ranks of a redex's span. -/
def width (r : Redex) : Nat := r.last + 1 - r.first

/-- The symbols that the members emitted, in commit order (R124). -/
def result (r : Redex) : List Word := r.out.flatMap fun p => p.2

/-- An open span collective that the member has not joined (R169), or an MMAG among whose ranks it is (R246). -/
def openColl (s : State) (e : Exec) (mmag : Bool) : Bool :=
  (s.getCtx e.ctx).colls.any fun c =>
    c.appo == e.appo && c.mmag == mmag && !(c.joins.any fun j => j.rank == e.rank) &&
      match c.joins.head?.map Join.word with
      | some (.mmag _ _ mb nb _ _ _ _) => e.rank < (mb.toNat + 1) * (nb.toNat + 1)
      | _ => true

/-- The last member has halted: HALTED when the symbols form one expression of the declared length, and STRUCT
otherwise (R70, R121, R138). -/
def lastHalt (s : State) (e : Exec) (r : Redex) (w : Report) : State :=
  let out := result r
  let lengthOk := match r.resv with
    | some l => l.toNat == out.length
    | none => true
  if oneExpr out && lengthOk then
    (((s.endStations e.ctx e.appo).modRedex e.ctx e.appo fun r => { r with state := .halted }).modCtx e.ctx fun c =>
      { c with colls := c.colls.filter fun x => x.appo != e.appo }).request e.ctx
  else s.faultRedex e.ctx e.appo causeSTRUCT .value w

/-- A member HALTs once its engines have ended: it gives back what it holds, and its messages are dropped (R121,
R171). -/
def haltMember (s : State) (k : Nat) (e : Exec) : State :=
  let s := ((((s.releaseHold k e).freeRats k e).dropTickets k e).orphanAccs k).dropExec k
  let s := s.modCtx e.ctx fun c => { c with msgs := c.msgs.filter fun m => !(m.appo == e.appo && m.dst == e.rank) }
  match s.getRedex e.ctx e.appo with
  | none => s
  | some r =>
    let r := { r with halts := ⟨e.rank, e.pc, e.iter⟩ :: r.halts }
    let s := s.setRedex e.ctx e.appo r
    if r.halts.length = width r then s.lastHalt e r (report k e none) else s

/-- An issued HALT whose engines have ended halts its member, in whatever state its context is, unless it is being
evicted (R113, R136, R169, R207, R246). -/
def endHalt (s : State) (k : Nat) (e : Exec) : State :=
  if s.openColl e false || s.openColl e true then s.raise k e causeILLOP else s.haltMember k e

/-- The issued HALTs whose engines have ended: each completes, whether its member is parked or live. -/
def endHalts (s : State) : State :=
  (s.execs.filter fun p => p.2.wait == .engines && (s.getCtx p.2.ctx).state != .evicting).foldl (fun s p =>
    match s.getExec p.1 with
    | some e => if e.wait = .engines ∧ s.enginesIdle p.1 e then s.endHalt p.1 e else s
    | none => s) s

end State

end Sys2Proof.Machine
end

