-- ==== Sys2Proof/Machine/Pages.lean ====
section
/-! DEFINITION. Virtual memory: the page table and its walk (R369 to R373), the TLBs (R374), the checks of an access
(R294), missing pages and the host fault queue (R375 to R379). -/

namespace Sys2Proof.Machine

/-! ### The table (R370 to R372) -/

/-- The spaces of a page, in the coding of R371. -/
inductive Space where
  | heap | system | sump | host
  deriving DecidableEq, Repr, Inhabited

def Space.code : Space → Nat
  | .heap => 0 | .system => 1 | .sump => 2 | .host => 3

namespace Pte

def valid (p : Word) : Bool := p.getLsbD 63
def writable (p : Word) : Bool := p.getLsbD 62
def space (p : Word) : Nat := field p 61 60
def direct (p : Word) : Bool := p.getLsbD 59
def leaf (p : Word) : Bool := p.getLsbD 58
def key (p : Word) : Nat := field p 55 48
/-- The physical address, or for SPACE 3 the bus address, that an entry names. -/
def addr (p : Word) : Nat := if space p = 3 && leaf p then field p 47 12 * 4096 else field p 39 12 * 4096

/-- The bytes that a leaf at a level maps (R370). -/
def size (level : Nat) : Nat := if level = 2 then 2 ^ 30 else if level = 1 then 2 ^ 21 else 2 ^ 16

/-- The bytes of the table that an entry at a level names. -/
def tableSize (level : Nat) : Nat := if level = 1 then 256 else 4096

/-- A malformed entry at a level (R372). -/
def malformed (level : Nat) (p : Word) : Bool :=
  !fieldZero p 57 56 || !fieldZero p 11 0 ||
  (if leaf p then
    level == 3 || addr p % size level != 0 || (space p == 3 && direct p) || (space p != 3 && !fieldZero p 47 40)
  else
    level == 0 || !fieldZero p 62 59 || !fieldZero p 55 48 || !fieldZero p 47 40 || addr p % tableSize level != 0)

end Pte

/-- The index of a virtual address at a level (R370). -/
def vaIndex (level va : Nat) : Nat :=
  match level with
  | 3 => va / 2 ^ 39 % 512
  | 2 => va / 2 ^ 30 % 512
  | 1 => va / 2 ^ 21 % 512
  | _ => va / 2 ^ 16 % 32

/-- The outcomes of a walk (R373): a leaf with the base and the size of its page. -/
inductive WalkResult where
  | missing
  | malformed
  | leaf (t : Trans)
  deriving DecidableEq, Repr, Inhabited

/-- The walk from a table, whose entries are at a level, down to level 0. -/
def walkFrom (s : State) (ctx : CtxId) (va : Nat) : Nat → Nat → WalkResult
  | 0, table => entry 0 (s.loadWord (table + 8 * vaIndex 0 va)) .malformed
  | n + 1, table =>
    let p := s.loadWord (table + 8 * vaIndex (n + 1) va)
    entry (n + 1) p (walkFrom s ctx va n (Pte.addr p))
where
  /-- One entry read: the outcome it decides, or what the next table gives. -/
  entry (level : Nat) (p : Word) (next : WalkResult) : WalkResult :=
    if !Pte.valid p then .missing
    else if Pte.malformed level p then .malformed
    else if Pte.leaf p then .leaf ⟨ctx, va / Pte.size level * Pte.size level, Pte.size level, p⟩
    else next

/-- A walk of a context's table (R372). -/
def State.walkNow (s : State) (ctx : CtxId) (va : Nat) : WalkResult :=
  walkFrom s ctx va 3 (field (s.getCtx ctx).regs.ptroot 39 12 * 4096)

/-- The physical or bus address of a virtual address in a page (R372). -/
def Trans.pa (t : Trans) (va : Nat) : Nat := Pte.addr t.pte + va % t.size

/-- A translation covers a virtual address of a context. -/
def Trans.covers (t : Trans) (ctx : CtxId) (va : Nat) : Bool :=
  t.ctx == ctx && t.base ≤ va && va < t.base + t.size

/-! ### The checks of a translated access (R294, R373) -/

/-- The fault of an access to a page, if any: the context key, the space, and the right to write. -/
def pageCheck (key : Nat) (p : Word) (want : Space) (write : Bool) : Option Cause :=
  if Pte.key p ≠ key then some causePAGE
  else if Pte.space p ≠ want.code then (if Pte.space p = 2 then some causeSUMPRD else some causePAGE)
  else if write && !Pte.writable p then some causePAGE
  else none

/-- The key of a context (R372). -/
def Ctx.key (c : Ctx) : Nat := field c.regs.ptroot 55 48

/-- The outcomes of an access outside a member's TLB: of a copy, of WAIT resolution, of the sump and of the host. -/
inductive Access1 where
  | missing
  | fault (cause : Cause)
  | at (pa : Nat) (direct : Bool)
  deriving DecidableEq, Repr, Inhabited

/-- An access of an engine or of the pass, translated by a walk. -/
def State.access (s : State) (ctx : CtxId) (va : Nat) (want : Space) (write : Bool) : Access1 :=
  if 2 ^ 48 ≤ va then .fault causePAGE
  else match s.walkNow ctx va with
    | .missing => .missing
    | .malformed => .fault causePAGE
    | .leaf t => match pageCheck (s.getCtx ctx).key t.pte want write with
      | some c => .fault c
      | none => .at (t.pa va) (Pte.direct t.pte)

/-! ### TLBs (R374) -/

/-- A translation at the front of a TLB of n entries, the least recently used falling out. -/
def tlbPut (n : Nat) (t : Trans) (l : List Trans) : List Trans := (t :: l.filter fun x => x != t).take n

/-- The entries of one set of the second level that stay beside a new one: n of them, the most recent (R374). -/
def keepWays (t : Trans) : Nat → List Trans → List Trans
  | _, [] => []
  | n, x :: xs =>
    if Config.tlbSet x.ctx.val x.base % 256 ≠ Config.tlbSet t.ctx.val t.base % 256 then x :: keepWays t n xs
    else match n with
      | 0 => keepWays t 0 xs
      | m + 1 => x :: keepWays t m xs

/-- A translation at the front of a gallery's second level: 4,096 entries in sets of 16 ways, the least recently used of
its set falling out (R374). -/
def tlbPut2 (t : Trans) (l : List Trans) : List Trans :=
  let r := l.filter fun x => x != t
  if r.length < 16 then t :: r else (t :: keepWays t 15 r).take 4096

namespace State

/-- The translation that a cell's TLB, or its gallery's second level, holds for an address. -/
def tlbFind (s : State) (cell : Nat) (ctx : CtxId) (va : Nat) : Option Trans :=
  match (s.getCell cell).tlb.find? fun t => t.covers ctx va with
  | some t => some t
  | none => (s.getGal (galOf cell)).tlb.find? fun t => t.covers ctx va

/-- A translation used: it becomes the most recent of both levels. -/
def tlbUse (s : State) (cell : Nat) (t : Trans) : State :=
  (s.modCell cell fun c => { c with tlb := tlbPut 64 t c.tlb }).modGal (galOf cell) fun g =>
    { g with tlb := tlbPut2 t g.tlb }

/-- The walks under way in a gallery's walker, each named once (R374). -/
def galWalks (s : State) (gal : Nat) : List Nat :=
  ((s.mem.walks.filter fun w => galOf w.cell == gal).map Walk.id).eraseDups

/-- The walk of a context to a region of 64 KiB that a gallery's walker has under way, into which another is merged
(R374). -/
def walkTo (s : State) (gal : Nat) (ctx : CtxId) (va : Nat) : Option Nat :=
  (s.mem.walks.find? fun w => galOf w.cell == gal && w.ctx == ctx && w.va.toNat / 2 ^ 16 == va / 2 ^ 16).map Walk.id

/-- A member's access starts a walk, or is merged into one, and the member waits for it inside its instruction; while
the walker holds 2,048 others, its word waits to issue (R374). -/
def startWalk (s : State) (k : Nat) (e : Exec) (va : Word) (want : Space) (write : Bool) : State :=
  let gal := galOf (k / 256)
  let w : Walk := { id := (s.walkTo gal e.ctx va.toNat).getD s.nextId, ctx := e.ctx, cell := k / 256, entry := k % 256
                    va := va, want := want.code, write := write }
  if (s.walkTo gal e.ctx va.toNat).isNone && 2048 ≤ (s.galWalks gal).length then s
  else
    let s := s.fresh
    ({ s with mem := { s.mem with walks := s.mem.walks ++ [w] } }).stall k e (.walk w.id)

/-- A member's access (R294, R375): a virtual address with a bit above 47 set faults PAGE; a translation that no TLB
holds starts a walk, and the member waits for it inside its instruction; the checks of the page follow; then the
access is done at its physical address. -/
def memAccess (s : State) (k : Nat) (e : Exec) (va : Word) (want : Space) (write : Bool)
    (body : State → Nat → Bool → State) : State :=
  if 2 ^ 48 ≤ va.toNat then s.raise k e causePAGE (some va)
  else match s.tlbFind (k / 256) e.ctx va.toNat with
    | some t =>
      match pageCheck (s.getCtx e.ctx).key t.pte want write with
      | some c => s.raise k e c (some va)
      | none => body (s.tlbUse (k / 256) t) (t.pa va.toNat) (Pte.direct t.pte)
    | none => s.startWalk k e va want write

/-! ### Missing pages (R375 to R378) -/

/-- The kind bits of a queue entry (R377). -/
def fqRead : BitVec 5 := 1
def fqWrite : BitVec 5 := 2
def fqSump : BitVec 5 := 4
def fqWait : BitVec 5 := 8
def fqCopy : BitVec 5 := 16

/-- A stall merges into the outstanding entry of its region, or opens one (R378). -/
def fqStall (s : State) (ctx : CtxId) (cell va space : Nat) (kind : BitVec 5) : State :=
  s.modCtx ctx fun c =>
    let region := va / 2 ^ 16
    if c.fq.any fun q => q.region == region then
      { c with fq := c.fq.map fun q =>
          if q.region = region then { q with kind := q.kind ||| kind, count := min 0xFFFF (q.count + 1) } else q }
    else { c with fq := c.fq ++ [{ region := region, space := BitVec.ofNat 2 space, kind := kind, cell := cell }] }

/-- A member's access meets a missing page: it parks in its instruction (R132, R375). -/
def pageWait (s : State) (k : Nat) (e : Exec) (w : Walk) : State :=
  let s := s.fqStall w.ctx w.cell w.va.toNat w.want (if w.write then fqWrite else fqRead)
  let on : WaitOn := .page w.va w.write
  if e.status = .live && e.mq.isEmpty then s.park k e on else s.stall k e on

end State

/-- The outcome of a walk for one of the accesses merged into it (R373). A page that no entry maps is missing for an
AOR of R435 too, and its member waits (DEDUCED, log 90). -/
def State.walkEnd (s : State) (w : Walk) : State :=
  let k := 256 * w.cell + w.entry
  match s.getExec k with
  | none => s
  | some e =>
    match s.walkNow w.ctx w.va.toNat with
    | .leaf tr => (s.tlbUse w.cell tr).setExec k { e with wait := .nothing }
    | .malformed => s.raise k e causePAGE (some w.va)
    | .missing => s.pageWait k e w

/-- PAGE_WALK: the walk id ends, for every access merged into it. A translation enters both TLBs and the member tries
again; a malformed entry faults PAGE; a missing one makes the member wait for the host (R373 to R375). -/
def execPageWalk (s : State) : Out :=
  let mine := s.mem.walks.filter fun w => w.id == s.arg.id
  let t := { s with mem := { s.mem with walks := s.mem.walks.filter fun w => w.id != s.arg.id } }
  .next (mine.foldl State.walkEnd t)

/-! ### The ring of the host fault queue (R376 to R378) -/

/-- FQPROD[7:0]. -/
def CtxRegs.fqIndex (r : CtxRegs) : Nat := field r.fqProd 7 0

/-- The ring is full (R376). -/
def CtxRegs.fqFull (r : CtxRegs) : Bool := (r.fqIndex + 1) % 256 == field r.fqCons 7 0

/-- The two words of an entry as it is posted (R377). -/
def FqEntry.ring (q : FqEntry) (ph : Bool) (seq : BitVec 32) : List Word :=
  [BitVec.ofNat 64 (ph.toNat * 2 ^ 63 + q.space.toNat * 2 ^ 56 + q.kind.toNat * 2 ^ 48 + q.region * 2 ^ 16),
   BitVec.ofNat 64 (seq.toNat * 2 ^ 32 + q.count * 2 ^ 16 + q.cell)]

/-- FQ_POST: the oldest PENDING entry is written to the ring, FQPROD advances, and the fault vector is signalled
(R378). -/
def execFqPost (s : State) : Out :=
  let k := s.arg.ctx
  let c := s.getCtx k
  match c.fq.find? fun q => q.seq.isNone with
  | none => .next s
  | some q =>
    if c.regs.fqFull then .next s
    else
      let i := c.regs.fqIndex
      let seq := c.fqSeq + 1
      let base := field c.regs.fqBase 63 12 * 4096
      let bytes := bytesOfWords (q.ring c.fqWrap seq)
      let s := { s with mem := { s.mem with host := s.mem.host.write (base + 16 * i) bytes } }
      .next ((s.modCtx k fun c =>
        { c with
          fq := c.fq.map fun x => if x = q then { x with seq := some seq } else x
          fqSeq := seq
          fqWrap := if i = 255 then !c.fqWrap else c.fqWrap
          regs := { c.regs with fqProd := BitVec.ofNat 64 (seq.toNat * 2 ^ 32 + (i + 1) % 256) } }).signal
        (8 * k.val + 1))

end Sys2Proof.Machine
end

