-- ==== Sys2Proof/Machine/Fabric.lean ====
section
/-! DEFINITION. The fabric's flits and flows: layout (R390), sending over a link and inside the part (R393), and the
delivery of each message once (R393). The order of the words of a payload is the model's (DESIGN CHOICE, log 22). -/

namespace Sys2Proof.Machine

/-! ### Flits (R390) -/

namespace Flit

def w (f : FlitWords) (i : Nat) : Word := f.getD i 0

def seq (f : FlitWords) : Nat := field (w f 0) 63 48
def vc (f : FlitWords) : Nat := field (w f 0) 47 46
def type (f : FlitWords) : Nat := field (w f 0) 45 42
def dst (f : FlitWords) : Nat := field (w f 0) 39 22
def src (f : FlitWords) : Nat := field (w f 0) 21 4
def msg (f : FlitWords) : Nat := field (w f 1) 63 32
def ack (f : FlitWords) : Nat := field (w f 1) 31 16
def ackv (f : FlitWords) : Bool := (w f 1).getLsbD 15
def nak (f : FlitWords) : Bool := (w f 1).getLsbD 14
/-- TGT: the context, the chunk number, and the line of the chunk (R284, R390). -/
def tgtCtx (f : FlitWords) : Nat := field (w f 2) 41 40
def tgtChunk (f : FlitWords) : Nat := field (w f 2) 38 0
def tgtLine (f : FlitWords) : Nat := field (w f 2) 43 42
/-- Word i of the payload. -/
def pay (f : FlitWords) (i : Nat) : Word := w f (3 + i)

/-- ELEM and OP of a line, as a shape of R285 holds them (DESIGN CHOICE, log 22). -/
def shape (f : FlitWords) : Word := BitVec.ofNat 64 (field (pay f 0) 7 4 * 2 ^ 8 + field (pay f 0) 2 0)

/-- The flow of a flit: its source, destination and channel (R393). -/
def flow (f : FlitWords) : Nat := (dst f * 2 ^ 18 + src f) * 4 + vc f

/-- Message number a of a flow comes before b, modulo 2^32. -/
def msgBefore (a b : Nat) : Bool := a % 2 ^ 32 != b % 2 ^ 32 && (b % 2 ^ 32 + 2 ^ 32 - a % 2 ^ 32) % 2 ^ 32 < 2 ^ 31

/-- The TYPE codes of R391. -/
def tIdle : Nat := 0
def tLine : Nat := 1
def tReduce : Nat := 2
def tAck : Nat := 3
def tArrive : Nat := 4
def tRelease : Nat := 5
def tRangeReq : Nat := 6
def tRangeRep : Nat := 7
def tImage : Nat := 8
def tFail : Nat := 9

/-- A flit before a link numbers it: channel, type, destination, source, message number, target and payload. -/
def make (vc type dst src msg : Nat) (tgt : Word) (pay : List Word) : FlitWords :=
  [BitVec.ofNat 64 (vc * 2 ^ 46 + type * 2 ^ 42 + dst * 2 ^ 22 + src * 2 ^ 4), BitVec.ofNat 64 (msg % 2 ^ 32 * 2 ^ 32),
    tgt] ++ (pay ++ List.replicate 28 0).take 28

/-- A flit as a link sends it: SEQ, ACK, ACKV, NAK, and its CRC. -/
def stamp (f : FlitWords) (seq ack : Nat) (nak : Bool) : FlitWords :=
  let w0 := (w f 0) ||| (BitVec.ofNat 64 (seq % 2 ^ 16) <<< 48)
  let w1 := (w f 1) ||| BitVec.ofNat 64 (ack % 2 ^ 16 * 2 ^ 16 + 2 ^ 15 + nak.toNat * 2 ^ 14)
  let body := (w0 :: w1 :: (f.drop 2)).take 31
  body ++ [Config.crc64 body]

end Flit

/-! ### Sending (R393) -/

/-- A link that carries traffic: UP or DEGRADED, or RETRYING from one of them (R384). -/
def Link.usable (l : Link) : Bool := l.st == .up || l.st == .degraded || l.st == .retrying

/-- A link over which a flow may set out (R393). -/
def Link.ready (l : Link) : Bool := l.st == .up || l.st == .degraded

/-- A channel has allowance left, and the retry buffer room: at most 256 flits of a channel, and 2,048 in all, stand
there unacknowledged (R387, R392). An allowance returns with the acknowledgement of its flit (DESIGN CHOICE, log 62).
-/
def Link.room (l : Link) (vc : Nat) : Bool :=
  l.retry.length < 2048 && (l.retry.filter fun p => Flit.vc p.2 == vc).length < 256

namespace State

/-- A flit leaves by a link: numbered, kept for retry, and handed to the link (R387, R391). -/
def pushFlit (s : State) (l : Nat) (f : FlitWords) : State :=
  let k := s.getLink l
  let out := Flit.stamp f k.txSeq.toNat (k.rxSeq - 1).toNat false
  let s := s.modLink l fun k => { k with retry := k.retry ++ [(k.txSeq, f)], txSeq := k.txSeq + 1 }
  { s with fab := { s.fab with sentOut := s.fab.sentOut ++ [(l, out)] } }

/-- A flit is to leave by a link: at once, or when its channel may send; one channel never holds back another (R387,
R391, R392). -/
def transmit (s : State) (l : Nat) (f : FlitWords) : State :=
  let k := s.getLink l
  if k.room (Flit.vc f) && !k.waiting.any fun x => Flit.vc x == Flit.vc f then s.pushFlit l f
  else s.modLink l fun k => { k with waiting := k.waiting ++ [f] }

/-- The flits that wait at a link leave as far as their channels may send, in order within each channel (R392). -/
def sendQueued (s : State) (l : Nat) : State :=
  (s.getLink l).waiting.foldl (fun s f => s.transmit l f) (s.modLink l fun k => { k with waiting := [] })

/-- The gallery of the home slice of an address (R313). -/
def galAt (s : State) (pa : Nat) : Nat := homeSlice s pa / 256

/-- Rhafer link l, numbered 4 + l, may carry traffic to an identifier (R393). -/
def mayCarry (s : State) (dst l : Nat) : Bool := 4 ≤ l && (Tbl.get 0 s.fab.routes dst).getLsbD (l - 4)

/-- The lowest-numbered link, UP or DEGRADED, that may carry traffic to an identifier (R393). -/
def routeTo (s : State) (dst : Nat) : Option Nat :=
  (List.range 20).find? fun l => s.mayCarry dst l && (s.getLink l).ready

/-- The link over which a message may set out: the lowest of its mask; for a combined line its parent link, for which it
waits while that trains, and when that is DOWN the lowest of its mask (R384, R393, R395, R397). -/
def outLink (s : State) (via : Option Nat) (dst : Nat) : Option Nat :=
  match via with
  | none => s.routeTo dst
  | some l =>
    if (s.getLink l).usable then some l else if (s.getLink l).st = .training then none else s.routeTo dst

/-- Some link that may carry traffic to an identifier is usable (R393). -/
def routable (s : State) (dst : Nat) : Bool := (List.range 20).any fun l => s.mayCarry dst l && (s.getLink l).usable

/-- The gallery that a Rhafer link leaves (R382). -/
def linkGal (l : Nat) : Nat := (l - 4) / 4

/-- Traffic passes from a gallery, if one is named, to the gallery of a Rhafer link (R382, R384). -/
def reaches (s : State) (gal : Option Nat) (l : Nat) : Bool := gal.all fun g => s.joined g (linkGal l)

/-- Earlier messages of a flow wait, or are on their way over another link: a message that went now could arrive before
them (R393). -/
def flowHeld (earlier : List FabMsg) (dst : BitVec 18) (vc l : Nat) : Bool :=
  earlier.any fun m => m.dst == dst && m.vc == vc && !m.queued && m.link != some l

/-- A flit of a flow is at a link other than one, not yet acknowledged there (R393). -/
def transitHeld (s : State) (f : FlitWords) (l : Nat) : Bool :=
  (List.range 20).any fun x => x != l &&
    let k := s.getLink x
    (k.retry.any fun p => Flit.flow p.2 == Flit.flow f) || k.waiting.any fun g => Flit.flow g == Flit.flow f

/-- An earlier flit of the flow of one waits for a link (R393). -/
def transitBefore (s : State) (f : FlitWords) : Bool :=
  s.fab.transit.any fun p => Flit.flow p.2 == Flit.flow f && Flit.msgBefore (Flit.msg p.2) (Flit.msg f)

/-- A message of this part cannot set out by a link yet: an earlier one of its flow could arrive after it, or a bridge
on its way to the link carries no traffic (R384, R393). -/
def linkHeld (s : State) (earlier : List FabMsg) (m : FabMsg) (l : Nat) : Bool :=
  flowHeld earlier m.dst m.vc l || s.transitHeld m.words l || s.transitBefore m.words || !s.reaches m.gal l

/-- The gallery by which a flit that waits here came; none for one of this part's own. -/
def portOf (s : State) (f : FlitWords) : Option Nat := (s.fab.ports.find? fun p => p.1 == f).map Prod.snd

/-- A flit keeps the gallery by which it came, or loses it. -/
def setPort (s : State) (f : FlitWords) (gal : Option Nat) : State :=
  let rest := s.fab.ports.filter fun p => p.1 != f
  { s with fab := { s.fab with ports := match gal with
      | some g => rest ++ [(f, g)]
      | none => rest } }

/-- The home slice of an address can be reached from where a flit came in (R382, R384). -/
def portJoined (s : State) (f : FlitWords) (pa : Nat) : Bool :=
  (s.portOf f).all fun g => s.joined g (s.galAt pa)

/-- A message is accepted for this part: it is kept in arrival order, once, with the gallery by which it came (R382,
R393). -/
def deliver (s : State) (f : FlitWords) (gal : Option Nat) : State :=
  let seen := Tbl.get [] s.fab.seen (Flit.flow f)
  if seen.contains (Flit.msg f) then s
  else
    let s := s.setPort f gal
    { s with fab := { s.fab with
      seen := Tbl.set s.fab.seen (Flit.flow f) ((Flit.msg f :: seen).take 4096), inbox := s.fab.inbox ++ [f] } }

/-! ### Reduce and forward (R395) -/

/-- The entry of the reduction group table whose target holds a flit's line. -/
def rfGroup (s : State) (f : FlitWords) : Option Nat :=
  (List.range 64).find? fun i =>
    let g := Tbl.get (0, 0) s.fab.groups i
    g.1.getLsbD 63 && field g.1 59 42 == Flit.dst f && field g.1 41 40 == Flit.tgtCtx f
      && field g.1 38 0 ≤ Flit.tgtChunk f && Flit.tgtChunk f < field g.1 38 0 + field g.2 63 48

/-- The parent link of an entry. -/
def rfParent (g : Word × Word) : Nat := 4 + field g.2 11 8

/-- What a reducing line meets at a link unit (R395): the entry that takes it, and the child in whose queue it goes;
`none` inside names no child. -/
abbrev RfTake := Option (Nat × Option Nat)

/-- The entry that takes a reducing line that comes by an incoming Rhafer link, or 16 for the part's own, and its
child: the one from which the flow's lines have come before, whichever link brings them now (R397), else the link
itself. A line of the entry that comes from no child of it is not forwarded alone (R395); the model counts and drops
it, as one whose OP differs (DESIGN CHOICE, log 77). -/
def rfTakes (s : State) (from' : Nat) (f : FlitWords) : RfTake :=
  if Flit.type f ≠ Flit.tReduce then none
  else match s.rfGroup f with
    | none => none
    | some i =>
      let g := Tbl.get (0, 0) s.fab.groups i
      match Tbl.find s.fab.rfFrom (i * 2 ^ 38 + Flit.flow f) with
      | some c => some (i, some c)
      | none =>
        if !(s.getLink (if from' = 16 then rfParent g else 4 + from')).rf then none
        else some (i, if g.2.getLsbD (if from' = 16 then 15 else 16 + from') then some from' else none)

/-- The number of a line of a target: chunk and line. -/
def rfLine (f : FlitWords) : Nat := 4 * Flit.tgtChunk f + Flit.tgtLine f

/-- A line enters the queue of its child; one whose ELEM or OP differs from the entry is dropped and counted. -/
def rfPush (s : State) (i child : Nat) (f : FlitWords) : State :=
  let g := Tbl.get (0, 0) s.fab.groups i
  if field (Flit.pay f 0) 7 4 ≠ field g.2 7 4 || field (Flit.pay f 0) 2 0 ≠ field g.2 2 0 then s.count telReduce 1
  else
    let same (q : Nat × Nat × Nat × List FlitWords) : Bool := q.1 == i && q.2.1 == rfLine f && q.2.2.1 == child
    let rfq := if s.fab.rfq.any same then
        s.fab.rfq.map fun q => if same q then (q.1, q.2.1, q.2.2.1, q.2.2.2 ++ [f]) else q
      else s.fab.rfq ++ [(i, rfLine f, child, [f])]
    let from' := Tbl.set s.fab.rfFrom (i * 2 ^ 38 + Flit.flow f) child
    { s with fab := { s.fab with rfq := rfq, rfFrom := from' } }

/-! ### A message sets out (R393) -/

/-- A message of the part sets out: it takes the next number of its flow, and goes inside the part, over a link (its
parent link, or the lowest of its mask), or waits for one, for the bridges to it, and for earlier messages of its flow
that it could overtake; an acknowledgement is itself not acknowledged. -/
def fabPost (s : State) (vc type : Nat) (dst : BitVec 18) (tgt : Word) (pay : List Word) (m : FabMsg) : State :=
  let flow := 4 * dst.toNat + vc
  let num := Tbl.get 0 s.fab.nextMsg flow
  let f := Flit.make vc type dst.toNat s.fab.fabid.toNat num tgt pay
  let own := dst = s.fab.fabid
  let m := { m with num := num, dst := dst, vc := vc, words := f, since := s.clk }
  let link := if own then none else (s.outLink m.via dst.toNat).filter fun l => !s.linkHeld s.fab.sent m l
  let m := { m with link := link }
  let keep := type ≠ Flit.tAck || (!own && link.isNone)
  let s := { s with fab := { s.fab with nextMsg := Tbl.put 0 s.fab.nextMsg flow ((num + 1) % 2 ^ 32) } }
  let s := if keep then { s with fab := { s.fab with sent := s.fab.sent ++ [m] } } else s
  if own then s.deliver f m.gal
  else match link with
    | some l => s.transmit l f
    | none => s

/-- A message of the part sets out; its own reducing lines of a reduction group wait for the other children's (R395). -/
def fabSend (s : State) (vc type : Nat) (dst : BitVec 18) (tgt : Word) (pay : List Word) (m : FabMsg) : State :=
  let flow := 4 * dst.toNat + vc
  let num := Tbl.get 0 s.fab.nextMsg flow
  let f := Flit.make vc type dst.toNat s.fab.fabid.toNat num tgt pay
  match s.rfTakes 16 f with
  | none => s.fabPost vc type dst tgt pay m
  | some (i, child) =>
    let m := { m with num := num, dst := dst, vc := vc, words := f, since := s.clk, queued := true }
    let s := { s with fab := { s.fab with
      nextMsg := Tbl.put 0 s.fab.nextMsg flow ((num + 1) % 2 ^ 32), sent := s.fab.sent ++ [m] } }
    match child with
    | some c => s.rfPush i c f
    | none => s.count telReduce 1

/-- The end-to-end acknowledgement of a message that has been acted on sets out from the gallery in which it was, if one
is given (R384, R391, R393). -/
def fabAck (s : State) (f : FlitWords) (gal : Option Nat) : State :=
  s.fabSend 2 Flit.tAck (BitVec.ofNat 18 (Flit.src f)) 0
    [BitVec.ofNat 64 (Flit.vc f), BitVec.ofNat 64 (Flit.msg f)] { num := 0, dst := 0, vc := 0, words := [], gal := gal }

/-- The oldest message of a type that is the first of its flow and need not wait (R393). -/
def fabNext (s : State) (type : Nat) (ready : FlitWords → Bool) : Option FlitWords :=
  s.fab.inbox.find? fun f =>
    Flit.type f == type && s.fab.inbox.find? (fun x => Flit.flow x == Flit.flow f) == some f && ready f

/-- The plain lines whose words may be written now, oldest first: those that need not wait and that in their flow follow
nothing but plain lines of other targets, since no order holds between the words of two of these (R307, R316). -/
def linesNow (ready : FlitWords → Bool) : List FlitWords → List FlitWords → List FlitWords
  | _, [] => []
  | before, f :: l =>
    let free := before.all fun x =>
      Flit.flow x != Flit.flow f || (Flit.type x == Flit.tLine && Flit.w x 2 != Flit.w f 2)
    let rest := linesNow ready (f :: before) l
    if Flit.type f == Flit.tLine && free && ready f then f :: rest else rest

/-- The oldest message of a type that its unit can act on; one that waits at its unit holds no other back
(DEDUCED, log 26). -/
def fabReady (s : State) (type : Nat) (ready : FlitWords → Bool) : Option FlitWords :=
  s.fab.inbox.find? fun f => Flit.type f == type && ready f

/-- A message has been acted on. -/
def fabDone (s : State) (f : FlitWords) : State :=
  let s := s.setPort f none
  { s with fab := { s.fab with inbox := s.fab.inbox.erase f } }

/-! ### Flits that meet a missing page (R375) -/

/-- A context that keeps a queue of faults (R98, R377). -/
def keepsFaults (s : State) (k : CtxId) : Bool := (s.getCtx k).state != .free && (s.getCtx k).state != .evicted

/-- A flit waits for the WAKE of its queue entry. -/
def flitStalled (s : State) (f : FlitWords) : Bool := s.fab.stalled.any fun x => x.1 == f

/-- A flit meets a missing page of a context: it opens an entry of its fault queue, and waits for the WAKE of that entry
(R375, R378). -/
def stallFlit (s : State) (f : FlitWords) (k : CtxId) (va : Nat) (kind : BitVec 5) : State :=
  ({ s with fab := { s.fab with stalled := s.fab.stalled ++ [(f, k, va / 2 ^ 16)] } }).fqStall k 0 va 1 kind

end State

end Sys2Proof.Machine
end

