-- ==== Sys2Proof/Machine/Scalar.lean ====
section
/-! DEFINITION. Scalar integer, predicate and scalar floating instructions (chapter 11). -/

namespace Sys2Proof.Machine

/-! ### Integer results (R194, R195) -/

/-- gD receives the extended w-bit result of an exact integer value, wrapped or saturated (R42, R193, R194). -/
def intResult (ty : Ty) (sat : Bool) (v : Int) : Word :=
  extend ty (deliver (scalarSigned ty) sat (scalarWidth ty) v)

/-- An operand read as the TY reads it: signed for i64 and i32, unsigned for n32 (R194). -/
def typed (ty : Ty) (x : Word) : Int := intOf (scalarSigned ty) (scalarWidth ty) x.toNat

/-- The operand read as signed, and as unsigned, in w bits. -/
def asSigned (ty : Ty) (x : Word) : Int := intOf true (scalarWidth ty) x.toNat
def asUnsigned (ty : Ty) (x : Word) : Int := operand ty x

/-- A bitwise result on the w bits of two operands. -/
def bitResult (ty : Ty) (f : Word → Word → Word) (x y : Word) : Word := extend ty (f x y).toNat

/-- The count of a register shift: gB[5:0] for i64, gB[4:0] for i32 and n32 (R194). -/
def shiftCount (ty : Ty) (y : Word) : Nat := y.toNat % scalarWidth ty

def shiftResult (ty : Ty) (op : ShiftOp) (x : Word) (k : Nat) : Word :=
  extend ty (shiftElem op (scalarWidth ty) x.toNat k)

/-- The field bounds of BFX and BFI: p, and n = min(gC[6:0], w - p); none when p ≥ w or n = 0 (R195). -/
def bitField (ty : Ty) (b c : Word) : Option (Nat × Nat) :=
  let p := b.toNat % 64
  let n := min (c.toNat % 128) (scalarWidth ty - p)
  if scalarWidth ty ≤ p ∨ n = 0 then none else some (p, n)

/-- BFX (R195). -/
def bfx (ty : Ty) (x b c : Word) : Word :=
  match bitField ty b c with
  | none => 0
  | some (p, n) =>
    let f := (operand ty x / 2 ^ p) % 2 ^ n
    extend ty (bitsOf (scalarWidth ty) (intOf (scalarSigned ty) n f))

/-- BFI; gD[w−1:0] unchanged when p ≥ w or n = 0, extended as every 32-bit result is (R193, R195). -/
def bfi (ty : Ty) (old x b c : Word) : Word :=
  match bitField ty b c with
  | none => extend ty (operand ty old)
  | some (p, n) =>
    let o := operand ty old
    let hole := o - ((o / 2 ^ p) % 2 ^ n) * 2 ^ p
    extend ty (hole + (x.toNat % 2 ^ n) * 2 ^ p)

/-- SEXT (R195). -/
def sextAt (ty : Ty) (x b : Word) : Word :=
  let k := b.toNat % 64
  if scalarWidth ty - 1 ≤ k then extend ty (operand ty x)
  else extend ty (bitsOf (scalarWidth ty) (intOf true (k + 1) x.toNat))

/-- A register result of two g registers. -/
def gOp2 (g : Guard) (d a b : GReg) (s : State) (f : Word → Word → Word) : Out :=
  scalar g s fun e => e.setG d (f (e.getG a) (e.getG b))

/-- A register result of one g register. -/
def gOp1 (g : Guard) (d a : GReg) (s : State) (f : Word → Word) : Out :=
  scalar g s fun e => e.setG d (f (e.getG a))

/-- ADD (R194). -/
def execAdd (g : Guard) (ty : Ty) (sat : Bool) (d a b : GReg) (s : State) : Out :=
  gOp2 g d a b s fun x y => intResult ty sat (typed ty x + typed ty y)

/-- SUB (R194). -/
def execSub (g : Guard) (ty : Ty) (sat : Bool) (d a b : GReg) (s : State) : Out :=
  gOp2 g d a b s fun x y => intResult ty sat (typed ty x - typed ty y)

/-- AND (R194). -/
def execAnd (g : Guard) (ty : Ty) (d a b : GReg) (s : State) : Out :=
  gOp2 g d a b s (bitResult ty fun x y => x &&& y)

/-- OR (R194). -/
def execOr (g : Guard) (ty : Ty) (d a b : GReg) (s : State) : Out :=
  gOp2 g d a b s (bitResult ty fun x y => x ||| y)

/-- XOR (R194). -/
def execXor (g : Guard) (ty : Ty) (d a b : GReg) (s : State) : Out :=
  gOp2 g d a b s (bitResult ty fun x y => x ^^^ y)

/-- ANDN (R194). -/
def execAndn (g : Guard) (ty : Ty) (d a b : GReg) (s : State) : Out :=
  gOp2 g d a b s (bitResult ty fun x y => x &&& ~~~y)

/-- SHL (R194). -/
def execShl (g : Guard) (ty : Ty) (d a b : GReg) (s : State) : Out :=
  gOp2 g d a b s fun x y => shiftResult ty .shl x (shiftCount ty y)

/-- SHR (R194). -/
def execShr (g : Guard) (ty : Ty) (d a b : GReg) (s : State) : Out :=
  gOp2 g d a b s fun x y => shiftResult ty .shr x (shiftCount ty y)

/-- SRA (R194). -/
def execSra (g : Guard) (ty : Ty) (d a b : GReg) (s : State) : Out :=
  gOp2 g d a b s fun x y => shiftResult ty .sra x (shiftCount ty y)

/-- ROT (R194). -/
def execRot (g : Guard) (ty : Ty) (d a b : GReg) (s : State) : Out :=
  gOp2 g d a b s fun x y => shiftResult ty .rot x (shiftCount ty y)

/-- MIN (R194). -/
def execMin (g : Guard) (ty : Ty) (d a b : GReg) (s : State) : Out :=
  gOp2 g d a b s fun x y => intResult ty false (min (asSigned ty x) (asSigned ty y))

/-- MAX (R194). -/
def execMax (g : Guard) (ty : Ty) (d a b : GReg) (s : State) : Out :=
  gOp2 g d a b s fun x y => intResult ty false (max (asSigned ty x) (asSigned ty y))

/-- MINU (R194). -/
def execMinu (g : Guard) (ty : Ty) (d a b : GReg) (s : State) : Out :=
  gOp2 g d a b s fun x y => intResult ty false (min (asUnsigned ty x) (asUnsigned ty y))

/-- MAXU (R194). -/
def execMaxu (g : Guard) (ty : Ty) (d a b : GReg) (s : State) : Out :=
  gOp2 g d a b s fun x y => intResult ty false (max (asUnsigned ty x) (asUnsigned ty y))

/-- SEL: all 64 bits, by lane 0 of qC (R194). -/
def execSel (g : Guard) (d a b : GReg) (c : QReg) (s : State) : Out :=
  scalar g s fun e => e.setG d (if (e.getQ c).getLsbD 0 then e.getG a else e.getG b)

/-- MUL (R195). -/
def execMul (g : Guard) (ty : Ty) (sat : Bool) (d a b : GReg) (s : State) : Out :=
  gOp2 g d a b s fun x y => intResult ty sat (typed ty x * typed ty y)

/-- MULH: the high half of the signed product (R195). -/
def execMulh (g : Guard) (ty : Ty) (d a b : GReg) (s : State) : Out :=
  gOp2 g d a b s fun x y => intResult ty false (asSigned ty x * asSigned ty y / (2 ^ scalarWidth ty : Nat))

/-- MULHU: the high half of the unsigned product (R195). -/
def execMulhu (g : Guard) (ty : Ty) (d a b : GReg) (s : State) : Out :=
  gOp2 g d a b s fun x y => intResult ty false (asUnsigned ty x * asUnsigned ty y / (2 ^ scalarWidth ty : Nat))

/-- DIV (R195, R196). -/
def execDiv (g : Guard) (ty : Ty) (d a b : GReg) (s : State) : Out :=
  gOp2 g d a b s fun x y => extend ty (divTrunc true (scalarWidth ty) x.toNat y.toNat).1

/-- DIVU (R195, R196). -/
def execDivu (g : Guard) (ty : Ty) (d a b : GReg) (s : State) : Out :=
  gOp2 g d a b s fun x y => extend ty (divTrunc false (scalarWidth ty) x.toNat y.toNat).1

/-- REM (R195, R196). -/
def execRem (g : Guard) (ty : Ty) (d a b : GReg) (s : State) : Out :=
  gOp2 g d a b s fun x y => extend ty (divTrunc true (scalarWidth ty) x.toNat y.toNat).2

/-- REMU (R195, R196). -/
def execRemu (g : Guard) (ty : Ty) (d a b : GReg) (s : State) : Out :=
  gOp2 g d a b s fun x y => extend ty (divTrunc false (scalarWidth ty) x.toNat y.toNat).2

/-- MADD (R195). -/
def execMadd (g : Guard) (ty : Ty) (sat : Bool) (d a b c : GReg) (s : State) : Out :=
  scalar g s fun e =>
    e.setG d (intResult ty sat (typed ty (e.getG a) * typed ty (e.getG b) + typed ty (e.getG c)))

/-- CLZ (R195). -/
def execClz (g : Guard) (ty : Ty) (d a : GReg) (s : State) : Out :=
  gOp1 g d a s fun x => extend ty (leadingZeros (scalarWidth ty) x.toNat)

/-- POPC (R195). -/
def execPopc (g : Guard) (ty : Ty) (d a : GReg) (s : State) : Out :=
  gOp1 g d a s fun x => extend ty (popCount (scalarWidth ty) x.toNat)

/-- BFX (R195). -/
def execBfx (g : Guard) (ty : Ty) (d a b c : GReg) (s : State) : Out :=
  scalar g s fun e => e.setG d (bfx ty (e.getG a) (e.getG b) (e.getG c))

/-- BFI (R195). -/
def execBfi (g : Guard) (ty : Ty) (d a b c : GReg) (s : State) : Out :=
  scalar g s fun e => e.setG d (bfi ty (e.getG d) (e.getG a) (e.getG b) (e.getG c))

/-- SEXT (R195). -/
def execSext (g : Guard) (ty : Ty) (d a b : GReg) (s : State) : Out :=
  gOp2 g d a b s (sextAt ty)

/-- CMP: all 64 lanes of qD (R198). -/
def execCmp (g : Guard) (cond : ICond) (ty : Ty) (d : QReg) (a b : GReg) (s : State) : Out :=
  scalar g s fun e => e.setQAll d (iCompare cond (scalarWidth ty) (e.getG a).toNat (e.getG b).toNat)

/-- ADDI (R197). -/
def execAddi (g : Guard) (d a : GReg) (imm : BitVec 36) (s : State) : Out :=
  gOp1 g d a s fun x => x + simm imm

/-- ANDI (R197). -/
def execAndi (g : Guard) (d a : GReg) (imm : BitVec 36) (s : State) : Out :=
  gOp1 g d a s fun x => x &&& simm imm

/-- ORI (R197). -/
def execOri (g : Guard) (d a : GReg) (imm : BitVec 36) (s : State) : Out :=
  gOp1 g d a s fun x => x ||| simm imm

/-- XORI (R197). -/
def execXori (g : Guard) (d a : GReg) (imm : BitVec 36) (s : State) : Out :=
  gOp1 g d a s fun x => x ^^^ simm imm

/-- SHLI (R197). -/
def execShli (g : Guard) (d a : GReg) (imm : BitVec 6) (s : State) : Out :=
  gOp1 g d a s fun x => shiftResult .i64 .shl x imm.toNat

/-- SHRI (R197). -/
def execShri (g : Guard) (d a : GReg) (imm : BitVec 6) (s : State) : Out :=
  gOp1 g d a s fun x => shiftResult .i64 .shr x imm.toNat

/-- SRAI (R197). -/
def execSrai (g : Guard) (d a : GReg) (imm : BitVec 6) (s : State) : Out :=
  gOp1 g d a s fun x => shiftResult .i64 .sra x imm.toNat

/-- ROTI (R197). -/
def execRoti (g : Guard) (d a : GReg) (imm : BitVec 6) (s : State) : Out :=
  gOp1 g d a s fun x => shiftResult .i64 .rot x imm.toNat

/-- CMPI: all 64 bits against imm36 sign-extended (R198). -/
def execCmpi (g : Guard) (cond : ICond) (d : QReg) (a : GReg) (imm : BitVec 36) (s : State) : Out :=
  scalar g s fun e => e.setQAll d (iCompare cond 64 (e.getG a).toNat (simm imm).toNat)

/-- LI (R197). -/
def execLi (g : Guard) (d : GReg) (imm : BitVec 46) (s : State) : Out :=
  scalar g s fun e => e.setG d (imm.signExtend 64)

/-- LIH: bits [63:32]; the low half stands (R197). -/
def execLih (g : Guard) (d : GReg) (imm : BitVec 32) (s : State) : Out :=
  scalar g s fun e => e.setG d (imm ++ (e.getG d).setWidth 32)

/-! ### Predicates (R199) -/

/-- A predicate of two predicates, lane by lane. -/
def qOp2 (g : Guard) (d a b : QReg) (s : State) (f : BitVec 64 → BitVec 64 → BitVec 64) : Out :=
  scalar g s fun e => e.setQ d (f (e.getQ a) (e.getQ b))

/-- PAND (R199). -/
def execPand (g : Guard) (d a b : QReg) (s : State) : Out :=
  qOp2 g d a b s fun x y => x &&& y

/-- POR (R199). -/
def execPor (g : Guard) (d a b : QReg) (s : State) : Out :=
  qOp2 g d a b s fun x y => x ||| y

/-- PXOR (R199). -/
def execPxor (g : Guard) (d a b : QReg) (s : State) : Out :=
  qOp2 g d a b s fun x y => x ^^^ y

/-- PANDN (R199). -/
def execPandn (g : Guard) (d a b : QReg) (s : State) : Out :=
  qOp2 g d a b s fun x y => x &&& ~~~y

/-- PNOT (R199). -/
def execPnot (g : Guard) (d a : QReg) (s : State) : Out :=
  scalar g s fun e => e.setQ d (~~~e.getQ a)

/-- PSET: lanes below n (R199). -/
def execPset (g : Guard) (d : QReg) (n : BitVec 7) (s : State) : Out :=
  scalar g s fun e => e.setQ d (BitVec.ofNat 64 (2 ^ n.toNat - 1))

/-- PMOV (R199). -/
def execPmov (g : Guard) (d a : QReg) (s : State) : Out :=
  scalar g s fun e => e.setQ d (e.getQ a)

/-- PCNT (R199). -/
def execPcnt (g : Guard) (d : GReg) (a : QReg) (s : State) : Out :=
  scalar g s fun e => e.setG d (BitVec.ofNat 64 (popCount 64 (e.getQ a).toNat))

/-- The index of the lowest true lane; 64 when none is true (R199). -/
def firstLane (q : BitVec 64) : Nat := ((List.range 64).find? fun i => q.getLsbD i).getD 64

/-- PFIRST (R199). -/
def execPfirst (g : Guard) (d : GReg) (a : QReg) (s : State) : Out :=
  scalar g s fun e => e.setG d (BitVec.ofNat 64 (firstLane (e.getQ a)))

/-- PLD (R199). -/
def execPld (g : Guard) (d : QReg) (a : GReg) (s : State) : Out :=
  scalar g s fun e => e.setQ d (e.getG a)

/-- PST (R199). -/
def execPst (g : Guard) (d : GReg) (a : QReg) (s : State) : Out :=
  scalar g s fun e => e.setG d (e.getQ a)

/-! ### Scalar floating point (R200 to R203) -/

/-- The FP32 operand of a g register: bits [31:0] (R28). -/
def f32Of (x : Word) : Nat := x.toNat % 2 ^ 32

/-- A FP32 result: bits [31:0], zero above, with its flags raised (R28, R34). -/
def Exec.setF (e : Exec) (d : GReg) (r : Nat × FFlags) : Exec := (e.setG d (BitVec.ofNat 64 r.1)).raiseF r.2

/-- FADD, FSUB, FMUL and FDIV (R200). -/
def fOp2 (op : FOp) (g : Guard) (rm : Rm) (d a b : GReg) (s : State) : Out :=
  scalar g s fun e => e.setF d (fArith .f32 op (e.rm rm) (f32Of (e.getG a)) (f32Of (e.getG b)))

/-- FADD (R200). -/
def execFadd (g : Guard) (rm : Rm) (d a b : GReg) (s : State) : Out :=
  fOp2 .add g rm d a b s

/-- FSUB (R200). -/
def execFsub (g : Guard) (rm : Rm) (d a b : GReg) (s : State) : Out :=
  fOp2 .sub g rm d a b s

/-- FMUL (R200). -/
def execFmul (g : Guard) (rm : Rm) (d a b : GReg) (s : State) : Out :=
  fOp2 .mul g rm d a b s

/-- FDIV (R200). -/
def execFdiv (g : Guard) (rm : Rm) (d a b : GReg) (s : State) : Out :=
  fOp2 .div g rm d a b s

/-- FFMA: one rounding (R200). -/
def execFfma (g : Guard) (rm : Rm) (d a b c : GReg) (s : State) : Out :=
  scalar g s fun e =>
    e.setF d (fFma .f32 (e.rm rm) (f32Of (e.getG a)) (f32Of (e.getG b)) (f32Of (e.getG c)))

/-- FSQRT (R200). -/
def execFsqrt (g : Guard) (rm : Rm) (d a : GReg) (s : State) : Out :=
  scalar g s fun e => e.setF d (fSqrt .f32 (e.rm rm) (f32Of (e.getG a)))

/-- FMIN: RM is ignored (R200). -/
def execFmin (g : Guard) (_rm : Rm) (d a b : GReg) (s : State) : Out :=
  scalar g s fun e => e.setF d (fMinMax .f32 false (f32Of (e.getG a)) (f32Of (e.getG b)))

/-- FMAX: RM is ignored (R200). -/
def execFmax (g : Guard) (_rm : Rm) (d a b : GReg) (s : State) : Out :=
  scalar g s fun e => e.setF d (fMinMax .f32 true (f32Of (e.getG a)) (f32Of (e.getG b)))

/-- FABS: RM is ignored (R200). -/
def execFabs (g : Guard) (_rm : Rm) (d a : GReg) (s : State) : Out :=
  scalar g s fun e => e.setF d (fSign .f32 false (f32Of (e.getG a)))

/-- FNEG: RM is ignored (R200). -/
def execFneg (g : Guard) (_rm : Rm) (d a : GReg) (s : State) : Out :=
  scalar g s fun e => e.setF d (fSign .f32 true (f32Of (e.getG a)))

/-- FCVT: the source field of gA, the conversion, and the extension of its result (R202). -/
def fcvtResult (sty dty : Ty) (rm : Rm) (sat : Bool) (x : Word) : Word × FFlags :=
  let c := convElem (elemOf sty) (elemOf dty) rm sat (x.toNat % 2 ^ elemWidth sty)
  let r : Word := match elemOf dty with
    | .float _ => BitVec.ofNat 64 c.bits
    | .int _ _ => extend dty c.bits
  (r, c.fl)

/-- FCVT (R202). -/
def execFcvt (g : Guard) (sty dty : Ty) (rm : Rm) (sat : Bool) (d a : GReg) (s : State) : Out :=
  scalar g s fun e =>
    let r := fcvtResult sty dty (e.rm rm) sat (e.getG a)
    (e.setG d r.1).raiseF r.2

/-- FCLASS: no flag (R201). -/
def execFclass (g : Guard) (_rm : Rm) (d a : GReg) (s : State) : Out :=
  scalar g s fun e => e.setG d (fClass ((e.getG a).setWidth 32))

/-- The conditions of FCMP among those of VCMP (R203). -/
def FCond.toV : FCond → VCond
  | .eq => .eq | .ne => .ne | .lt => .lt | .le => .le | .un => .un

/-- FCMP: all 64 lanes of qD (R203). -/
def execFcmp (g : Guard) (cond : FCond) (d : QReg) (a b : GReg) (s : State) : Out :=
  scalar g s fun e =>
    let r := fCompare .f32 (FCond.toV cond) (f32Of (e.getG a)) (f32Of (e.getG b))
    (e.setQAll d r.1).raiseF r.2

end Sys2Proof.Machine
end

