-- ==== Sys2Proof/Machine/Vector.lean ====
section
/-! DEFINITION. Vector instructions (chapter 12): every form computes from operands read before any write, and writes
its destination lane by lane under the guard (R82, R216). -/

namespace Sys2Proof.Machine

/-- An integer element operation, exact, delivered by SAT or modulo 2 to the w (R42, R219). -/
def iElem (signed sat : Bool) (w : Nat) (v : Int) : Nat × FFlags := (deliver signed sat w v, 0)

/-- VADD, VSUB, VMUL and VDIV on one element (R219). -/
def vArith (op : FOp) (ty : Ty) (rm : Rm) (sat : Bool) (x y : Nat) : Nat × FFlags :=
  match elemOf ty with
  | .float t => fArith t op rm x y
  | .int sg w =>
    let a := intOf sg w x
    let b := intOf sg w y
    iElem sg sat w (match op with
      | .add => a + b
      | .sub => a - b
      | .mul => a * b
      | .div => 0)

/-- VFMA on one element: one rounding (R219, R220). -/
def vFma (ty : Ty) (rm : Rm) (sat : Bool) (x y z : Nat) : Nat × FFlags :=
  match elemOf ty with
  | .float t => fFma t rm x y z
  | .int sg w => iElem sg sat w (intOf sg w x * intOf sg w y + intOf sg w z)

/-- VMIN and VMAX on one element (R219). -/
def vMinMax (isMax : Bool) (ty : Ty) (x y : Nat) : Nat × FFlags :=
  match elemOf ty with
  | .float t => fMinMax t isMax x y
  | .int sg w =>
    let a := intOf sg w x
    let b := intOf sg w y
    iElem sg false w (if isMax then max a b else min a b)

/-- VABS and VNEG on one element (R219, R220). -/
def vSign (negate : Bool) (ty : Ty) (sat : Bool) (x : Nat) : Nat × FFlags :=
  match elemOf ty with
  | .float t => fSign t negate x
  | .int sg w =>
    let a := intOf sg w x
    iElem sg sat w (if negate then -a else a.natAbs)

/-- VMULH on one element (R219). -/
def vMulh (ty : Ty) (x y : Nat) : Nat × FFlags :=
  match elemOf ty with
  | .float _ => (0, 0)
  | .int sg w => iElem sg false w (intOf sg w x * intOf sg w y / (2 ^ w : Nat))

/-- An element-wise form of two vectors. -/
def vOp2 (g : Guard) (ty : Ty) (d a b : VReg) (s : State) (f : Exec → Nat → Nat → Nat × FFlags) : Out :=
  lanewise s fun e =>
    e.vecWrite g d fun i => laneMap2 (elemWidth ty) (f e) (lane (e.getV a) i) (lane (e.getV b) i)

/-- An element-wise form of one vector. -/
def vOp1 (g : Guard) (ty : Ty) (d a : VReg) (s : State) (f : Exec → Nat → Nat × FFlags) : Out :=
  lanewise s fun e => e.vecWrite g d fun i => laneMap1 (elemWidth ty) (f e) (lane (e.getV a) i)

/-- VADD (R219). -/
def execVadd (g : Guard) (ty : Ty) (rm : Rm) (sat : Bool) (d a b : VReg) (s : State) : Out :=
  vOp2 g ty d a b s fun e => vArith .add ty (e.rm rm) sat

/-- VSUB (R219). -/
def execVsub (g : Guard) (ty : Ty) (rm : Rm) (sat : Bool) (d a b : VReg) (s : State) : Out :=
  vOp2 g ty d a b s fun e => vArith .sub ty (e.rm rm) sat

/-- VMUL (R219). -/
def execVmul (g : Guard) (ty : Ty) (rm : Rm) (sat : Bool) (d a b : VReg) (s : State) : Out :=
  vOp2 g ty d a b s fun e => vArith .mul ty (e.rm rm) sat

/-- VFMA (R219). -/
def execVfma (g : Guard) (ty : Ty) (rm : Rm) (sat : Bool) (d a b c : VReg) (s : State) : Out :=
  lanewise s fun e =>
    e.vecWrite g d fun i =>
      laneMap3 (elemWidth ty) (vFma ty (e.rm rm) sat) (lane (e.getV a) i) (lane (e.getV b) i) (lane (e.getV c) i)

/-- VMIN: RM is ignored (R218, R219). -/
def execVmin (g : Guard) (ty : Ty) (_rm : Rm) (d a b : VReg) (s : State) : Out :=
  vOp2 g ty d a b s fun _ => vMinMax false ty

/-- VMAX: RM is ignored (R218, R219). -/
def execVmax (g : Guard) (ty : Ty) (_rm : Rm) (d a b : VReg) (s : State) : Out :=
  vOp2 g ty d a b s fun _ => vMinMax true ty

/-- VABS: RM is ignored (R218, R219). -/
def execVabs (g : Guard) (ty : Ty) (_rm : Rm) (sat : Bool) (d a : VReg) (s : State) : Out :=
  vOp1 g ty d a s fun _ => vSign false ty sat

/-- VNEG: RM is ignored (R218, R219). -/
def execVneg (g : Guard) (ty : Ty) (_rm : Rm) (sat : Bool) (d a : VReg) (s : State) : Out :=
  vOp1 g ty d a s fun _ => vSign true ty sat

/-- VDIV (R219, R220). -/
def execVdiv (g : Guard) (rm : Rm) (d a b : VReg) (s : State) : Out :=
  vOp2 g .f32 d a b s fun e => fArith .f32 .div (e.rm rm)

/-- VSQRT (R219, R220). -/
def execVsqrt (g : Guard) (rm : Rm) (d a : VReg) (s : State) : Out :=
  vOp1 g .f32 d a s fun e => fSqrt .f32 (e.rm rm)

/-- VMULH (R219). -/
def execVmulh (g : Guard) (ty : Ty) (d a b : VReg) (s : State) : Out :=
  vOp2 g ty d a b s fun _ => vMulh ty

/-! ### Logic and shifts (R221) -/

/-- VAND (R221). -/
def execVand (g : Guard) (ty : Ty) (d a b : VReg) (s : State) : Out :=
  vOp2 g ty d a b s fun _ x y => (x &&& y, 0)

/-- VOR (R221). -/
def execVor (g : Guard) (ty : Ty) (d a b : VReg) (s : State) : Out :=
  vOp2 g ty d a b s fun _ x y => (x ||| y, 0)

/-- VXOR (R221). -/
def execVxor (g : Guard) (ty : Ty) (d a b : VReg) (s : State) : Out :=
  vOp2 g ty d a b s fun _ x y => (x ^^^ y, 0)

/-- VANDN (R221). -/
def execVandn (g : Guard) (ty : Ty) (d a b : VReg) (s : State) : Out :=
  vOp2 g ty d a b s fun _ x y => (x &&& (2 ^ elemWidth ty - 1 - y), 0)

/-- VSHL: the count is the low bits of the matching element (R221). -/
def execVshl (g : Guard) (ty : Ty) (d a b : VReg) (s : State) : Out :=
  vOp2 g ty d a b s fun _ x y => (shiftElem .shl (elemWidth ty) x (y % elemWidth ty), 0)

/-- VSHR: the count is the low bits of the matching element (R221). -/
def execVshr (g : Guard) (ty : Ty) (d a b : VReg) (s : State) : Out :=
  vOp2 g ty d a b s fun _ x y => (shiftElem .shr (elemWidth ty) x (y % elemWidth ty), 0)

/-- VSRA: the count is the low bits of the matching element (R221). -/
def execVsra (g : Guard) (ty : Ty) (d a b : VReg) (s : State) : Out :=
  vOp2 g ty d a b s fun _ x y => (shiftElem .sra (elemWidth ty) x (y % elemWidth ty), 0)

/-- VCLZ (R221). -/
def execVclz (g : Guard) (ty : Ty) (d a : VReg) (s : State) : Out :=
  vOp1 g ty d a s fun _ x => (leadingZeros (elemWidth ty) x, 0)

/-- VPOPC (R221). -/
def execVpopc (g : Guard) (ty : Ty) (d a : VReg) (s : State) : Out :=
  vOp1 g ty d a s fun _ x => (popCount (elemWidth ty) x, 0)

/-! ### Functions (R222, R223) -/

/-- VRCP (R222, R223). -/
def execVrcp (g : Guard) (rm : Rm) (d a : VReg) (s : State) : Out :=
  vOp1 g .f32 d a s fun e => fFun .rcp (e.rm rm)

/-- VRSQ (R222, R223). -/
def execVrsq (g : Guard) (rm : Rm) (d a : VReg) (s : State) : Out :=
  vOp1 g .f32 d a s fun e => fFun .rsq (e.rm rm)

/-- VEXP2 (R222, R223). -/
def execVexp2 (g : Guard) (rm : Rm) (d a : VReg) (s : State) : Out :=
  vOp1 g .f32 d a s fun e => fFun .exp2 (e.rm rm)

/-- VLOG2 (R222, R223). -/
def execVlog2 (g : Guard) (rm : Rm) (d a : VReg) (s : State) : Out :=
  vOp1 g .f32 d a s fun e => fFun .log2 (e.rm rm)

/-- VTANH (R222, R223). -/
def execVtanh (g : Guard) (rm : Rm) (d a : VReg) (s : State) : Out :=
  vOp1 g .f32 d a s fun e => fFun .tanh (e.rm rm)

/-! ### Compares and select (R224, R225) -/

/-- The condition of VCMP on one element: the truth value and the flags (R224). -/
def vCompare (cond : VCond) (ty : Ty) (x y : Nat) : Bool × FFlags :=
  match elemOf ty with
  | .float t => fCompare t cond x y
  | .int sg w =>
    let a := intOf sg w x
    let b := intOf sg w y
    (match cond with
      | .eq => a == b
      | .ne => a != b
      | .lt => a < b
      | .le => a ≤ b
      | .gt => b < a
      | .ge => b ≤ a
      | .un => false, 0)

/-- The condition over every element of a lane (R224). -/
def vCompareLane (cond : VCond) (ty : Ty) (x y : Lane) : Bool × FFlags :=
  let rs := List.zipWith (vCompare cond ty) (laneElems (elemWidth ty) x) (laneElems (elemWidth ty) y)
  (rs.all Prod.fst, rs.foldl (fun f r => f ||| r.2) 0)

/-- VCMP (R224). -/
def execVcmp (g : Guard) (cond : VCond) (ty : Ty) (d : QReg) (a b : VReg) (s : State) : Out :=
  lanewise s fun e =>
    e.predWrite g d fun i => vCompareLane cond ty (lane (e.getV a) i) (lane (e.getV b) i)

/-- VSEL: whole lanes, bits unchanged (R225). -/
def execVsel (g : Guard) (d a b : VReg) (c : QReg) (s : State) : Out :=
  lanewise s fun e =>
    e.vecWrite g d fun i => (if (e.getQ c).getLsbD i then lane (e.getV a) i else lane (e.getV b) i, 0)

/-! ### Conversion (R226 to R230) -/

/-- Flat element k of a vector of w-bit elements (R227). -/
def flatElem (w : Nat) (v : Vec) (k : Nat) : Nat :=
  ((lane v (k / (32 / w))).toNat >>> (w * (k % (32 / w)))) % 2 ^ w

/-- The conversion that lands at flat position k: none where a narrowing has no source element (R227). -/
def cvtAt (sty dty : Ty) (rm : Rm) (sat : Bool) (v : Vec) (k : Nat) : Option Conv :=
  let es := 32 / elemWidth sty
  let ed := 32 / elemWidth dty
  if es < ed ∧ 64 * es ≤ k then none
  else some (convElem (elemOf sty) (elemOf dty) rm sat (flatElem (elemWidth sty) v k))

/-- Lane i of the destination: its elements and the flags they raise (R227, R230). -/
def cvtLane (sty dty : Ty) (rm : Rm) (sat : Bool) (v : Vec) (i : Nat) : Lane × FFlags :=
  let ed := 32 / elemWidth dty
  let cs := (List.range ed).map fun j => (cvtAt sty dty rm sat v (i * ed + j)).getD ⟨0, false, 0⟩
  (laneOf (elemWidth dty) (cs.map Conv.bits), cs.foldl (fun f c => f ||| c.fl) 0)

/-- Lane i of the overflow predicate: written when an element of source lane i was converted (R228). -/
def cvtOv (e : Exec) (g : Guard) (sty dty : Ty) (rm : Rm) (sat : Bool) (v : Vec) (old : BitVec 64) (i : Nat) : Bool :=
  let es := 32 / elemWidth sty
  let ed := 32 / elemWidth dty
  let ks := (List.range es).map (i * es + ·)
  let done := ks.filter fun k => k < 64 * ed && e.guardLane g (k / ed)
  if done.isEmpty then old.getLsbD i
  else done.any fun k => match cvtAt sty dty rm sat v k with
    | some c => c.ov
    | none => false

/-- 64 truth values as a predicate, lane i at bit i. -/
def predOf (f : Nat → Bool) : BitVec 64 :=
  BitVec.ofNat 64 (((List.range 64).map f).foldr (fun b acc => 2 * acc + b.toNat) 0)

/-- VCVT between element types (R226 to R228, R230). -/
def Exec.vcvt (e : Exec) (g : Guard) (sty dty : Ty) (rm : Rm) (sat : Bool) (d a : VReg) (c : QReg) : Exec :=
  let v := e.getV a
  let old := e.getQ c
  (e.vecWrite g d (cvtLane sty dty rm sat v)).setQ c (predOf (cvtOv e g sty dty rm sat v old))

/-- The quantised column j and its conversion (R41, R229). -/
def quantCol (rm : Rm) (v : Vec) (j : Nat) : Conv := convFromF32 (.int true 8) rm false (lane v j).toNat

/-- The lane of vD that holds plane p of column j: 2p for j below 32, and 2p + 1 otherwise (R38, R229). -/
def planeLane (p j : Nat) : Nat := 2 * p + (if j < 32 then 0 else 1)

/-- VCVT from f32 to bpi (R229, R230). -/
def Exec.toBpi (e : Exec) (g : Guard) (rm : Rm) (d a : VReg) (c : QReg) : Exec :=
  let v := e.getV a
  let old := e.getQ c
  let cols := (List.range 64).map (quantCol rm v)
  let col (j : Nat) : Conv := cols.getD j ⟨0, false, 0⟩
  let computed (j : Nat) : Bool := (List.range 8).any fun p => e.guardLane g (planeLane p j)
  let planeWord (i : Nat) : Lane :=
    BitVec.ofNat 32 ((List.range 32).foldl (fun acc b =>
      acc + (if (col (32 * (i % 2) + b)).bits.testBit (7 - i / 2) then 2 ^ b else 0)) 0)
  let e1 := e.vecWrite g d fun i => (if i < 16 then planeWord i else 0, 0)
  let fl := (List.range 64).foldl (fun f j => if computed j then f ||| (col j).fl else f) (0 : FFlags)
  (e1.setQ c (predOf fun j => if computed j then (col j).ov else old.getLsbD j)).raiseF fl

/-- The 8-bit value of column j from the planes of a row (R38, R229). -/
def bpiCol (v : Vec) (j : Nat) : Nat :=
  (List.range 8).foldl (fun acc p =>
    acc + (if (lane v (planeLane p j)).getLsbD (j % 32) then 2 ^ (7 - p) else 0)) 0

/-- VCVT from bpi to f32 (R229, R230). -/
def Exec.fromBpi (e : Exec) (g : Guard) (rm : Rm) (d a : VReg) (c : QReg) : Exec :=
  let v := e.getV a
  let old := e.getQ c
  let e1 := e.vecWrite g d fun j => (BitVec.ofNat 32 (convToF32 (.int true 8) rm (bpiCol v j)).bits, 0)
  e1.setQ c (predOf fun j => if e.guardLane g j then false else old.getLsbD j)

/-- VCVT (R226 to R230). -/
def execVcvt (g : Guard) (sty dty : Ty) (rm : Rm) (sat : Bool) (d a : VReg) (c : QReg) (s : State) : Out :=
  lanewise s fun e =>
    if dty = .bpi then e.toBpi g (e.rm rm) d a c
    else if sty = .bpi then e.fromBpi g (e.rm rm) d a c
    else e.vcvt g sty dty (e.rm rm) sat d a c

/-! ### Permutations (R231) -/

/-- A permutation: each lane from a function of the index, bits unchanged and no flag. -/
def vMove (g : Guard) (d : VReg) (s : State) (f : Exec → Nat → Lane) : Out :=
  lanewise s fun e => e.vecWrite g d fun i => (f e i, 0)

/-- VPERM (R231). -/
def execVperm (g : Guard) (d a b : VReg) (s : State) : Out :=
  vMove g d s fun e i => lane (e.getV a) ((lane (e.getV b) i).toNat % 64)

/-- VBCAST (R231). -/
def execVbcast (g : Guard) (d : VReg) (a : GReg) (s : State) : Out :=
  vMove g d s fun e _ => (e.getG a).setWidth 32

/-- VBL (R231). -/
def execVbl (g : Guard) (d a : VReg) (n : BitVec 6) (s : State) : Out :=
  vMove g d s fun e _ => lane (e.getV a) n.toNat

/-- VINS (R231). -/
def execVins (g : Guard) (d : VReg) (a : GReg) (n : BitVec 6) (s : State) : Out :=
  vMove g d s fun e i => if i = n.toNat then (e.getG a).setWidth 32 else lane (e.getV d) i

/-- VEXT: it reads lane 0 of the guard (R231). -/
def execVext (g : Guard) (d : GReg) (a : VReg) (n : BitVec 6) (s : State) : Out :=
  scalar g s fun e => e.setG d ((lane (e.getV a) n.toNat).setWidth 64)

/-- VSHFU (R231). -/
def execVshfu (g : Guard) (d a : VReg) (n : BitVec 6) (s : State) : Out :=
  vMove g d s fun e i => if n.toNat ≤ i then lane (e.getV a) (i - n.toNat) else 0

/-- VSHFD (R231). -/
def execVshfd (g : Guard) (d a : VReg) (n : BitVec 6) (s : State) : Out :=
  vMove g d s fun e i => if i + n.toNat ≤ 63 then lane (e.getV a) (i + n.toNat) else 0

/-- VMOV (R231). -/
def execVmov (g : Guard) (d a : VReg) (s : State) : Out :=
  vMove g d s fun e i => lane (e.getV a) i

/-! ### Reductions and scans (R54, R55, R232) -/

/-- The combination of two lanes (R54, R168, R232). -/
def combine (op : RedOp) (ty : Ty) (x y : Lane) : Lane × FFlags :=
  let bits (r : Nat × FFlags) : Lane × FFlags := (BitVec.ofNat 32 r.1, r.2)
  match op with
  | .and => (x &&& y, 0)
  | .or => (x ||| y, 0)
  | .add => bits (vArith .add ty .rne false x.toNat y.toNat)
  | .min => bits (vMinMax false ty x.toNat y.toNat)
  | .max => bits (vMinMax true ty x.toNat y.toNat)

/-- A value, or an absent input of a tree node, with the flags raised on the way to it. -/
abbrev Part := Option Lane × FFlags

/-- A node of the tree: two present inputs combine, one passes unchanged (R54). -/
def node (op : RedOp) (ty : Ty) (x y : Part) : Part :=
  match x, y with
  | (some a, f), (some b, h) => let (r, k) := combine op ty a b; (some r, f ||| h ||| k)
  | (some a, f), (none, h) => (some a, f ||| h)
  | (none, f), (b, h) => (b, f ||| h)

/-- One level: nodes of neighbours (R54). -/
def level (op : RedOp) (ty : Ty) : List Part → List Part
  | a :: b :: r => node op ty a b :: level op ty r
  | r => r

/-- n levels over the inputs. -/
def treeOf (op : RedOp) (ty : Ty) : Nat → List Part → Part
  | 0, l => l.headD (none, 0)
  | n + 1, l => treeOf op ty n (level op ty l)

/-- The identity that VRED delivers when every lane is absent (R54). -/
def identity (op : RedOp) (ty : Ty) : Lane :=
  match op, ty with
  | .add, _ => 0
  | .min, .f32 => 0x7F800000
  | .min, .n32 => 0xFFFFFFFF
  | .min, _ => 0x7FFFFFFF
  | .max, .f32 => 0xFF800000
  | .max, .n32 => 0
  | .max, _ => 0x80000000
  | .and, _ => 0xFFFFFFFF
  | .or, _ => 0

/-- VRED over the lanes that a predicate of the index makes present (R54). -/
def reduce (op : RedOp) (ty : Ty) (present : Nat → Bool) (v : Vec) : Lane × FFlags :=
  let (r, f) := treeOf op ty 6 ((List.range 64).map fun i => (if present i then some (lane v i) else none, 0))
  (r.getD (identity op ty), f)

/-- A 32-bit result in a g register: sign-extended for i32, zero-extended for n32 and f32 (R232). -/
def redWord (ty : Ty) (x : Lane) : Word :=
  match ty with
  | .i32 => x.signExtend 64
  | _ => x.setWidth 64

/-- VRED: gD is written even when every lane is absent (R232). -/
def execVred (g : Guard) (op : RedOp) (ty : Ty) (d : GReg) (a : VReg) (s : State) : Out :=
  lanewise s fun e =>
    let r := reduce op ty (e.guardLane g) (e.getV a)
    (e.setG d (redWord ty r.1)).raiseF r.2

/-- VSCAN: lane i is the reduction over lanes 0 to i (R55, R232). -/
def execVscan (g : Guard) (op : RedOp) (ty : Ty) (d a : VReg) (s : State) : Out :=
  lanewise s fun e =>
    e.vecWrite g d fun i => reduce op ty (fun j => j ≤ i && e.guardLane g j) (e.getV a)

end Sys2Proof.Machine
end

