-- ==== Sys2Proof/Machine/Scratch.lean ====
section
/-! DEFINITION. Ownership of tiles (R275), and the scratch instructions LD, ST and VMEM with their checks (R295 to
R298). -/

namespace Sys2Proof.Machine

/-! ### Ownership (R275) -/

/-- The member that allocated a tile. -/
def Exec.allocated (e : Exec) (t : Tile) : Bool := t.owner == some e.appo && t.ctx == e.ctx

/-- An entry that is allocated (R274). -/
def Tile.live (t : Tile) : Bool := t.state != .free && t.state != .pendfree

/-- The first two rows of R275: an entry that is free, or of another context. -/
def entryCheck (k : CtxId) (t : Tile) : Option Cause :=
  if !t.live then some causeSCRATCH else if t.ctx ≠ k then some causeXCTX else none

/-- A read by the microprogram side: PRIVATE of the accessing member, or SHARED (R275). -/
def readCheck (e : Exec) (t : Tile) : Option Cause :=
  match entryCheck e.ctx t with
  | some c => some c
  | none => if (t.state = .priv && e.allocated t) || t.state = .shared then none else some causeOWNER

/-- A write or TSETH: PRIVATE of the accessing member (R275). -/
def writeCheck (e : Exec) (t : Tile) : Option Cause :=
  match entryCheck e.ctx t with
  | some c => some c
  | none => if t.state = .priv && e.allocated t then none else some causeOWNER

/-! ### Scratch accesses (R297) -/

/-- The tile-table entry whose chunks hold an offset of tile space. -/
def Cell.tileAt (c : Cell) (a : Nat) : Option Nat :=
  (c.tiles.find? fun t => t.2.state != .free && t.2.base ≤ a / 512 && a / 512 < t.2.base + t.2.count).map Prod.fst

/-- The end of tile space (R272). -/
def tileSpaceEnd : Nat := 0xC4000

/-- The checks of one access of some bytes, in order: alignment, an allocated entry that holds it whole, and R275. -/
def scratchCheck (c : Cell) (e : Exec) (a size : Nat) (write : Bool) : Option Cause :=
  if a % size ≠ 0 then some causeSCRATCH
  else if tileSpaceEnd < a + size then some causeSCRATCH
  else match c.tileAt a with
    | none => some causeSCRATCH
    | some i =>
      if c.tileAt (a + size - 1) ≠ some i then some causeSCRATCH
      else if write then writeCheck e (c.getTile i) else readCheck e (c.getTile i)

/-- The bytes of an access size. -/
def ldBytes : LdSize → Nat
  | .i8 | .n8 => 1
  | .i16 | .n16 => 2
  | .i32 | .n32 => 4
  | .w64 => 8

def stBytes : StSize → Nat
  | .w8 => 1 | .w16 => 2 | .w32 => 4 | .w64 => 8

/-- A loaded value extended to 64 bits (R296). -/
def ldExtend (sz : LdSize) (x : Nat) : Word :=
  match sz with
  | .i8 => BitVec.ofInt 64 (intOf true 8 x)
  | .i16 => BitVec.ofInt 64 (intOf true 16 x)
  | .i32 => BitVec.ofInt 64 (intOf true 32 x)
  | .n8 | .n16 | .n32 | .w64 => BitVec.ofNat 64 x

/-- LD (R296). -/
def execLd (g : Guard) (sz : LdSize) (d : GReg) (m : Mem) (s : State) : Out :=
  issue g s fun k e =>
    let c := s.getCell (k / 256)
    let a := (e.ea m).toNat
    match scratchCheck c e a (ldBytes sz) false with
    | some cause => s.raise k e cause
    | none => s.setExec k (e.setG d (ldExtend sz (leNat (c.scratch.readBytes a (ldBytes sz))))).advance

/-- Bytes written to a cell's scratchpad. -/
def State.writeScratch (s : State) (cell a : Nat) (bs : List Byte) : State :=
  s.modCell cell fun c => { c with scratch := c.scratch.write a bs }

/-- ST (R296). -/
def execSt (g : Guard) (sz : StSize) (d : GReg) (m : Mem) (s : State) : Out :=
  issue g s fun k e =>
    let a := (e.ea m).toNat
    match scratchCheck (s.getCell (k / 256)) e a (stBytes sz) true with
    | some cause => s.raise k e cause
    | none => (s.writeScratch (k / 256) a (leBytes (stBytes sz) (e.getG d).toNat)).setExec k e.advance

/-! ### VMEM (R298) -/

/-- The lanes that a guard makes true, in order. -/
def trueLanes (e : Exec) (g : Guard) : List Nat := (List.range 64).filter (e.guardLane g)

/-- The cause of the first true lane whose check fails. -/
def lanesCheck (c : Cell) (e : Exec) (write : Bool) (addr : Nat → Word) (lanes : List Nat) : Option Cause :=
  lanes.findSome? fun i => scratchCheck c e (addr i).toNat 4 write

/-- A vector load: the addresses of every true lane are checked, then each true lane of vD is written (R298). -/
def vecLoad (g : Guard) (d : VReg) (s : State) (ok : Exec → Bool) (addr : Exec → Nat → Word) : Out :=
  issueLanes s fun k e =>
    let c := s.getCell (k / 256)
    let lanes := trueLanes e g
    if lanes.isEmpty then s.setExec k e.advance
    else if !ok e then s.raise k e causeSCRATCH
    else match lanesCheck c e false (addr e) lanes with
      | some cause => s.raise k e cause
      | none =>
        s.setExec k (e.vecWrite g d fun i =>
          (BitVec.ofNat 32 (leNat (c.scratch.readBytes (addr e i).toNat 4)), 0)).advance

/-- A vector store: the addresses of every true lane are checked, then the true lanes are written in ascending order
(R298). -/
def vecStore (g : Guard) (d : VReg) (s : State) (ok : Exec → Bool) (addr : Exec → Nat → Word) : Out :=
  issueLanes s fun k e =>
    let lanes := trueLanes e g
    if lanes.isEmpty then s.setExec k e.advance
    else if !ok e then s.raise k e causeSCRATCH
    else match lanesCheck (s.getCell (k / 256)) e true (addr e) lanes with
      | some cause => s.raise k e cause
      | none =>
        (lanes.foldl (fun s i =>
          s.writeScratch (k / 256) (addr e i).toNat (leBytes 4 (lane (e.getV d) i).toNat)) s).setExec k e.advance

/-- Lane i of VLD and VST: ea + 4 i. -/
def unitAddr (m : Mem) (e : Exec) (i : Nat) : Word := e.ea m + BitVec.ofNat 64 (4 * i)

/-- Lane i of VLDS and VSTS: ea + i gC. -/
def strideAddr (m : Mem) (c : GReg) (e : Exec) (i : Nat) : Word := e.ea m + BitVec.ofNat 64 i * e.getG c

/-- The stride is a multiple of 4. -/
def strideOk (c : GReg) (e : Exec) : Bool := (e.getG c).toNat % 4 == 0

/-- VLD (R298). -/
def execVld (g : Guard) (d : VReg) (m : Mem) (s : State) : Out :=
  vecLoad g d s (fun _ => true) (unitAddr m)

/-- VLDS (R298). -/
def execVlds (g : Guard) (d : VReg) (m : Mem) (c : GReg) (s : State) : Out :=
  vecLoad g d s (strideOk c) (strideAddr m c)

/-- VGATH (R298). -/
def execVgath (g : Guard) (d : VReg) (m : VMem) (s : State) : Out :=
  vecLoad g d s (fun _ => true) fun e i => e.eaLane m i

/-- VST (R298). -/
def execVst (g : Guard) (d : VReg) (m : Mem) (s : State) : Out :=
  vecStore g d s (fun _ => true) (unitAddr m)

/-- VSTS (R298). -/
def execVsts (g : Guard) (d : VReg) (m : Mem) (c : GReg) (s : State) : Out :=
  vecStore g d s (strideOk c) (strideAddr m c)

/-- VSCAT (R298). -/
def execVscat (g : Guard) (d : VReg) (m : VMem) (s : State) : Out :=
  vecStore g d s (fun _ => true) fun e i => e.eaLane m i

end Sys2Proof.Machine
end

