-- ==== Sys2Proof/Machine/Heap.lean ====
section
/-! DEFINITION. The heap and system space: LDH, STH, LDS, STS, STS.MASK, ATOM and FENCE, and the events that accept and
complete their accesses (R294, R300 to R312). -/

namespace Sys2Proof.Machine

/-! ### The heap (R300 to R302) -/

namespace State

/-- The words whose deferred reads hold an entry of a deferral table: of parked members, of copy firings, and of WAIT
symbols of the pockets (R16, R75, R300). -/
def deferredWords (s : State) : List Nat :=
  (s.execs.filterMap fun p => match p.2.wait with
    | .presence q false => some q
    | _ => none)
  ++ (s.cells.flatMap fun c => c.2.tmpls.toArray.toList.flatMap fun t => match t.firing with
    | some f => f.defer.map Prod.snd
    | none => [])
  ++ ([0, 1, 2, 3] : List CtxId).flatMap fun k =>
      let c := s.getCtx k
      c.pockets.filterMap fun p =>
        let va := field p.2 47 0
        if p.2.toNat / 2 ^ 60 = tagWAIT && !c.waitRefused.contains va then
          match s.access k va .heap false with
          | .at pa _ => if s.present pa then none else some pa
          | _ => none
        else none

/-- The deferred reads of a channel (R300, DESIGN CHOICE, log 10). -/
def deferred (s : State) (pa : Nat) : Nat :=
  (s.deferredWords.filter fun q => Config.deferralChannel (q / 8) == Config.deferralChannel (pa / 8)).length

/-- The deferral table of a channel is full. -/
def deferralFull (s : State) (pa : Nat) : Bool := 4096 ≤ s.deferredWords.length && 4096 ≤ s.deferred pa

/-- A held write is one of the word at a virtual or a physical address: a page can be mapped twice (R133, R318). -/
def holdsAt (va pa : Nat) (h : Nat × Held) : Bool := h.1 == va / 8 || (h.2.pa.map (· / 8)) == some (pa / 8)

/-- The held write of a heap word by a redex (R133). -/
def heldWord (s : State) (e : Exec) (va pa : Nat) : Option Held :=
  match s.getRedex e.ctx e.appo with
  | some r => (r.held.find? (holdsAt va pa)).map Prod.snd
  | none => none

/-- A redex holds a write of a heap word. -/
def holds (s : State) (k : CtxId) (appo va pa : Nat) : Bool :=
  match s.getRedex k appo with
  | some r => r.held.any (holdsAt va pa)
  | none => false

/-- A heap write held until the commit (R133). -/
def hold (s : State) (k : CtxId) (appo va pa : Nat) (x : Word) : State :=
  s.modRedex k appo fun r => { r with held := Tbl.set r.held (va / 8) ⟨x, some (pa / 8 * 8)⟩ }

end State

/-- What LDH delivers of a heap word (R301). -/
def ldhValue (sz : WSize) (va : Nat) (v : Word) : Word :=
  match sz with
  | .w64 => v
  | .w32 => ((v >>> (32 * (va / 4 % 2))) &&& 0xFFFFFFFF)

/-- LDH: a held or a present word at once; an absent one defers the member (R300, R301). -/
def execLdh (g : Guard) (sz : WSize) (d : GReg) (m : Mem) (s : State) : Out :=
  issue g s fun k e =>
    let va := e.ea m
    if va.toNat % (match sz with
        | .w64 => 8
        | .w32 => 4) ≠ 0 then s.raise k e causeILLOP
    else s.memAccess k e va .heap false fun s pa _ =>
      match s.heldWord e va.toNat pa with
      | some h => s.setExec k (e.setG d (ldhValue sz va.toNat h.val)).advance
      | none =>
        if !s.joined (galOf (k / 256)) (homeSlice s pa / 256) then s
        else if s.present pa then
          s.setExec k (e.setG d (ldhValue sz va.toNat (s.loadWord (pa / 8 * 8)))).advance
        else s.parkIdle k e (.presence pa (s.deferralFull pa))

/-- STH: a word that is present or that its redex already holds faults HEAPDUP; otherwise the write is held (R302). -/
def execSth (g : Guard) (d : GReg) (m : Mem) (s : State) : Out :=
  issue g s fun k e =>
    let va := e.ea m
    if va.toNat % 8 ≠ 0 then s.raise k e causeILLOP
    else s.memAccess k e va .heap true fun s pa _ =>
      if s.present pa || s.holds e.ctx e.appo va.toNat pa then s.raise k e causeHEAPDUP
      else (s.hold e.ctx e.appo va.toNat pa (e.getG d)).setExec k e.advance

/-- DEFERRAL_RETRY: a deferred read that found its channel's table full tries again: it takes an entry, or finds the
word present (R300). -/
def execDeferralRetry (s : State) : Out :=
  match s.getExec s.arg.id with
  | none => .next s
  | some e =>
    match e.wait with
    | .presence pa full =>
      if full && (s.present pa || !s.deferralFull pa) then
        .next (s.setExec s.arg.id { e with wait := .presence pa false })
      else .next s
    | _ => .next s

/-- HEAP_SCRUB: after the RETIRE of a context, which is FREE, the host scrubs the word at address id of its heap, where
the pages of the retired context put it, while PTROOT still names them: it is absent again (R100, R300). -/
def execHeapScrub (s : State) : Out :=
  if (s.getCtx s.arg.ctx).state ≠ .free || !(s.getCtx s.arg.ctx).retired then .next s
  else match s.access s.arg.ctx s.arg.id .heap false with
    | .at pa _ => .next { s with mem := { s.mem with present := Tbl.put false s.mem.present (pa / 8) false } }
    | .missing | .fault _ => .next s

/-! ### System space: issue (R294, R305, R306, R308) -/

/-- The order that a word asks of what follows it: nothing later issues until it has completed (R308). -/
def acquires : OrdCode → Bool
  | .acquire | .acqRel => true
  | .relaxed | .release => false

/-- An access of system space: a replayable operator faults PAGE before translation; the access joins those under way,
and the word completes (R294, R307, R308). -/
def sysAccess (g : Guard) (s : State) (m : Mem) (kind : Exec → AccKind) (wide : Bool) (ord : OrdCode)
    (write : Bool) (data : Exec → Word) (dest : Option GReg) : Out :=
  issue g s fun k e =>
    let va := e.ea m
    if va.toNat % (if wide then 8 else 4) ≠ 0 then s.raise k e causeILLOP
    else if !s.opNR e.op then s.raise k e causePAGE (some va)
    else s.memAccess k e va .system write fun s pa direct =>
      let a : Access := { id := s.nextId, ctx := e.ctx, cell := k / 256, entry := k % 256, kind := kind e, pa := pa
                          wide := wide, data := data e, dest := dest, direct := direct }
      let t := s.fresh
      let e := if acquires ord then { e with fence := a.id :: e.fence } else e
      ({ t with mem := { t.mem with accs := t.mem.accs ++ [a] } }).setExec k e.advance

/-- A word of 64 bits. -/
def wideOf : WSize → Bool
  | .w64 => true
  | .w32 => false

/-- LDS (R305). -/
def execLds (g : Guard) (sz : WSize) (ord : OrdCode) (_sc : Scope) (d : GReg) (m : Mem) (s : State) : Out :=
  sysAccess g s m (fun _ => .load) (wideOf sz) ord false (fun _ => 0) (some d)

/-- STS (R305). -/
def execSts (g : Guard) (sz : WSize) (ord : OrdCode) (_sc : Scope) (d : GReg) (m : Mem) (s : State) : Out :=
  sysAccess g s m (fun _ => .store) (wideOf sz) ord true (fun e => e.getG d) none

/-- STS.MASK (R305). -/
def execStsMask (g : Guard) (ord : OrdCode) (_sc : Scope) (d : GReg) (m : Mem) (c : GReg) (s : State) : Out :=
  sysAccess g s m (fun e => .mask ((e.getG c).setWidth 8)) true ord true (fun e => e.getG d) none

/-- AADD (R306). -/
def execAadd (g : Guard) (ord : OrdCode) (_sc : Scope) (d : GReg) (m : Mem) (c : GReg) (s : State) : Out :=
  sysAccess g s m (fun _ => .aadd) true ord true (fun e => e.getG c) (some d)

/-- AFADD (R306). -/
def execAfadd (g : Guard) (ord : OrdCode) (_sc : Scope) (d : GReg) (m : Mem) (c : GReg) (s : State) : Out :=
  sysAccess g s m (fun _ => .afadd) false ord true (fun e => e.getG c) (some d)

/-- AMIN (R306). -/
def execAmin (g : Guard) (ord : OrdCode) (_sc : Scope) (d : GReg) (m : Mem) (c : GReg) (s : State) : Out :=
  sysAccess g s m (fun _ => .amin) true ord true (fun e => e.getG c) (some d)

/-- AMAX (R306). -/
def execAmax (g : Guard) (ord : OrdCode) (_sc : Scope) (d : GReg) (m : Mem) (c : GReg) (s : State) : Out :=
  sysAccess g s m (fun _ => .amax) true ord true (fun e => e.getG c) (some d)

/-- AAND (R306). -/
def execAand (g : Guard) (ord : OrdCode) (_sc : Scope) (d : GReg) (m : Mem) (c : GReg) (s : State) : Out :=
  sysAccess g s m (fun _ => .aand) true ord true (fun e => e.getG c) (some d)

/-- AOR (R306). -/
def execAor (g : Guard) (ord : OrdCode) (_sc : Scope) (d : GReg) (m : Mem) (c : GReg) (s : State) : Out :=
  sysAccess g s m (fun _ => .aor) true ord true (fun e => e.getG c) (some d)

/-- AXCHG (R306). -/
def execAxchg (g : Guard) (ord : OrdCode) (_sc : Scope) (d : GReg) (m : Mem) (c : GReg) (s : State) : Out :=
  sysAccess g s m (fun _ => .axchg) true ord true (fun e => e.getG c) (some d)

/-- ACAS: gD holds the expected value (R306). -/
def execAcas (g : Guard) (ord : OrdCode) (_sc : Scope) (d : GReg) (m : Mem) (c : GReg) (s : State) : Out :=
  sysAccess g s m (fun e => .acas (e.getG d)) true ord true (fun e => e.getG c) (some d)

/-- FENCE.acq: nothing later issues until the earlier loads and ATOMs have completed (R308, R309). -/
def execFenceAcq (g : Guard) (_sc : Scope) (s : State) : Out :=
  issue g s fun k e =>
    let ids := ((s.mem.accs.filter fun a => a.cell = k / 256 && a.entry = k % 256 && a.kind.returns)).map Access.id
    s.setExec k { e with fence := ids ++ e.fence }.advance

/-- FENCE.rel: it has issued once every earlier access completed (R308, R309). -/
def execFenceRel (g : Guard) (_sc : Scope) (s : State) : Out := scalar g s id

/-- FENCE.full: it has issued once every earlier access completed (R308, R309). -/
def execFenceFull (g : Guard) (_sc : Scope) (s : State) : Out := scalar g s id

/-! ### System space: acceptance and completion (R307, R310 to R312) -/

/-- The word that an ATOM leaves, from the old word and the operand (R306). -/
def atomWord (kind : AccKind) (old x : Word) : Word :=
  match kind with
  | .aadd => old + x
  | .afadd => (f32AddRne (old.setWidth 32) (x.setWidth 32)).setWidth 64
  | .amin => if x.slt old then x else old
  | .amax => if old.slt x then x else old
  | .aand => old &&& x
  | .aor => old ||| x
  | .axchg => x
  | .acas expected => if old = expected then x else old
  | .load | .store | .mask _ => old

/-- The bytes that an access writes from an old word (R305, R306). -/
def accBytes (a : Access) (old : Word) : List Byte :=
  let n := if a.wide then 8 else 4
  match a.kind with
  | .load => []
  | .store => leBytes n a.data.toNat
  | .mask m => (List.range 8).map fun j =>
      if m.getLsbD j then BitVec.ofNat 8 (a.data.toNat / 256 ^ j) else BitVec.ofNat 8 (old.toNat / 256 ^ j)
  | k => leBytes n (atomWord k old a.data).toNat

namespace State

/-- The value that a load or an atomic returns is written to its register, if its execution still stands (R305,
R306). -/
def returnAcc (s : State) (a : Access) (v : Word) : State :=
  match a.dest, s.getExec (256 * a.cell + a.entry) with
  | some d, some e => if a.entry < 256 then s.setExec (256 * a.cell + a.entry) (e.setG d (v &&& a.keep)) else s
  | _, _ => s

def dropAcc (s : State) (id : Nat) : State :=
  { s with mem := { s.mem with accs := s.mem.accs.filter fun a => a.id != id } }

end State

/-- No earlier access of the same member to the same word waits to be accepted (R307). -/
def oldestToWord (l : List Access) (a : Access) : Bool :=
  match l.find? fun x => x.cell == a.cell && x.entry == a.entry && x.pa / 8 == a.pa / 8 && x.accepted.isNone with
  | some x => x.id == a.id
  | none => false

/-- ACCESS_ACCEPTED: the access id takes its place in the order of its word: it reads the old word, a store or an
atomic writes, and a line that is not held starts its fill, which a load or an atomic waits for (R307, R310, R312). It
crosses bridges that carry traffic (R384); with `bad` its flit held an error that the CRC let pass, and the member's
redex faults ECC (R388). -/
def execAccessAccepted (s : State) : Out :=
  match s.mem.accs.find? fun a => a.id == s.arg.id with
  | none => .next s
  | some a =>
    if a.accepted.isSome || !oldestToWord s.mem.accs a || !s.joined (galOf a.cell) (homeSlice s a.pa / 256) then .next s
    else if s.arg.bad then
      match (if a.entry < 256 then s.getExec (256 * a.cell + a.entry) else none) with
      | some e => .next ((s.dropAcc a.id).eccFault (256 * a.cell + a.entry) e)
      | none => .next (s.dropAcc a.id)
    else
      let old : Word := BitVec.ofNat 64 (leNat (s.loadBytes a.pa (if a.wide then 8 else 4)))
      let bytes := accBytes a old
      let key := lineKey s a.pa
      let filled := Tbl.get false s.mem.lines key
      let t := if bytes.isEmpty then s else if a.direct then s.storeDirect a.pa bytes else s.storeBytes a.pa bytes
      let t := if filled || t.mem.fills.contains key then t
        else { t with mem := { t.mem with fills := t.mem.fills ++ [key] } }
      if !a.kind.returns then .next (t.dropAcc a.id)
      else if filled then .next ((t.returnAcc a old).dropAcc a.id)
      else .next { t with mem := { t.mem with
          accs := t.mem.accs.map fun x => if x.id = a.id then { x with accepted := some old, line := key } else x } }

/-- LINE_FILL: the fill of line id (a key of R313's home slice and line) ends, in a set of 16 ways; the loads and
atomics accepted on the line return their values (R15, R310). So does the fill that a store of another party has
started. bad tells of a corrected ECC error, which telemetry counts (R422). -/
def execLineFill (s : State) : Out :=
  let key := s.arg.id
  let stored := (Tbl.find s.mem.dirty key).isSome && !Tbl.get false s.mem.lines key && lineKey s (key % 2 ^ 33 * 128) == key
  if !s.mem.fills.contains key && !stored then .next s
  else
    let old := s
    let s := s.makeRoom key
    let s := if s.arg.bad then s.count State.telCorrected 1 else s
    let s := { s with mem := { s.mem with
        fills := s.mem.fills.filter (· != key), lines := Tbl.put false s.mem.lines key true } }
    let due := s.mem.accs.filter fun a => a.accepted.isSome && a.line == key
    if due.any fun a => !s.joined (galOf a.cell) (homeSlice s a.pa / 256) then .next old
    else .next (due.foldl (fun s a => (s.returnAcc a (a.accepted.getD 0)).dropAcc a.id) s)

end Sys2Proof.Machine
end

