-- ==== Sys2Proof/Machine/Tiles.lean ====
section
/-! DEFINITION. The TILE and OWN groups: allocation, freeing, sealing, headers, descriptors and handover (R272 to R282).
-/

namespace Sys2Proof.Machine

/-- The chunks of a tile of a format: the header and the data (R27). -/
def fmtChunks (f : Fmt) : Nat :=
  match f with
  | .f32 | .i32 => 33
  | .bf16 => 17
  | .gf8 | .i8 => 9
  | _ => 1 + f.planes

/-- The row pitch of a format's data (R278). -/
def rowPitch (f : Fmt) : Nat :=
  match f with
  | .f32 | .i32 => 256
  | .bf16 => 128
  | .gf8 | .i8 => 64
  | _ => 8

/-- Header word 0 of a new tile: FMT, ROWS 64, COLS 64, PLANES (R46, R280). -/
def headerWord (f : Fmt) : Word :=
  BitVec.ofNat 64 (f.planes * 2 ^ 24 + 64 * 2 ^ 16 + 64 * 2 ^ 8 + f.code.toNat)

namespace State

/-- The lowest FREE entry of a cell's tile table (R280). -/
def freeEntry (s : State) (cell : Nat) : Option Nat :=
  (List.range 256).find? fun i => ((s.getCell cell).getTile i).state == .free

/-- A tile of a format placed at an entry and a chunk, its header written and every other byte 0 (R280). -/
def placeTile (s : State) (cell i base : Nat) (t : Tile) : State :=
  let n := fmtChunks t.fmt
  s.modCell cell fun c =>
    { c.setTile i { t with base := base, count := n } with
      scratch := c.scratch.write (512 * base)
        (leBytes 8 (headerWord t.fmt).toNat ++ List.replicate (512 * n - 8) 0) }

end State

/-- TALLOC (R280). -/
def execTalloc (g : Guard) (fmt : Fmt) (d : GReg) (s : State) : Out :=
  issue g s fun k e =>
    match s.freeEntry (k / 256), (s.getCell (k / 256)).lowRun (fmtChunks fmt) with
    | some i, some b =>
      let t : Tile := { fmt := fmt, ctx := e.ctx, state := .priv, owner := some e.appo, ownx := k % 256 }
      (s.placeTile (k / 256) i b t).setExec k (e.setG d (BitVec.ofNat 64 i)).advance
    | _, _ => s.raise k e causeSCRATCH

/-- The tile-table index that a register names: bits [7:0] (R279). -/
def tileIndex (x : Word) : Nat := x.toNat % 256

/-- A check of R275 on the tile that a register names, and then a word's effect. -/
def withTile (s : State) (k : Nat) (e : Exec) (x : Word) (check : Tile → Option Cause)
    (body : Nat → Tile → State) : State :=
  let i := tileIndex x
  let t := (s.getCell (k / 256)).getTile i
  match check t with
  | some c => s.raise k e c
  | none => body i t

/-- TFREE: a PRIVATE tile of its allocator, or a SHARED tile (R275, R279, R280). -/
def freeCheck (e : Exec) (t : Tile) : Option Cause :=
  match entryCheck e.ctx t with
  | some c => some c
  | none => if (t.state = .priv && e.allocated t) || t.state = .shared then none else some causeOWNER

/-- TFREE (R280). -/
def execTfree (g : Guard) (a : GReg) (s : State) : Out :=
  issue g s fun k e =>
    withTile s k e (e.getG a) (freeCheck e) fun i _ =>
      (s.modCell (k / 256) fun c => c.freeTile i).setExec k e.advance

/-- The TILE symbol of a heap tile (R65, R280). -/
def heapTileSym (k : CtxId) (f : Fmt) (va : Nat) : Word :=
  mkSym tagTILE k (f.code.toNat * 2 ^ 53 + 2 ^ 52 + va / 512 % 2 ^ 31)

/-- Heap words held from a virtual address, each at the physical address that a function of its offset gives (R133). -/
def State.holdWords (s : State) (e : Exec) (va : Nat) (pa : Nat → Nat) (ws : List Word) : State :=
  s.modRedex e.ctx e.appo fun r =>
    { r with held := (ws.foldl (fun (acc : Tbl Held × Nat) w =>
        (Tbl.set acc.1 ((va + 8 * acc.2) / 8) ⟨w, some (pa (8 * acc.2))⟩, acc.2 + 1)) (r.held, 0)).1 }

/-- A PRIVATE tile is with the copy engine until its seal has been read (R280). -/
def State.startSeal (s : State) (cell i : Nat) (t : Tile) : State :=
  if t.state = .priv then
    s.modCell cell fun c => c.setTile i { c.getTile i with state := .copy, sealing := true }
  else s

/-- TSEAL: the arena gives an address at once; the pages of the seal are translated; every byte of the tile is held. A
word that is present or that the redex already holds faults HEAPDUP, at issue as for STH (R280, R302, R318; R280 lists
no such fault: DEDUCED, log 85). -/
def execTseal (g : Guard) (d a : GReg) (s : State) : Out :=
  issue g s fun k e =>
    withTile s k e (e.getG a) (readCheck e) fun i t =>
      let n := 512 * t.count
      let top := (s.getCtx e.ctx).regs.arena
      let va : Word := match e.arena with
        | some x => x
        | none => BitVec.ofNat 64 ((top.toNat + 511) / 512 * 512)
      let s := match e.arena with
        | some _ => s
        | none => s.modRegs e.ctx fun r => { r with arena := BitVec.ofNat 64 (va.toNat + n) }
      if 2 ^ 40 < va.toNat + n then s.raise k e causePAGE (some va)
      else
        let e1 := { e with arena := some va }
        let lastChunk := va.toNat + n - 512
        s.memAccess k e1 va .heap true fun s pa0 _ =>
          s.memAccess k e1 (BitVec.ofNat 64 lastChunk) .heap true fun s pa1 _ =>
            let paOf (off : Nat) : Nat :=
              if (va.toNat + off) / 65536 = va.toNat / 65536 then pa0 + off else pa1 + (va.toNat + off) - lastChunk
            let ws := wordsOfBytes (n / 8) ((s.getCell (k / 256)).scratch.readBytes (512 * t.base) n)
            if (List.range (n / 8)).any fun i =>
                s.present (paOf (8 * i)) || s.holds e.ctx e.appo (va.toNat + 8 * i) (paOf (8 * i)) then
              s.raise k e causeHEAPDUP
            else ((s.holdWords e va.toNat paOf ws).startSeal (k / 256) i t).setExec k
              (({ e with arena := none }).setG d (heapTileSym e.ctx t.fmt va.toNat)).advance

/-- The member of a cell that allocated a tile is told of an event of it (R210). -/
def State.tileEvent (s : State) (cell : Nat) (t : Tile) (bit : Nat) : State :=
  match t.owner with
  | some appo => s.raiseEvent cell t.ctx appo bit
  | none => s

/-- TSEAL_READ_DONE: the copy engine has read the sealed tile id of a cell, which is PRIVATE again, with no work of
its own left on it, unless its member has given it on (R280, R281). -/
def execTsealReadDone (s : State) : Out :=
  let a := s.arg
  let t := (s.getCell a.cell.val).getTile a.id
  if t.sealing then
    let mine := t.state = .copy
    .next (s.modCell a.cell.val fun c =>
      c.setTile a.id { t with state := if mine then .priv else t.state, working := t.working && !mine, sealing := false })
  else .next s

/-- The byte offset of header word n of a tile. -/
def headerAt (t : Tile) (x : Word) : Nat := 512 * t.base + 8 * (x.toNat % 64)

/-- The bits of header word n that are not reserved (R45, R46). -/
def headerKeep (n : Nat) : Word :=
  if n = 0 then 0x000007FF0F7F7F1F
  else if n = 1 then 0xFFFF
  else if n < 8 then 0
  else if n < 56 then BitVec.allOnes 64
  else 0xBFBFBFBFBFBFBFBF

/-- THDR (R280): the word is not checked, and its reserved fields read as zero (R7, R45, R47; DEDUCED, log 76). -/
def execThdr (g : Guard) (d a b : GReg) (s : State) : Out :=
  issue g s fun k e =>
    withTile s k e (e.getG a) (readCheck e) fun _ t =>
      let bs := (s.getCell (k / 256)).scratch.readBytes (headerAt t (e.getG b)) 8
      let w := BitVec.ofNat 64 (leNat bs) &&& headerKeep ((e.getG b).toNat % 64)
      s.setExec k (e.setG d w).advance

/-- TSETH (R280): the word is not checked, and what it holds in reserved fields is discarded (R7, R45, R47; DEDUCED,
log 76). -/
def execTseth (g : Guard) (a b c : GReg) (s : State) : Out :=
  issue g s fun k e =>
    withTile s k e (e.getG a) (writeCheck e) fun _ t =>
      let w := e.getG c &&& headerKeep ((e.getG b).toNat % 64)
      (s.writeScratch (k / 256) (headerAt t (e.getG b)) (leBytes 8 w.toNat)).setExec k e.advance

/-- TPRES: any allocated state (R279, R280). -/
def execTpres (g : Guard) (d a : GReg) (s : State) : Out :=
  issue g s fun k e =>
    withTile s k e (e.getG a) (entryCheck e.ctx) fun _ t => s.setExec k (e.setG d t.bitmap).advance

/-- The descriptor pair of a tile (R278). -/
def tileDesc (t : Tile) : Word × Word :=
  (BitVec.ofNat 64 (rowPitch t.fmt * 2 ^ 24 + 512 * (t.base + 1)),
   BitVec.ofNat 64 (if t.fmt.isBpi then 512 else 512 * (t.count - 1)))

/-- TDESC: gD and gD + 1 (R278, R280). -/
def execTdesc (g : Guard) (d a : GReg) (s : State) : Out :=
  issue g s fun k e =>
    withTile s k e (e.getG a) (entryCheck e.ctx) fun _ t =>
      s.setExec k ((e.setG d (tileDesc t).1).setG (d + 1) (tileDesc t).2).advance

/-! ### Owners (R281, R282) -/

/-- The state that a tile has with an engine (R274). -/
def engineState : Engine → TileState
  | .copy => .copy
  | .matrix => .matrix
  | .route => .route

/-- GIVE (R281): PRIVATE to an engine, or COPY on to the matrix or the route engine, by its allocator. -/
def giveCheck (e : Exec) (eng : Engine) (t : Tile) : Option Cause :=
  match entryCheck e.ctx t with
  | some c => some c
  | none =>
    if e.allocated t && (t.state = .priv || (t.state = .copy && eng != .copy)) then none else some causeOWNER

/-- GIVE (R281): what the copy engine still writes trails, as work on the tile. -/
def execGive (g : Guard) (eng : Engine) (a : GReg) (s : State) : Out :=
  issue g s fun k e =>
    withTile s k e (e.getG a) (giveCheck e eng) fun i t =>
      (s.modCell (k / 256) fun c => c.setTile i { t with state := engineState eng }).setExec k e.advance

/-- RECL (R281): the engine that holds the tile, or a PRIVATE tile, by its allocator. -/
def reclCheck (e : Exec) (eng : Engine) (t : Tile) : Option Cause :=
  match entryCheck e.ctx t with
  | some c => some c
  | none => if e.allocated t && (t.state = .priv || t.state = engineState eng) then none else some causeOWNER

/-- RECL (R281). -/
def execRecl (g : Guard) (eng : Engine) (a : GReg) (s : State) : Out :=
  issue g s fun k e =>
    withTile s k e (e.getG a) (reclCheck e eng) fun i t =>
      if t.state = .priv then s.setExec k e.advance
      else if t.working || s.engineWork (k / 256) i eng then s.parkIdle k e (.engine i eng)
      else (s.modCell (k / 256) fun c => c.setTile i { t with state := .priv }).setExec k e.advance

/-- The state code of an entry (R273). -/
def TileState.code : TileState → Nat
  | .free => 0 | .priv => 1 | .shared => 2 | .copy => 3 | .matrix => 4 | .route => 5 | .pendfree => 6

/-- OWNQ's word (R281). -/
def ownWord (s : State) (cell i : Nat) (e : Exec) (t : Tile) : Word :=
  let work := s.engineWork cell i .copy || s.engineWork cell i .matrix || s.engineWork cell i .route
  BitVec.ofNat 64 ((e.allocated t).toNat * 2 ^ 10 + t.pin.toNat * 2 ^ 9 + work.toNat * 2 ^ 8 + t.state.code)

/-- OWNQ: FREE gives 0, PENDFREE faults SCRATCH and another context XCTX (R274, R275, R281). -/
def execOwnq (g : Guard) (d a : GReg) (s : State) : Out :=
  issue g s fun k e =>
    let i := tileIndex (e.getG a)
    let t := (s.getCell (k / 256)).getTile i
    if t.state = .free then s.setExec k (e.setG d 0).advance
    else if t.state = .pendfree then s.raise k e causeSCRATCH
    else if t.ctx ≠ e.ctx then s.raise k e causeXCTX
    else s.setExec k (e.setG d (ownWord s (k / 256) i e t)).advance

/-- The engine that owns a tile. -/
def TileState.engine : TileState → Option Engine
  | .copy => some .copy
  | .matrix => some .matrix
  | .route => some .route
  | .free | .priv | .shared | .pendfree => none

/-- ENGINE_WORK_END: the engine that owns tile id of a cell has ended its queued and running work there: a RECL or
HALT that waits on it may go on, and the member that gave it is told (R210, R281). Where a firing's trailing writes
still stand on a tile that has gone on from the copy engine to another, the end of both together is the one OWN event
(DESIGN CHOICE, log 99). -/
def execEngineWorkEnd (s : State) : Out :=
  let a := s.arg
  let t := (s.getCell a.cell.val).getTile a.id
  match t.state.engine with
  | none => .next s
  | some eng =>
    if t.working && !s.engineWork a.cell.val a.id eng then
      .next ((s.modCell a.cell.val fun c => c.setTile a.id { t with working := false }).tileEvent a.cell.val t 5)
    else .next s

end Sys2Proof.Machine
end

