-- ==== Sys2Proof/Machine/Copy.lean ====
section
/-! DEFINITION. The copy engine: templates, firings, chains, and the events that land a chunk and end a firing (R283 to
R290). -/

namespace Sys2Proof.Machine

/-! ### Endpoints and shapes (R284, R285) -/

namespace Ep

def kind (w : Word) : Nat := field w 63 60
def va (w : Word) : Nat := field w 47 0
/-- LOC of a TILE symbol: a heap tile (R64). -/
def inHeap (w : Word) : Bool := w.getLsbD 52
/-- The address of a heap tile (R65). -/
def heapVa (w : Word) : Nat := field w 30 0 * 512
def fmt (w : Word) : Option Fmt := fmtOfCode (field w 57 53)
/-- The home cell and the index of a tile in scratch, for an endpoint of a template in a cell. -/
def tile (cell : Nat) (w : Word) : Option (Nat × Nat) :=
  if kind w = 0 then some (cell, field w 7 0)
  else if kind w = 3 && !inHeap w then some (field w 42 32, field w 7 0)
  else none
/-- A tile endpoint: kind 0 or kind 3. -/
def isTile (w : Word) : Bool := kind w == 0 || kind w == 3
/-- A heap endpoint: kind 2, or a TILE symbol with LOC 1. -/
def isHeap (w : Word) : Bool := kind w == 2 || (kind w == 3 && inHeap w)

/-- The reserved bits of an endpoint are zero, and its address is aligned (R284, R286). -/
def wellFormed (w : Word) : Bool :=
  match kind w with
  | 0 => fieldZero w 59 8
  | 1 => fieldZero w 59 48 && va w % 64 == 0
  | 2 => fieldZero w 59 48 && va w % 512 == 0
  | 3 => (fmt w).isSome && (if inHeap w then fieldZero w 51 31 else fieldZero w 51 43 && fieldZero w 31 8)
  | 4 => fieldZero w 59 48 && va w % 64 == 0
  | 5 => fieldZero w 59 15 && field w 14 0 % 64 == 0
  | 6 => !w.getLsbD 39
  | _ => false

end Ep

namespace Shape

def first (w : Word) : Nat := field w 47 40
def count (w : Word) : Nat := field w 39 32
def elem (w : Word) : Nat := field w 11 8
def op (w : Word) : Nat := field w 2 0

/-- Reserved shape bits are zero, OP is listed, and a reduction has a listed element (R285, R286). -/
def wellFormed (w : Word) : Bool :=
  fieldZero w 63 48 && fieldZero w 31 12 && fieldZero w 7 3 && op w ≤ 3 &&
    (op w == 0 || elem w == 0 || elem w == 3)

end Shape

/-- The chunks of a tile endpoint: of the tile-table entry, or of the format of a heap tile. -/
def State.epChunks (s : State) (cell : Nat) (w : Word) : Nat :=
  match Ep.tile cell w with
  | some (c, i) => ((s.getCell c).getTile i).count
  | none => match Ep.fmt w with
    | some f => fmtChunks f
    | none => 0

/-- The tile side of a firing (R285). -/
def tileSide (src dst : Word) : Word := if Ep.isTile dst then dst else src

/-- The last chunk of a firing: by COUNT, or the tile side's last (R285, R286). -/
def State.lastChunk (s : State) (cell : Nat) (src dst shape : Word) : Nat :=
  if Shape.count shape ≠ 0 then Shape.first shape + Shape.count shape - 1
  else (s.epChunks cell (tileSide src dst)) - 1

/-- The ILLOP checks of a firing (R286). -/
def State.formOk (s : State) (k : Nat) (e : Exec) (src dst shape : Word) : Bool :=
  let last := s.lastChunk (k / 256) src dst shape
  let dataWords := match s.operator e.op with
    | some o => o.data.length
    | none => 0
  Ep.wellFormed src && Ep.wellFormed dst && Shape.wellFormed shape
  && (Shape.op shape == 0 || Ep.kind dst == 1 || Ep.kind dst == 6)
  && (Ep.isTile src || Ep.isTile dst)
  && !(Ep.kind dst == 3 && !Ep.inHeap dst)
  && (Ep.kind src != 5 || field src 14 0 + 64 * (last + 1 - Shape.first shape) ≤ dataWords)
  && Ep.kind src != 6 && Ep.kind dst != 5

/-- The checks of a tile as a source: COPY or SHARED in the cell, SHARED elsewhere (R275, R284). -/
def srcCheck (k : CtxId) (own : Bool) (t : Tile) : Option Cause :=
  match entryCheck k t with
  | some c => some c
  | none => if t.state = .shared || (own && t.state = .copy) then none else some causeOWNER

/-- The checks of a tile as a destination: COPY, and written by the firings of its allocator alone (R275, R284). -/
def dstCheck (e : Exec) (t : Tile) : Option Cause :=
  match entryCheck e.ctx t with
  | some c => some c
  | none => if t.state = .copy && e.allocated t then none else some causeOWNER

/-- The tile checks of a firing, and its chunk range within the tile side: a source tile with fewer chunks than a
destination tile is read on, as R427, R430 and R432 have it (R275, R286; DEDUCED, log 89). -/
def State.tilesOk (s : State) (k : Nat) (e : Exec) (src dst : Word) (first last : Nat) : Option Cause :=
  let cell := k / 256
  let a := match Ep.tile cell src with
    | some (c, i) => srcCheck e.ctx (Ep.kind src == 0) ((s.getCell c).getTile i)
    | none => none
  let b := match Ep.tile cell dst with
    | some (c, i) => dstCheck e ((s.getCell c).getTile i)
    | none => none
  match a, b with
  | some c, _ => some c
  | none, some c => some c
  | none, none =>
    if last < first || s.epChunks cell (tileSide src dst) ≤ last then some causeSCRATCH else none

/-- The virtual address of chunk c of an endpoint (R285). -/
def Ep.chunkVa (w : Word) (first c : Nat) : Nat :=
  if Ep.kind w = 3 then Ep.heapVa w + 512 * c else Ep.va w + 512 * (c - first)

/-- The space that an endpoint's page must have; none for one that is not translated. -/
def Ep.space (w : Word) : Option Space :=
  match Ep.kind w with
  | 1 => some .system
  | 2 => some .heap
  | 3 => if Ep.inHeap w then some .heap else none
  | 4 => some .host
  | _ => none

/-- The addresses at which a chunk enters a page: its first, and the border that it crosses. -/
def pageStarts (va : Nat) : List Nat :=
  if va / 65536 = (va + 511) / 65536 then [va] else [va, (va + 511) / 65536 * 65536]

/-- A page of an endpoint's chunks that is there and does not serve it (R286). -/
def State.pagesBad (s : State) (k : CtxId) (w : Word) (write : Bool) (first last : Nat) : Option Nat :=
  match Ep.space w with
  | none => none
  | some sp => ((List.range (last + 1)).filter (first ≤ ·)).findSome? fun c =>
      (pageStarts (Ep.chunkVa w first c)).findSome? fun va =>
        match s.access k va sp write with
        | .fault _ => some va
        | _ => none

/-- Where the 512 bytes of a chunk stand: its parts in one page or two, each with its address, its policy and its
length; or the address of the part whose page is missing or does not serve it. -/
inductive Span where
  | missing (va : Nat)
  | fault (va : Nat)
  | at (parts : List (Nat × Bool × Nat))

/-- The parts of a chunk at some addresses of its pages (R285, R286). -/
def State.spanFrom (s : State) (k : CtxId) (sp : Space) (write : Bool) (stop : Nat) : List Nat → Span
  | [] => .at []
  | va :: rest =>
    match s.access k va sp write with
    | .missing => .missing va
    | .fault _ => .fault va
    | .at pa direct => match s.spanFrom k sp write stop rest with
      | .at l => .at ((pa, direct, (rest.headD stop) - va) :: l)
      | x => x

/-- The parts of the 512 bytes from an address. -/
def State.span (s : State) (k : CtxId) (va : Nat) (sp : Space) (write : Bool) : Span :=
  s.spanFrom k sp write (va + 512) (pageStarts va)

/-- The checks of R286, in order: the cause and the address of the first that fails. -/
def State.fireCheck (s : State) (k : Nat) (e : Exec) (src dst shape : Word) : Option (Cause × Option Word) :=
  let first := Shape.first shape
  let last := s.lastChunk (k / 256) src dst shape
  if !s.formOk k e src dst shape then some (causeILLOP, none)
  else match s.tilesOk k e src dst first last with
    | some c => some (c, none)
    | none =>
      let ordered := Ep.kind src == 1 || Ep.kind dst == 1 || Ep.kind dst == 4 || Ep.kind dst == 6
      if ordered && !s.opNR e.op then some (causePAGE, none)
      else match s.pagesBad e.ctx src false first last, s.pagesBad e.ctx dst true first last with
        | some a, _ => some (causePAGE, some (BitVec.ofNat 64 a))
        | none, some a => some (causePAGE, some (BitVec.ofNat 64 a))
        | none, none => none

/-! ### Firings (R286) -/

/-- The bits first to last of a bitmap. -/
def bitRange (first last : Nat) : BitVec 64 := BitVec.ofNat 64 (2 ^ (last + 1) - 2 ^ first)

def Cell.modTmpl (c : Cell) (t : Nat) (f : Tmpl → Tmpl) : Cell :=
  { c with tmpls := vset c.tmpls t (f (vget {} c.tmpls t)) }

namespace State

def getTmpl (s : State) (cell t : Nat) : Tmpl := vget {} (s.getCell cell).tmpls t

/-- A tile entry changed. -/
def modTile (s : State) (cell i : Nat) (f : Tile → Tile) : State :=
  s.modCell cell fun c => c.setTile i (f (c.getTile i))

/-- A firing that its checks allow starts: it is numbered, the destination tile's bits are cleared, and the source tile
is being read (R277, R286). -/
def startFiring (s : State) (cell t : Nat) (pc iter : Word) : State :=
  let tm := s.getTmpl cell t
  let first := Shape.first tm.shape
  let last := s.lastChunk cell tm.src tm.dst tm.shape
  let f : Firing := { num := tm.num + 1, src := tm.src, dst := tm.dst, shape := tm.shape, first := first, last := last,
                      pc := pc, iter := iter }
  let s := s.modCell cell fun c => c.modTmpl t fun x => { x with num := x.num + 1, firing := some f }
  let s := match Ep.tile cell tm.dst with
    | some (c, i) => s.modTile c i fun x => { x with bitmap := x.bitmap &&& ~~~ bitRange first last, working := true }
    | none => s
  match Ep.tile cell tm.src with
  | some (c, i) => s.modTile c i fun x =>
      { x with reads := x.reads + 1, working := x.working || x.state == .copy }
  | none => s

/-- A template fires: the member that armed it is checked, and a failing check discards the redex, reported at a PC
(R286, R288). -/
def fire (s : State) (k : Nat) (e : Exec) (t : Nat) (pc iter : Word) : State :=
  let tm := s.getTmpl (k / 256) t
  let fault (s : State) (c : Cause) (a : Option Word) : State :=
    s.faultRedex e.ctx e.appo c (classOf c (isBuiltin e.op)) ⟨k / 256, pc, iter, a⟩
  if tm.owner ≠ some (e.ctx, e.appo) then fault s causeILLOP none
  else match s.fireCheck k e tm.src tm.dst tm.shape with
    | some (c, a) => fault s c a
    | none => s.startFiring (k / 256) t pc iter

/-- The member of a redex in a cell. -/
def memberAt (s : State) (cell : Nat) (o : CtxId × Nat) : Option (Nat × Exec) :=
  s.execs.find? fun p => p.1 / 256 = cell && p.2.ctx = o.1 && p.2.appo == o.2

/-- The member execution that armed a template. -/
def tmplOwner (s : State) (cell : Nat) (tm : Tmpl) : Option (Nat × Exec) := tm.owner.bind (s.memberAt cell)

/-- A trigger of a template: it fires for the member that made the chain, or is counted while the template is busy. It
is counted too while the context is not RUNNING, so that a HOLD, an EVICT or a RETIRE ends templates that trigger one
another in a cycle (R288, R326; DEDUCED, log 73). -/
def triggerWith (s : State) (cell t : Nat) (g : Trigger) : State :=
  if (s.getTmpl cell t).firing.isSome || (s.getCtx g.owner.1).state != .running then
    s.modCell cell fun c => c.modTmpl t fun x => { x with pending := x.pending ++ [g] }
  else match s.memberAt cell g.owner with
    | some (k, e) => s.fire k e t g.pc g.iter
    | none => s

/-- A chained template is triggered (R288). -/
def trigger (s : State) (cell t : Nat) : State :=
  match (s.getTmpl cell t).chain with
  | some ch => s.triggerWith cell t ⟨ch.pc, ch.iter, ch.owner⟩
  | none => s

/-- The templates of a cell that a predicate on their chains picks are triggered. -/
def triggers (s : State) (cell : Nat) (p : Chain → Bool) : State :=
  (List.range 8).foldl (fun s t =>
    match (s.getTmpl cell t).chain with
    | some ch => if p ch then s.trigger cell t else s
    | none => s) s

end State

/-! ### The COPY group (R287) -/

/-- CPARM: it waits for a template that another execution holds, and for its own firing in flight (R283, R287). -/
def execCparm (g : Guard) (t : TmplId) (a b c : GReg) (s : State) : Out :=
  issue g s fun k e =>
    let tm := s.getTmpl (k / 256) t.toNat
    if tm.owner.isSome && tm.owner ≠ some (e.ctx, e.appo) then s.parkIdle k e (.template t)
    else if tm.firing.isSome then s.stall k e (.firing t)
    else
      (s.modCell (k / 256) fun x => x.modTmpl t.toNat fun y =>
        { y with owner := some (e.ctx, e.appo), src := e.getG a, dst := e.getG b, shape := e.getG c }).setExec k
        e.advance

/-- CPFIRE: it stalls while its firing is in flight; an execution that its own firing discards does not advance
(R286, R287). -/
def execCpfire (g : Guard) (t : TmplId) (s : State) : Out :=
  issue g s fun k e =>
    let tm := s.getTmpl (k / 256) t.toNat
    if tm.owner ≠ some (e.ctx, e.appo) then s.raise k e causeILLOP
    else if tm.firing.isSome then s.stall k e (.firing t)
    else match s.fireCheck k e tm.src tm.dst tm.shape with
      | some (c, a) => s.raise k e c a
      | none => (s.startFiring (k / 256) t.toNat e.pc e.iter).setExec k e.advance

/-- The checks of CPTEST and CPWAIT: an allocated entry of the context, and no mask bit at or above its COUNT (R287). -/
def maskCheck (e : Exec) (m : Word) (t : Tile) : Option Cause :=
  match entryCheck e.ctx t with
  | some c => some c
  | none => if m.toNat < 2 ^ t.count then none else some causeSCRATCH

/-- CPTEST (R287). -/
def execCptest (g : Guard) (d : QReg) (a b : GReg) (s : State) : Out :=
  issue g s fun k e =>
    let m := e.getG b
    withTile s k e (e.getG a) (maskCheck e m) fun _ t =>
      s.setExec k (e.setQAll d (t.bitmap &&& m == m)).advance

/-- CPWAIT: it completes at once when the mask is covered, and parks otherwise (R287). -/
def execCpwait (g : Guard) (a b : GReg) (s : State) : Out :=
  issue g s fun k e =>
    if e.met then s.finishWait k e
    else
      let m := e.getG b
      withTile s k e (e.getG a) (maskCheck e m) fun i t =>
        if t.bitmap &&& m == m then s.setExec k e.advance else s.parkIdle k e (.chunks i m)

/-- CPCHAIN: gB = 0 removes t's chain, and the triggers counted before still fire; whoever armed t, the chain is this
member's, and a trigger that finds t not armed by it fails R286 (R287, R288, DEDUCED, log 23). -/
def execCpchain (g : Guard) (t k' : TmplId) (b : GReg) (s : State) : Out :=
  issue g s fun k e =>
    let m := e.getG b
    (s.modCell (k / 256) fun x => x.modTmpl t.toNat fun y =>
      if m = 0 then { y with chain := none }
      else { y with chain := some ⟨k', m, e.pc, e.iter, (e.ctx, e.appo)⟩ }).setExec k e.advance

/-! ### A chunk lands (R286, R288, R290) -/

/-- What a read of a chunk gives: its bytes, or what keeps it waiting, or a fault of its page. -/
inductive ChunkRead where
  | bytes (bs : List Byte)
  /-- A word is absent, at a physical address. -/
  | wait (pa : Nat)
  | missing (va : Nat)
  | fault (va : Nat)

namespace State

/-- Chunk c of a tile in scratch; the bytes past its last chunk are free (DEDUCED, log 89). -/
def tileChunk (s : State) (cell i c : Nat) : List Byte :=
  let x := s.getCell cell
  let t := x.getTile i
  if c < t.count then x.scratch.readBytes (512 * (t.base + c)) 512
  else (List.range 512).map fun j => Config.pastTile (512 * (64 * (256 * (2048 * s.clk.toNat + cell) + i) + c) + j)

/-- Every word of a 512-byte heap chunk is present. -/
def chunkPresent (s : State) (pa : Nat) : Bool := (List.range 64).all fun i => s.present (pa + 8 * i)

/-- Chunk c of a firing's source (R284, R286). -/
def readChunk (s : State) (cell : Nat) (e : Exec) (f : Firing) (c : Nat) : ChunkRead :=
  match Ep.tile cell f.src with
  | some (h, i) => .bytes (s.tileChunk h i c)
  | none =>
    match Ep.space f.src with
    | none =>
      match s.operator e.op with
      | some o =>
        .bytes (bytesOfWords ((List.range 64).map fun i => o.data.getD (field f.src 14 0 + 64 * (c - f.first) + i) 0))
      | none => .wait 0
    | some sp =>
      match s.span e.ctx (Ep.chunkVa f.src f.first c) sp false with
      | .missing va => .missing va
      | .fault va => .fault va
      | .at l =>
        match sp with
        | .heap =>
          match l.find? fun p => !s.chunkPresent p.1 with
          | none => .bytes (l.flatMap fun p => s.loadBytes p.1 p.2.2)
          | some p => .wait (((List.range 64).map fun i => p.1 + 8 * i).find? (!s.present ·) |>.getD p.1)
        | .host => .bytes (l.flatMap fun p => s.mem.host.readBytes p.1 p.2.2)
        | .system | .sump => .bytes (l.flatMap fun p => s.loadBytes p.1 p.2.2)

/-- Some word of a heap chunk is present or held by the redex (R286, R302). -/
def chunkDup (s : State) (e : Exec) (va pa : Nat) : Bool :=
  (List.range 64).any fun i => s.present (pa + 8 * i) || s.holds e.ctx e.appo (va + 8 * i) (pa + 8 * i)

end State

/-- The element type and operation of a reducing shape (R285). -/
def Shape.ty (w : Word) : Ty := if Shape.elem w = 0 then .f32 else .i32

def redOpOf (n : Nat) : RedOp := if n = 1 then .add else if n = 2 then .min else .max

/-- One 32-bit element combined by R58 and R395. -/
def reduceLane (op : Nat) (ty : Ty) (old new : Lane) : Lane := (combine (redOpOf op) ty old new).1

/-- Bytes combined element by element (R58). -/
def reduceBytes (op : Nat) (ty : Ty) (old new : List Byte) : List Byte :=
  (List.range (old.length / 4)).flatMap fun i =>
    let get (l : List Byte) : Lane := BitVec.ofNat 32 (leNat ((l.drop (4 * i)).take 4))
    leBytes 4 (reduceLane op ty (get old) (get new)).toNat

namespace State

/-- A line of system space written by a copy: plain, or reduced at its home slice (R58, R286, R311). -/
def storeChunk (s : State) (pa : Nat) (direct : Bool) (shape : Word) (bs : List Byte) : State :=
  let out := if Shape.op shape = 0 then bs
    else reduceBytes (Shape.op shape) (Shape.ty shape) (s.loadBytes pa bs.length) bs
  if direct then s.storeDirect pa out else s.storeBytes pa out

/-- Where the byte at an offset of a chunk stands in its parts, and the part's policy. -/
def partAt : List (Nat × Bool × Nat) → Nat → Nat × Bool
  | [], _ => (0, false)
  | (pa, direct, n) :: l, i => if i < n then (pa + i, direct) else partAt l (i - n)

/-- Line i of a reducing chunk reaches its home slice, which applies it in one step and keeps its record, and discards a
line whose record it holds (R286, R290). Of a destination that is aligned to 64 bytes and not to 128, the lines are the
chunk's own four groups of 128 bytes (DESIGN CHOICE, log 88). -/
def reduceLine (s : State) (k : CtxId) (cell t : Nat) (f : Firing) (c : Nat) (l : List (Nat × Bool × Nat))
    (bs : List Byte) (i : Nat) : State :=
  if s.mem.redRecs.any fun r => r.ctx = k && r.cell == cell && r.tmpl == t && r.num == f.num && r.line == 4 * c + i then s
  else
    let half (s : State) (o : Nat) : State :=
      s.storeChunk (partAt l o).1 (partAt l o).2 f.shape ((bs.drop o).take 64)
    let s := half (half s (128 * i)) (128 * i + 64)
    { s with mem := { s.mem with
        redRecs := s.mem.redRecs ++ [⟨k, cell, t, f.num, 4 * c + i, (partAt l (128 * i)).1⟩] } }

/-- The words of a plain chunk sent to system space or host memory (R286, R316). -/
def sendWords (s : State) (k : CtxId) (cell t : Nat) (f : Firing) (c : Nat) (host : Bool) (l : List (Nat × Bool × Nat))
    (bs : List Byte) : State :=
  let ws := (List.range 64).zip (wordsOfBytes 64 bs)
  let out := ws.map fun p =>
    let a := partAt l (8 * p.1)
    (⟨s.nextId + p.1, k, cell, t, f.num, c, a.1, host, a.2, p.2⟩ : CopyWord)
  { s with nextId := s.nextId + 64, mem := { s.mem with copyOut := s.mem.copyOut ++ out } }

/-- A word that a copy has sent stands in its place (R307, R311). -/
def wordStands (s : State) (w : CopyWord) : State :=
  let s := { s with mem := { s.mem with copyOut := s.mem.copyOut.filter fun x => x.id != w.id } }
  if w.host then { s with mem := { s.mem with host := s.mem.host.write w.pa (leBytes 8 w.data.toNat) } }
  else if w.direct then s.storeDirect w.pa (leBytes 8 w.data.toNat)
  else s.storeWord w.pa w.data

/-- Lines of a chunk set out for a remote part from the cell of the firing (R284, R382, R391). -/
def sendLines (s : State) (e : Exec) (cell t : Nat) (f : Firing) (c : Nat) (bs : List Byte) (ls : List Nat) : State :=
  let red := Shape.op f.shape ≠ 0
  let chunk := field f.dst 38 0 + (c - f.first)
  ls.foldl (fun s i =>
    let tgt : Word := BitVec.ofNat 64 (i * 2 ^ 42 + field f.dst 41 40 * 2 ^ 40 + chunk % 2 ^ 39)
    let pay := BitVec.ofNat 64 (Shape.elem f.shape * 16 + Shape.op f.shape) ::
      wordsOfBytes 16 ((bs.drop (128 * i)).take 128)
    s.fabSend (if red then 1 else 0) (if red then Flit.tReduce else Flit.tLine) (BitVec.ofNat 18 (field f.dst 59 42))
      tgt pay { num := 0, dst := 0, vc := 0, words := [], gal := some (galOf cell), ctx := e.ctx, cell := cell, tmpl := t,
                firing := f.num, appo := e.appo, part := 4 * c + i }) s

/-- A firing's record changed. -/
def modFiring (s : State) (cell t : Nat) (g : Firing → Firing) : State :=
  s.modCell cell fun c => c.modTmpl t fun x => { x with firing := x.firing.map g }

/-- A chunk of a firing has been written. -/
def chunkLanded (s : State) (cell t c : Nat) : State :=
  s.modFiring cell t fun f => { f with landed := f.landed ||| bitRange c c }

/-- The read of a chunk met an absent word: it is deferred, with an entry of the word's channel where its table has one,
and otherwise tries again (R16, R300). -/
def deferChunk (s : State) (cell t : Nat) (f : Firing) (c pa : Nat) : State :=
  if (Tbl.find f.defer c).isSome || s.deferralFull pa then s
  else s.modFiring cell t fun f => { f with defer := Tbl.set f.defer c pa }

/-- The bit of a landed chunk of a destination tile: the event of its allocator, and the chains on the template whose
mask it covers (R210, R288). -/
def setBit (s : State) (cell t h i c : Nat) : State :=
  let old := ((s.getCell h).getTile i).bitmap
  let s := s.modTile h i fun x => { x with bitmap := x.bitmap ||| bitRange c c }
  let tl := (s.getCell h).getTile i
  let s := s.tileEvent h tl 1
  s.triggers cell fun ch => ch.k.toNat == t && (tl.bitmap &&& ch.mask == ch.mask) && !(old &&& ch.mask == ch.mask)

/-- A firing's page is missing: the region waits for WAKE (R375, R377). -/
def firingStall (s : State) (cell t : Nat) (e : Exec) (va : Nat) (sp : Nat) (write : Bool) : State :=
  (s.fqStall e.ctx cell va sp ((if write then fqWrite else fqRead) ||| fqCopy)).modFiring cell t fun f =>
    { f with stalled := va / 2 ^ 16 :: f.stalled }

/-- A firing faults: the redex of its member is discarded, reported at the PC that set it going (R286). -/
def firingFault (s : State) (k : Nat) (e : Exec) (f : Firing) (c : Cause) (va : Option Nat) : State :=
  s.faultRedex e.ctx e.appo c (classOf c (isBuiltin e.op)) ⟨k / 256, f.pc, f.iter, va.map (BitVec.ofNat 64)⟩

/-- A side of a chunk's copy and the firing's cell lie in galleries that reach each other: the tile's home cell, or the
home slices of its lines (R313, R384). -/
def epJoined (s : State) (ctx : CtxId) (cell : Nat) (w : Word) (first c : Nat) : Bool :=
  match Ep.tile cell w with
  | some (h, _) => s.joined (galOf cell) (galOf h)
  | none => match Ep.space w with
    | none | some .host => true
    | some sp => match s.span ctx (Ep.chunkVa w first c) sp false with
      | .at l => l.all fun p => s.joined (galOf cell) (homeSlice s p.1 / 256)
      | _ => true

/-- The words of a chunk that are on their way, by a firing's cell, template and number. -/
def chunkOut (s : State) (cell t : Nat) (num : BitVec 48) (c : Nat) : List CopyWord :=
  s.mem.copyOut.filter fun w => w.cell == cell && w.tmpl == t && w.num == num && w.chunk == c

/-- A word on its way is part of a chunk of which none stands, and its firing has been cancelled (R134, R287). -/
def wordStray (s : State) (w : CopyWord) : Bool :=
  !((s.getTmpl w.cell w.tmpl).firing.any fun f => f.num == w.num) && 64 ≤ (s.chunkOut w.cell w.tmpl w.num w.chunk).length

/-- The words of the chunk of one on its way are dropped. -/
def dropChunkWords (s : State) (w : CopyWord) : State :=
  let mine := s.chunkOut w.cell w.tmpl w.num w.chunk
  { s with mem := { s.mem with copyOut := s.mem.copyOut.filter fun x => !mine.contains x } }

/-- The chunk has landed once none of its words is on its way. -/
def chunkDone (s : State) (cell t : Nat) (num : BitVec 48) (c : Nat) : State :=
  if (s.chunkOut cell t num c).isEmpty && (s.getTmpl cell t).firing.any fun f => f.num == num then s.chunkLanded cell t c
  else s

/-- Lines of chunk c, of those that a mask of its words names, are sent to a remote part; the chunk is written once all
four are, and acknowledged line by line (R286, R316). -/
def sendChunk (s : State) (e : Exec) (cell t : Nat) (f : Firing) (c : Nat) (bs : List Byte) (mask : Word) : State :=
  let ls := (List.range 4).filter fun i => field mask (16 * i + 15) (16 * i) != 0 && !f.lines.contains (4 * c + i)
  let sent := f.lines ++ ls.map (4 * c + ·)
  let s := (s.sendLines e cell t f c bs ls).modFiring cell t fun f =>
    { f with unacked := f.unacked ++ ls.map (4 * c + ·), lines := sent }
  if (List.range 4).all fun i => sent.contains (4 * c + i) then
    (s.chunkLanded cell t c).modFiring cell t fun f => { f with lines := f.lines.filter fun n => n / 4 != c }
  else s

/-- The bytes of chunk c reach a firing's destination (R286). Lines of a reducing copy and of one to a remote part, of
those that a mask of its words names, and words of a plain one reach system space and host memory one by one: later
leaves the words on their way (R316). -/
def writeChunk (s : State) (k : Nat) (e : Exec) (t : Nat) (f : Firing) (c : Nat) (bs : List Byte) (mask : Word)
    (later : Bool) : State :=
  let cell := k / 256
  match Ep.tile cell f.dst with
  | some (h, i) =>
    let base := ((s.getCell h).getTile i).base
    ((s.writeScratch h (512 * (base + c)) bs).chunkLanded cell t c).setBit cell t h i c
  | none =>
    match Ep.space f.dst with
    | none => s.sendChunk e cell t f c bs mask
    | some sp =>
      let va := Ep.chunkVa f.dst f.first c
      match s.span e.ctx va sp true with
      | .missing va => s.firingStall cell t e va sp.code true
      | .fault va => s.firingFault k e f causePAGE (some va)
      | .at l =>
        match sp with
        | .heap =>
          let pa := (l.headD (0, false, 0)).1
          if s.chunkDup e va pa then s.firingFault k e f causeHEAPDUP (some va)
          else (s.holdWords e va (fun off => pa + off) (wordsOfBytes 64 bs)).chunkLanded cell t c
        | .host | .system | .sump =>
          if Shape.op f.shape ≠ 0 then
            let some' := (List.range 4).filter fun i => field mask (16 * i + 15) (16 * i) != 0
            let s := some'.foldl (fun s i => s.reduceLine e.ctx cell t f c l bs i) s
            if (List.range 4).all fun i => s.mem.redRecs.any fun r =>
                r.ctx = e.ctx && r.cell == cell && r.tmpl == t && r.num == f.num && r.line == 4 * c + i then
              s.chunkLanded cell t c
            else s
          else
            let s := s.sendWords e.ctx cell t f c (sp == .host) l bs
            if later then s else ((s.chunkOut cell t f.num c).foldl wordStands s).chunkDone cell t f.num c

/-- A firing's write into system space, host memory or a remote part waits from the end of a HOLD until its context is
RUNNING again (R326). -/
def firingHeld (s : State) (e : Exec) (f : Firing) : Bool :=
  (s.getCtx e.ctx).still && (Ep.kind f.dst == 1 || Ep.kind f.dst == 4 || Ep.kind f.dst == 6)

/-- The regions of chunk c that a firing waits for. -/
def chunkStalled (f : Firing) (c : Nat) : Bool :=
  let waits (w : Word) : Bool := (Ep.space w).isSome &&
    (pageStarts (Ep.chunkVa w f.first c)).any fun va => f.stalled.contains (va / 2 ^ 16)
  waits f.src || waits f.dst

end State

/-- The words of a chunk of system space or host memory, read in any order: those read before, those of a mask now
(R316). -/
def gotWords (f : Firing) (c : Nat) (mask : Word) (bs : List Byte) : Tbl Word :=
  let old := Tbl.get [] f.got c
  ((List.range 64).zip (wordsOfBytes 64 bs)).foldl (fun t p =>
    if mask.getLsbD p.1 && (Tbl.find t p.1).isNone then Tbl.set t p.1 p.2 else t) old

/-- COPY_CHUNK_LAND: chunk id of the firing of a template of a cell is read and written (R286), over bridges that carry
traffic (R384). Its words are read from system space and host memory, and written there, in any order: val is the mask
of those that move, or 0 for all of them, and a line of a remote part moves whole; an idx of 1 tells that those
written are still on their way, and a later turn whose idx is 2 more than the name of one lets it stand (R316); of a
firing that a discard has cancelled, it stands only in a chunk that stands in part (R287; DEDUCED, log 93). With
`bad` a flit of it held an error that the CRC let pass, and the firing faults ECC (R388). -/
def execCopyChunkLand (s : State) : Out :=
  let cell := s.arg.cell.val
  let t := s.arg.tmpl.toNat
  let c := s.arg.id
  let tm := s.getTmpl cell t
  let mask : Word := if s.arg.val = 0 then BitVec.allOnes 64 else s.arg.val
  let later := s.arg.idx == 1
  if 2 ≤ s.arg.idx then
    match s.mem.copyOut.find? fun w => w.id + 2 == s.arg.idx with
    | some w => .next (if s.wordStray w then s.dropChunkWords w else (s.wordStands w).chunkDone w.cell w.tmpl w.num w.chunk)
    | none => .next s
  else match tm.firing, s.tmplOwner cell tm with
  | some f, some (k, e) =>
    if c < f.first || f.last < c || f.landed.getLsbD c || State.chunkStalled f c || s.firingHeld e f
      || !(s.chunkOut cell t f.num c).isEmpty || !s.epJoined e.ctx cell f.src f.first c
      || !s.epJoined e.ctx cell f.dst f.first c then .next s
    else if s.arg.bad then .next ((s.count State.telUncorrected 1).firingFault k e f causeECC none)
    else match s.readChunk cell e f c with
      | .bytes bs =>
        let s := s.modFiring cell t fun f => { f with defer := Tbl.erase f.defer c }
        if Ep.kind f.src == 1 || Ep.kind f.src == 4 then
          let got := gotWords f c mask bs
          if got.length = 64 then
            .next ((s.modFiring cell t fun f => { f with got := Tbl.erase f.got c }).writeChunk k e t f c
              (bytesOfWords (got.map Prod.snd)) (BitVec.allOnes 64) later)
          else .next (s.modFiring cell t fun f => { f with got := Tbl.set f.got c got })
        else .next (s.writeChunk k e t f c bs mask later)
      | .wait pa => .next (s.deferChunk cell t f c pa)
      | .missing va => .next (s.firingStall cell t e va ((Ep.space f.src).getD .heap).code false)
      | .fault va => .next (s.firingFault k e f causePAGE (some va))
  | _, _ => .next s

namespace State

/-- The words that a cancelled firing has sent: a chunk of which some stand is completed, and one of which none does is
not written (R287, R307; DEDUCED, log 93). -/
def settleWords (s : State) (cell t : Nat) (num : BitVec 48) : State :=
  let mine := s.mem.copyOut.filter fun w => w.cell == cell && w.tmpl == t && w.num == num
  let s := (mine.filter fun w => (mine.filter fun x => x.chunk == w.chunk).length < 64).foldl wordStands s
  { s with mem := { s.mem with copyOut := s.mem.copyOut.filter fun w => !mine.contains w } }

/-- The plain lines that a cancelled firing still owes to a chunk of which it has sent some to a remote part (R287;
DEDUCED, log 93). -/
def settleLines (s : State) (cell t : Nat) (e : Exec) (f : Firing) : State :=
  if Shape.op f.shape ≠ 0 then s
  else (f.lines.map (· / 4)).eraseDups.foldl (fun s c =>
    match s.readChunk cell e f c with
    | .bytes bs => s.sendLines e cell t f c bs ((List.range 4).filter fun i => !f.lines.contains (4 * c + i))
    | _ => s) s

end State

/-- The records of the lines of a firing go; those of another, of a trapped redex among them, stay until RELEASE
(R290). -/
def State.dropLines (s : State) (cell t : Nat) (num : BitVec 48) : State :=
  { s with mem := { s.mem with
      redRecs := s.mem.redRecs.filter fun r => !(r.cell = cell && r.tmpl = t && r.num = num) } }

/-- CPCAN: a template that the member armed is disarmed, and its firing, triggers and chain are dropped; no chunk is
left written in part (R287). -/
def execCpcan (g : Guard) (t : TmplId) (s : State) : Out :=
  issue g s fun k e =>
    let cell := k / 256
    let tm := s.getTmpl cell t.toNat
    if tm.owner ≠ some (e.ctx, e.appo) then s.setExec k e.advance
    else
      let s := match tm.firing with
        | some f => (((s.settleWords cell t.toNat f.num).settleLines cell t.toNat e f).endRead cell f).dropLines cell
            t.toNat f.num
        | none => s
      (s.modCell cell fun x => x.modTmpl t.toNat fun y => { num := y.num }).setExec k e.advance

/-- CPST.ENDS counts a firing, saturating (R289). -/
def Exec.countEnd (e : Exec) : Exec := { e with cpEnds := BitVec.ofNat 32 (min (2 ^ 32 - 1) (e.cpEnds.toNat + 1)) }

namespace State

/-- A firing has ended: the source tile's read is over, the records of its lines go, and its member is told (R210,
R286, R289, R290). -/
def endFiring (s : State) (k : Nat) (e : Exec) (t : Nat) (f : Firing) : State :=
  let cell := k / 256
  let s := (s.endRead cell f).dropLines cell t f.num
  let s := s.modCell cell fun c => c.modTmpl t fun x => { x with firing := none }
  s.setExec k { e.countEnd with events := e.events ||| 1 }

/-- Pending triggers go on once the template is free, while the context is RUNNING (R288). -/
def nextTrigger (s : State) (cell t : Nat) : State :=
  let tm := s.getTmpl cell t
  match tm.pending with
  | [] => s
  | g :: gs =>
    if tm.firing.isSome || (s.getCtx g.owner.1).state != .running then s
    else (s.modCell cell fun c => c.modTmpl t fun x => { x with pending := gs }).triggerWith cell t g

end State

/-- COPY_FIRING_END: every chunk is written and acknowledged. Chains on a template whose destination is no tile are
triggered, and a trigger that met it busy, or its context stopped, follows (R286, R288). -/
def execCopyFiringEnd (s : State) : Out :=
  let cell := s.arg.cell.val
  let t := s.arg.tmpl.toNat
  let tm := s.getTmpl cell t
  match tm.firing, s.tmplOwner cell tm with
  | some f, some (k, e) =>
    let all := bitRange f.first f.last
    if f.landed &&& all ≠ all || !f.unacked.isEmpty then .next s
    else
      let s := s.endFiring k e t f
      let s := if (Ep.tile cell f.dst).isNone then s.triggers cell fun ch => ch.k.toNat == t else s
      .next (s.nextTrigger cell t)
  | _, _ => .next (s.nextTrigger cell t)

end Sys2Proof.Machine
end

