-- ==== Sys2Proof/Machine/Control.lean ====
section
/-! DEFINITION. The SYS group, branches, loops, special registers, and words that are no instruction (R87, R90 to R92,
R204 to R211). -/

namespace Sys2Proof.Machine

/-- NOP (R207). -/
def execNop (g : Guard) (s : State) : Out := scalar g s id

/-- HALT: it waits, parked once the member's matrix queue is empty, until the member's engines have ended, and then
halts the member; a span collective that it has not joined is a program error (R136, R169, R207, R236, R246). -/
def execHalt (g : Guard) (s : State) : Out :=
  issue g s fun k e =>
    if s.enginesIdle k e then s.endHalt k e else s.stall k e .engines

/-- YIELD: the member parks at the next word, and is ready at once (R132, R206, R207). -/
def execYield (g : Guard) (s : State) : Out :=
  issue g s fun k e => if e.mq.isEmpty then s.park k e.advance .yielded else s

/-- TRAP: the context traps, whatever TMASK and NR hold (R207, R208). -/
def execTrap (g : Guard) (code : BitVec 16) (s : State) : Out :=
  issue g s fun k e =>
    match s.getRedex e.ctx e.appo with
    | some r => s.faultTrap e.ctx e.appo r code .user (State.report k e none)
    | none => s

/-- BKPT: with BKEN the context traps, nothing is discarded, and the member is suspended at the next word; without it
BKPT is a NOP (R209). -/
def execBkpt (g : Guard) (s : State) : Out :=
  issue g s fun k e =>
    if s.bkenNow e.ctx then
      (s.suspend k e.advance).trap e.ctx (s.trapRec e.appo e.op 0 .user (State.report k e none))
    else s.setExec k e.advance

/-- The class of an ABORT: USER for a code that names no cause (R208). -/
def abortClass (code : BitVec 16) (builtin : Bool) : Class := classOf code builtin

/-- ABORT: the redex is discarded as a fault with the code; it is never counted as an SDC replay (R208). -/
def execAbort (g : Guard) (code : BitVec 16) (s : State) : Out :=
  issue g s fun k e => s.faultRedex e.ctx e.appo code (abortClass code (isBuiltin e.op)) (State.report k e none)

/-- WAITEV: the common bits are cleared and it completes, or the member parks until one occurs (R210). -/
def execWaitev (g : Guard) (mask : BitVec 6) (s : State) : Out :=
  issue g s fun k e =>
    if e.events &&& mask ≠ 0 then s.finishWait k { e with events := e.events &&& ~~~mask }
    else s.parkIdle k e (.events mask)

/-! ### Branches (R204) -/

/-- BR (R204). -/
def execBr (g : Guard) (off : BitVec 36) (s : State) : Out :=
  issue g s fun k e => s.setExec k (e.jumpTo (e.pc + simm off))

/-- JMP (R204). -/
def execJmp (g : Guard) (a : GReg) (s : State) : Out :=
  issue g s fun k e => s.setExec k (e.jumpTo (e.getG a))

/-- RET (R204). -/
def execRet (g : Guard) (s : State) : Out :=
  issue g s fun k e => s.setExec k (e.jumpTo (e.getG 63))

/-- CALL: g63 receives the return word (R204). -/
def execCall (g : Guard) (off : BitVec 36) (s : State) : Out :=
  issue g s fun k e => s.setExec k ((e.setG 63 (e.pc + 1)).jumpTo (e.pc + simm off))

/-! ### Loops (R205, R206) -/

/-- A loop of n iterations over the len words that follow starts, or its body is skipped when n is 0 (R205). A loop that
starts transfers no control: its word completes as any other, and an outer loop that ends at it makes its end check
(DEDUCED, log 63). -/
def Exec.startLoop (e : Exec) (d : CReg) (n : BitVec 16) (len : BitVec 11) : Exec :=
  let last := e.pc + len.setWidth 64
  let stamp := 1 + ((e.getLoop 0).stamp + (e.getLoop 1).stamp + (e.getLoop 2).stamp + (e.getLoop 3).stamp)
  let e := e.setCnt d 0
  if n = 0 then (e.setLoop d { e.getLoop d with active := false }).jumpTo (last + 1)
  else (e.setLoop d { start := e.pc + 1, last := last, count := n, active := true, stamp := stamp }).advance

/-- A LOOP or LOOPI: one whose guard is false passes its body (R206). -/
def loopIssue (g : Guard) (len : BitVec 11) (s : State) (body : Nat → Exec → State) : Out :=
  match s.live with
  | none => .fault .noLiveExecution
  | some (k, e) =>
    if e.guardOn g then .next (body k e)
    else .next (s.setExec k (e.jumpTo (e.pc + len.setWidth 64 + 1)))

/-- LOOP: a count at or above 2^16 faults ILLOP (R205). -/
def execLoop (g : Guard) (d : CReg) (a : GReg) (len : BitVec 11) (s : State) : Out :=
  loopIssue g len s fun k e =>
    if 2 ^ 16 ≤ (e.getG a).toNat then s.raise k e causeILLOP
    else s.setExec k (e.startLoop d ((e.getG a).setWidth 16) len)

/-- LOOPI (R205). -/
def execLoopi (g : Guard) (d : CReg) (count : BitVec 16) (len : BitVec 11) (s : State) : Out :=
  loopIssue g len s fun k e => s.setExec k (e.startLoop d count len)

/-- BREAK: an active loop becomes inactive and control passes to the word after its last (R205). At that last word
itself the next word is the one that follows, and no control is transferred (DEDUCED, log 63). -/
def execBreakLoop (g : Guard) (d : CReg) (s : State) : Out :=
  issue g s fun k e =>
    let l := e.getLoop d
    let e' := e.setLoop d { l with active := false }
    if !l.active then s.setExec k e.advance
    else if l.last = e.pc then s.setExec k e'.advance
    else s.setExec k (e'.jumpTo (l.last + 1))

/-! ### Special registers (R90 to R92, R211) -/

/-- One step of the generator (R92). -/
def randNext (x : Word) : Word :=
  let a := x ^^^ (x <<< 13)
  let b := a ^^^ (a >>> 7)
  b ^^^ (b <<< 17)

/-- What a written or initial zero of RAND is replaced by, and the constant of its launch value (R92). -/
def randSeed : Word := 0x9E3779B97F4A7C15

/-- RAND at launch (R92). -/
def randLaunch (cell : Nat) (serial : BitVec 32) : Word :=
  randSeed ^^^ (BitVec.ofNat 64 cell <<< 32) ^^^ serial.setWidth 64

/-- The effective priority of a context (R102). -/
def effPriority (c : Ctx) : Nat :=
  if c.state = .running then min 15 (c.regs.bp.toNat + c.regs.waited.toNat / 64) else 0

/-- SPN0 (R91). -/
def spn0 (r : Redex) : Word := BitVec.ofNat 64 (r.last * 2 ^ 32 + r.first)

/-- SPN1 (R91). -/
def spn1 (r : Redex) (rank : Nat) : Word :=
  BitVec.ofNat 64 (min r.elems 0xFFFF * 2 ^ 48 + min r.len 0xFFFF * 2 ^ 32 + State.width r * 2 ^ 16 + rank)

/-- CPST (R289). -/
def cpst (c : Cell) (e : Exec) : Word :=
  let bits (p : Tmpl → Bool) : Nat := (List.range 8).foldl (fun a i => if p (vget {} c.tmpls i) then a + 2 ^ i else a) 0
  BitVec.ofNat 64 (e.cpEnds.toNat * 2 ^ 32 + bits (fun t => t.chain.isSome) * 2 ^ 16
    + bits (fun t => t.firing.isSome || !t.pending.isEmpty) * 2 ^ 8 + bits fun t => t.owner == some (e.ctx, e.appo))

/-- RATST (R339): USE from the cell's reassembly table. -/
def ratstWord (c : Cell) (e : Exec) : Word :=
  let use : Nat := (List.range 32).foldl (fun a i =>
    let r := Tbl.get {} c.rat i
    if r.state != .free && r.owner == e.appo && r.ctx = e.ctx then a + 2 ^ i else a) 0
  (e.ratst &&& 0xFF00FFFF00000000) ||| BitVec.ofNat 64 use

/-- The smaller non-zero of two caps; 0 when neither limits (R420). -/
def capOf (a b : BitVec 16) : BitVec 16 := if a = 0 then b else if b = 0 then a else if a ≤ b then a else b

/-- The limiter of a gallery in the window that holds a cycle: a window begins with no K-block started, under the caps
that stand then (R251, R420, R424). -/
def Gallery.windowAt (g : Gallery) (clk : Word) : Gallery :=
  if g.win = clk.toNat / 1024 then g
  else { g with win := clk.toNat / 1024, count := 0, capNow := capOf g.glim g.power }

/-- LIMST (R251): CAP and COUNT are those of the window that holds the cycle. -/
def limst (clk : Word) (gal : Gallery) (c : Cell) : Word :=
  let g := gal.windowAt clk
  BitVec.ofNat 64 (g.capNow.toNat * 2 ^ 48 + g.count.toNat * 2 ^ 32 + c.held.toNat * 2 ^ 16 + c.defer.toNat)

/-- CKPTST: BUSY and LEFT are those of a checkpoint that drains (R118). -/
def ckptst (c : Ctx) : Word :=
  let d := c.drain.filter fun d => !d.evict
  let left := match d with
    | some d => min 0xFFFF (d.chunks.length - d.written.length)
    | none => 0
  BitVec.ofNat 64 (c.regs.ckSeq.toNat * 2 ^ 32 + left * 2 ^ 16 + d.isSome.toNat * 2 ^ 15
    + c.regs.ckErr.toNat * 2 ^ 14 + c.regs.ckSkip.toNat * 2 ^ 13 + c.regs.ckBuf.toNat * 2 ^ 8)

/-- A special register as MFS reads it, RAND before its advance (R90). -/
def State.sreg (s : State) (k : Nat) (e : Exec) (n : Nat) : Word :=
  let c := s.getCell (k / 256)
  let ctx := s.getCtx e.ctx
  match n with
  | 0x000 => BitVec.ofNat 64 (k / 256)
  | 0x001 => BitVec.ofNat 64 e.ctx.val
  | 0x002 => match s.getRedex e.ctx e.appo with
    | some r => spn0 r
    | none => 0
  | 0x003 => match s.getRedex e.ctx e.appo with
    | some r => spn1 r e.rank
    | none => 0
  | 0x004 => s.clk
  | 0x005 => e.fprog
  | 0x006 => e.grow
  | 0x007 => e.fstat
  | 0x008 => e.mstat
  | 0x009 => cpst c e
  | 0x00A => c.rseq.setWidth 64
  | 0x00B => ratstWord c e
  | 0x00C => e.fpcsr
  | 0x00D => e.iter
  | 0x00E => e.rand
  | 0x00F => BitVec.ofNat 64 (effPriority ctx)
  | 0x010 => limst s.clk (s.getGal (galOf (k / 256))) c
  | 0x011 => ckptst ctx
  | _ => 0

/-- MFS: a read of RAND advances it and returns the new state (R92, R211). -/
def execMfs (g : Guard) (d : GReg) (sreg : BitVec 12) (s : State) : Out :=
  issue g s fun k e =>
    if sreg = 0x00E then
      s.setExec k (({ e with rand := randNext e.rand }).setG d (randNext e.rand)).advance
    else s.setExec k (e.setG d (s.sreg k e sreg.toNat)).advance

/-- What an MTS stores, field by field (R33, R92, R249, R256). -/
def Exec.writeSreg (e : Exec) (n : Nat) (x : Word) : Exec :=
  match n with
  | 0x005 => { e with fprog := if x &&& 0x7F = 0 then 0 else x &&& 0xF7F }
  | 0x008 => { e with mstat := x &&& 0x1FFFF }
  | 0x00C => { e with fpcsr := fpcsrStored x }
  | 0x00E => { e with rand := if x = 0 then randSeed else x }
  | _ => e

/-- MTS (R211). -/
def execMts (g : Guard) (sreg : BitVec 12) (a : GReg) (s : State) : Out :=
  scalar g s fun e => e.writeSreg sreg.toNat (e.getG a)

/-- A word that is no instruction faults at decode, whatever its guard (R82, R87). -/
def execNotAnInstruction (cause : DecodeCause) (s : State) : Out :=
  issueLanes s fun k e =>
    s.raise k e (match cause with
      | .illop => causeILLOP
      | .reggrp => causeREGGRP)

end Sys2Proof.Machine
end

