-- ==== Sys2Proof/Machine/Tree.lean ====
section
/-! DEFINITION. The TREE group: span collectives, messages between the members of a redex, and the events that complete
them (R166 to R172). -/

namespace Sys2Proof.Machine

/-! ### The combination of members (R56, R168) -/

/-- Two vectors combined lane by lane; no flag is raised (R168). -/
def combineVec (op : RedOp) (ty : Ty) (x y : Vec) : Vec :=
  tabulate 64 fun i => (combine op ty (lane x i) (lane y i)).1

/-- One tree level over values with their node numbers, the last of the result first: children of one node combine in
ascending order (R56). -/
def treeLevel (op : RedOp) (ty : Ty) (l : List (Nat × Vec)) : List (Nat × Vec) :=
  (l.foldl (fun acc p =>
    match acc with
    | (n, x) :: r => if n = p.1 / 8 then (n, combineVec op ty x p.2) :: r else (p.1 / 8, p.2) :: acc
    | [] => [(p.1 / 8, p.2)]) ([] : List (Nat × Vec))).reverse

/-- Comb of R168 over vectors by cell, in ascending order: L1, L2, L3 and the root (R11). -/
def treeComb (op : RedOp) (ty : Ty) (l : List (Nat × Vec)) : Vec :=
  match treeLevel op ty (treeLevel op ty (treeLevel op ty (treeLevel op ty l))) with
  | p :: _ => p.2
  | [] => zeroVec

/-! ### Collectives (R167 to R170) -/

/-- What the members of one collective must carry alike (R169, R245): the instruction, its operation, type and CHK, and
gB for TBCAST and TRED. -/
def sameColl (a b : Join) : Bool :=
  match a.word, b.word with
  | .tbcast _ t _ _ _, .tbcast _ t' _ _ _ => t == t' && a.gb == b.gb
  | .tred _ o t c _ _ _, .tred _ o' t' c' _ _ _ => o == o' && t == t' && c == c' && a.gb == b.gb
  | .tscan _ o t _ _, .tscan _ o' t' _ _ => o == o' && t == t'
  | .tall _ o t _ _, .tall _ o' t' _ _ => o == o' && t == t'
  | .mmag _ f m n _ _ _ _, .mmag _ f' m' n' _ _ _ _ => f == f' && m == m' && n == n' && a.gb == b.gb
  | _, _ => false

/-- The lowest rank of some ranks. -/
def lowest : List Nat → Option Nat
  | [] => none
  | n :: l => match lowest l with
    | some m => some (min n m)
    | none => some n

/-- The lowest-ranked join that differs from that of rank 0 (R169). -/
def differing (js : List Join) : Option Nat :=
  match js.find? fun j => j.rank == 0 with
  | some z => lowest ((js.filter fun j => !sameColl z j).map Join.rank)
  | none => none

namespace State

/-- The member of a redex with a rank, and its key. -/
def memberOf (s : State) (k : CtxId) (appo rank : Nat) : Option (Nat × Exec) :=
  (s.members k appo).find? fun p => p.2.rank == rank

/-- The collective of a redex with a number. -/
def findColl (s : State) (k : CtxId) (appo count : Nat) (mmag : Bool) : Option Coll :=
  (s.getCtx k).colls.find? fun c => c.appo == appo && c.mmag == mmag && c.count == count

/-- A contribution joins a collective, which opens when it is the first (R167). -/
def addJoin (s : State) (k : CtxId) (appo count : Nat) (mmag : Bool) (j : Join) : State :=
  s.modCtx k fun c =>
    let is (x : Coll) : Bool := x.appo == appo && x.mmag == mmag && x.count == count
    if c.colls.any is then
      { c with colls := c.colls.map fun x => if is x then { x with joins := x.joins ++ [j] } else x }
    else { c with colls := c.colls ++ [{ appo := appo, count := count, mmag := mmag, joins := [j] }] }

/-- The program error of a collective: a member that differs from rank 0, or one that has halted; the discard is
reported against it (R169). It is looked for as each member joins: the lowest of those that have joined and differ is
reported, and one that differs before one that has halted (DEDUCED, log 80). -/
def collError (s : State) (k : CtxId) (appo count : Nat) (mmag : Bool) : Option Report :=
  match s.getRedex k appo, s.findColl k appo count mmag with
  | some r, some c =>
    match differing c.joins with
    | some rank =>
      match s.memberOf k appo rank with
      | some p => some (report p.1 p.2 none)
      | none => none
    | none =>
      match lowest (r.halts.map Halted.rank) with
      | some rank =>
        match r.halts.find? fun h => h.rank == rank with
        | some h => some ⟨r.first + rank, h.pc, h.iter, none⟩
        | none => none
      | none => none
  | _, _ => none

end State

/-- A span collective: it joins at once, whatever matrix work is queued, waits inside its instruction, and completes
once the collective has; it parks while others have still to join (R167, R169, R236). -/
def spanCollective (g : Guard) (i : Instr) (a : VReg) (b : Option GReg) (s : State) : Out :=
  issue g s fun k e =>
    if e.met then s.finishWait k e
    else
      match s.getRedex e.ctx e.appo with
      | none => s
      | some r =>
        let gb := match b with
          | some b => e.getG b
          | none => 0
        if State.width r ≤ gb.toNat then s.raise k e causeXCTX
        else
          let n := e.spans
          let t := s.addJoin e.ctx e.appo n false { rank := e.rank, word := i, vec := e.getV a, gb := gb }
          match t.collError e.ctx e.appo n false with
          | some w => t.faultRedex e.ctx e.appo causeILLOP .program w
          | none =>
            t.stall k { e with spans := n + 1 } (.collective false n)

/-- TBCAST (R168). -/
def execTbcast (g : Guard) (ty : Ty) (d a : VReg) (b : GReg) (s : State) : Out :=
  spanCollective g (.tbcast g ty d a b) a (some b) s

/-- TRED (R168). -/
def execTred (g : Guard) (op : RedOp) (ty : Ty) (chk : Bool) (d a : VReg) (b : GReg) (s : State) : Out :=
  spanCollective g (.tred g op ty chk d a b) a (some b) s

/-- TSCAN (R168). -/
def execTscan (g : Guard) (op : RedOp) (ty : Ty) (d a : VReg) (s : State) : Out :=
  spanCollective g (.tscan g op ty d a) a none s

/-- TALL (R168). -/
def execTall (g : Guard) (op : RedOp) (ty : Ty) (d a : VReg) (s : State) : Out :=
  spanCollective g (.tall g op ty d a) a none s

/-- The joins of ranks up to a bound, by cell, in ascending order. -/
def joinVecs (first : Nat) (js : List Join) (top : Nat) : List (Nat × Vec) :=
  (List.range (top + 1)).filterMap fun r => (js.find? fun j => j.rank == r).map fun j => (first + r, j.vec)

/-- What a collective writes in the member of a join: its register and the vector (R168). -/
def collWrite (first w : Nat) (js : List Join) (j : Join) : Option (VReg × Vec) :=
  match j.word with
  | .tbcast _ _ d _ _ => (js.find? fun x => x.rank == j.gb.toNat).map fun x => (d, x.vec)
  | .tred _ op ty _ d _ _ =>
    if j.rank = j.gb.toNat then some (d, treeComb op ty (joinVecs first js (w - 1))) else none
  | .tscan _ op ty d _ => some (d, treeComb op ty (joinVecs first js j.rank))
  | .tall _ op ty d _ => some (d, treeComb op ty (joinVecs first js (w - 1)))
  | _ => none

/-- TRED with CHK (R170). -/
def Join.checked (j : Join) : Bool :=
  match j.word with
  | .tred _ _ _ chk _ _ _ => chk
  | _ => false

/-- One member receives what its collective delivers, and its wait is over (R167). -/
def State.deliverColl (s : State) (c : CtxId) (r : Redex) (x : Coll) (j : Join) : State :=
  match s.memberOf c x.appo j.rank with
  | none => s
  | some (k, e) =>
    let e := match collWrite r.first (State.width r) x.joins j with
      | some (d, v) => e.setV d v
      | none => e
    s.setExec k { e with met := true }

/-- A collective ends: every member receives its result. -/
def State.endColl (s : State) (c : CtxId) (r : Redex) (x : Coll) : State :=
  let s := x.joins.foldl (fun s j => s.deliverColl c r x j) s
  s.modCtx c fun y => { y with colls := y.colls.filter fun z => z != x }

/-- A collective that completes while its context is EVICTING: one pending event for each member (R113). -/
def State.noteColl (s : State) (k : CtxId) (x : Coll) : State :=
  if x.noted then s
  else
    x.joins.foldl (fun s j => match s.memberOf k x.appo j.rank with
      | some p => s.noteEvent k 5 (p.1 / 256) (x.mmag.toNat * 2 ^ 32 + x.count) []
      | none => s)
      (s.modCtx k fun c => { c with colls := c.colls.map fun y => if y = x then { y with noted := true } else y })

/-- The galleries of a redex's span reach each other (R384). -/
def State.spanJoined (s : State) (r : Redex) : Bool :=
  [0, 1, 2, 3].all fun g => !(galOf r.first ≤ g && g < galOf r.last) || s.joined g (g + 1)

/-- COLLECTIVE_COMPLETE: the collective idx of the redex at position id, which every member has joined, delivers. Of a
checked TRED, val counts the comparisons that failed in a row: each is an SDC event, and the third ends the redex
(R167, R170); that of a built-in names no word (DESIGN CHOICE, log 27). It waits for the bridges of its span (R384);
with `bad` a flit of one that is not checked held an error that the CRC let pass, and the redex faults ECC (R388). -/
def execCollectiveComplete (s : State) : Out :=
  let a := s.arg
  match s.getRedex a.ctx a.id, s.findColl a.ctx a.id a.idx false with
  | some r, some x =>
    if x.joins.length ≠ State.width r || !s.spanJoined r then .next s
    else if a.bad && !x.joins.any Join.checked then
      match s.members a.ctx a.id with
      | (k, e) :: _ => .next (s.eccFault k e)
      | [] => .next s
    else if (s.getCtx a.ctx).state = .evicting then
      .next (if s.keptRedex a.ctx a.id then s.noteColl a.ctx x else s)
    else if x.joins.any Join.checked then
      let n := min 3 a.val.toNat
      if n = 3 then
        match s.memberOf a.ctx a.id 0 with
        | some p =>
          let at' := if isBuiltin r.op then
              ⟨p.1 / 256, Config.noInstruction s.clk.toNat, Config.noInstruction (s.clk.toNat + 1), none⟩
            else State.report p.1 p.2 none
          .next ((s.count State.telTree 2).raiseSDC State.telTree a.ctx a.id at')
        | none => .next s
      else .next ((s.count State.telTree n).endColl a.ctx r x)
    else .next (s.endColl a.ctx r x)
  | _, _ => .next s

/-! ### Messages (R171, R172) -/

namespace State

/-- One message sets out, unless its receiver has halted (R171). -/
def sendMsg (s : State) (e : Exec) (v : Vec) (rank : Nat) : State :=
  s.fresh.modCtx e.ctx fun c => { c with msgs := c.msgs ++ [⟨s.nextId, e.appo, rank, ⟨e.rank, v⟩⟩] }

/-- The messages of a word set out for some ranks, and their names. -/
def sendMsgs (s : State) (e : Exec) (v : Vec) : List Nat → State × List Nat
  | [] => (s, [])
  | r :: rs => let (t, l) := (s.sendMsg e v r).sendMsgs e v rs; (t, s.nextId :: l)

end State

/-- TMCAST and TROW: the messages set out for the ranks that have not halted; the word completes when every buffer has
taken its message, and its member parks while one is full (R171, R172). -/
def sendWord (s : State) (k : Nat) (e : Exec) (v : Vec) (ranks : List Nat) : State :=
  let live := ranks.filter fun r => (s.memberOf e.ctx e.appo r).isSome
  if e.met then s.finishWait k e
  else if live.isEmpty then s.setExec k e.advance
  else
    let (t, ids) := s.sendMsgs e v live
    t.stall k e (.sending ids)

/-- TMCAST (R171, R172). -/
def execTmcast (g : Guard) (a : VReg) (b : GReg) (s : State) : Out :=
  issue g s fun k e =>
    match s.getRedex e.ctx e.appo with
    | none => s
    | some r =>
      let m := e.getG b
      if (List.range 64).any fun i => m.getLsbD i && State.width r ≤ i then s.raise k e causeXCTX
      else sendWord s k e (e.getV a) ((List.range 64).filter fun i => m.getLsbD i)

/-- TROW (R171, R172). -/
def execTrow (g : Guard) (a : VReg) (b : GReg) (s : State) : Out :=
  issue g s fun k e =>
    match s.getRedex e.ctx e.appo with
    | none => s
    | some r =>
      if State.width r ≤ (e.getG b).toNat then s.raise k e causeXCTX
      else sendWord s k e (e.getV a) [(e.getG b).toNat]

/-- TRECV: the oldest message, or the member parks (R171). -/
def execTrecv (g : Guard) (d : VReg) (s : State) : Out :=
  issue g s fun k e =>
    match e.recv with
    | m :: rest => s.setExec k ({ e with recv := rest }.setV d m.vec).advance
    | [] => s.parkIdle k e .message

/-- The first message from one sender to one receiver among those under way. -/
def firstOfFlow (l : List MsgFlight) (m : MsgFlight) : Bool :=
  match l.find? fun x => x.appo == m.appo && x.dst == m.dst && x.msg.sender == m.msg.sender with
  | some x => x.id == m.id
  | none => false

/-- A message to a member that an eviction keeps arrives as a pending event, and is no longer on its way (R113). -/
def State.noteMessage (s : State) (k : CtxId) (m : MsgFlight) : State :=
  let s := s.modCtx k fun c => { c with msgs := c.msgs.filter fun x => x.id != m.id }
  match s.memberOf k m.appo m.dst with
  | some p =>
    (s.noteEvent k 6 (p.1 / 256) (m.msg.sender * 2 ^ 32 + s.eventOffset k) (vecBytes m.msg.vec)).modCtx k fun c =>
      { c with msgFor := c.msgFor ++ [p.1] }
  | none => s

/-- The gallery of a rank of a redex (R162). -/
def State.rankGal (s : State) (k : CtxId) (appo rank : Nat) : Nat :=
  match s.getRedex k appo with
  | some r => galOf (r.first + rank)
  | none => galOf (appo / 16)

/-- MESSAGE_ARRIVE: the message id reaches its receiver's buffer, which has room, after those that its sender sent it
before; a message to a member that has halted is dropped. It is the event of a message (R171, R210). While its context
is EVICTING it becomes a pending event of a member that stays in the image, which takes it while its buffer has room,
and one to an execution that is to be discarded waits for that (R113). It crosses bridges that carry traffic (R384);
with `bad` its flit held an error that the CRC let pass, and the receiver's redex faults ECC (R388). -/
def execMessageArrive (s : State) : Out :=
  let a := s.arg
  let msgs := (s.getCtx a.ctx).msgs
  match msgs.find? fun m => m.id == a.id with
  | none => .next s
  | some m =>
    let gone := s.modCtx a.ctx fun c => { c with msgs := c.msgs.filter fun x => x.id != m.id }
    match s.memberOf a.ctx m.appo m.dst with
    | none => .next gone
    | some (k, e) =>
      if !firstOfFlow msgs m || !s.joined (s.rankGal a.ctx m.appo m.msg.sender) (galOf (k / 256)) then .next s
      else if a.bad then .next (gone.eccFault k e)
      else if (s.getCtx a.ctx).state = .evicting then
        .next (if s.keptRedex a.ctx m.appo && e.recv.length + s.notedMessages a.ctx k < 8 then
          s.noteMessage a.ctx m else s)
      else if e.recv.length < 8 then
        .next (gone.setExec k { e with recv := e.recv ++ [m.msg], events := e.events ||| 8 })
      else .next s

end Sys2Proof.Machine
end

