-- ==== Sys2Proof/Machine/Matrix.lean ====
section
/-! DEFINITION. Matrix instructions: their operands and checks at issue, the matrix engine's queue, MMA, MMAG,
accumulator moves and checksums, and the events by which the engine works (R235 to R251). -/

namespace Sys2Proof.Machine

/-! ### Descriptors (R238, R278) -/

/-- A descriptor pair (R278). -/
structure Desc where
  base  : Nat
  pitch : Nat
  tile  : Nat
  rho   : Nat
  deriving DecidableEq, Repr

def Desc.ofPair (a b : Word) : Desc := ⟨field a 19 0, field a 35 24, field b 19 0, field b 23 20⟩

/-- Bytes of an element that is stored whole. -/
def elemBytes (f : Fmt) : Nat :=
  match f with
  | .f32 | .i32 => 4
  | .bf16 => 2
  | _ => 1

/-- The byte runs that an operand touches: rows r to r + rn - 1, columns c to c + cn - 1, and its planes (R238). -/
def Desc.runs (d : Desc) (f : Fmt) (planes r rn c cn : Nat) : List (Nat × Nat) :=
  if f.isBpi then
    (List.range planes).flatMap fun p => (List.range rn).map fun i =>
      (d.base + p * d.tile + (r + i) * d.pitch + c / 8, (c + cn - 1) / 8 - c / 8 + 1)
  else (List.range rn).map fun i => (d.base + (r + i) * d.pitch + c * elemBytes f, cn * elemBytes f)

/-- Where the byte at a logical offset stands (R278). -/
def Desc.place (d : Desc) (o : Nat) : Nat :=
  let i := if d.pitch = 0 then 0 else (o - d.base) / d.pitch
  o / 2048 * 2048 + (o / 64 + i * d.rho) % 32 * 64 + o % 64

/-- The bytes of runs where they stand: themselves without rotation, and otherwise in pieces of 64 bytes (R278). -/
def Desc.placed (d : Desc) (runs : List (Nat × Nat)) : List (Nat × Nat) :=
  if d.rho = 0 then runs
  else runs.flatMap fun r => (List.range ((r.1 % 64 + r.2 + 63) / 64)).map fun i =>
    let a := max r.1 (r.1 / 64 * 64 + 64 * i)
    (d.place a, min (r.1 + r.2) (a / 64 * 64 + 64) - a)

/-- The tile-table entry that holds a run whole. -/
def Cell.runEntry (c : Cell) (r : Nat × Nat) : Option Nat :=
  match c.tileAt r.1 with
  | some i =>
    let t := c.getTile i
    if r.1 + r.2 ≤ tileSpaceEnd && r.1 + r.2 ≤ 512 * (t.base + t.count) then some i else none
  | none => none

/-- The one entry that holds every run (R238). -/
def Cell.runsEntry (c : Cell) : List (Nat × Nat) → Option Nat
  | [] => none
  | [r] => c.runEntry r
  | r :: rs => match c.runEntry r, c.runsEntry rs with
    | some i, some j => if i = j then some i else none
    | _, _ => none

/-- The checks of R238 on the runs of an operand, after the condition of R278 on a rotated one
(DESIGN CHOICE, log 100). -/
def descCheck (c : Cell) (k : CtxId) (d : Desc) (runs : List (Nat × Nat)) : Option Cause :=
  if d.rho ≠ 0 && (d.pitch % 2048 != 0 || d.base % 2048 != 0) then some causeSCRATCH
  else match c.runsEntry runs with
    | none => some causeSCRATCH
    | some i =>
      let t := c.getTile i
      if !t.live then some causeSCRATCH
      else if t.ctx ≠ k then some causeXCTX
      else if t.state ≠ .matrix then some causeOWNER
      else none

/-- Bits of the element at a row and a column (R38, R48, R238): for BPI the byte whose unread planes are 0. -/
def descElem (c : Cell) (d : Desc) (f : Fmt) (planes r col : Nat) : Nat :=
  if f.isBpi then
    (List.range planes).foldl (fun acc p =>
      let b := c.scratch.read (d.place (d.base + p * d.tile + r * d.pitch + col / 8))
      acc + (if b.getLsbD (col % 8) then 2 ^ (7 - p) else 0)) 0
  else
    leNat ((List.range (elemBytes f)).map fun i =>
      c.scratch.read (d.place (d.base + r * d.pitch + col * elemBytes f + i)))

/-- Bits of an element of a vector group (R38, R239). -/
def groupElem (e : Exec) (v : VReg) (f : Fmt) (planes r col : Nat) : Nat :=
  let reg (q : Nat) : Vec := e.getV (v + BitVec.ofNat 5 q)
  match f with
  | .bf16 => (lane (reg (r / 2)) (32 * (r % 2) + col / 2)).toNat / 2 ^ (16 * (col % 2)) % 2 ^ 16
  | .gf8 | .i8 => (lane (reg (r / 4)) (16 * (r % 4) + col / 4)).toNat / 2 ^ (8 * (col % 4)) % 2 ^ 8
  | .f32 | .i32 => 0
  | _ => (List.range planes).foldl (fun acc p =>
      acc + (if (lane (reg (2 * p + r / 32)) (2 * (r % 32) + col / 32)).getLsbD (col % 32) then 2 ^ (7 - p) else 0)) 0

/-! ### The shape register (R237) -/

def shapeM (w : Word) : Nat := field w 15 8
def shapeN (w : Word) : Nat := field w 7 0
def shapeInt (w : Word) : Bool := w.getLsbD 24
def shapePL (w : Word) : BitVec 3 := w.extractLsb' 16 3

/-- M and N are 1 to 64 (R237). -/
def shapeOk (w : Word) : Bool := 1 ≤ shapeM w && shapeM w ≤ 64 && 1 ≤ shapeN w && shapeN w ≤ 64

/-! ### Issue into the queue (R235) -/

/-- The registers that a matrix instruction names, read at issue. -/
def matOpOf (e : Exec) (i : Instr) (a b c : Option GReg) : MatOp :=
  let get (r : Option GReg) : Word := match r with
    | some x => e.getG x
    | none => 0
  let next (r : Option GReg) : Word := match r with
    | some x => e.getG (x + 1)
    | none => 0
  { pc := e.pc, iter := e.iter, instr := i, ga := get a, ga1 := next a, gb := get b, gb1 := next b, gc := get c }

/-- The matrix engine is given work on every tile of the cell that an instruction names (R281). -/
def Cell.startWork (c : Cell) (rank : Nat) (m : MatOp) : Cell :=
  c.tiles.foldl (fun c t =>
    if t.2.state = .matrix && State.matOpOn rank m t.2 then c.setTile t.1 { t.2 with working := true } else c) c

/-- A matrix instruction joins the queue, and its word completes; it waits while the queue is full (R235). -/
def State.enqueue (s : State) (k : Nat) (e : Exec) (m : MatOp) : State :=
  if 4 ≤ e.mq.length then s
  else (s.modCell (k / 256) fun c => c.startWork e.rank m).setExec k { e with mq := e.mq ++ [m] }.advance

/-- A matrix instruction issues: its checks fault precisely, and then it is queued (R235). -/
def matIssue (g : Guard) (s : State) (op : Exec → MatOp) (check : Nat → Exec → MatOp → Option Cause) : Out :=
  issue g s fun k e =>
    let m := op e
    match check k e m with
    | some c => s.raise k e c
    | none => s.enqueue k e m

/-- The planes of each operand that MMA or MMAG reads. -/
def opPlanes (f : Fmt) (planes : BitVec 3) : Nat := planesRead f planes

/-- The check of an MMA operand: a descriptor's bytes (R238). -/
def srcOperandCheck (c : Cell) (k : CtxId) (isGroup : Bool) (d : Desc) (f : Fmt) (planes : BitVec 3) (rows cols : Nat) :
    Option Cause :=
  if isGroup then none else descCheck c k d (d.runs f (opPlanes f planes) 0 rows 0 cols)

/-- The g register of a descriptor operand. -/
def srcReg : MmaSrc → Option GReg
  | .desc g => some g
  | .group _ => none

/-- MMA: gC out of range faults ILLOP, then its operands are checked (R237, R238, R242, R243), all of A before B
(DESIGN CHOICE, log 100). -/
def execMma (g : Guard) (form : MmaForm) (planes : BitVec 3) (d : AReg) (a b : MmaSrc) (c : GReg) (s : State) : Out :=
  matIssue g s (fun e => matOpOf e (.mma g form planes d a b c) (srcReg a) (srcReg b) (some c)) fun k e m =>
    let cell := s.getCell (k / 256)
    let kk := form.k1.toNat + 1
    if !shapeOk m.gc then some causeILLOP
    else match srcOperandCheck cell e.ctx a.isGroup (Desc.ofPair m.ga m.ga1) form.fa planes (shapeM m.gc) kk with
      | some x => some x
      | none => srcOperandCheck cell e.ctx b.isGroup (Desc.ofPair m.gb m.gb1) form.fb planes kk (shapeN m.gc)

/-- MZERO (R247). -/
def execMzero (g : Guard) (d : AReg) (s : State) : Out :=
  matIssue g s (fun e => matOpOf e (.mzero g d) none none none) fun _ _ _ => none

/-- The check of MLD and MST (R237, R238). -/
def maccCheck (s : State) (fmt : Fmt) (k : Nat) (e : Exec) (m : MatOp) : Option Cause :=
  let d := Desc.ofPair m.ga m.ga1
  if !shapeOk m.gc then some causeILLOP
  else match descCheck (s.getCell (k / 256)) e.ctx d (d.runs fmt 0 0 (shapeM m.gc) 0 (shapeN m.gc)) with
    | some x => some x
    | none => if d.pitch < shapeN m.gc * elemBytes fmt then some causeSCRATCH else none

/-- MLD (R247). -/
def execMld (g : Guard) (fmt : Fmt) (d : AReg) (a c : GReg) (s : State) : Out :=
  matIssue g s (fun e => matOpOf e (.mld g fmt d a c) (some a) none (some c)) (maccCheck s fmt)

/-- MST (R247). -/
def execMst (g : Guard) (fmt : Fmt) (d : AReg) (a c : GReg) (s : State) : Out :=
  matIssue g s (fun e => matOpOf e (.mst g fmt d a c) (some a) none (some c)) (maccCheck s fmt)

/-- MROWR (R247). -/
def execMrowr (g : Guard) (d : VReg) (a : AReg) (b : GReg) (s : State) : Out :=
  matIssue g s (fun e => matOpOf e (.mrowr g d a b) none (some b) none) fun _ _ _ => none

/-- MROWW (R247). -/
def execMroww (g : Guard) (d : AReg) (a : VReg) (b : GReg) (s : State) : Out :=
  matIssue g s (fun e => matOpOf e (.mroww g d a b) none (some b) none) fun _ _ _ => none

/-- MTRAN (R247). -/
def execMtran (g : Guard) (d a : AReg) (s : State) : Out :=
  matIssue g s (fun e => matOpOf e (.mtran g d a) none none none) fun _ _ _ => none

/-- The check of MCHK and MCHKR: gC, and the 4 n bytes from gA (R237, R248). -/
def chkCheck (s : State) (k : Nat) (e : Exec) (m : MatOp) : Option Cause :=
  let d : Desc := ⟨m.ga.toNat, 0, 0, 0⟩
  if !shapeOk m.gc then some causeILLOP
  else descCheck (s.getCell (k / 256)) e.ctx d [(d.base, 4 * shapeN m.gc)]

/-- MCHK (R248). -/
def execMchk (g : Guard) (d : AReg) (a c : GReg) (s : State) : Out :=
  matIssue g s (fun e => matOpOf e (.mchk g d a c) (some a) none (some c)) (chkCheck s)

/-- MCHKR (R248). -/
def execMchkr (g : Guard) (d : AReg) (a c : GReg) (s : State) : Out :=
  matIssue g s (fun e => matOpOf e (.mchkr g d a c) (some a) none (some c)) (chkCheck s)

/-! ### MMAG at issue (R245, R246) -/

/-- The ranks that take part in an MMAG. -/
def mmagRanks (mb1 : BitVec 2) (nb1 : BitVec 3) : Nat := (mb1.toNat + 1) * (nb1.toNat + 1)

/-- The checks of MMAG: the ranks, the planes, gC, and the operands of a panel source (R245, R246), in that order
(DESIGN CHOICE, log 100). -/
def mmagCheck (s : State) (form : MmaForm) (mb1 : BitVec 2) (nb1 : BitVec 3) (k : Nat) (e : Exec) (m : MatOp) :
    Option Cause :=
  let w := match s.getRedex e.ctx e.appo with
    | some r => State.width r
    | none => 0
  let n := mmagRanks mb1 nb1
  let nb := nb1.toNat + 1
  let cell := s.getCell (k / 256)
  let kk := form.k1.toNat + 1
  let pl := shapePL m.gc
  if n ≤ e.rank || w < n then some causeXCTX
  else if !planesOk form.fa form.fb pl then some causeILLOP
  else if !shapeOk m.gc then some causeILLOP
  else match srcOperandCheck cell e.ctx (e.rank % nb != 0) (Desc.ofPair m.ga m.ga1) form.fa pl (shapeM m.gc) kk with
    | some x => some x
    | none => srcOperandCheck cell e.ctx (nb ≤ e.rank) (Desc.ofPair m.gb m.gb1) form.fb pl kk (shapeN m.gc)

/-- The program error of an MMAG: a rank that differs from rank 0, or one that has halted without it (R246). The ranks
are compared as each issues, so that the lowest of those that have issued and differ is reported; one that halted before
the MMAG opened counts as one that halts while it is open (DEDUCED, log 80). -/
def State.mmagError (s : State) (k : CtxId) (appo count ranks : Nat) : Option Report :=
  match s.getRedex k appo, s.findColl k appo count true with
  | some r, some c =>
    match differing c.joins with
    | some rank => (s.memberOf k appo rank).map fun p => report p.1 p.2 none
    | none =>
      match lowest ((r.halts.map Halted.rank).filter fun h => h < ranks && !c.joins.any fun j => j.rank == h) with
      | some rank => (r.halts.find? fun h => h.rank == rank).map fun h => ⟨r.first + rank, h.pc, h.iter, none⟩
      | none => none
  | _, _ => none

/-- MMAG: the rank joins the collective, is compared with the others, and is queued (R245, R246). -/
def execMmag (g : Guard) (form : MmaForm) (mb1 : BitVec 2) (nb1 : BitVec 3) (d : AReg) (a b c : GReg) (s : State) :
    Out :=
  issue g s fun k e =>
    let i : Instr := .mmag g form mb1 nb1 d a b c
    let m := { matOpOf e i (some a) (some b) (some c) with mmag := e.mmags }
    match mmagCheck s form mb1 nb1 k e m with
    | some x => s.raise k e x
    | none =>
      if 4 ≤ e.mq.length then s
      else
        let t := s.addJoin e.ctx e.appo e.mmags true { rank := e.rank, word := i, vec := zeroVec, gb := m.gc &&& 0x7FFFF }
        match t.mmagError e.ctx e.appo e.mmags (mmagRanks mb1 nb1) with
        | some w => t.faultRedex e.ctx e.appo causeILLOP .program w
        | none => t.enqueue k { e with mmags := e.mmags + 1 } m

/-! ### K-blocks (R52, R53, R242) -/

/-- An operand as the engine reads it: element bits by row and column. -/
abbrev Elems := Nat → Nat → Nat

/-- The exact value of a floating matrix element (R240). -/
def matFloat (f : Fmt) (x : Nat) : Exact :=
  match f with
  | .f32 => FloatFmt.f32.dec x
  | .bf16 => FloatFmt.bf16.dec x
  | _ => FloatFmt.gf8.dec x

/-- The integer of an I8 or BPI element (R41, R240). -/
def matInt (x : Nat) : Int := intOf true 8 x

/-- The length of a block (R52). -/
def blockLen (fa fb : Fmt) : Nat := if elemBytes fa = 1 && elemBytes fb = 1 then 32 else 16

/-- The blocks of K values of k. -/
def blocks (form : MmaForm) : Nat := (form.k1.toNat + blockLen form.fa form.fb) / blockLen form.fa form.fb

/-- The values of k in block b. -/
def blockKs (form : MmaForm) (b : Nat) : List Nat :=
  let l := blockLen form.fa form.fb
  (List.range l).filterMap fun i => if b * l + i ≤ form.k1.toNat then some (b * l + i) else none

/-- One floating block added to an element (R52). A zero block sum is +0 before ACC = 10 negates it, so that it is
added as −0 (DESIGN CHOICE, log 91). -/
def blockFloat (form : MmaForm) (a b : Elems) (ks : List Nat) (i j : Nat) (acc : Lane) : Lane :=
  let s := ks.foldl (fun x k => Exact.add .rne x (Exact.mul (matFloat form.fa (a i k)) (matFloat form.fb (b k j))))
    (.fin false 0 0)
  let s := if form.acc = .negate then s.neg else s
  (roundF32 (Exact.add .rne (ofF32 acc) s) .rne).1

/-- One integer block added to an element: the wrapped sum, and whether the exact one left the range (R53). -/
def blockInt (form : MmaForm) (a b : Elems) (ks : List Nat) (i j : Nat) (acc : Lane) : Lane × Bool :=
  let s := ks.foldl (fun x k => x + matInt (a i k) * matInt (b k j)) (0 : Int)
  let v := acc.toInt + (if form.acc = .negate then -s else s)
  (BitVec.ofInt 32 v, v < -(2 ^ 31) || 2 ^ 31 ≤ v)

/-- MSTAT.IOV is set (R53, R249). -/
def Exec.setIov (e : Exec) (b : Bool) : Exec := if b then { e with mstat := e.mstat ||| 0x10000 } else e

/-- One K-block of an MMA into an accumulator: elements in the rows and columns of gC (R242). -/
def Exec.kblock (e : Exec) (form : MmaForm) (gc : Word) (d : AReg) (a b : Elems) (n : Nat) : Exec :=
  let old := e.getA d
  let m := shapeM gc
  let nn := shapeN gc
  let ks := blockKs form n
  let acc (i j : Nat) : Lane := if n = 0 && form.acc == .overwrite then 0 else melem old i j
  if form.fa.isMatrixInt then
    let r (i j : Nat) : Lane × Bool := blockInt form a b ks i j (acc i j)
    let iov := (List.range m).any fun i => (List.range nn).any fun j => (r i j).2
    (e.setA d (mtab fun i j => if i < m && j < nn then (r i j).1 else melem old i j)).setIov iov
  else
    e.setA d (mtab fun i j => if i < m && j < nn then blockFloat form a b ks i j (acc i j) else melem old i j)

/-- The elements of an MMA operand. -/
def mmaElems (c : Cell) (e : Exec) (src : MmaSrc) (d : Desc) (f : Fmt) (planes : BitVec 3) : Elems :=
  match src with
  | .desc _ => descElem c d f (opPlanes f planes)
  | .group v => groupElem e v f (opPlanes f planes)

/-- A trailing write of a firing still has to land in one of the runs (R282). -/
def State.trailing (s : State) (cell : Nat) (runs : List (Nat × Nat)) : Bool :=
  let c := s.getCell cell
  runs.any fun r => (List.range (r.2 / 512 + 2)).any fun x =>
    let chunk := r.1 / 512 + x
    if r.1 + r.2 ≤ 512 * chunk then false
    else match c.tileAt (512 * chunk) with
      | none => false
      | some i => c.tmpls.toArray.toList.any fun t => match t.firing with
        | some f =>
          let n := chunk - (c.getTile i).base
          State.firingWrites f i && f.first ≤ n && n ≤ f.last && !f.landed.getLsbD n
        | none => false

/-- The runs that K-block n of an operand reads: of the columns of A, or the rows of B. -/
def blockRuns (d : Desc) (f : Fmt) (planes : BitVec 3) (isA : Bool) (form : MmaForm) (gc : Word) (n : Nat) :
    List (Nat × Nat) :=
  let k0 := n * blockLen form.fa form.fb
  let kn := (blockKs form n).length
  d.placed (if isA then d.runs f (opPlanes f planes) 0 (shapeM gc) k0 kn
    else d.runs f (opPlanes f planes) k0 kn 0 (shapeN gc))

/-! ### The engine's events -/

/-- The head of the matrix queue of a cell's live execution. -/
def State.matHead (s : State) (cell : Nat) : Option (Nat × Exec × MatOp) :=
  match s.liveOf cell with
  | some (k, e) => match e.mq with
    | m :: _ => some (k, e, m)
    | [] => none
  | none => none

/-- The head of the queue replaced. -/
def Exec.setHead (e : Exec) (m : MatOp) : Exec := { e with mq := m :: e.mq.tail }

/-- The head of the queue is done (R235). -/
def Exec.popHead (e : Exec) : Exec := { e with mq := e.mq.tail }

/-- The bits that MLD writes of an element, widened exactly, a NaN to the canonical one (R32, R44,
R247; DEDUCED, log 70, for a NaN of BF16, whose bits R35 widens by 16 zeros). -/
def mldBits (f : Fmt) (x : Nat) : Lane :=
  match f with
  | .bf16 => (roundF32 (FloatFmt.bf16.dec x) .rne).1
  | .gf8 => (roundF32 (FloatFmt.gf8.dec x) .rne).1
  | .i8 => BitVec.ofInt 32 (matInt x)
  | _ => BitVec.ofNat 32 x

/-- The bits that MST stores of an element (R247). -/
def mstBits (f : Fmt) (x : Lane) : Nat :=
  match f with
  | .bf16 => (roundBF16 (ofF32 x) .rne).1.toNat
  | .gf8 => (toGF8 (ofF32 x) .rne).1.toNat
  | .i8 => bitsOf 8 (satInt x.toInt true 8).1
  | _ => x.toNat

/-- MST: the elements, rows in ascending order. -/
def State.mstStore (s : State) (cell : Nat) (d : Desc) (f : Fmt) (gc : Word) (a : Mat) : State :=
  (List.range (shapeM gc)).foldl (fun s i => (List.range (shapeN gc)).foldl (fun s j =>
    (leBytes (elemBytes f) (mstBits f (melem a i j))).zipIdx.foldl (fun s b =>
      s.writeScratch cell (d.place (d.base + i * d.pitch + j * elemBytes f + b.2)) [b.1]) s) s) s

/-- The sum of column j over m rows (R50, R248). -/
def colSum (int : Bool) (a : Mat) (m j : Nat) : Lane :=
  (List.range m).foldl (fun x i => if int then x + melem a i j else f32AddRne x (melem a i j)) 0

/-- A value is finite. -/
def Exact.finite (x : Exact) : Bool := !x.isNan && !x.isInf

/-- A column of MCHK mismatches (R248). -/
def colBad (int : Bool) (a : Mat) (m j : Nat) (t : Lane) : Bool :=
  let sj := colSum int a m j
  if int then sj != t
  else
    let x := ofF32 sj
    let y := ofF32 t
    if !x.finite || !y.finite then sj != t
    else
      let total := (List.range m).foldl (fun acc i => Exact.add .rne acc (ofF32 (melem a i j)).abs) (.fin false 0 0)
      Exact.ltNum (Exact.mul total (.fin false 1 (-8))) (Exact.sub .rne x y).abs

/-- MSTAT.MISS counts mismatched columns, saturating (R248, R249). -/
def missAdd (mstat : Word) (n : Nat) : Word :=
  (mstat &&& ~~~(0xFFFF : Word)) ||| BitVec.ofNat 64 (min 0xFFFF (field mstat 15 0 + n))

namespace State

/-- The word of a row of checksums. -/
def scratchLane (s : State) (cell a : Nat) : Lane :=
  BitVec.ofNat 32 (leNat ((s.getCell cell).scratch.readBytes a 4))

/-- The bytes that an instruction which the engine runs whole reads. -/
def wholeRuns (m : MatOp) : List (Nat × Nat) :=
  match m.instr with
  | .mld _ f _ _ _ =>
    let d := Desc.ofPair m.ga m.ga1
    d.placed (d.runs f 0 0 (shapeM m.gc) 0 (shapeN m.gc))
  | .mchk _ _ _ _ => [(m.ga.toNat, 4 * shapeN m.gc)]
  | _ => []

/-- An instruction that the engine runs whole (R247, R248): the effect on the member and its cell. -/
def runWhole (s : State) (k : Nat) (e : Exec) (m : MatOp) : State :=
  let cell := k / 256
  match m.instr with
  | .mzero _ d => s.setExec k (e.setA d zeroMat)
  | .mld _ f d _ _ =>
    let c := s.getCell cell
    let desc := Desc.ofPair m.ga m.ga1
    let old := e.getA d
    s.setExec k (e.setA d (mtab fun i j =>
      if i < shapeM m.gc && j < shapeN m.gc then mldBits f (descElem c desc f 0 i j) else melem old i j))
  | .mst _ f d _ _ => (s.mstStore cell (Desc.ofPair m.ga m.ga1) f m.gc (e.getA d)).setExec k e
  | .mrowr _ d a _ => s.setExec k (e.setV d (vget zeroVec (e.getA a) (m.gb.toNat % 64)))
  | .mroww _ d a _ => s.setExec k (e.setA d (vset (e.getA d) (m.gb.toNat % 64) (e.getV a)))
  | .mtran _ d a => let x := e.getA a; s.setExec k (e.setA d (mtab fun i j => melem x j i))
  | .mchk _ d _ _ =>
    let a := e.getA d
    let bad := (List.range (shapeN m.gc)).filter fun j =>
      colBad (shapeInt m.gc) a (shapeM m.gc) j (s.scratchLane cell (m.ga.toNat + 4 * j))
    s.setExec k { e with mstat := missAdd e.mstat bad.length }
  | .mchkr _ d _ _ =>
    let a := e.getA d
    ((List.range (shapeN m.gc)).foldl (fun s j =>
      s.writeScratch cell (m.ga.toNat + 4 * j) (leBytes 4 (colSum (shapeInt m.gc) a (shapeM m.gc) j).toNat)) s).setExec
      k e
  | _ => s.setExec k e

end State

/-- An instruction that the engine takes by K-blocks or steps (R236, R256). -/
def stepped : Instr → Bool
  | .mma .. | .mmag .. | .luf .. | .chol .. | .qrh .. | .trsm .. | .qapply .. => true
  | _ => false

/-- A panel with the element bits of some columns, for A, or of some rows, for B, taken from an operand. -/
def panelWith (old : Mat) (f : Elems) (isA : Bool) (ks : List Nat) : Mat :=
  mtab fun i j => if ks.contains (if isA then j else i) then BitVec.ofNat 32 (f i j) else melem old i j

namespace State

/-- One rank's part in an MMAG changed. -/
def modJoin (s : State) (k : CtxId) (appo count rank : Nat) (f : Join → Join) : State :=
  s.modCtx k fun c => { c with colls := c.colls.map fun x =>
    if x.appo = appo && x.mmag && x.count = count then
      { x with joins := x.joins.map fun j => if j.rank = rank then f j else j }
    else x }

/-- A rank's part in an MMAG. -/
def joinOf (s : State) (k : CtxId) (appo count rank : Nat) : Option Join :=
  (s.findColl k appo count true).bind fun c => c.joins.find? fun j => j.rank == rank

/-- The source of a row panel, in the first of nb columns, and of a column panel, in the first row, sends the K-block
that its engine stands at, once the chunks of it have landed (R245, R282). -/
def sendPanels (s : State) (k : Nat) (e : Exec) (m : MatOp) (form : MmaForm) (nb : Nat) : State :=
  let pl := shapePL m.gc
  let da := Desc.ofPair m.ga m.ga1
  let db := Desc.ofPair m.gb m.gb1
  let row : Bool := e.rank % nb == 0
  let col : Bool := e.rank < nb
  let runs := (if row then blockRuns da form.fa pl true form m.gc m.next else [])
    ++ (if col then blockRuns db form.fb pl false form m.gc m.next else [])
  match s.joinOf e.ctx e.appo m.mmag e.rank with
  | none => s
  | some j =>
    if !(row || col) || m.next < j.sent || s.trailing (k / 256) runs then s
    else
      let c := s.getCell (k / 256)
      let ks := blockKs form m.next
      let (a, b) := j.panels.getD (zeroMat, zeroMat)
      let a := if row then panelWith a (descElem c da form.fa (opPlanes form.fa pl)) true ks else a
      let b := if col then panelWith b (descElem c db form.fb (opPlanes form.fb pl)) false ks else b
      s.modJoin e.ctx e.appo m.mmag e.rank fun j => { j with panels := some (a, b), sent := m.next + 1 }

end State

/-! ### The checker (R244) -/

/-- The exact value of an element of a matrix operand. -/
def matExact (f : Fmt) (x : Nat) : Exact := if f.isMatrixInt then .ofInt (matInt x) else matFloat f x

/-- An exact sum over a list. -/
def sumExact (l : List Nat) (f : Nat → Exact) : Exact := l.foldl (fun x i => Exact.add .rne x (f i)) (.fin false 0 0)

/-- t_j over m rows, with what hardware errors have added to it (R244). -/
def checkT (form : MmaForm) (m : Nat) (a b : Elems) (strays : List Nat) (j : Nat) : Exact :=
  let t := sumExact (List.range (form.k1.toNat + 1)) fun k =>
    Exact.mul (sumExact (List.range m) fun i => matExact form.fa (a i k)) (matExact form.fb (b k j))
  Exact.add .rne t (sumExact strays fun n => let x := Config.strayTerm n j; .fin x.1 x.2.1 x.2.2)

/-- u_j over m rows: the block sums of column j (R244). -/
def checkU (form : MmaForm) (m : Nat) (a b : Elems) (j : Nat) : Exact :=
  sumExact (List.range m) fun i => sumExact (List.range (blocks form)) fun n =>
    sumExact (blockKs form n) fun k => Exact.mul (matExact form.fa (a i k)) (matExact form.fb (b k j))

/-- The sum of the magnitudes of the products of column j (R244). -/
def checkMag (form : MmaForm) (m : Nat) (a b : Elems) (j : Nat) : Exact :=
  sumExact (List.range m) fun i => sumExact (List.range (form.k1.toNat + 1)) fun k =>
    (Exact.mul (matExact form.fa (a i k)) (matExact form.fb (b k j))).abs

/-- A difference is a multiple of 2^32. -/
def Exact.wraps (x : Exact) : Bool :=
  match x with
  | .fin _ m e => m == 0 || (if 0 ≤ e then m * 2 ^ e.toNat % 2 ^ 32 == 0 else m % 2 ^ (32 + (-e).toNat) == 0)
  | _ => false

/-- A sum of a column lies in the range of FP32: one beyond it has overflowed (R244, R252; DESIGN CHOICE, log 72). -/
def sumFinite (x : Exact) : Bool := (ofF32 (roundF32 x .rne).1).finite

/-- A column mismatches (R244). One whose sums are not both finite is not compared. Both sums carry the sign of ACC =
10, which their difference leaves out (DESIGN CHOICE, log 72). -/
def checkCol (form : MmaForm) (m : Nat) (a b : Elems) (strays : List Nat) (j : Nat) : Bool :=
  let t := checkT form m a b strays j
  let u := checkU form m a b j
  let d := Exact.sub .rne u t
  if form.fa.isMatrixInt then !d.wraps
  else sumFinite t && sumFinite u && Exact.ltNum
    (Exact.mul (.fin false (form.k1.toNat + 1) (-8)) (checkMag form m a b j)) d.abs

/-- Some column of an m × n block mismatches. Without a hardware error t_j and u_j are one exact sum, and none does. -/
def checkBad (form : MmaForm) (m n : Nat) (a b : Elems) (strays : List Nat) : Bool :=
  !strays.isEmpty && (List.range n).any (checkCol form m a b strays)

/-! ### The admission limiter (R21, R251) -/

/-- LIMITER_WINDOW: a gallery's window that holds the cycle begins, and its count is 0; a K-block held back stays held
until it starts (R251). -/
def execLimiterWindow (s : State) : Out :=
  let g := s.arg.gal.val
  if (s.getGal g).win = s.clk.toNat / 1024 then .next s else .next (s.modGal g fun x => x.windowAt s.clk)

/-- A K-block starts in a cell, counted against the cap of its gallery (R21, R251). -/
def State.countBlock (s : State) (cell : Nat) : State :=
  (s.unhold cell).modGal (galOf cell) fun g => { g with count := BitVec.ofNat 16 (min 0xFFFF (g.count.toNat + 1)) }

/-- A K-block that the cap holds back, behind those held before it, and counted once (R21, R251). -/
def State.holdBlock (s : State) (cell : Nat) : State :=
  if (s.getCell cell).held then s
  else (s.modGal (galOf cell) fun g => { g with waiting := g.waiting ++ [cell] }).modCell cell fun c =>
    { c with held := true, defer := BitVec.ofNat 16 (min 0xFFFF (c.defer.toNat + 1)) }

/-- The cap admits no K-block now. -/
def Gallery.capped (g : Gallery) : Bool := g.capNow != 0 && g.capNow ≤ g.count

namespace State

/-- A checked instruction ends: a column that mismatches is a detected SDC (R244). -/
def endChecked (s : State) (k : Nat) (e : Exec) (m : MatOp) (form : MmaForm) (a b : Elems) : State :=
  if form.chk && checkBad form (shapeM m.gc) (shapeN m.gc) a b m.strays then
    s.raiseSDC telMatrix e.ctx e.appo ⟨k / 256, m.pc, m.iter, none⟩
  else s

/-- K-block m.next of an MMA, and the end of the MMA after the last; bad tells that a hardware error strikes the checker
in this block (R242, R244). -/
def mmaBlock (s : State) (k : Nat) (e : Exec) (m : MatOp) (form : MmaForm) (d : AReg) (a b : Elems) (bad : Bool) :
    State :=
  let e := e.kblock form m.gc d a b m.next
  let m := if bad && form.chk then { m with strays := m.strays ++ [s.clk.toNat] } else m
  if m.next + 1 < blocks form then s.setExec k (e.setHead { m with next := m.next + 1 })
  else (s.setExec k e.popHead).endChecked k e m form a b

/-- The panels of an MMAG that a rank needs for its K-block: every rank has issued the MMAG, and been compared, and the
sources of its row and its column have sent the block, over bridges that carry traffic (R245, R246, R384). -/
def ranksPanels (s : State) (e : Exec) (m : MatOp) (nb ranks : Nat) : Option (Elems × Elems) :=
  match s.findColl e.ctx e.appo m.mmag true with
  | none => none
  | some c =>
    let get (r : Nat) : Option (Mat × Mat) := match c.joins.find? fun j => j.rank == r && m.next < j.sent with
      | some j => j.panels
      | none => none
    if c.joins.length ≠ ranks || !(s.getRedex e.ctx e.appo).all s.spanJoined then none
    else match get (e.rank / nb * nb), get (e.rank % nb) with
      | some p, some q => some (fun i j => (melem p.1 i j).toNat, fun i j => (melem q.2 i j).toNat)
      | _, _ => none

/-- An MMAG that is done: its panels go, and what its ranks carried stays to be compared with a rank that issues it with
another grid (R245, R246). -/
def spentColl (x : Coll) : Coll := { x with joins := x.joins.map fun j => { j with panels := none } }

/-- A rank's block of an MMAG is done; once every rank's is, the collective is complete, which is an event of a context
that is EVICTING (R113, R245). -/
def endMmag (s : State) (k : CtxId) (appo count rank ranks : Nat) : State :=
  let s := s.modJoin k appo count rank fun j => { j with ended := true }
  match s.findColl k appo count true with
  | some c =>
    if (c.joins.filter Join.ended).length = ranks then
      let s := s.modCtx k fun x => { x with colls := x.colls.map fun y => if y = c then spentColl c else y }
      if (s.getCtx k).state = .evicting then s.noteColl k (spentColl c) else s
    else s
  | none => s

/-- A K-block may start: the window of the cycle has begun, its cap is not reached, and no block that was held back
before it still waits (R21, R251). -/
def admitTiles (s : State) (cell : Nat) (run : State → State) : State :=
  let g := s.getGal (galOf cell)
  if g.win ≠ s.clk.toNat / 1024 then s
  else if g.capped then s.holdBlock cell
  else if g.waiting.head?.any (· != cell) then s
  else run (s.countBlock cell)

end State

/-- MATRIX_KBLOCK: the matrix engine of a cell runs the next K-block of the MMA or MMAG at the head of its queue, when
the limiter admits it and the chunks and panels that it reads are there (R236, R242, R245, R251). In a cell that runs a
MMUL or MMULACC, a hardware error strikes the checker of its MMA (R187, R244). An error in a panel of an MMAG that is
not checked is an ECC fault (R388). -/
def execMatrixKblock (s : State) : Out :=
  let bad := s.arg.bad
  match s.matHead s.arg.cell.val with
  | none => match s.liveOf s.arg.cell.val with
    | some (k, e) =>
      if bad && (e.op == 0x40 || e.op == 0x41) then .next (s.setExec k { e with strays := e.strays ++ [s.clk.toNat] })
      else .next s
    | none => .next s
  | some (k, e, m) =>
    if !m.started then .next s
    else match m.instr with
      | .mma _ form planes d a b _ =>
        let c := s.getCell (k / 256)
        let da := Desc.ofPair m.ga m.ga1
        let db := Desc.ofPair m.gb m.gb1
        let runs := (if a.isGroup then [] else blockRuns da form.fa planes true form m.gc m.next) ++
          (if b.isGroup then [] else blockRuns db form.fb planes false form m.gc m.next)
        if s.trailing (k / 256) runs then .next s
        else .next (s.admitTiles (k / 256) fun s =>
          s.mmaBlock k e m form d (mmaElems c e a da form.fa planes) (mmaElems c e b db form.fb planes) bad)
      | .mmag _ form mb1 nb1 d _ _ _ =>
        let s := s.sendPanels k e m form (nb1.toNat + 1)
        match s.ranksPanels e m (nb1.toNat + 1) (mmagRanks mb1 nb1) with
        | none => .next s
        | some (a, b) =>
          if bad && !form.chk then .next (s.eccFault k e)
          else .next (s.admitTiles (k / 256) fun s =>
            let t := s.mmaBlock k e m form d a b bad
            if m.next + 1 < blocks form then t
            else t.endMmag e.ctx e.appo m.mmag e.rank (mmagRanks mb1 nb1))
      | _ => .next s

end Sys2Proof.Machine
end

