-- ==== Sys2Proof/Machine/Factor.lean ====
section
/-! DEFINITION. Factorisation: the FACT instructions at issue and step by step in the matrix engine, the interchanges of
perm, and PERMR (R253 to R268). -/

namespace Sys2Proof.Machine

/-! ### The size register (R253) -/

def factN (w : Word) : Nat := field w 6 0
def factStop (w : Word) : Nat := field w 14 8
def factM (w : Word) : Nat := field w 22 16
def factTau (w : Word) : Nat := field w 51 32

/-- The step before which the instruction stops: STOP, or N when STOP is 0 (R257). -/
def factEnd (w : Word) : Nat := if factStop w = 0 then factN w else factStop w

/-- N is in range. -/
def factNOk (w : Word) : Bool := 1 ≤ factN w && factN w ≤ 64

/-- STOP is in range. -/
def factStopOk (w : Word) : Bool := factStop w ≤ factN w

/-- M is in range. -/
def factMOk (w : Word) : Bool := 1 ≤ factM w && factM w ≤ 64

/-! ### FPROG, FSTAT and GROW (R256, R261) -/

def fprogNext (w : Word) : Nat := field w 6 0
def fprogOp (w : Word) : Nat := field w 11 8

/-- FPROG of an instruction with steps is no continuation of it (R257). -/
def fprogBad (fprog : Word) (fn n : Nat) : Bool :=
  fprogNext fprog ≠ 0 && (fprogOp fprog ≠ fn + 1 || n ≤ fprogNext fprog)

/-- FPROG after a step that completes `done` of N (R257). -/
def fprogAfter (fn n done : Nat) : Word := if done = n then 0 else BitVec.ofNat 64 ((fn + 1) * 256 + done)

/-- FSTAT.LASTOP (R261). -/
def Exec.lastOp (e : Exec) (fn : Nat) : Exec := { e with fstat := (e.fstat &&& ~~~(0xF : Word)) ||| BitVec.ofNat 64 (fn + 1) }

/-- FSTAT with MAX0, FIRST and DEF replaced. -/
def fstatSet (w : Word) (max0 : Lane) (first defCount : Nat) : Word :=
  BitVec.ofNat 64 (max0.toNat * 2 ^ 32 + first * 2 ^ 16 + defCount * 2 ^ 8 + field w 3 0)

def fstatMax0 (w : Word) : Lane := w.extractLsb' 32 32
def fstatFirst (w : Word) : Nat := field w 23 16
def fstatDef (w : Word) : Nat := field w 14 8

def growMaxK (w : Word) : Lane := w.extractLsb' 32 32

/-! ### The permutation register (R266, R267) -/

def Exec.getPerm (e : Exec) (i : Nat) : BitVec 16 := vget 0 e.perm i

def Exec.setPerm (e : Exec) (i : Nat) (x : BitVec 16) : Exec := { e with perm := vset e.perm i x }

/-- The exchange of rows k and p in PI and PINV (R260); of a PI above 63 the low six bits name the entry of PINV
(DESIGN CHOICE, log 92). -/
def Exec.exchange (e : Exec) (k p : Nat) : Exec :=
  let a := e.getPerm (64 + k)
  let b := e.getPerm (64 + p)
  let e := (e.setPerm (64 + k) b).setPerm (64 + p) a
  (e.setPerm (128 + b.toNat % 64) (BitVec.ofNat 16 k)).setPerm (128 + a.toNat % 64) (BitVec.ofNat 16 p)

/-- Rows k and p of a matrix exchanged in columns 0 to m - 1. -/
def swapRows (x : Mat) (k p m : Nat) : Mat :=
  mtab fun i j => if j < m then (if i = k then melem x p j else if i = p then melem x k j else melem x i j)
    else melem x i j

/-- PAPPLY and PAPPLYT: the interchanges of IPIV in order, or in reverse (R266). -/
def papplied (e : Exec) (gc : Word) (reverse : Bool) (x : Mat) : Mat :=
  let ks := List.range (factN gc)
  (if reverse then ks.reverse else ks).foldl (fun x k => swapRows x k ((e.getPerm k).toNat % 64) (factM gc)) x

/-! ### Element arithmetic -/

/-- |x| as a bit pattern: a NaN exceeds every number (R260). -/
def magBits (x : Lane) : Nat := x.toNat % 2 ^ 31

/-- The larger magnitude, as bits of sign 0. -/
def maxMag (a : Lane) (x : Lane) : Lane := if a.toNat < magBits x then BitVec.ofNat 32 (magBits x) else a

/-- A NaN magnitude is delivered as the canonical NaN (R260). -/
def canonMag (x : Lane) : Lane := if isNanF32 x then nanF32 else x

/-- +0 or -0. -/
def isZeroLane (x : Lane) : Bool := magBits x == 0

/-- RATIO of the two magnitudes (R260). -/
def growRatio (maxK max0 : Lane) : Lane :=
  if isZeroLane maxK && isZeroLane max0 then 0x3F800000 else f32DivRne maxK max0

/-- GROW of the two magnitudes (R261). -/
def growOf (maxK max0 : Lane) : Word := canonMag maxK ++ canonMag (growRatio maxK max0)

/-! ### LUF (R260) -/

/-- The largest magnitude of the active block. -/
def blockMax (x : Mat) (n : Nat) : Lane :=
  (List.range n).foldl (fun a i => (List.range n).foldl (fun a j => maxMag a (melem x i j)) a) 0

/-- The state with which LUF starts at step 0: perm, FSTAT and GROW. -/
def Exec.lufInit (e : Exec) (x : Mat) (n : Nat) : Exec :=
  let m := blockMax x n
  { e with perm := permIdentity, fstat := fstatSet e.fstat (canonMag m) 0xFF 0, grow := growOf m m }

/-- The lowest row from k on with the largest magnitude in column k. -/
def pivotRow (x : Mat) (n k : Nat) : Nat :=
  ((List.range n).filter (k < ·)).foldl (fun p i => if magBits (melem x p k) < magBits (melem x i k) then i else p) k

/-- Whether an element is a multiplier of step k, or in its trailing block. -/
def isMult (n k i j : Nat) : Bool := k < i && i < n && j == k
def isTrail (n k i j : Nat) : Bool := k < i && i < n && k < j && j < n

/-- The multipliers of step k: each element below the pivot divided by it, or +0 below a zero pivot. -/
def lufMults (x : Mat) (n k : Nat) (zero : Bool) : Mat :=
  let d := melem x k k
  mtab fun i j => if isMult n k i j then (if zero then 0 else f32DivRne (melem x i k) d) else melem x i j

/-- The trailing block of step k. -/
def lufTrail (x : Mat) (n k : Nat) : Mat :=
  mtab fun i j => if isTrail n k i j then f32FmsRne (melem x i j) (melem x i k) (melem x k j) else melem x i j

/-- The largest magnitude among the pivot and what step k computed. -/
def lufMax (old : Lane) (x : Mat) (n k : Nat) : Lane :=
  (List.range n).foldl (fun a i => (List.range n).foldl (fun a j =>
    if isMult n k i j || isTrail n k i j then maxMag a (melem x i j) else a) a) (maxMag old (melem x k k))

/-- Step k of LUF on a member whose accumulator d holds x: the member, or none for a zero pivot that faults. DEF stays
at 64 when steps that are run again pass over more columns (R261; DEDUCED, log 75). -/
def lufStep (e : Exec) (d : AReg) (zc : Bool) (n k : Nat) : Option Exec :=
  let x := e.getA d
  let e := if k = 0 then e.lufInit x n else e
  let p := pivotRow x n k
  let e := e.setPerm k (BitVec.ofNat 16 p)
  let x := if p = k then x else swapRows x k p 64
  let e := if p = k then e else e.exchange k p
  let zero := isZeroLane (melem x k k)
  if zero && !zc then none
  else
    let y := lufMults x n k zero
    let y := if zero then y else lufTrail y n k
    let max0 := fstatMax0 e.fstat
    let maxK := if zero then growMaxK e.grow else lufMax (growMaxK e.grow) y n k
    let fs := if zero then
        fstatSet e.fstat max0 (if fstatFirst e.fstat = 0xFF then k else fstatFirst e.fstat) (min 64 (fstatDef e.fstat + 1))
      else e.fstat
    some ({ e with grow := growOf maxK max0, fstat := fs }.setA d y)

/-! ### CHOL (R262) -/

/-- The diagonal of a step is a NaN, or not above zero. -/
def notPositive (x : Lane) : Bool := isNanF32 x || isZeroLane x || x.getLsbD 31

/-- Step k of CHOL, or none where the diagonal faults. -/
def cholStep (x : Mat) (n k : Nat) : Option Mat :=
  let d := melem x k k
  if notPositive d then none
  else
    let c := f32SqrtRne d
    let col := mtab fun i j =>
      if i = k && j = k then c else if isMult n k i j then f32DivRne (melem x i k) c else melem x i j
    some (mtab fun i j => if isTrail n k i j && j ≤ i then f32FmsRne (melem col i j) (melem col i k) (melem col j k)
      else melem col i j)

/-! ### QRH and QAPPLY (R263, R264) -/

/-- A column of a matrix as a vector. -/
def column (x : Mat) (j : Nat) : Vec := tabulate 64 fun i => melem x i j

/-- A matrix with a column replaced. -/
def setColumn (x : Mat) (j : Nat) (y : Vec) : Mat := mtab fun i c => if c = j then lane y i else melem x i c

/-- Reflect(k, tau, y) with the reflector's elements v below k (R263). -/
def reflect (n k : Nat) (tau : Lane) (v y : Vec) : Vec :=
  let below := (List.range n).filter (k < ·)
  let w := below.foldl (fun w i => f32FmaRne (lane v i) (lane y i) w) (lane y k)
  let t := f32MulRne tau w
  tabulate 64 fun i =>
    if i = k then f32SubRne (lane y k) t
    else if k < i && i < n then f32FmsRne (lane y i) (lane v i) t
    else lane y i

/-- Step k of QRH: the matrix and tau. -/
def qrhStep (x : Mat) (n k : Nat) : Mat × Lane :=
  let below := (List.range n).filter (k < ·)
  if below.all fun i => isZeroLane (melem x i k) then (x, 0)
  else
    let s := ((List.range n).filter (k ≤ ·)).foldl (fun s i => f32FmaRne (melem x i k) (melem x i k) s) 0
    let nrm := f32SqrtRne s
    let xk := melem x k k
    let alpha := if Exact.ltNum (ofF32 xk) (.fin false 0 0) then nrm else (roundF32 (ofF32 nrm).neg .rne).1
    let u := f32SubRne xk alpha
    let tau := f32DivRneSub alpha xk
    let v : Vec := tabulate 64 fun i => if k < i && i < n then f32DivRne (melem x i k) u else melem x i k
    let y := setColumn x k (vset v k alpha)
    (below.foldl (fun y j => setColumn y j (reflect n k tau v (column y j))) y, tau)
where
  /-- tau: the exact difference divided, with one rounding. -/
  f32DivRneSub (alpha xk : Lane) : Lane :=
    (roundF32 (Exact.div (Exact.sub .rne (ofF32 alpha) (ofF32 xk)) (ofF32 alpha)) .rne).1

/-- Step s of QAPPLY with its tau (R264). -/
def qapplyStep (x t : Mat) (n m k : Nat) (tau : Lane) : Mat :=
  if tau = 0 then x
  else (List.range m).foldl (fun x j => setColumn x j (reflect n k tau (column t k) (column x j))) x

/-! ### TRSM (R265) -/

/-- The index of step s: ascending when UP equals RIGHT. -/
def trsmIndex (up right : Bool) (n s : Nat) : Nat := if up == right then s else n - 1 - s

/-- Step s of TRSM, or none for a zero diagonal. -/
def trsmStep (x t : Mat) (up unit right : Bool) (n m s : Nat) : Option Mat :=
  let k := trsmIndex up right n s
  let d := melem t k k
  let later (i : Nat) : Bool := i < n && (if up == right then k < i else i < k)
  if !unit && isZeroLane d then none
  else
    let solved (c : Nat) : Lane :=
      let b := if right then melem x c k else melem x k c
      if unit then b else f32DivRne b d
    some (mtab fun i j =>
      if right then
        if m ≤ i then melem x i j
        else if j = k then solved i
        else if later j then f32FmsRne (melem x i j) (solved i) (melem t k j)
        else melem x i j
      else
        if m ≤ j then melem x i j
        else if i = k then solved j
        else if later i then f32FmsRne (melem x i j) (melem t i k) (solved j)
        else melem x i j)

/-! ### Issue (R253, R254, R257) -/

/-- The tau row's check: 4 N bytes held whole by one entry of MATRIX state (R238, R254). -/
def tauCheck (s : State) (k : Nat) (e : Exec) (base n : Nat) : Option Cause :=
  descCheck (s.getCell (k / 256)) e.ctx ⟨base, 0, 0, 0⟩ [(base, 4 * n)]

/-- A FACT instruction with steps issues: the checks of R253 and R257, those of its own operands, and its place in the
queue; one whose steps are all done completes with nothing changed (R257). -/
def factIssue (g : Guard) (s : State) (fn : Nat) (useM : Bool) (op : Exec → MatOp)
    (check : Nat → Exec → MatOp → Option Cause) : Out :=
  issue g s fun k e =>
    let m := op e
    if !factNOk m.ga || !factStopOk m.ga || (useM && !factMOk m.ga) then s.raise k e causeILLOP
    else if fprogBad e.fprog fn (factN m.ga) then s.raise k e causeILLOP
    else match check k e m with
      | some c => s.raise k e c
      | none =>
        if factEnd m.ga ≤ fprogNext e.fprog then s.setExec k e.advance
        else s.enqueue k e m

/-- LUF (R260). -/
def execLuf (g : Guard) (zc : Bool) (d : AReg) (a : GReg) (s : State) : Out :=
  factIssue g s 0 false (fun e => matOpOf e (.luf g zc d a) (some a) none none) fun _ _ _ => none

/-- CHOL (R262). -/
def execChol (g : Guard) (d : AReg) (a : GReg) (s : State) : Out :=
  factIssue g s 1 false (fun e => matOpOf e (.chol g d a) (some a) none none) fun _ _ _ => none

/-- QRH (R263). -/
def execQrh (g : Guard) (d : AReg) (a b : GReg) (s : State) : Out :=
  factIssue g s 2 false (fun e => matOpOf e (.qrh g d a b) (some a) (some b) none) fun k e m =>
    let t := Desc.ofPair m.gb m.gb1
    descCheck (s.getCell (k / 256)) e.ctx t [(t.base, 4 * factN m.ga)]

/-- TRSM (R265). -/
def execTrsm (g : Guard) (up unit right : Bool) (d : AReg) (a : GReg) (b : AReg) (s : State) : Out :=
  factIssue g s 3 true (fun e => matOpOf e (.trsm g up unit right d a b) (some a) none none) fun _ _ _ => none

/-- QAPPLY (R264). -/
def execQapply (g : Guard) (t : Bool) (d : AReg) (a : GReg) (b : AReg) (s : State) : Out :=
  factIssue g s 4 true (fun e => matOpOf e (.qapply g t d a b) (some a) none none) fun k e m =>
    tauCheck s k e (factTau m.ga) (factN m.ga)

/-- PAPPLY and PAPPLYT issue: N and M are in range (R253, R266). -/
def papplyIssue (g : Guard) (s : State) (op : Exec → MatOp) : Out :=
  matIssue g s op fun _ _ m => if factNOk m.ga && factMOk m.ga then none else some causeILLOP

/-- PAPPLY (R266). -/
def execPapply (g : Guard) (d : AReg) (a : GReg) (s : State) : Out :=
  papplyIssue g s fun e => matOpOf e (.papply g d a) (some a) none none

/-- PAPPLYT (R266). -/
def execPapplyt (g : Guard) (d : AReg) (a : GReg) (s : State) : Out :=
  papplyIssue g s fun e => matOpOf e (.papplyt g d a) (some a) none none

/-! ### FACT_STEP (R256, R257, R259) -/

namespace State

/-- Step `step` of the factorisation at the head of the queue has ended: FPROG counts it, and after the last the
instruction ends (R257, R261). -/
def factAfter (s : State) (k : Nat) (e : Exec) (m : MatOp) (fn step : Nat) : State :=
  let n := factN m.ga
  let e := { e with fprog := fprogAfter fn n (step + 1) }
  if step + 1 = factEnd m.ga then s.setExec k (e.popHead.lastOp fn) else s.setExec k e

/-- A step that faults, with the column as its address (R259). -/
def factFault (s : State) (k : Nat) (e : Exec) (m : MatOp) (cause : Cause) (col : Nat) : State :=
  s.faultRedex e.ctx e.appo cause (classOf cause (isBuiltin e.op))
    ⟨k / 256, m.pc, m.iter, some (BitVec.ofNat 64 col)⟩

/-- One step of the factorisation at the head of a cell's queue. -/
def factStep (s : State) (k : Nat) (e : Exec) (m : MatOp) : State :=
  let step := fprogNext e.fprog
  let n := factN m.ga
  match m.instr with
  | .luf _ zc d _ =>
    match lufStep e d zc n step with
    | some e => s.factAfter k e m 0 step
    | none => s.factFault k e m causeZPIVOT step
  | .chol _ d _ =>
    match cholStep (e.getA d) n step with
    | some x => s.factAfter k (e.setA d x) m 1 step
    | none => s.factFault k e m causeNOTPD step
  | .qrh _ d _ _ =>
    let t := Desc.ofPair m.gb m.gb1
    let (x, tau) := qrhStep (e.getA d) n step
    (s.writeScratch (k / 256) (t.base + 4 * step) (leBytes 4 tau.toNat)).factAfter k (e.setA d x) m 2 step
  | .trsm _ up unit right d _ b =>
    match trsmStep (e.getA d) (e.getA b) up unit right n (factM m.ga) step with
    | some x => s.factAfter k (e.setA d x) m 3 step
    | none => s.factFault k e m causeZDIAG (trsmIndex up right n step)
  | .qapply _ t d _ b =>
    if s.trailing (k / 256) [(factTau m.ga, 4 * n)] then s
    else
      let r := if t then step else n - 1 - step
      let tau := s.scratchLane (k / 256) (factTau m.ga + 4 * r)
      s.factAfter k (e.setA d (qapplyStep (e.getA d) (e.getA b) n (factM m.ga) r tau)) m 4 step
  | _ => s

end State

/-- FACT_STEP: the matrix engine of a cell runs the next step of the factorisation at the head of its queue (R256). -/
def execFactStep (s : State) : Out :=
  match s.matHead s.arg.cell.val with
  | none => .next s
  | some (k, e, m) => if m.started then .next (s.factStep k e m) else .next s

/-- PAPPLY or PAPPLYT whole (R256, R266). -/
def State.runPapply (s : State) (k : Nat) (e : Exec) (m : MatOp) (d : AReg) (fn : Nat) (reverse : Bool) : State :=
  s.setExec k ((e.popHead.setA d (papplied e m.ga reverse (e.getA d))).lastOp fn)

/-- MATRIX_ENGINE_EXEC: the engine of a cell reaches the head of its queue. What it runs whole, it completes; an MMA,
an MMAG or a factorisation starts, and its K-blocks and steps follow (R235). -/
def execMatrixEngineExec (s : State) : Out :=
  match s.matHead s.arg.cell.val with
  | none => .next s
  | some (k, e, m) =>
    if m.started then .next s
    else if stepped m.instr then .next (s.setExec k (e.setHead { m with started := true }))
    else if s.trailing (k / 256) (State.wholeRuns m) then .next s
    else match m.instr with
      | .papply _ d _ => .next (s.runPapply k e m d 5 false)
      | .papplyt _ d _ => .next (s.runPapply k e m d 6 true)
      | _ => .next (s.runWhole k e.popHead m)

/-! ### PERMR (R268) -/

/-- PRID. -/
def execPrid (g : Guard) (s : State) : Out := scalar g s fun e => { e with perm := permIdentity }

/-- The checks of the 512 bytes of PRLD and PRST: an odd offset, and those of LD and ST over all of them. -/
def permCheck (c : Cell) (e : Exec) (a : Nat) (write : Bool) : Option Cause :=
  if a % 2 ≠ 0 || tileSpaceEnd < a + 512 then some causeSCRATCH
  else match c.tileAt a with
    | none => some causeSCRATCH
    | some i =>
      if c.tileAt (a + 511) ≠ some i then some causeSCRATCH
      else if write then writeCheck e (c.getTile i) else readCheck e (c.getTile i)

/-- PRLD. -/
def execPrld (g : Guard) (a : GReg) (s : State) : Out :=
  issue g s fun k e =>
    let c := s.getCell (k / 256)
    let base := field (e.getG a) 19 0
    match permCheck c e base false with
    | some cause => s.raise k e cause
    | none =>
      let new : Vector (BitVec 16) 256 := tabulate 256 fun i =>
        BitVec.ofNat 16 (leNat (c.scratch.readBytes (base + 2 * i) 2))
      s.setExec k ({ e with perm := new }.advance)

/-- PRST. -/
def execPrst (g : Guard) (a : GReg) (s : State) : Out :=
  issue g s fun k e =>
    let base := field (e.getG a) 19 0
    match permCheck (s.getCell (k / 256)) e base true with
    | some cause => s.raise k e cause
    | none =>
      (s.writeScratch (k / 256) base ((List.range 256).flatMap fun i => leBytes 2 (e.getPerm i).toNat)).setExec k
        e.advance

end Sys2Proof.Machine
end

