-- ==== Sys2Proof/Machine/Route.lean ====
section
/-! DEFINITION. The route engine and the cooper: ROUTE, reassembly entries and their returns, station instructions, and
the events of rows and returns in flight (R327 to R343). -/

namespace Sys2Proof.Machine

/-! ### Headers and rows (R45 to R48) -/

/-- A header word 0 is malformed (R47). -/
def headerBad (w : Word) : Bool :=
  let rows := field w 14 8
  let cols := field w 22 16
  match fmtOfCode (field w 4 0) with
  | none => true
  | some f => rows == 0 || 64 < rows || cols == 0 || 64 < cols || field w 27 24 != f.planes
      || (!f.isBpi && (!fieldZero w 39 32 || w.getLsbD 40))

/-- The byte offset of row i of a tile that starts at a chunk, with elements of n bytes (R48). -/
def rowAt (base n i : Nat) : Nat := 512 * base + 512 + 64 * n * i

/-- The 64 elements of a row as stored. -/
def rowElems (c : Cell) (off n : Nat) : Vec :=
  tabulate 64 fun j => BitVec.ofNat 32 (leNat (c.scratch.readBytes (off + n * j) n))

/-- A row lies in the chunks of its tile. -/
def rowInside (t : Tile) (off n : Nat) : Bool := off + 64 * n ≤ 512 * (t.base + t.count)

/-- The elements of a row of a tile; one beyond its chunks is zero (R430). -/
def tileRow (c : Cell) (t : Tile) (off n : Nat) : Vec := if rowInside t off n then rowElems c off n else zeroVec

/-- The bytes of a row of elements. -/
def rowBytes (n : Nat) (v : Vec) : List Byte := (List.range 64).flatMap fun j => leBytes n (lane v j).toNat

/-- A row widened exactly to FP32 (R35, R44). -/
def widenRow (f : Fmt) (v : Vec) : Vec := tabulate 64 fun j => mldBits f (lane v j).toNat

/-- The formats that ROUTE takes (R334). -/
def routable : Fmt → Bool
  | .f32 | .bf16 | .gf8 => true
  | _ => false

/-! ### Tickets (R329, DESIGN CHOICE, log 25) -/

def mkTicket (cell : Nat) (tag : BitVec 16) (entry row choice : Nat) (weight : BitVec 16) (f : Fmt) : Word :=
  BitVec.ofNat 64 (cell * 2 ^ 53 + tag.toNat * 2 ^ 37 + entry * 2 ^ 32 + row * 2 ^ 26 + choice * 2 ^ 25 +
    weight.toNat * 2 ^ 9 + f.code.toNat * 2 ^ 4)

def ticketTag (w : Word) : BitVec 16 := BitVec.ofNat 16 (field w 52 37)
def ticketEntry (w : Word) : Nat := field w 36 32
def ticketRow (w : Word) : Nat := field w 31 26
def ticketChoice (w : Word) : Nat := field w 25 25
def ticketWeight (w : Word) : BitVec 16 := BitVec.ofNat 16 (field w 24 9)
def ticketFmt (w : Word) : Option Fmt := fmtOfCode (field w 8 4)

/-! ### Reassembly entries (R334 to R337) -/

namespace Choice

def isMissing : Choice → Bool
  | .missing => true
  | _ => false

def isRow : Choice → Bool
  | .row _ => true
  | _ => false

/-- A return of the choice. -/
def take (v : Option Vec) : Choice := match v with
  | some v => .row v
  | none => .dropped

end Choice

namespace Rat

/-- Choices still missing. -/
def missing (r : Rat) : Nat :=
  r.got.foldl (fun n p => n + p.1.isMissing.toNat + p.2.isMissing.toNat) 0

/-- Choice c of row i. -/
def choice (r : Rat) (i c : Nat) : Choice :=
  let p := r.got.getD i (.unrouted, .unrouted)
  if c = 0 then p.1 else p.2

def setChoice (r : Rat) (i c : Nat) (x : Choice) : Rat :=
  let p := r.got.getD i (.unrouted, .unrouted)
  { r with got := r.got.set i (if c = 0 then (x, p.2) else (p.1, x)) }

/-- The sum of the returns of a row, in ascending choice index from +0.0 (R57, R337). -/
def sumRow (p : Choice × Choice) : Vec :=
  let add (acc : Vec) (x : Choice) : Vec := match x with
    | .row v => tabulate 64 fun j => f32AddRne (lane acc j) (lane v j)
    | _ => acc
  add (add zeroVec p.1) p.2

/-- The rows of R337 at completion: a surviving sum, or what the policy gives from the source tile's bytes. -/
def finalRows (r : Rat) (c : Cell) : List (Bool × Vec) :=
  let t := c.getTile r.tile
  (List.range r.rows).map fun i =>
    let p := r.got.getD i (.unrouted, .unrouted)
    if p.1.isRow || p.2.isRow then (true, sumRow p)
    else if r.pass then (false, widenRow r.fmt (tileRow c t (rowAt t.base (elemBytes r.fmt) i) (elemBytes r.fmt)))
    else (false, zeroVec)

/-- The missing choices of an entry become drops (R336). -/
def dropMissing (r : Rat) : Rat :=
  let one (c : Choice) : Choice := if c.isMissing then .dropped else c
  { r with drops := r.drops + r.missing, timeout := true, got := r.got.map fun p => (one p.1, one p.2) }

/-- Rows of a complete entry with no surviving return (R339). -/
def empty (r : Rat) : Nat := (r.final.filter fun p => !p.1).length

end Rat

namespace State

def getRat (s : State) (cell i : Nat) : Rat := Tbl.get {} (s.getCell cell).rat i

def setRat (s : State) (cell i : Nat) (r : Rat) : State :=
  s.modCell cell fun c => { c with rat := Tbl.put {} c.rat i r }

/-- An entry completes: its rows are formed, and its member is told (R210, R336, R337). -/
def completeRat (s : State) (cell i : Nat) (r : Rat) : State :=
  (s.setRat cell i { r with state := .complete, final := r.finalRows (s.getCell cell) }).raiseEvent cell r.ctx r.owner 2

/-- The chunk of a row of a tile has still to land (R282). -/
def rowTrails (s : State) (cell : Nat) (t : Tile) (off n : Nat) : Bool :=
  rowInside t off n && s.trailing cell [(off, 64 * n)]

/-- A row of the source that PASS is to read has still to land (R282, R337). -/
def passTrails (s : State) (cell : Nat) (r : Rat) : Bool :=
  let t := (s.getCell cell).getTile r.tile
  r.pass && (List.range r.rows).any fun i =>
    let p := r.got.getD i (.unrouted, .unrouted)
    !p.1.isRow && !p.2.isRow &&
      s.rowTrails cell t (rowAt t.base (elemBytes r.fmt) i) (elemBytes r.fmt)

/-- The OPEN entries of every cell whose choices have all come complete, once the source rows that PASS reads are there
(R282, R336, R337). -/
def completeRats (s : State) : State :=
  s.cells.foldl (fun s c => c.2.rat.foldl (fun s p =>
    if p.2.state = .opened && p.2.missing == 0 && !s.passTrails c.1 p.2 then s.completeRat c.1 p.1 p.2 else s) s) s

/-- A row is to leave for its station, one row in each cycle (R329, R334). -/
def sendRow (s : State) (k : CtxId) (tile off station n : Nat) (ticket : Word) : State :=
  s.fresh.modCtx k fun c => { c with rowsIn := c.rowsIn ++
    [{ id := s.nextId, station := station, ticket := ticket, due := s.clk + BitVec.ofNat 64 n, vec := none, tile := tile
       src := off }] }

end State

/-- Stations of a row's choices, of lane i of vB (R333). -/
def stationOfLane (x : Lane) (c : Nat) : Nat := if c = 0 then x.toNat % 256 else x.toNat / 256 % 256

/-- The weight of a choice (R333). -/
def weightOfLane (x : Lane) (c : Nat) : BitVec 16 := BitVec.ofNat 16 (if c = 0 then x.toNat else x.toNat / 2 ^ 16)

/-- A choice that names no station, or a number above 63 (R333, R334). -/
def stationBad (n : Nat) : Bool := 0x40 ≤ n && n ≤ 0xFE

/-- The choices of a route as it opens. -/
def openChoices (rows : Nat) (v : Vec) : List (Choice × Choice) :=
  (List.range rows).map fun i =>
    let one (c : Nat) : Choice := if stationOfLane (lane v i) c = 0xFF then .unrouted else .missing
    (one 0, one 1)

/-- The check of a source tile for the route engine (R275, R334). -/
def routeCheck (e : Exec) (t : Tile) : Option Cause :=
  match entryCheck e.ctx t with
  | some c => some c
  | none => if t.state = .route then none else some causeOWNER

/-- ROUTE (R333, R334, R335): the route engine reads the source's header once its chunk is there (R282). -/
def execRoute (g : Guard) (d a : GReg) (b : VReg) (s : State) : Out :=
  issue g s fun k e =>
    let cell := k / 256
    let x := e.getG a
    withTile s k e x (routeCheck e) fun ti t =>
      let h := BitVec.ofNat 64 (leNat ((s.getCell cell).scratch.readBytes (512 * t.base) 8))
      let v := e.getV b
      let w := e.getV (b + 1)
      let rows := field h 14 8
      if s.trailing cell [(512 * t.base, 8)] then s
      else match (if headerBad h then none else fmtOfCode (field h 4 0)) with
      | none => s.raise k e causeTYPE
      | some f =>
        if !routable f then s.raise k e causeTYPE
        else if (List.range rows).any fun i => stationBad (stationOfLane (lane v i) 0) ||
            stationBad (stationOfLane (lane v i) 1) then s.raise k e causeILLOP
        else match (List.range 32).find? fun i => (s.getRat cell i).state == .free with
          | none => s.parkIdle k e .ratFree
          | some ent =>
            match (s.getCell cell).topChunks 32 with
            | none => s.raise k e causeSCRATCH
            | some chunks =>
              let tag := (s.getCell cell).rseq
              let got := openChoices rows v
              let r : Rat :=
                { state := .opened, owner := e.appo, ctx := e.ctx, tag := tag, rows := rows, cols := field h 22 16
                  pass := x.getLsbD 8, tmo := field x 47 16, issued := s.clk, tile := ti, fmt := f, got := got
                  chunks := chunks }
              let r := { r with expected := r.missing }
              let s := s.modCell cell fun c => { c with rseq := c.rseq + 1, taken := chunks ++ c.taken }
              let s := (s.setRat cell ent r).modTile cell ti fun t => { t with working := true }
              let s := s.setExec k
                ({ e with tags := tag :: e.tags }.setG d (BitVec.ofNat 64 (tag.toNat * 2 ^ 16 + ent))).advance
              let sent := (List.range rows).flatMap fun i => ([0, 1].filter fun c =>
                stationOfLane (lane v i) c != 0xFF).map fun c => (i, c)
              let s := ((List.range sent.length).zip sent).foldl (fun s x =>
                s.sendRow e.ctx ti (rowAt t.base (elemBytes f) x.2.1) (stationOfLane (lane v x.2.1) x.2.2) x.1
                  (mkTicket cell tag ent x.2.1 x.2.2 (weightOfLane (lane w x.2.1) x.2.2) f)) s
              if r.expected = 0 && !s.passTrails cell r then s.completeRat cell ent r else s

/-- A handle of the member: its entry, or ILLOP (R338). -/
def withHandle (s : State) (k : Nat) (e : Exec) (x : Word) (body : Nat → Rat → State) : State :=
  let i := field x 4 0
  let r := s.getRat (k / 256) i
  if r.state == .free || r.owner ≠ e.appo || r.ctx ≠ e.ctx || r.tag ≠ BitVec.ofNat 16 (field x 31 16) then
    s.raise k e causeILLOP
  else body i r

/-- RATST's fields of a complete entry (R339). -/
def Exec.ratStatus (e : Exec) (r : Rat) : Exec :=
  { e with ratst := (e.ratst &&& 0xFF00000000000000) |||
      BitVec.ofNat 64 (r.timeout.toNat * 2 ^ 47 + min 127 r.drops * 2 ^ 40 + r.empty * 2 ^ 32) }

/-- RATWT (R338). -/
def execRatwt (g : Guard) (a : GReg) (s : State) : Out :=
  issue g s fun k e =>
    withHandle s k e (e.getG a) fun i r =>
      if r.state = .opened then s.parkIdle k e (.rat i) else s.setExec k (e.ratStatus r).advance

/-- The header words and the row map that RATRD writes (R46, R338). -/
def ratHeader (r : Rat) : Word := BitVec.ofNat 64 (2 ^ 42 + r.cols * 2 ^ 16 + r.rows * 2 ^ 8)

def ratMap (r : Rat) : List Byte :=
  (List.range 64).map fun i => BitVec.ofNat 8 ((if (r.final.getD i (false, zeroVec)).1 then 0x80 else 0) + i)

/-- RATRD writes rows, header and row map to the tile (R338). -/
def State.ratWrite (s : State) (cell : Nat) (t : Tile) (r : Rat) : State :=
  let rows := (List.range 64).flatMap fun i => rowBytes 4 (r.final.getD i (false, zeroVec)).2
  let s := s.writeScratch cell (512 * t.base) (leBytes 8 (ratHeader r).toNat ++ leBytes 8 r.tag.toNat)
  let s := s.writeScratch cell (512 * t.base + 448) (ratMap r)
  s.writeScratch cell (512 * t.base + 512) rows

/-- An entry freed, with its chunks (R336, R338). -/
def State.freeRat (s : State) (cell i : Nat) (r : Rat) : State :=
  s.modCell cell fun c =>
    { c with rat := Tbl.erase c.rat i, taken := c.taken.filter fun n => !r.chunks.contains n }

/-- RATRD (R338). -/
def execRatrd (g : Guard) (a b : GReg) (s : State) : Out :=
  issue g s fun k e =>
    withHandle s k e (e.getG a) fun i r =>
      withTile s k e (e.getG b) (writeCheck e) fun _ t =>
        if t.fmt ≠ .f32 then s.raise k e causeTYPE
        else if r.state = .opened then s.parkIdle k e (.rat i)
        else ((s.ratWrite (k / 256) t r).freeRat (k / 256) i r).setExec k (e.ratStatus r).advance

/-! ### Station instructions (R341 to R343) -/

namespace State

def modStation (s : State) (k : CtxId) (n : Nat) (f : Station → Station) : State :=
  s.modCtx k fun c => match Tbl.find c.stations n with
    | some st => { c with stations := Tbl.set c.stations n (f st) }
    | none => c

/-- The rows that SRECV takes: those of its tile's format fill positions from p on, and others are answered DROP
(R341). The rows left, the member, the count, and the state with the bytes written and the DROPs sent. -/
def takeRows (cell : Nat) (t : Tile) (p n : Nat) : List InboxRow → Nat → Exec → State → List InboxRow × Nat × Exec × State
  | [], k, e, s => ([], k, e, s)
  | r :: rs, k, e, s =>
    if n ≤ k then (r :: rs, k, e, s)
    else if ticketFmt r.ticket ≠ some t.fmt then takeRows cell t p n rs k e (s.sendRet e.ctx cell r.ticket none)
    else
      let s := match Tbl.find e.tickets (p + k) with
        | some old => s.sendRet e.ctx cell old none
        | none => s
      let sz := elemBytes t.fmt
      let s := s.writeScratch cell (rowAt t.base sz (p + k)) (rowBytes sz r.vec)
      takeRows cell t p n rs (k + 1) { e with tickets := Tbl.set e.tickets (p + k) r.ticket } s

end State

/-- The station's service is over for a member that finds its inbox empty (R330). -/
def Station.over (st : Station) : Bool := st.state == .closed || st.quiescent

/-- A row has reached the station in this cycle: the removals of the cycle come before its arrivals, so an SRECV takes
its turn in a later one (R329, R345). -/
def Station.arrivedNow (st : Station) (clk : Word) : Bool := st.lastRow.map Prod.fst == some clk

/-- SRECV (R341). -/
def execSrecv (g : Guard) (d a : GReg) (s : State) : Out :=
  issue g s fun k e =>
    let x := e.getG a
    let n := field x 30 24
    let p := field x 21 16
    match s.stationOf e.ctx e.appo with
    | none => s.raise k e causeILLOP
    | some (num, st) =>
      if n = 0 || 64 < p + n then s.raise k e causeILLOP
      else withTile s k e x (writeCheck e) fun _ t =>
        if st.arrivedNow s.clk then s
        else
        let (left, got, e', s') := State.takeRows (k / 256) t p n st.rows 0 e s
        let s' := s'.modStation e.ctx num fun st => { st with rows := left }
        if got = 0 then
          if st.over then s'.setExec k (e'.setG d 0).advance else s'.parkIdle k e' .inbox
        else s'.setExec k (e'.setG d (BitVec.ofNat 64 got)).advance

/-- SRET (R342). -/
def execSret (g : Guard) (a b : GReg) (s : State) : Out :=
  issue g s fun k e =>
    let n := field (e.getG b) 14 8
    let p := field (e.getG b) 5 0
    if (s.stationOf e.ctx e.appo).isNone || n = 0 || 64 < n || 64 < p + n then s.raise k e causeILLOP
    else withTile s k e (e.getG a) (readCheck e) fun _ t =>
      if t.fmt ≠ .f32 then s.raise k e causeTYPE
      else
        let c := s.getCell (k / 256)
        let qs := (List.range n).map (p + ·)
        let s := qs.foldl (fun s q => match Tbl.find e.tickets q with
          | some tk =>
            let w : Lane := (ticketWeight tk) ++ (0 : BitVec 16)
            let y := rowElems c (rowAt t.base 4 q) 4
            s.sendRet e.ctx (k / 256) tk (some (tabulate 64 fun j => f32MulRne w (lane y j)))
          | none => s) s
        s.setExec k { e with tickets := e.tickets.filter fun q => !(p ≤ q.1 && q.1 < p + n) }.advance

/-- SCAP's word for a station number (R343). -/
def scapWord (s : State) (k : CtxId) (n : Nat) : Word :=
  match Tbl.find (s.getCtx k).stations n with
  | none => BitVec.ofNat 64 (n * 2 ^ 50)
  | some st => BitVec.ofNat 64 (n * 2 ^ 50 + (if st.state = .closed then 2 else 1) * 2 ^ 48 + st.cap * 2 ^ 32 +
      st.rows.length * 2 ^ 16 + (st.cap - st.rows.length))

/-- SCAP (R343). -/
def execScap (g : Guard) (d a : GReg) (s : State) : Out :=
  issue g s fun k e =>
    let x := e.getG a
    if x.getLsbD 8 then
      match s.stationOf e.ctx e.appo with
      | none => s.raise k e causeILLOP
      | some (n, _) => s.setExec k (e.setG d (scapWord s e.ctx n)).advance
    else s.setExec k (e.setG d (scapWord s e.ctx (field x 5 0))).advance

/-- SCAP.set: the cap, and CLOSED or OPEN with it (R328, R343). -/
def execScapSet (g : Guard) (d a : GReg) (s : State) : Out :=
  issue g s fun k e =>
    match s.stationOf e.ctx e.appo with
    | none => s.raise k e causeILLOP
    | some (n, _) =>
      let cap := field (e.getG a) 15 0
      let most := match s.operator e.op with
        | some o => o.stcap
        | none => 0
      if most < cap then s.raise k e causeILLOP
      else
        (s.modStation e.ctx n fun st =>
          { st with cap := cap, state := if cap = 0 then .closed else if st.state = .closed then .opened else st.state
            }).setExec k (e.setG d (scapWord s e.ctx n)).advance

/-! ### Rows and returns arrive (R329, R336) -/

namespace State

/-- The place of a row among those that reach a station in one cycle: origin cell, sequence tag, row, choice (R329). -/
def rowOrder (w : Word) : Nat :=
  ((ticketCell w * 65536 + (ticketTag w).toNat) * 64 + ticketRow w) * 2 + ticketChoice w

/-- A row may reach its station in this cycle: no row that comes after it in the order of R329 has, in this cycle. -/
def inOrder (s : State) (st : Station) (w : Word) : Bool :=
  match st.lastRow with
  | some (t, n) => t != s.clk || n < rowOrder w
  | none => true

/-- The station that a row was sent to, when it is still bound (R329). -/
def boundStation (s : State) (k : CtxId) (r : RowFlight) : Option Station :=
  match Tbl.find (s.getCtx k).stations r.station with
  | some st => if r.bound = some st.id then some st else none
  | none => none

/-- A row enters an inbox: the members of the station are told (R210, R329). -/
def inboxRow (s : State) (k : CtxId) (num : Nat) (st : Station) (ticket : Word) (v : Vec) : State :=
  (s.members k st.appo).foldl (fun s p => s.setExec p.1 { p.2 with events := p.2.events ||| 0x10 })
    (s.modStation k num fun st => { st with rows := st.rows ++ [⟨ticket, v⟩] })

/-- A row reaches its station: placed in the inbox, or answered DROP (R329). -/
def rowArrives (s : State) (k : CtxId) (num : Nat) (ticket : Word) (v : Vec) : State :=
  match Tbl.find (s.getCtx k).stations num with
  | some st =>
    let s := s.modStation k num fun st => { st with lastRow := some (s.clk, rowOrder ticket) }
    if st.state ≠ .closed && st.rows.length < st.cap then s.inboxRow k num st ticket v
    else s.sendRet k st.cell ticket none
  | none => s.sendRet k (ticketCell ticket) ticket none

end State

/-- The elements of a row in flight, once the chunk of them has landed (R282). -/
def State.rowVec (s : State) (r : RowFlight) : Option Vec :=
  match r.vec with
  | some v => some v
  | none =>
    let cell := State.ticketCell r.ticket
    let n := match ticketFmt r.ticket with
      | some f => elemBytes f
      | none => 4
    let t := (s.getCell cell).getTile r.tile
    if s.rowTrails cell t r.src n then none else some (tileRow (s.getCell cell) t r.src n)

namespace State

/-- A row and those that the same route sends after it leave n cycles later. -/
def delayRows (s : State) (k : CtxId) (r : RowFlight) (n : Word) : State :=
  let after (x : RowFlight) : Bool := r.id ≤ x.id && x.bound.isNone && ticketCell x.ticket == ticketCell r.ticket &&
    ticketTag x.ticket == ticketTag r.ticket
  s.modCtx k fun c => { c with rowsIn := c.rowsIn.map fun x => if after x then { x with due := x.due + n } else x }

/-- A row whose cycle has come leaves: with its elements and the binding that its number has, or answered DROP by the
route engine when no station has the number (R282, R329). One whose chunk has still to land waits, and those behind it
too, one to leave in each cycle (R282, R334). A row whose entry is over does not leave (R134). -/
def departRow (s : State) (k : CtxId) (r : RowFlight) : State :=
  let t := s.modCtx k fun c => { c with rowsIn := c.rowsIn.filter fun x => x.id != r.id }
  let x := s.getRat (ticketCell r.ticket) (ticketEntry r.ticket)
  if x.state ≠ .opened ∨ x.ctx ≠ k ∨ x.tag ≠ ticketTag r.ticket then t
  else match s.rowVec r with
    | none => s.delayRows k r (s.clk + 1 - r.due)
    | some v =>
      match Tbl.find (s.getCtx k).stations r.station with
      | some st => s.modCtx k fun c => { c with rowsIn := c.rowsIn.map fun x =>
          if x.id = r.id then { x with bound := some st.id, dst := st.cell, vec := some v } else x }
      | none => t.sendRet k (ticketCell r.ticket) r.ticket none

/-- The rows of a context that leave by this cycle: their cycle has come. -/
def departing (s : State) (k : CtxId) : List RowFlight :=
  (s.getCtx k).rowsIn.filter fun r => r.bound.isNone && r.due ≤ s.clk

/-- Rows leave as their cycles come, before anything else moves, but for those that a row before them has delayed
(R329, R334). -/
def departRows (s : State) : State :=
  ([0, 1, 2, 3] : List CtxId).foldl (fun s k => (s.departing k).foldl (fun s r =>
    if (s.departing k).any fun x => x.id == r.id then s.departRow k r else s) s) s

/-- A row to a station that an eviction keeps arrives as a pending event; one whose station is gone is answered DROP
(R113, R329). -/
def noteRow (s : State) (k : CtxId) (r : RowFlight) (v : Vec) : State :=
  let t := s.modCtx k fun c => { c with rowsIn := c.rowsIn.filter fun x => x.id != r.id }
  match (if r.bound.isNone then Tbl.find (s.getCtx k).stations r.station else s.boundStation k r) with
  | some st => t.noteEvent k 8 st.cell (t.eventOffset k) (leBytes 8 r.ticket.toNat ++ vecBytes v)
  | none => t.sendRet k (if r.bound.isNone then ticketCell r.ticket else r.dst) r.ticket none

/-- A row that left its cell earlier for the same gallery is still on its way: what crosses a bridge in one stream keeps
its order (R386). -/
def rowHeld (s : State) (k : CtxId) (r : RowFlight) (gal : Nat) : Bool :=
  galOf (ticketCell r.ticket) != gal && (s.getCtx k).rowsIn.any fun x =>
    x.vec.isSome && ticketCell x.ticket == ticketCell r.ticket && x.due < r.due &&
      galOf x.dst == gal

/-- A return that left the same cell for the same cell of another gallery earlier is still on its way (R386). -/
def retHeld (s : State) (k : CtxId) (r : RetFlight) : Bool :=
  galOf r.src != galOf (ticketCell r.ticket) && (s.getCtx k).rets.any fun x =>
    x.id < r.id && x.src == r.src && ticketCell x.ticket == ticketCell r.ticket

/-- The member that routed the row of a ticket, while it stands (R336, R339). -/
def origin (s : State) (k : CtxId) (ticket : Word) : Option (Nat × Exec) :=
  s.execs.find? fun p => p.1 / 256 == ticketCell ticket && p.2.ctx = k && p.2.tags.contains (ticketTag ticket)

end State

/-- STATION_ROW_ARRIVE: row id of a context, which has left, reaches its station, over bridges that carry traffic; rows
of one cycle come in the order of R329, and one that finds its station gone is answered DROP from
the cell to which it came. While its context is
EVICTING it becomes a pending event of a station that stays in the image (R113, R329). With `bad` its flit held an
error that the CRC let pass: the station's redex faults ECC (R388). -/
def execStationRowArrive (s : State) : Out :=
  let k := s.arg.ctx
  match (s.getCtx k).rowsIn.find? fun r => r.id == s.arg.id with
  | none => .next s
  | some r =>
    match r.vec with
    | none => .next s
    | some v =>
      let t := s.modCtx k fun c => { c with rowsIn := c.rowsIn.filter fun x => x.id != r.id }
      if !s.joined (galOf (State.ticketCell r.ticket)) (galOf r.dst) || s.rowHeld k r (galOf r.dst) then .next s
      else match s.boundStation k r with
      | none => .next (t.sendRet k r.dst r.ticket none)
      | some st =>
        if s.arg.bad then
          match s.members k st.appo with
          | (key, e) :: _ => .next (t.eccFault key e)
          | [] => .next (t.sendRet k st.cell r.ticket none)
        else if (s.getCtx k).state = .evicting then .next (if s.keptRedex k st.appo then s.noteRow k r v else s)
        else if s.inOrder st r.ticket then .next (t.rowArrives k r.station r.ticket v)
        else .next s

namespace State

/-- A late return: counted for the member that routed, or in telemetry when it no longer exists (R336, R339). -/
def lateReturn (s : State) (k : CtxId) (ticket : Word) : State :=
  let cell := ticketCell ticket
  let tag := ticketTag ticket
  match s.origin k ticket with
  | none => s.count telLate 1
  | some (key, e) =>
    let n := min 255 (field e.ratst 63 56 + 1)
    let s := s.setExec key
      { e with ratst := (e.ratst &&& 0x00FFFFFFFFFFFFFF) ||| BitVec.ofNat 64 (n * 2 ^ 56) }
    let r := s.getRat cell (ticketEntry ticket)
    if r.state ≠ .free && r.tag = tag then s.setRat cell (ticketEntry ticket) { r with late := min 255 (r.late + 1) }
    else s

/-- An entry's timeout is over: TMO cc after its issue have passed, and the returns of that cycle with them (R336). -/
def overdue (s : State) (r : Rat) : Bool := r.state == .opened && r.tmo != 0 && r.issued.toNat + r.tmo < s.clk.toNat

/-- An OPEN entry whose timeout is over has lost its missing choices. -/
def timedOut (s : State) (cell i : Nat) : State :=
  let r := s.getRat cell i
  if s.overdue r && r.missing != 0 then s.setRat cell i r.dropMissing else s

/-- A return or DROP is accepted, or is late (R336). -/
def retAccept (s : State) (k : CtxId) (ticket : Word) (v : Option Vec) : State :=
  let cell := ticketCell ticket
  let i := ticketEntry ticket
  let r := s.getRat cell i
  if r.state = .opened && r.ctx = k && r.tag = ticketTag ticket &&
      (r.choice (ticketRow ticket) (ticketChoice ticket)).isMissing then
    let r := r.setChoice (ticketRow ticket) (ticketChoice ticket) (Choice.take v)
    s.setRat cell i { r with drops := if v.isNone then r.drops + 1 else r.drops }
  else s.lateReturn k ticket

/-- A return or DROP reaches its origin's cooper (R336). -/
def retArrives (s : State) (k : CtxId) (ticket : Word) (v : Option Vec) : State :=
  (s.timedOut (ticketCell ticket) (ticketEntry ticket)).retAccept k ticket v

/-- A return to a member that an eviction keeps arrives as a pending event, and is otherwise late (R113, R336). -/
def noteReturn (s : State) (k : CtxId) (r : RetFlight) : State :=
  let s := s.modCtx k fun c => { c with rets := c.rets.filter fun x => x.id != r.id }
  let cell := ticketCell r.ticket
  let x := s.getRat cell (ticketEntry r.ticket)
  if x.state = .opened && x.ctx = k && x.tag = ticketTag r.ticket && !s.overdue x then
    let tag := ticketEntry r.ticket * 2 ^ 43 + ticketRow r.ticket * 2 ^ 37 + ticketChoice r.ticket * 2 ^ 36
      + r.vec.isNone.toNat * 2 ^ 35 + s.eventOffset k
    s.noteEvent k 7 cell tag (vecBytes (r.vec.getD zeroVec))
  else s.lateReturn k r.ticket

end State

/-- ROUTE_RETURN: return id of a context reaches its origin (R336), over bridges that carry traffic and after those that
left its cell before it (R384, R386). While its context is EVICTING it becomes a pending event of a member that stays in
the image (R113). With `bad` its flit held an error that the CRC let pass: the redex that routed faults ECC (R388). -/
def execRouteReturn (s : State) : Out :=
  let k := s.arg.ctx
  match (s.getCtx k).rets.find? fun r => r.id == s.arg.id with
  | none => .next s
  | some r =>
    let gone := s.modCtx k fun c => { c with rets := c.rets.filter fun x => x.id != r.id }
    if !s.joined (galOf r.src) (galOf (State.ticketCell r.ticket)) || s.retHeld k r then .next s
    else if s.arg.bad then
      match s.origin k r.ticket with
      | some (key, e) => .next (gone.eccFault key e)
      | none => .next gone
    else if (s.getCtx k).state = .evicting then
      let x := s.getRat (State.ticketCell r.ticket) (ticketEntry r.ticket)
      .next (if x.state == .free || x.ctx != k || s.keptRedex k x.owner then s.noteReturn k r else s)
    else .next (gone.retArrives k r.ticket r.vec)

/-- RAT_TIMEOUT: entry id of a cell that is still OPEN when the cycle TMO cc after its issue is over completes with
TIMEOUT: the returns of that cycle still count (R336). -/
def execRatTimeout (s : State) : Out := .next (s.timedOut s.arg.cell.val s.arg.id)

end Sys2Proof.Machine
end

