-- ==== Sys2Proof/Machine/Barriers.lean ====
section
/-! DEFINITION. Barriers and the straggler record: the control block and its records, BARJ, BARW, BARQ, completion, and
the flits of fabric barriers (R346 to R356). -/

namespace Sys2Proof.Machine

/-! ### The control block and the records (R347, R348) -/

namespace State

/-- A word written at its home slice under a page's policy (R311). -/
def putWord (s : State) (direct : Bool) (pa : Nat) (x : Word) : State :=
  if direct then s.storeDirect pa (leBytes 8 x.toNat) else s.storeWord pa x

/-- Word i of a control block or descriptor, as its bytes stand. -/
def unitWord (s : State) (pa i : Nat) : Word := s.loadWord (pa + 8 * i)

/-- The bits of word i of a control block that are not reserved (R347). -/
def barMask (i : Nat) : Word :=
  match i with
  | 0 => 0xE0001FFFFFFFFFFF
  | 1 => 0x00001FFFFFFFFFFF
  | 2 | 3 => 0xFFFFFFFFFFFFFFFF
  | 4 => 0x0000FFFFFFFFFFFF
  | 5 => 0x0FFFFF7FFFFFFFFF
  | 6 => 0x0000000000000FFF
  | _ => 0

/-- The bits of a record that are not reserved (R348). -/
def recMask : Word := 0xFFFFFFFF01FFFFFF

/-- Word i of a control block: reserved bits read as zero, and what the unit writes back discards them (R7, R347). -/
def barWord (s : State) (pa i : Nat) : Word := s.unitWord pa i &&& barMask i

/-- A record: reserved bits read as zero (R7, R348). -/
def recWord (s : State) (at' : Nat) : Word := s.loadWord at' &&& recMask

/-- The bits of word i of a descriptor that are not reserved (R359). -/
def rngMask (i : Nat) : Word :=
  match i with
  | 0 => 0xF000FFFF00FF1FFF
  | 1 | 5 => 0xFFFFFFFFFFFFFFFF
  | 2 => 0x00000000FFFFFFFF
  | 3 => 0x0000FFFFFFFFFFFF
  | 4 => 0x0FFFFF7FFFFFFFFF
  | _ => 0

/-- Word i of a descriptor: reserved bits read as zero, and what the unit writes back discards them (R7, R359). -/
def rngWord (s : State) (pa i : Nat) : Word := s.unitWord pa i &&& rngMask i

end State

def barValid (w0 : Word) : Bool := w0.getLsbD 63
def barScope (w0 : Word) : Nat := field w0 62 61
def barMembers (w0 : Word) : Nat := field w0 44 32
def barNsteal (w0 : Word) : Nat := field w0 31 24
def barTlag (w0 : Word) : Nat := field w0 23 0
def barArrived (w1 : Word) : Nat := field w1 44 32
def barGen (w1 : Word) : BitVec 32 := w1.setWidth 32

/-- Where member m's record stands (R346). -/
def recordAt (pa m : Nat) : Nat := pa + 64 + 8 * m

/-- IN of a record. -/
def recIn (r : Word) : Bool := r.getLsbD 24

/-- The check of a block: VALID, its scope, and MEMBERS in range for it (R351). -/
def blockOk (w0 : Word) (scopes : List Nat) : Bool :=
  barValid w0 && scopes.contains (barScope w0) && 1 ≤ barMembers w0 &&
    barMembers w0 ≤ (if barScope w0 = 2 then 4096 else 64)

/-- A record after a completion (R353): off is the offset of the member's arrival. -/
def recAfter (r : Word) (off : Nat) (last : Bool) (tlag nsteal : Nat) : Word :=
  let avg : Int := field r 55 32
  let o : Int := min off 0xFFFF * 256
  let avg' := (avg + (o - avg) / 8).toNat
  let lag := if last && tlag < off then min (field r 62 56 + 1) 127 else 0
  let steal := if off ≤ tlag then false else if nsteal ≠ 0 && nsteal ≤ lag then true else r.getLsbD 63
  BitVec.ofNat 64 (steal.toNat * 2 ^ 63 + lag * 2 ^ 56 + avg' * 2 ^ 32 + off)

/-- The offset of an arrival, saturating (R348, R353). -/
def arrivalOff (t first : Word) : Nat := min (t - first).toNat 0xFFFFFF

/-- The stealable bit in a descriptor's word 0 (R359). -/
def setStbl (w : Word) (b : Bool) : Word := if b then w ||| (1 <<< 62) else w &&& ~~~(1 <<< 62 : Word)

namespace State

/-- The range bound to a member takes the member's STEAL bit; where its page does not serve a write, the bit stays
(R353). -/
def bindRange (s : State) (ctx : CtxId) (ranges : Word) (m : Nat) (steal : Bool) : State :=
  let base := field ranges 47 0
  if base = 0 then s
  else match s.access ctx (base + 64 * m) .system true with
    | .at pa direct => s.putWord direct pa (setStbl (s.rngWord pa 0) steal)
    | _ => s

/-- Completion of a generation (R353): every record, its range's bit, then GEN, ARRIVED and MASK. -/
def complete (s : State) (pa : Nat) (direct : Bool) (last : Nat) (ctx : CtxId) : State :=
  let w0 := s.barWord pa 0
  let first := s.barWord pa 2
  let ranges := s.barWord pa 4
  let s := (List.range (barMembers w0)).foldl (fun s m =>
    let at' := recordAt pa m
    let t := (Tbl.get {} s.mem.arrivals (at' / 8)).time
    let r := recAfter (s.recWord at') (arrivalOff t first) (m = last) (barTlag w0) (barNsteal w0)
    (s.putWord direct at' r).bindRange ctx ranges m (r.getLsbD 63)) s
  let w1 := s.barWord pa 1
  (s.putWord direct (pa + 8) ((w1 &&& 0xFFFFE00000000000) ||| (barGen w1 + 1).setWidth 64)).putWord direct (pa + 24) 0

/-- An arrival that its record's IN bit does not hold back, as it stands before any completion (R352). -/
def arrive (s : State) (pa : Nat) (direct : Bool) (m : Nat) (ctx : CtxId) (a : Arrival) : State :=
  let w1 := s.barWord pa 1
  let rec' := s.recWord (recordAt pa m)
  let s := if barArrived w1 = 0 then s.putWord direct (pa + 16) s.clk else s
  let s := s.putWord direct (recordAt pa m) (rec' ||| (1 <<< 24))
  let w1' := (w1 &&& ~~~(0x1FFF <<< 32 : Word)) ||| (BitVec.ofNat 64 ((barArrived w1 + 1) % 2 ^ 13) <<< 32)
  let s := s.putWord direct (pa + 8) w1'
  let s := if m < 64 then s.putWord direct (pa + 24) (s.barWord pa 3 ||| (1 <<< m)) else s
  { s with mem := { s.mem with
      arrivals := Tbl.put {} s.mem.arrivals (recordAt pa m / 8) a
      lastArr := Tbl.set s.mem.lastArr (pa / 64) (m, ctx) } }

/-- A member of a higher number has arrived at the block in this cycle: arrivals of one cycle are taken in ascending m,
so that of a lower member comes in a later one (R352, R358). -/
def arrivedAbove (s : State) (pa m : Nat) : Bool :=
  match Tbl.find s.mem.lastArr (pa / 64) with
  | some (n, _) => m < n && (Tbl.find s.mem.arrivals (recordAt pa n / 8)).any fun a => a.time == s.clk
  | none => false

/-- Every member has arrived. -/
def allArrived (s : State) (pa : Nat) : Bool := barArrived (s.barWord pa 1) == barMembers (s.barWord pa 0)

/-- The part's arrival sets out for the home block (R356); the flit's payload is the model's (DESIGN CHOICE, log 22). -/
def sendArrival (s : State) (pa : Nat) : State :=
  let w5 := s.barWord pa 5
  s.fabSend 2 Flit.tArrive (w5.extractLsb' 42 18) (w5 &&& 0x3FFFFFFFFFF)
    [BitVec.ofNat 64 (field (s.barWord pa 6) 11 0), BitVec.ofNat 64 pa]
    { num := 0, dst := 0, vc := 2, words := [], gal := some (s.galAt pa) }

/-- What the last arrival of a local block brings about: completion, or the part's arrival at the home (R352, R356). -/
def afterArrival (s : State) (pa : Nat) (direct : Bool) (m : Nat) (ctx : CtxId) : State :=
  if s.allArrived pa then
    if barScope (s.barWord pa 0) = 1 then s.sendArrival pa else s.complete pa direct m ctx
  else s

/-- No earlier access of a member to a block waits to be accepted (R307). -/
def blockQuiet (s : State) (k : Nat) (pa : Nat) : Bool := !(s.openAccs k).any fun a => a.pa / 64 == pa / 64

/-- A SYNC instruction's address: the checks of R351 and R361 before the block's words, and then its effect, at the
unit of the block's home slice, once the bridges to it carry traffic (R313, R384). -/
def syncAddr (s : State) (k : Nat) (e : Exec) (va : Word) (write : Bool) (body : State → Nat → Bool → State) : State :=
  if !s.opNR e.op then s.raise k e causePAGE (some va)
  else if 2 ^ 48 ≤ va.toNat then s.raise k e causePAGE (some va)
  else if va.toNat % 64 ≠ 0 then s.raise k e causeILLOP
  else s.memAccess k e va .system write fun s pa direct =>
    if s.joined (galOf (k / 256)) (s.galAt pa) then body s pa direct else s

end State

/-- BARJ (R325, R351, R352): it waits for the member's earlier accesses and firings; a member that has arrived parks
until the generation ends. -/
def execBarj (g : Guard) (d a b : GReg) (s : State) : Out :=
  issue g s fun k e =>
    if !(s.openAccs k).isEmpty || s.firingsOut k e .package then s
    else s.syncAddr k e (e.getG a) true fun s pa direct =>
      let w0 := s.barWord pa 0
      let m := (e.getG b).toNat
      if !blockOk w0 [0, 1] then s.raise k e causeILLOP
      else if barMembers w0 ≤ m then s.raise k e causeXCTX
      else if barScope w0 = 1 && s.firingsOut k e .fabric then s
      else if s.arrivedAbove pa m then s
      else
        let gen := barGen (s.barWord pa 1)
        if recIn (s.recWord (recordAt pa m)) then s.parkIdle k e (.barrier pa gen true)
        else
          let s := s.arrive pa direct m e.ctx { time := s.clk }
          (s.afterArrival pa direct m e.ctx).setExec k (e.setG d (gen.setWidth 64)).advance

/-- BARW (R351, R354). -/
def execBarw (g : Guard) (a b : GReg) (s : State) : Out :=
  issue g s fun k e =>
    if e.met then s.finishWait k e
    else s.syncAddr k e (e.getG a) false fun s pa _ =>
      if !s.blockQuiet k pa then s
      else if !blockOk (s.barWord pa 0) [0, 1] then s.raise k e causeILLOP
      else
        let gen : BitVec 32 := (e.getG b).setWidth 32
        if State.genDone (barGen (s.barWord pa 1)) gen then s.setExec k e.advance
        else s.parkIdle k e (.barrier pa gen false)

/-- BARQ: a relaxed load of a record or of a control word (R351, R355). -/
def execBarq (g : Guard) (d a b : GReg) (s : State) : Out :=
  issue g s fun k e =>
    s.syncAddr k e (e.getG a) false fun s pa direct =>
      let x := e.getG b
      let w0 := s.barWord pa 0
      if !blockOk w0 [0, 1, 2] then s.raise k e causeILLOP
      else if !x.getLsbD 63 && barMembers w0 ≤ field x 12 0 then s.raise k e causeXCTX
      else
        let at' := if x.getLsbD 63 then pa + 8 * field x 2 0 else recordAt pa (field x 12 0)
        let acc : Access := { id := s.nextId, ctx := e.ctx, cell := k / 256, entry := k % 256, kind := .load, pa := at'
                              wide := true, keep := if x.getLsbD 63 then State.barMask (field x 2 0) else State.recMask
                              dest := some d, direct := direct }
        let t := s.fresh
        ({ t with mem := { t.mem with accs := t.mem.accs ++ [acc] } }).setExec k e.advance

/-! ### Fabric barriers (R356) -/

/-- The context and the virtual address that a flit's target names: a chunk of a remote part's system space (R284). -/
def targetCtx (f : FlitWords) : CtxId := ⟨Flit.tgtCtx f % 4, Nat.mod_lt _ (by decide)⟩

def targetVa (f : FlitWords) : Nat := 512 * Flit.tgtChunk f

namespace State

/-- The release sets out for every part whose arrival a home block holds (R356). -/
def sendReleases (s : State) (pa : Nat) (arrivals : List Arrival) (gen : BitVec 32) : State :=
  arrivals.foldl (fun s a => s.fabSend 2 Flit.tRelease a.src 0 [a.block, gen.setWidth 64]
    { num := 0, dst := 0, vc := 2, words := [], gal := some (s.galAt pa) }) s

/-- The arrivals that a home block's members made. -/
def homeArrivals (s : State) (pa : Nat) : List Arrival :=
  (List.range (barMembers (s.barWord pa 0))).map fun m => Tbl.get {} s.mem.arrivals (recordAt pa m / 8)

/-- An arrival at a home block: taken by R352 at the home unit's CLK, and the release when it is the last (R356). -/
def homeArrive (s : State) (pa : Nat) (direct : Bool) (m : Nat) (f : FlitWords) : State :=
  let gen := barGen (s.barWord pa 1)
  let s := s.arrive pa direct m (targetCtx f)
    { time := s.clk, src := BitVec.ofNat 18 (Flit.src f), block := Flit.pay f 1 }
  if s.allArrived pa then
    let l := s.homeArrivals pa
    (s.complete pa direct m (targetCtx f)).sendReleases pa l gen
  else s

end State

/-- An arrival flit that need not wait: its page is there, or has not been tried since the WAKE of its entry, its member
has not arrived yet, and bridges to the block carry traffic (R352, R356, R375, R384). -/
def State.arrivalReady (s : State) (f : FlitWords) : Bool :=
  !s.flitStalled f &&
  match s.access (targetCtx f) (targetVa f) .system true with
  | .missing => s.keepsFaults (targetCtx f)
  | .fault _ => true
  | .at pa _ =>
    let m := (Flit.pay f 0).toNat % 4096
    s.portJoined f pa && (!blockOk (s.barWord pa 0) [2] || barMembers (s.barWord pa 0) ≤ m ||
      (!recIn (s.recWord (recordAt pa m)) && !s.arrivedAbove pa m))

/-- BARRIER_ARRIVAL_FLIT: the oldest arrival flit is taken at its home block. One whose member has already arrived
waits, and the next is taken; one whose page is missing waits for WAKE (R375); one that names no home block of this
part is taken without effect (R352, R356, DEDUCED, log 26). -/
def execBarrierArrivalFlit (s : State) : Out :=
  match s.fabReady Flit.tArrive s.arrivalReady with
  | none => .next s
  | some f =>
    match s.access (targetCtx f) (targetVa f) .system true with
    | .missing => .next (s.stallFlit f (targetCtx f) (targetVa f) State.fqWrite)
    | .fault _ => .next ((s.fabDone f).fabAck f none)
    | .at pa direct =>
      let m := (Flit.pay f 0).toNat % 4096
      if !blockOk (s.barWord pa 0) [2] || barMembers (s.barWord pa 0) ≤ m then
        .next ((s.fabDone f).fabAck f (some (s.galAt pa)))
      else if recIn (s.recWord (recordAt pa m)) || s.arrivedAbove pa m then .next s
      else .next (((s.fabDone f).homeArrive pa direct m f).fabAck f (some (s.galAt pa)))

/-- A release flit names its local block by its physical address (R356, DESIGN CHOICE, log 22). -/
def releaseBlock (f : FlitWords) : Nat := (Flit.pay f 0).toNat % 2 ^ 40 / 64 * 64

/-- BARRIER_RELEASE_FLIT: the oldest release makes the local block complete its generation with its own arrivals, once
bridges to it carry traffic (R353, R356, R384). -/
def execBarrierReleaseFlit (s : State) : Out :=
  match s.fabReady Flit.tRelease fun f => s.portJoined f (releaseBlock f) with
  | none => .next s
  | some f =>
    let pa := releaseBlock f
    let w0 := s.barWord pa 0
    let s := (s.fabDone f).fabAck f (some (s.galAt pa))
    if blockOk w0 [1] && s.allArrived pa && barGen (s.barWord pa 1) == (Flit.pay f 1).setWidth 32 then
      match Tbl.find s.mem.lastArr (pa / 64) with
      | some (m, ctx) => .next (s.complete pa false m ctx)
      | none => .next s
    else .next s

end Sys2Proof.Machine
end

