-- ==== Sys2Proof/Machine/Layout.lean ====
section
/-! DEFINITION. Segments, their layout, gang widening, admission, reservations and the sump's chunks (R141 to R164). -/

namespace Sys2Proof.Machine

/-! ### Walls and segments (R141 to R143) -/

/-- The positions of the row (R141). -/
def rowEnd : Nat := 32768

/-- A run of positions: its first, and the one after its last. -/
abbrev Seg := Nat × Nat

/-- A redex with its position. -/
abbrev RedexAt := Nat × Redex

/-- An active redex (R120), and one whose execution has been discarded and that is still to be replayed or rewritten to
BOT: its span is frozen, so that a replay finds its slots, its cells and its annotations as they were (R79, R93, R135,
R192; DEDUCED, log 50). -/
def Redex.active (r : Redex) : Bool :=
  match r.state with
  | .loading | .running | .halted | .commitPending | .discarded => true
  | .innermost => r.replayed

/-- A redex that is at work or has a result that no COMMIT has collected (R158). -/
def Redex.busy (r : Redex) : Bool :=
  match r.state with
  | .loading | .running | .halted => true
  | .commitPending | .innermost | .discarded => false

/-- The wall of a redex (R142): the positions of its APPO and its APPC. -/
def wallOf (p : RedexAt) : Nat × Nat := (p.1, p.2.appc)

/-- The runs from a position to an end that lie in no wall of a list in row order (R143). -/
def segments (hi : Nat) : Nat → List (Nat × Nat) → List Seg
  | lo, [] => if lo < hi then [(lo, hi)] else []
  | lo, (a, b) :: ws => (if lo < a then [(lo, a)] else []) ++ segments hi (b + 1) ws

def Seg.has (g : Seg) (p : Nat) : Bool := g.1 ≤ p && p < g.2

/-! ### Capacity and layout (R145) -/

/-- Cap of the positions from lo to hi under SPREAD(S), and PACK for S = 0 (R145). -/
def capacity (sp : Nat) (g : Seg) : Nat :=
  (List.range ((g.2 + 15) / 16 - g.1 / 16)).foldl (fun n i =>
    let c := g.1 / 16 + i
    n + (min g.2 (16 * c + 16) - max g.1 (16 * c) - sp)) 0

/-- A position of a segment takes a symbol: it is among the first p_c − S of its cell (R145). -/
def usable (sp : Nat) (g : Seg) (p : Nat) : Bool :=
  g.has p && p + sp < min g.2 (16 * (p / 16) + 16)

/-- The first position at or after np that takes a symbol. -/
def nextUsable (sp : Nat) (g : Seg) (np : Nat) : Option Nat :=
  if usable sp g np then some np
  else if usable sp g (16 * (np / 16 + 1)) then some (16 * (np / 16 + 1))
  else none

/-- The positions that n symbols take from np on, unwidened. -/
def plainFrom (sp : Nat) (g : Seg) : Nat → Nat → List Nat
  | _, 0 => []
  | np, n + 1 => match nextUsable sp g np with
    | some p => p :: plainFrom sp g (p + 1) n
    | none => []

/-- A symbol of a segment to be placed: where it stands, if it stands in the row, and its word. -/
abbrev Item := Option Nat × Word

/-- From just after an APPO: how many symbols on its APPC stands, when no APPO, APPC or MARK comes first (R126). -/
def appcAfter : List Word → Option Nat
  | [] => none
  | w :: ws =>
    if symTag w = tagAPPC then some 1
    else if symTag w = tagAPPO ∨ symTag w = tagMARK then none
    else (appcAfter ws).map (· + 1)

/-- A symbol's length and gang when it opens a gang candidate (R163): the words from it on, and the positions that the
unwidened layout gives them. -/
def candidate (gang : List Word → Nat) (ws : List Word) (ps : List Nat) : Option (Nat × Nat) :=
  match ws with
  | [] => none
  | w :: r =>
    if symTag w ≠ tagAPPO then none
    else match appcAfter r with
      | none => none
      | some n =>
        let g := gang ws
        if 1 < g && ps.getD n 0 / 16 - ps.getD 0 0 / 16 + 1 < g then some (n + 1, g) else none

/-- The items of a segment placed from np on (R145, R164), each with its unwidened position. Inside a widened
application, `wide` gives its first cell, how many of its symbols stand, its length and its cells. -/
def place (sp : Nat) (g : Seg) (gang : List Word → Nat) :
    Nat → Option (Nat × Nat × Nat × Nat) → List (Item × Nat) → List (Nat × Item)
  | _, _, [] => []
  | np, some (c, i, l, w), (x, _) :: r =>
    if i + 1 = l then (16 * (c + w - 1), x) :: place sp g gang (16 * (c + w)) none r
    else (16 * (c + i), x) :: place sp g gang np (some (c, i + 1, l, w)) r
  | np, none, (x, pp) :: r =>
    let plain : List (Nat × Item) := match nextUsable sp g np with
      | some p => (p, x) :: place sp g gang (p + 1) none r
      | none => []
    match candidate gang (x.2 :: r.map fun y => y.1.2) (pp :: r.map Prod.snd) with
    | none => plain
    | some (l, k) =>
      let w := max l k
      let c := (np + 15) / 16
      if 16 * (c + w) ≤ g.2 && r.length + 1 - l ≤ capacity sp (16 * (c + w), g.2) then
        (16 * c, x) :: place sp g gang np (some (c, 1, l, w)) r
      else plain

/-- The layout of a segment that has room for its items. -/
def layout (sp : Nat) (g : Seg) (gang : List Word → Nat) (xs : List Item) : List (Nat × Item) :=
  place sp g gang g.1 none (xs.zip (plainFrom sp g g.1 xs.length))

/-- The initial layout of LOAD (R24): the whole row, without widening. -/
def initialLayout (sp : Nat) (ws : List Word) : Tbl Word :=
  (plainFrom sp (0, rowEnd) 0 ws.length).zip ws

/-! ### The gang of a function part (R163) -/

namespace State

/-- A registered operator that the table of a context holds (R67). -/
def defined (s : State) (k : CtxId) (op : BitVec 16) : Option OpImage :=
  if !isBuiltin op && (s.getCtx k).ops.contains op then s.operator op else none

/-- GANG of the operator that an application names, from its APPO on: for STATION, that of f (R163). -/
def gangOf (s : State) (k : CtxId) (ws : List Word) : Nat :=
  let gang (w : Word) (sta : Bool) : Nat :=
    if symTag w = tagOP then match s.defined k (symOp w) with
      | some o => if !sta || o.sta then o.gang else 1
      | none => 1
    else 1
  match ws with
  | _ :: f :: r =>
    if symTag f = tagFRMO then match r with
      | h :: a :: _ => if symTag h = tagOP && symOp h = 0x51 then gang a true else gang h false
      | _ => 1
    else gang f false
  | _ => 1

/-! ### Reservations (R149) -/

/-- The granted reservations of a context: first position and count. -/
def grants (c : Ctx) : List (Nat × Nat) :=
  (c.redexes.filter fun p => p.2.granted != 0).map fun p => (p.2.grantAt, p.2.granted)

/-- The positions of a segment that reservations hold. -/
def reservedIn (gs : List (Nat × Nat)) (g : Seg) : Nat :=
  gs.foldl (fun n x => if g.has x.1 then n + x.2 else n) 0

/-- A segment without its reserved positions, which stand at its ends. -/
def unreserved (gs : List (Nat × Nat)) (g : Seg) : Seg :=
  (gs.foldl (fun lo x => if x.1 = g.1 then g.1 + x.2 else lo) g.1,
   gs.foldl (fun hi x => if x.1 + x.2 = g.2 && x.1 != g.1 then x.1 else hi) g.2)

/-! ### The symbols of a segment -/

/-- The symbols of a segment in order, committed results that are still to be placed included (R123). -/
def segItems (c : Ctx) (g : Seg) : List Item :=
  (c.pockets.filter fun p => g.has p.1).flatMap fun p =>
    (some p.1, p.2) :: (Tbl.get [] c.unplaced p.1).map fun w => (none, w)

/-- The symbols of the whole row, with every committed result in its order. -/
def rowItems (c : Ctx) : List Item := segItems c (0, rowEnd)

/-- From just after an APPO: the position of its APPC, when neither an APPO nor a MARK comes first, nor a symbol that
has no place yet (R71). -/
def closingOf : List Item → Option Nat
  | [] => none
  | (none, _) :: _ => none
  | (some p, w) :: r =>
    if symTag w = tagAPPC then some p
    else if symTag w = tagAPPO ∨ symTag w = tagMARK then none
    else closingOf r

/-- The innermost applications of a row, as APPO and APPC positions (R71, R126). One that a committed result without a
place stands in is none: its symbols are not in slots that a member could read (R155). -/
def innermost : List Item → List (Nat × Nat)
  | [] => []
  | (none, _) :: r => innermost r
  | (some p, w) :: r =>
    if symTag w = tagAPPO then
      match closingOf r with
      | some q => (p, q) :: innermost r
      | none => innermost r
    else innermost r

/-! ### Admission (R147, R148) -/

/-- The n lowest-numbered free sump chunks beyond the first `skip` of them (R151). -/
def freeChunks (c : Ctx) (skip n : Nat) : List Nat :=
  (((List.range (skip + n + c.sump.length)).filter fun i => (Tbl.find c.sump i).isNone).drop skip).take n

/-- The virtual address of a chunk (R151). -/
def chunkVa (c : Ctx) (i : Nat) : Nat := field c.regs.sumpBase 47 0 + 512 * i

/-- F of R148. -/
def freeSump (c : Ctx) : Nat := c.sumpLimNow.toNat - c.sump.length

/-- A growing redex (R147). -/
def growing (r : Redex) : Bool := r.len < (result r).length && r.granted == 0

/-- The sump chunks that each TIDY segment of an admission segment needs, with some redexes taken as rewritten and
others as walls; none for one that is too small to spill (R148). -/
def chunkNeeds (c : Ctx) (g : Seg) (rewritten walls : List RedexAt) : List (Option Nat) :=
  let gs := ((c.redexes.filter fun p => p.2.granted != 0 && !rewritten.any fun q => q.1 == p.1)).map fun p =>
    (p.2.grantAt, p.2.granted)
  (segments g.2 g.1 (walls.map wallOf)).map fun t =>
    let mine := rewritten.filter fun p => Seg.has t p.1
    let n := (segItems c t).length + (mine.foldl (fun n p => n + (result p.2).length) 0)
      - mine.foldl (fun n p => n + p.2.len) 0
    let rv := reservedIn gs t
    let cap := capacity c.spreadNow.toNat t
    if n + rv ≤ cap then some 0
    else if cap < rv + 64 then none
    else some ((n + rv - cap + 62) / 63)

/-- Chunks of R148: those of a list of needs, where one that is too small to spill needs none. -/
def chunkSum (l : List (Option Nat)) : Nat := l.foldl (fun n x => n + x.getD 0) 0

/-- The sump chunks that Fits finds, or none where a TIDY segment cannot hold its symbols (R148). -/
def fitChunks (c : Ctx) (g : Seg) (rewritten walls : List RedexAt) : Option Nat :=
  let l := chunkNeeds c g rewritten walls
  if l.all Option.isSome then some (chunkSum l) else none

/-- The lowest of some chunks whose page is not mapped, or is one for whose WAKE the redex waits (R155, R375). -/
def unmappedChunk (s : State) (k : CtxId) (r : Redex) (chunks : List Nat) : Option Nat :=
  chunks.find? fun i =>
    let va := chunkVa (s.getCtx k) i
    s.access k va .sump true = .missing || r.sumpAsk == some (va / 2 ^ 16)

/-- What admission has decided so far: the chunks charged, those admitted, and those refused with their cause. -/
structure Admission where
  used     : Nat := 0
  admitted : List RedexAt := []
  refused  : List (Nat × BitVec 8) := []
  /-- Chunks in unmapped pages for which a redex is refused. -/
  missing  : List Nat := []

/-- Causes of refusal (R419). -/
def causeSPACE : BitVec 8 := 7
def causeSUMPPAGE : BitVec 8 := 8

/-- The growers of a segment tried in row order, each with those admitted to its left (R148). -/
def admitGrowers (s : State) (k : CtxId) (g : Seg) (non : List RedexAt) :
    List RedexAt → List RedexAt → List RedexAt → Admission → Admission × List RedexAt × List RedexAt
  | acc, no, [], a => (a, acc, no)
  | acc, no, x :: rest, a =>
    let c := s.getCtx k
    match fitChunks c g (non ++ acc ++ [x]) (no ++ rest) with
    | none => admitGrowers s k g non acc (no ++ [x]) rest { a with refused := (x.1, causeSPACE) :: a.refused }
    | some n =>
      if freeSump c < a.used + n then
        admitGrowers s k g non acc (no ++ [x]) rest { a with refused := (x.1, causeSPACE) :: a.refused }
      else match s.unmappedChunk k x.2 (freeChunks c a.used n) with
        | some i => admitGrowers s k g non acc (no ++ [x]) rest
            { a with refused := (x.1, causeSUMPPAGE) :: a.refused, missing := i :: a.missing }
        | none => admitGrowers s k g non (acc ++ [x]) no rest a

/-- Admission of one segment; the chunks that its spills will take are charged, whether or not it admits a grower
(R148). -/
def admitSegment (s : State) (k : CtxId) (pending : List RedexAt) (a : Admission) (g : Seg) : Admission :=
  let mine := pending.filter fun p => g.has p.1
  let non := mine.filter fun p => !growing p.2
  let (a, acc, no) := admitGrowers s k g non [] [] (mine.filter fun p => growing p.2) a
  let n := chunkSum (chunkNeeds (s.getCtx k) g (non ++ acc) no)
  { a with used := a.used + n, admitted := a.admitted ++ non ++ acc }

/-- Admission over the row (R148): every frozen span that it does not decide is a wall of it (R143). That of a
COMMIT-PENDING redex that waits for a page of its held words, a wait to which the manual gives no cause here, is one of
them, and the redex is not admitted before its page is there (DEDUCED, log 81). -/
def admission (s : State) (k : CtxId) (pending : List RedexAt) : Admission :=
  let stands (p : RedexAt) : Bool := p.2.active && !pending.any fun q => q.1 == p.1
  let walls := ((s.getCtx k).redexes.filter stands).map wallOf
  (segments rowEnd 0 walls).foldl (s.admitSegment k pending) {}

/-! ### Granting reservations (R149) -/

/-- One open request: the segment at the wall's right end, or else at its left end, has room for it or has not. -/
def grantOne (c : Ctx) (segs : List Seg) (p : RedexAt) : Ctx :=
  match p.2.resv with
  | none => c
  | some l =>
    let n := l.toNat - p.2.len
    if p.2.granted ≠ 0 || n = 0 then c
    else
      let put (t : Seg) (at' : Nat) : Ctx :=
        if (segItems c t).length + reservedIn (grants c) t + n ≤ capacity c.spreadNow.toNat t then
          { c with redexes := Tbl.set c.redexes p.1 { p.2 with granted := n, grantAt := at' } }
        else c
      match segs.find? fun t => t.1 == p.2.appc + 1 with
      | some t => put t t.1
      | none => match segs.find? fun t => t.2 == p.1 with
        | some t => put t (t.2 - n)
        | none => c

/-- The open requests in row order, after admission (R149). -/
def grantAll (s : State) (k : CtxId) : State :=
  s.modCtx k fun c =>
    let active := c.redexes.filter fun p => p.2.active
    active.foldl (fun c p => grantOne c (segments rowEnd 0 (active.map wallOf)) p) c

end State

end Sys2Proof.Machine
end

