-- ==== Sys2Proof/Machine/Ranges.lean ====
section
/-! DEFINITION. Work ranges: the descriptor, GRAB, STEAL, RNGSET and RNGQ, and the messages of ranges on other parts
(R359 to R365). The payloads of the messages are the model's (DESIGN CHOICE, log 22). -/

namespace Sys2Proof.Machine

/-! ### The descriptor (R359) -/

def rngValid (w : Word) : Bool := w.getLsbD 63
def rngStbl (w : Word) : Bool := w.getLsbD 62
def rngXfer (w : Word) : Bool := w.getLsbD 61
def rngProxy (w : Word) : Bool := w.getLsbD 60
def rngCmin (w : Word) : Nat := field w 47 32
def rngGamma (w : Word) : Nat := field w 23 16
def rngMembers (w : Word) : Nat := field w 12 0
def rngHi (w : Word) : Nat := field w 63 32
def rngNext (w : Word) : Nat := field w 31 0

/-- Word 1 of HI and NEXT, and the word that GRAB and STEAL deliver of a chunk's end and start. -/
def rngPair (hi lo : Nat) : Word := BitVec.ofNat 64 (hi % 2 ^ 32 * 2 ^ 32 + lo % 2 ^ 32)

/-- The range is set up, and CMIN, GAMMA and MEMBERS are not 0 (R361). -/
def rngOk (w : Word) : Bool := rngValid w && rngCmin w != 0 && rngGamma w != 0 && rngMembers w != 0

/-- XFER set or cleared. -/
def setXfer (w : Word) (b : Bool) : Word := if b then w ||| (1 <<< 61) else w &&& ~~~(1 <<< 61 : Word)

/-- n divided by d, rounded up. -/
def ceilDiv (n d : Nat) : Nat := (n + d - 1) / d

/-- A saturating count in a field of 16 or 32 bits. -/
def satInc (n w : Nat) : Nat := min (n + 1) (2 ^ w - 1)

namespace State

/-- A range unit's step of GRAB (R362): the state and gD, or none where the range is not fit to serve. -/
def grabStep (s : State) (pa : Nat) (direct : Bool) : Option (State × Word) :=
  let w0 := s.rngWord pa 0
  if !rngOk w0 then none
  else
    let w1 := s.rngWord pa 1
    let next := rngNext w1
    let rem := rngHi w1 - next
    if rem = 0 then some (s, 0)
    else
      let n := min (max (rngCmin w0) (ceilDiv (16 * rem) (rngGamma w0 * rngMembers w0))) rem
      let w3 := s.rngWord pa 3
      let s := s.putWord direct (pa + 8) (rngPair (rngHi w1) (next + n))
      let s := s.putWord direct (pa + 24) ((w3 &&& 0xFFFFFFFF00000000) ||| BitVec.ofNat 64 (satInc (field w3 31 0) 32))
      some (s, rngPair (next + n) next)

/-- The victim unit's step of STEAL (R363): the state and h and mid, a zero word where it fails, or none where the
victim is not fit to serve. -/
def splitStep (s : State) (pa : Nat) (direct : Bool) : Option (State × Word) :=
  let w0 := s.rngWord pa 0
  if !rngOk w0 then none
  else
    let w1 := s.rngWord pa 1
    let rem := rngHi w1 - rngNext w1
    if !rngStbl w0 || rem < 2 * rngCmin w0 then some (s, 0)
    else
      let mid := rngNext w1 + rngCmin w0 * ceilDiv (ceilDiv rem 2) (rngCmin w0)
      let w3 := s.rngWord pa 3
      let s := s.putWord direct (pa + 8) (rngPair mid (rngNext w1))
      let s := s.putWord direct (pa + 24)
        ((w3 &&& 0xFFFF0000FFFFFFFF) ||| BitVec.ofNat 64 (satInc (field w3 47 32) 16 * 2 ^ 32))
      some (s, rngPair (rngHi w1) mid)

/-- The thief unit's first test (R363): it may take a steal. -/
def thiefFree (s : State) (pa : Nat) : Bool :=
  !rngXfer (s.rngWord pa 0) && rngNext (s.rngWord pa 1) == rngHi (s.rngWord pa 1)

/-- XFER of a range. -/
def putXfer (s : State) (pa : Nat) (direct b : Bool) : State := s.putWord direct pa (setXfer (s.rngWord pa 0) b)

/-- The thief unit's last step (R363): the items that the victim gave, and XFER clear. -/
def thiefEnd (s : State) (pa : Nat) (direct : Bool) (v : Word) : State :=
  let s := if v = 0 then s
    else
      let w2 := s.rngWord pa 2
      (s.putWord direct (pa + 16) ((w2 &&& 0xFFFFFFFF00000000) ||| BitVec.ofNat 64 (rngNext v))).putWord direct (pa + 8) v
  s.putXfer pa direct false

/-- A step of RNGSET (R364). -/
def rngsetStep (s : State) (pa : Nat) (direct : Bool) (b c : Word) : State :=
  let w0 := s.rngWord pa 0
  if field c 12 0 = 0 then s.putWord direct pa (w0 &&& ~~~(1 <<< 63 : Word))
  else
    let w0' := BitVec.ofNat 64 (2 ^ 63 + (rngProxy w0).toNat * 2 ^ 60 + field c 47 32 * 2 ^ 32 + field c 23 16 * 2 ^ 16 +
      field c 12 0)
    let s := s.putWord direct (pa + 8) b
    let s := s.putWord direct (pa + 16) (b &&& 0xFFFFFFFF)
    let s := s.putWord direct (pa + 24) 0
    (s.putWord direct (pa + 40) 0).putWord direct pa w0'

/-- RNGQ's word (R364). -/
def rngqWord (s : State) (pa : Nat) : Word := if rngValid (s.rngWord pa 0) then s.rngWord pa 1 else 0

/-! ### Requests to other parts (R365) -/

/-- The operations of a range request. -/
def opGrab : Nat := 0
def opSteal : Nat := 1
def opRngset : Nat := 2
def opRngq : Nat := 3
def opSplit : Nat := 4

/-- A request sets out from a gallery for the unit of the descriptor that a word names as R284 kind 0x6. -/
def askPart (s : State) (gal : Nat) (real : Word) (op : Nat) (args : List Word) (a : Ask) : State :=
  let id := s.nextId
  let s := s.fresh
  let s := { s with fab := { s.fab with
    asks := s.fab.asks ++ [{ a with id := id, dst := real.extractLsb' 42 18, since := s.clk }] } }
  s.fabSend 2 Flit.tRangeReq (real.extractLsb' 42 18) (real &&& 0x3FFFFFFFFFF)
    ([BitVec.ofNat 64 op, BitVec.ofNat 64 id] ++ args)
    { num := 0, dst := 0, vc := 2, words := [], gal := some gal, ask := some id }

/-- A member asks another part, and waits in its instruction for the reply. -/
def askAndWait (s : State) (k : Nat) (e : Exec) (real : Word) (op : Nat) (args : List Word)
    (thief : Option (Nat × Bool)) : State :=
  (s.askPart (galOf (k / 256)) real op args { id := 0, exec := some k, thief := thief }).stall k { e with reply := none } (.reply s.nextId)

/-- A word completes on the reply to its request. -/
def finishReply (s : State) (k : Nat) (e : Exec) (d : Option GReg) : State :=
  match e.reply with
  | some (true, _) => s.raise k { e with met := false, reply := none } causeILLOP
  | some (false, v) =>
    let e := { e with reply := none }
    s.finishWait k (match d with
      | some d => e.setG d v
      | none => e)
  | none => s.finishWait k e

/-- The name of a range on this part, for a unit: the part and its physical address, marked (DESIGN CHOICE, log 22). -/
def ownName (s : State) (pa : Nat) : Word := BitVec.ofNat 64 (2 ^ 63 + pa) ||| (s.fab.fabid.setWidth 64 <<< 42)

end State

/-- A range instruction that acts as an ATOM with .ar: it issues once every earlier access has completed (R361). -/
def rangeIssue (g : Guard) (s : State) (d : Option GReg) (body : Nat → Exec → State) : Out :=
  issue g s fun k e =>
    if e.met then s.finishReply k e d
    else if !(s.openAccs k).isEmpty then s
    else body k e

/-- GRAB (R361, R362, R365). -/
def execGrab (g : Guard) (d a : GReg) (s : State) : Out :=
  rangeIssue g s (some d) fun k e =>
    s.syncAddr k e (e.getG a) true fun s pa direct =>
      let w0 := s.rngWord pa 0
      if rngProxy w0 then s.askAndWait k e (s.rngWord pa 4) State.opGrab [] none
      else if rngXfer w0 then s
      else match s.grabStep pa direct with
        | none => s.raise k e causeILLOP
        | some (s, v) => s.setExec k (e.setG d v).advance

/-- STEAL: gD holds the thief range's address at issue (R361, R363, R365). With a victim at rest the steps of both units
stand in one; a victim in TRANSFER is asked as another part's would be, and the thief is in TRANSFER meanwhile (R360).
-/
def execSteal (g : Guard) (d a : GReg) (s : State) : Out :=
  rangeIssue g s (some d) fun k e =>
    let thiefVa := e.getG d
    let victimVa := e.getG a
    if !s.opNR e.op then s.raise k e causePAGE (some victimVa)
    else if 2 ^ 48 ≤ victimVa.toNat then s.raise k e causePAGE (some victimVa)
    else if 2 ^ 48 ≤ thiefVa.toNat then s.raise k e causePAGE (some thiefVa)
    else if victimVa.toNat % 64 ≠ 0 || thiefVa.toNat % 64 ≠ 0 then s.raise k e causeILLOP
    else s.memAccess k e victimVa .system true fun s vp vd => s.memAccess k e thiefVa .system true fun s tp td =>
      if !s.joined (galOf (k / 256)) (s.galAt vp) || !s.joined (galOf (k / 256)) (s.galAt tp) then s
      else if thiefVa = victimVa then s.raise k e causeILLOP
      else
        let t0 := s.rngWord tp 0
        let v0 := s.rngWord vp 0
        if rngProxy t0 then
          let victim := if rngProxy v0 then s.rngWord vp 4 else s.ownName vp
          s.askAndWait k e (s.rngWord tp 4) State.opSteal [victim] none
        else if !rngOk t0 then s.raise k e causeILLOP
        else if !s.thiefFree tp then s.setExec k (e.setG d 0).advance
        else if rngProxy v0 then
          (s.putXfer tp td true).askAndWait k e (s.rngWord vp 4) State.opSplit [] (some (tp, td))
        else if rngXfer v0 then
          (s.putXfer tp td true).askAndWait k e (s.ownName vp) State.opSplit [s.ownName vp] (some (tp, td))
        else match s.splitStep vp vd with
          | none => s.raise k e causeILLOP
          | some (s, v) => (s.thiefEnd tp td v).setExec k (e.setG d v).advance

/-- The operands of RNGSET are out of range (R361). -/
def rngsetBad (b c : Word) : Bool :=
  field c 12 0 != 0 &&
    (rngHi b < rngNext b || field c 47 32 == 0 || field c 23 16 == 0 || 4096 < field c 12 0)

/-- RNGSET (R361, R364, R365). -/
def execRngset (g : Guard) (a b c : GReg) (s : State) : Out :=
  rangeIssue g s none fun k e =>
    s.syncAddr k e (e.getG a) true fun s pa direct =>
      let w0 := s.rngWord pa 0
      if rngsetBad (e.getG b) (e.getG c) then s.raise k e causeILLOP
      else if rngProxy w0 then s.askAndWait k e (s.rngWord pa 4) State.opRngset [e.getG b, e.getG c] none
      else if rngXfer w0 then s
      else (s.rngsetStep pa direct (e.getG b) (e.getG c)).setExec k e.advance

/-- RNGQ (R361, R364, R365): a load of word 1 that issues as an ATOM with .ar does. -/
def execRngq (g : Guard) (d a : GReg) (s : State) : Out :=
  rangeIssue g s (some d) fun k e =>
    s.syncAddr k e (e.getG a) false fun s pa _ =>
      if rngProxy (s.rngWord pa 0) then s.askAndWait k e (s.rngWord pa 4) State.opRngq [] none
      else s.setExec k (e.setG d (s.rngqWord pa)).advance

/-! ### The units answer (R365) -/

namespace State

/-- The reply of the unit of a descriptor to a request: fault, and value; a split's reply names the descriptor whose
PEND keeps the items when it is lost. -/
def sendReply (s : State) (pa : Nat) (dst : BitVec 18) (id : Nat) (fault : Bool) (v : Word) (pend : Option Nat) : State :=
  s.fabSend 2 Flit.tRangeRep dst 0 [BitVec.ofNat 64 id, BitVec.ofNat 64 fault.toNat, v]
    { num := 0, dst := 0, vc := 2, words := [], gal := some (s.galAt pa), ask := none, pend := pend }

/-- The answer of a descriptor's unit sent to the part that asked. -/
def answer (s : State) (f : FlitWords) (pa : Nat) (r : Option (State × Word)) (pend : Option Nat) : State :=
  let src := BitVec.ofNat 18 (Flit.src f)
  let id := (Flit.pay f 1).toNat
  match r with
  | none => s.sendReply pa src id true 0 none
  | some (s, v) => s.sendReply pa src id false v (if v = 0 then none else pend)

/-- The victim of a steal that another part asked for, where it is a range of this part: its context and its virtual
address. -/
def localVictim (s : State) (f : FlitWords) : Option (CtxId × Nat) :=
  let victim := Flit.pay f 2
  if !victim.getLsbD 63 && victim.extractLsb' 42 18 = s.fab.fabid then
    some (⟨field victim 41 40 % 4, Nat.mod_lt _ (by decide)⟩, 512 * field victim 38 0)
  else none

/-- The unit of a thief range serves a steal that another part asked for (R365): the victim stands at a range of this
part, or on another part, which is then asked to split, as is a range of this part in TRANSFER (R360). -/
def serveSteal (s : State) (f : FlitWords) (tp : Nat) (td : Bool) : Option State :=
  let victim := Flit.pay f 2
  let asker : Option (BitVec 18 × Nat) := some (BitVec.ofNat 18 (Flit.src f), (Flit.pay f 1).toNat)
  if !rngOk (s.rngWord tp 0) then some (s.answer f tp none none)
  else if !s.thiefFree tp then some (s.answer f tp (some (s, 0)) none)
  else match s.localVictim f with
    | some (vctx, va) =>
      match s.access vctx va .system true with
      | .missing => none
      | .fault _ => some (s.answer f tp none none)
      | .at vp vd =>
        if !s.joined (s.galAt tp) (s.galAt vp) then none
        else if rngXfer (s.rngWord vp 0) then
          some ((s.putXfer tp td true).askPart (s.galAt tp) (s.ownName vp) opSplit [s.ownName vp]
            { id := 0, thief := some (tp, td), asker := asker })
        else some (s.answer f tp ((s.splitStep vp vd).map fun p => (p.1.thiefEnd tp td p.2, p.2)) none)
    | none =>
      some ((s.putXfer tp td true).askPart (s.galAt tp) victim opSplit [victim]
        { id := 0, thief := some (tp, td), asker := asker })

/-- The descriptor that a request names: by its target, or by the physical address that this part named. -/
def askedRange (s : State) (f : FlitWords) : Access1 :=
  let n := Flit.pay f 2
  if (Flit.pay f 0).toNat = opSplit && n.getLsbD 63 then .at (field n 39 0 / 64 * 64) false
  else s.access (targetCtx f) (targetVa f) .system true

/-- The context and the address whose page a range request misses: of the range that it names, or of the victim of a
steal that the thief's unit would serve (R375). -/
def missingOf (s : State) (f : FlitWords) : Option (CtxId × Nat) :=
  match s.askedRange f with
  | .missing => some (targetCtx f, targetVa f)
  | .fault _ => none
  | .at tp _ =>
    if (Flit.pay f 0).toNat ≠ opSteal || !rngOk (s.rngWord tp 0) || !s.thiefFree tp then none
    else match s.localVictim f with
      | none => none
      | some (k, va) => match s.access k va .system true with
        | .missing => some (k, va)
        | _ => none

/-- A range unit serves a request; none while it waits. -/
def serveRange (s : State) (f : FlitWords) (pa : Nat) (direct : Bool) : Option State :=
  let op := (Flit.pay f 0).toNat
  let busy := rngXfer (s.rngWord pa 0)
  if op = opSteal then s.serveSteal f pa direct
  else if op = opRngq then some (s.answer f pa (some (s, s.rngqWord pa)) none)
  else if busy then none
  else if op = opGrab then some (s.answer f pa (s.grabStep pa direct) none)
  else if op = opSplit then some (s.answer f pa (s.splitStep pa direct) (some pa))
  else if op = opRngset then some (s.answer f pa (some (s.rngsetStep pa direct (Flit.pay f 2) (Flit.pay f 3), 0)) none)
  else some s

end State

/-- A range request that need not wait: the pages that it needs are there, or have not been tried since the WAKE of
their entry, its range is not in TRANSFER, and bridges to the range carry traffic (R360, R375, R384). -/
def State.requestReady (s : State) (f : FlitWords) : Bool :=
  !s.flitStalled f &&
  match s.missingOf f with
  | some (k, _) => s.keepsFaults k
  | none => match s.askedRange f with
    | .at pa direct => s.portJoined f pa && ((s.fabDone f).serveRange f pa direct).isSome
    | _ => true

/-- RANGE_REQUEST: the oldest range request is served by the unit of its descriptor; one that meets a range in TRANSFER
waits, and the next is served, and one that meets a missing page waits for WAKE (R360, R365, R375). -/
def execRangeRequest (s : State) : Out :=
  match s.fabReady Flit.tRangeReq s.requestReady with
  | none => .next s
  | some f =>
    match s.missingOf f with
    | some (k, va) => .next (s.stallFlit f k va (State.fqRead ||| State.fqWrite))
    | none => match s.askedRange f with
      | .missing => .next s
      | .fault _ => .next (((s.fabDone f).answer f 0 none none).fabAck f none)
      | .at pa direct =>
        match (s.fabDone f).serveRange f pa direct with
        | none => .next s
        | some t => .next (t.fabAck f (some (s.galAt pa)))

namespace State

/-- A request ends with a fault or a value: its thief range takes the items and leaves TRANSFER, and the member or the
part that asked has its answer (R363, R365). -/
def endAsk (s : State) (a : Ask) (fault : Bool) (v : Word) : State :=
  let s := { s with fab := { s.fab with asks := s.fab.asks.filter fun x => x.id != a.id } }
  let s := match a.thief with
    | some (pa, direct) => s.thiefEnd pa direct (if fault then 0 else v)
    | none => s
  let s := match a.asker with
    | some (dst, id) => s.sendReply ((a.thief.map Prod.fst).getD 0) dst id fault v none
    | none => s
  match a.exec with
  | none => s
  | some k => match s.getExec k with
    | some e => if e.wait = .reply a.id then s.setExec k { e with met := true, reply := some (fault, v) } else s
    | none => s

end State

/-- No link to the part that a request asked has been usable for 2^24 cc (R393). -/
def askLost (s : State) (a : Ask) : Bool :=
  a.dst != s.fab.fabid && !s.routable a.dst.toNat && 2 ^ 24 ≤ s.clk.toNat - a.since.toNat

/-- The gallery of the member, or of the thief range, that waits for the reply to a request. -/
def State.askGal (s : State) (a : Ask) : Option Nat :=
  (a.exec.map fun k => galOf (k / 256)).or (a.thief.map fun t => s.galAt t.1)

/-- The bridges between where a range reply came in and the member or the thief range that waits for it carry traffic
(R384). -/
def State.replyReady (s : State) (f : FlitWords) : Bool :=
  match s.fab.asks.find? fun a => a.id == (Flit.pay f 0).toNat with
  | none => true
  | some a =>
    (match a.exec with
      | some k => (s.portOf f).all fun g => s.joined g (galOf (k / 256))
      | none => true) &&
    match a.thief with
    | some (pa, _) => s.portJoined f pa
    | none => true

/-- RANGE_REPLY: the oldest range reply ends its request. With `bad`, request id is lost, no link to the part that was
asked having been usable for 2^24 cc: a steal gives nothing (R365, R393). A reply that comes after that is not
acknowledged, so that its sender, which alone still holds the items, finds it lost in its turn and keeps them in PEND
(R365). -/
def execRangeReply (s : State) : Out :=
  if s.arg.bad then
    match s.fab.asks.find? fun a => a.id == s.arg.id with
    | some a => if askLost s a then .next (s.endAsk a false 0) else .next s
    | none => .next s
  else match s.fabReady Flit.tRangeRep s.replyReady with
    | none => .next s
    | some f =>
      let t := s.fabDone f
      match t.fab.asks.find? fun a => a.id == (Flit.pay f 0).toNat with
      | some a => .next ((t.fabAck f (s.askGal a)).endAsk a (Flit.pay f 1 != 0) (Flit.pay f 2))
      | none => .next t

end Sys2Proof.Machine
end

