-- ==== Sys2Proof/Machine/Images.lean ====
section
/-! DEFINITION. What readback shows of a context (R417 to R419), and checkpoint and eviction images (R115 to R118). -/

namespace Sys2Proof.Machine

/-! ### Words by offset -/

/-- Words at rising byte offsets as a window: zero words are not listed. -/
def sparse (l : List (Nat × Word)) : Tbl Word := l.filter fun p => p.2 != 0

/-- Words one after another from a byte offset. -/
def wordsAt (off : Nat) (ws : List Word) : List (Nat × Word) :=
  ((List.range ws.length).map fun i => off + 8 * i).zip ws

/-- The vector of 32 words. -/
def vecOfWords (ws : List Word) : Vec :=
  tabulate 64 fun i => let w := ws.getD (i / 2) 0; if i % 2 = 0 then w.setWidth 32 else (w >>> 32).setWidth 32

/-! ### Executions (R418, R419) -/

/-- The state code of a member (R419). -/
def ExecStatus.code : ExecStatus → Nat
  | .loading | .queued => 0 | .live => 1 | .parked => 2 | .ready => 3 | .suspended => 4

namespace State

/-- A member of a redex waits at a barrier. -/
def atBarrier (s : State) (k : CtxId) (appo : Nat) : Bool :=
  (s.members k appo).any fun m => match m.2.wait with
    | .barrier _ _ _ => true
    | _ => false

/-- Some word of a range of the heap is held by a redex, of any context, that waits at a barrier (R325). -/
def heldAway (s : State) (pa n : Nat) : Bool :=
  ([0, 1, 2, 3] : List CtxId).any fun k => (s.getCtx k).redexes.any fun p => s.atBarrier k p.1 &&
    p.2.held.any fun h => match h.2.pa with
      | some q => pa ≤ q && q < pa + n
      | none => false

/-- A firing of the member reads a heap word that its own redex holds (R292), or one that waits at a barrier (R325). -/
def copiesHeld (s : State) (k : Nat) (e : Exec) : Bool :=
  let own (va : Nat) : Bool := match s.getRedex e.ctx e.appo with
    | some r => r.held.any fun h => h.1 / 64 == va / 512
    | none => false
  (s.getCell (k / 256)).tmpls.toArray.toList.any fun t =>
    t.owner == some (e.ctx, e.appo) && match t.firing with
      | some f => Ep.space f.src == some .heap &&
          (List.range (f.last + 1 - f.first)).any fun i =>
            let va := Ep.chunkVa f.src f.first (f.first + i)
            !f.landed.getLsbD (f.first + i) && (own va || match s.access e.ctx va .heap false with
              | .at pa _ => s.heldAway pa 512
              | _ => false)
      | none => false

/-- Of some members of a redex that send, those that wait on the full buffer of one of them. -/
def sendersStuck (s : State) (l : List (Nat × Exec)) : List (Nat × Exec) :=
  l.filter fun p => match p.2.wait with
    | .sending ids => (s.getCtx p.2.ctx).msgs.any fun m => ids.contains m.id && l.any fun d =>
        d.2.appo == m.appo && d.2.rank == m.dst && 8 ≤ d.2.recv.length
    | _ => false

/-- The members that wait to send into full buffers which only the others' TRECV would empty, as many rounds as there
are members (R172). -/
def deadSenders (s : State) : Nat → List (Nat × Exec) → List (Nat × Exec)
  | 0, l => l
  | n + 1, l => s.deadSenders n (s.sendersStuck l)

/-- The cause of a member that waits for nothing of its own: it has no save area to go to, or is not its cell's pick
(R107, R368). -/
def idleCause (s : State) (k : Nat) (e : Exec) : Nat :=
  if e.status = .live || (s.getCtx e.ctx).state != .running then 0
  else if (s.freeArea (k / 256)).isNone && e.status != .suspended && e.area.isNone then 0x0E
  else 0x0C

/-- The cause that readback names for a member (R419). One suspended while its CPFIRE or CPARM stalls is an entry as any
other (R107, R368). -/
def execCause (s : State) (k : Nat) (e : Exec) : Nat :=
  match e.wait with
  | .chunks _ _ => if s.copiesHeld k e then 0x0B else 0x10
  | .engine _ _ | .engines => if s.copiesHeld k e then 0x0B else 0x11
  | .presence pa _ => if s.heldAway (pa / 8 * 8) 8 then 0x0B else 0x12
  | .barrier _ _ _ => 0x13
  | .rat _ => 0x14
  | .ratFree => 0x0D
  | .inbox => 0x15
  | .message => 0x16
  | .sending _ =>
    let l := s.members e.ctx e.appo
    if (s.deadSenders l.length l).any fun p => p.1 == k then 0x09 else 0x16
  | .page _ _ => 0x17
  | .collective _ _ => 0x18
  | .events _ => if s.copiesHeld k e then 0x0B else 0x19
  | .yielded => 0x1A
  | .template _ => 0x0A
  | .reply _ | .walk _ => 0
  | .firing _ | .nothing => s.idleCause k e

/-- Loop state (R418). -/
def loopWord (l : LoopState) : Word :=
  word (l.active.toNat * 2 ^ 63 + field l.start 10 0 * 2 ^ 48 + field l.last 10 0 * 2 ^ 32 + l.count.toNat)

/-- The first 0x300 bytes of kinds 0x02 and 0x03 (R418). -/
def scalarWords (k : Nat) (e : Exec) : List (Nat × Word) :=
  let holder := match e.status with
    | .live => 1
    | .suspended => 4
    | _ => 0
  wordsAt 0 (0 :: e.g.toArray.toList.tail) ++ wordsAt 0x200 e.q.toArray.toList
    ++ wordsAt 0x280 (e.cnt.toArray.toList.map fun c => c.setWidth 64)
    ++ wordsAt 0x2A0 (e.loops.toArray.toList.map loopWord)
    ++ [(0x2C0, word (field e.pc 11 0 + e.events.toNat * 2 ^ 16 + holder * 2 ^ 32
        + (if holder = 0 then 0 else k % 256 * 2 ^ 40)))]

/-- The special registers of kinds 0x02 and 0x03. -/
def sregWords (s : State) (k : Nat) (e : Exec) : List (Nat × Word) :=
  wordsAt 0x300 ((List.range 18).map (s.sreg k e))

/-- Kind 0x03 (R418). -/
def execWords (s : State) (k : Nat) (e : Exec) : List (Nat × Word) :=
  scalarWords k e ++ s.sregWords k e
    ++ [(0x3C0, word (k % 256 + e.status.code * 2 ^ 8 + e.op.toNat * 2 ^ 16 + s.execCause k e * 2 ^ 32
        + e.rank * 2 ^ 48))]
    ++ wordsAt 0x1000 (e.v.toArray.toList.flatMap vecWords)
    ++ wordsAt 0x4000 (e.a.toArray.toList.flatMap fun m => m.toArray.toList.flatMap vecWords)
    ++ wordsAt 0x14000 ((List.range 64).map fun i =>
        vget 0 e.perm (4 * i + 3) ++ vget 0 e.perm (4 * i + 2) ++ vget 0 e.perm (4 * i + 1) ++ vget 0 e.perm (4 * i))

/-! ### Redexes, tiles and tables (R418) -/

/-- Every unhalted member is parked (R120). -/
def waiting (s : State) (k : CtxId) (appo : Nat) : Bool :=
  let l := s.members k appo
  !l.isEmpty && l.all fun p => p.2.status == .parked

/-- The state code of a redex (R418). -/
def redexCode (s : State) (k : CtxId) (appo : Nat) (r : Redex) : Nat :=
  match r.state with
  | .innermost => 1
  | .loading => 2
  | .running => if s.waiting k appo then 4 else 3
  | .halted => 5
  | .commitPending => 6
  | .discarded => 8

/-- The eight words of a redex (R418). -/
def redexWords (s : State) (k : CtxId) (appo : Nat) (r : Redex) : List Word :=
  [word (s.redexCode k appo r + r.op.toNat * 2 ^ 32 + appo * 2 ^ 48), word (r.last * 2 ^ 32 + r.first),
   word (r.cause.toNat * 2 ^ 48 + r.held.length), word ((r.serial.getD 0).toNat + min r.sdc 3 * 2 ^ 32),
   word (result r).length, (r.resv.getD 0).setWidth 64, 0, 0]

/-- A copy writes a tile that has been given on (R282). -/
def trail (s : State) (cell i : Nat) (t : Tile) : Bool :=
  (t.state == .matrix || t.state == .route) && (s.getCell cell).tmpls.toArray.toList.any fun x => match x.firing with
    | some f => firingWrites f i
    | none => false

/-- The first word of a tile-table entry (R273). -/
def tileWord (s : State) (cell i : Nat) (t : Tile) (ownx : Nat) : Word :=
  word (t.base * 2 ^ 48 + t.count * 2 ^ 42 + t.fmt.code.toNat * 2 ^ 37 + t.ctx.val * 2 ^ 35 + t.state.code * 2 ^ 32
    + (s.trail cell i t).toNat * 2 ^ 17 + t.pin.toNat * 2 ^ 16 + ownx)

/-- The key of the member that owns a reassembly entry. -/
def ratMember (s : State) (cell : Nat) (r : Rat) : Option Nat :=
  (s.execs.find? fun p => p.1 / 256 = cell && p.2.ctx = r.ctx && p.2.appo == r.owner).map Prod.fst

/-- The four words of a reassembly entry (R418). -/
def ratWords (s : State) (cell : Nat) (r : Rat) : List Word :=
  let own := ((s.ratMember cell r).getD 0) % 256
  let st := match r.state with
    | .free => 0
    | .opened => 1
    | .complete => 2
  [word (st + r.pass.toNat * 4 + r.timeout.toNat * 8 + r.tag.toNat * 2 ^ 16 + own * 2 ^ 40),
   word (r.tmo * 2 ^ 16 + r.tile), word (r.rows + r.cols * 2 ^ 8 + r.expected * 2 ^ 16
     + (r.expected - r.missing) % 256 * 2 ^ 24),
   word (min r.drops 127 + (if r.state = .complete then r.empty else 0) * 2 ^ 8 + min r.late 255 * 2 ^ 32)]

/-- The four words of an entry of the fault queue as the part keeps it (R418). -/
def fqWords (c : Ctx) (q : FqEntry) : List Word :=
  let seq := q.seq.getD 0
  let ph : Bool := match q.seq with
    | some n => (n.toNat - 1) / 256 % 2 == 1
    | none => c.fqWrap
  q.ring ph seq ++ [word q.seq.isSome.toNat, 0]

/-! ### The windows of readback (R417) -/

/-- A scalar set without a holder, as the registers of an execution that is none. -/
def idleExec (x : ScalarSet) (k : CtxId) : Exec :=
  { ctx := k, appo := rowEnd, rank := 0, op := 0, pc := x.pc, g := x.g, q := x.q, cnt := x.cnt, loops := x.loops
    fpcsr := x.fpcsr, rand := x.rand, mstat := x.mstat, fprog := x.fprog, fstat := x.fstat, grow := x.grow
    events := x.events, ratst := x.ratst, cpEnds := x.cpEnds }

/-- Kind 0x02: the scalar set of a context in a cell, held by its live execution or else by a suspended one, and
otherwise as its last holder left it. -/
def readScalar (s : State) (k : CtxId) (cell : Nat) : Tbl Word :=
  let of (st : ExecStatus) := s.execs.find? fun p => p.1 / 256 = cell && p.2.ctx = k && p.2.status == st
  match (of .live).or (of .suspended) with
  | some (key, e) => sparse (scalarWords key e ++ s.sregWords key e)
  | none =>
    let e := idleExec (Tbl.get {} (s.getCell cell).sets k.val) k
    sparse (scalarWords (256 * cell) e ++ s.sregWords (256 * cell) e)

/-- Kind 0x06 (R418). -/
def readTiles (s : State) (k : CtxId) (cell : Nat) : Tbl Word :=
  sparse ((s.getCell cell).tiles.flatMap fun p =>
    if p.2.ctx = k && p.2.state != .free then
      [(16 * p.1, s.tileWord cell p.1 p.2 p.2.ownx), (16 * p.1 + 8, p.2.bitmap)] else [])

/-- Kind 0x07 (R418). -/
def readRats (s : State) (k : CtxId) (cell : Nat) : Tbl Word :=
  sparse ((s.getCell cell).rat.flatMap fun p =>
    if p.2.ctx = k && p.2.state != .free then wordsAt (32 * p.1) (s.ratWords cell p.2) else [])

/-- Kind 0x08 (R418). -/
def readQueue (s : State) (k : CtxId) (cell : Nat) : Tbl Word :=
  sparse ((s.execs.filter fun p => p.1 / 256 = cell && p.2.ctx = k && p.2.status != .loading).flatMap fun p =>
    wordsAt (16 * (p.1 % 256))
      [word (2 ^ 63 + p.2.status.code * 2 ^ 60 + k.val * 2 ^ 48 + p.2.op.toNat * 2 ^ 32 + p.2.rank * 2 ^ 16 + p.2.appo),
       word (s.execCause p.1 p.2 * 2 ^ 48 + p.2.age % 2 ^ 48)])

/-- Kind 0x09: as many records as the window holds (R418). -/
def readRedexes (s : State) (k : CtxId) : Tbl Word :=
  let l := ((s.getCtx k).redexes).take 4095
  sparse ((0, word l.length) ::
    (((List.range l.length).zip l).flatMap fun p => wordsAt (0x40 + 64 * p.1) (s.redexWords k p.2.1 p.2.2)))

/-- The phase code of a context's pass (R418). -/
def phaseCode : Phase → Nat
  | .commit => 1 | .tidy => 2 | .mark => 3 | .launch => 4

/-- The words of a chunk map (R117, R418): one bit for each chunk from a first, n words. -/
def mapWords (used : List Nat) (first n : Nat) : List Word :=
  (List.range n).map fun i => word (used.foldl (fun a c =>
    if first + 64 * i ≤ c && c < first + 64 * i + 64 then a + 2 ^ (c - first - 64 * i) else a) 0)

/-- The words of a chunk map that are not zero. -/
def sparseMap (used : List Nat) (first off : Nat) : Tbl Word :=
  used.foldl (fun t c =>
    if first ≤ c && c < first + 1572864 then
      let at' := off + (c - first) / 64 * 8
      Tbl.set t at' (Tbl.get 0 t at' ||| (1 <<< ((c - first) % 64)))
    else t) []

/-- Kind 0x0A (R418). -/
def readTree (s : State) (k : CtxId) (first : Nat) : Tbl Word :=
  let c := s.getCtx k
  let (ph, rep) := match s.pass with
    | some p => if p.ctx = k then (phaseCode p.phase, p.allRepeats) else (0, 0)
    | none => (0, 0)
  let res := c.redexes.filter fun p => p.2.resv.isSome && p.2.active
  sparse (wordsAt 0 [c.passes, word (ph + rep % 256 * 2 ^ 8 + c.regs.waited.toNat * 2 ^ 48),
      word (c.regs.rth.toNat * 2 ^ 16 + c.regs.spread.toNat * 2 ^ 4), word c.sump.length, c.regs.arena]
    ++ (0x1000, word res.length) :: (((List.range res.length).zip res).map fun p =>
      let need := (p.2.2.resv.getD 0).toNat - p.2.2.len
      (0x1008 + 8 * p.1, word ((p.2.2.granted != 0 || need == 0).toNat * 2 ^ 63 + need % 2 ^ 16 * 2 ^ 32 + p.2.1))))
    ++ sparseMap (c.sump.map Prod.fst) first 0x10000

/-- The data area of the pending-event words. -/
def readEvents (c : Ctx) : Tbl Word :=
  sparse ((0, word c.events.length) :: wordsAt 8 c.events)
    ++ sparse (wordsAt 0x8000 (wordsOfBytes ((c.eventData.length + 7) / 8) c.eventData))

/-- The window of a kind and an index; none where the kind is not listed or the index is out of range (R417). -/
def readWindow (s : State) (k : CtxId) (kind index : Nat) : Option (Tbl Word) :=
  let c := s.getCtx k
  match kind with
  | 0x01 =>
    if 2048 ≤ index then none
    else some (sparse ((c.pockets.filter fun p => 16 * index ≤ p.1 && p.1 < 16 * (index + 1024)).map fun p =>
      (8 * (p.1 - 16 * index), p.2)))
  | 0x02 => if 2048 ≤ index then none else some (s.readScalar k index)
  | 0x03 =>
    let cell := index % 2048
    let ent := index / 2048
    if 256 ≤ ent then none
    else match s.getExec (256 * cell + ent) with
      | some e =>
        if e.ctx = k && (e.status == .parked || e.status == .ready || e.status == .suspended) then
          some (sparse (s.execWords (256 * cell + ent) e))
        else some []
      | none => some []
  | 0x04 => some (readEvents c)
  | 0x05 => some (sparse ((0, word c.fq.length) ::
      (((List.range c.fq.length).zip c.fq).flatMap fun p => wordsAt (0x10 + 32 * p.1) (fqWords c p.2))))
  | 0x06 => if 2048 ≤ index then none else some (s.readTiles k index)
  | 0x07 => if 2048 ≤ index then none else some (s.readRats k index)
  | 0x08 => if 2048 ≤ index then none else some (s.readQueue k index)
  | 0x09 => some (s.readRedexes k)
  | 0x0A => if index % 1572864 ≠ 0 || c.regs.sumpLim.toNat ≤ index && index ≠ 0 then none else some (s.readTree k index)
  | _ => none

end State

end Sys2Proof.Machine
end

