-- ==== Sys2Proof/Machine/SymInstr.lean ====
section
/-! DEFINITION. The SYM group: local slots and annotations, emitted symbols, and the declared result length (R137 to
R139). -/

namespace Sys2Proof.Machine

namespace State

/-- The local slots of a member: the non-FREE slots of its redex in its cell, in pocket order (R137). -/
def localSlots (s : State) (k : Nat) (e : Exec) : Row :=
  match s.getRedex e.ctx e.appo with
  | some r => (s.getCtx e.ctx).pockets.filter fun p => p.1 / 16 = k / 256 && e.appo ≤ p.1 && p.1 ≤ r.appc
  | none => []

/-- The word of a local slot; 0 past SYMCNT (R137). -/
def localWord (s : State) (k : Nat) (e : Exec) (i : Nat) : Word := ((s.localSlots k e).map Prod.snd).getD i 0

/-- The annotation of a local slot (R77, R137). -/
def localAnn (s : State) (k : Nat) (e : Exec) (i : Nat) : Word :=
  match (s.localSlots k e)[i]?, s.getRedex e.ctx e.appo with
  | some p, some r => Tbl.get 0 r.ann p.1
  | _, _ => 0xFFFFFFFF

/-- The symbols that a member has emitted so far. -/
def emitted (s : State) (e : Exec) : List Word :=
  match s.getRedex e.ctx e.appo with
  | some r => Tbl.get [] r.out e.rank
  | none => []

/-- Append(w) of R137: one held symbol, with a chunk of tile space for each 64. -/
def appendSym (s : State) (k : Nat) (e : Exec) (w : Word) : Except Cause State :=
  let n := (s.emitted e).length
  let put (s : State) (ch : List Nat) : State :=
    (s.modCell (k / 256) fun c => { c with taken := ch ++ c.taken }).modRedex e.ctx e.appo fun r =>
      { r with
        out := Tbl.set r.out e.rank (Tbl.get [] r.out e.rank ++ [w])
        chunks := ch.map (fun x => (k / 256, x)) ++ r.chunks }
  if n = 16384 then .error causeSTRUCT
  else if n % 64 = 0 then
    match (s.getCell (k / 256)).topChunks 1 with
    | some ch => .ok (put s ch)
    | none => .error causeSCRATCH
  else .ok (put s [])

/-- The symbols appended in order, or the cause of the first that cannot be. -/
def appendSyms (s : State) (k : Nat) (e : Exec) : List Word → Except Cause State
  | [] => .ok s
  | w :: ws => match s.appendSym k e w with
    | .ok s => s.appendSyms k e ws
    | .error c => .error c

/-- A word that completes unless it faults. -/
def completeOr (s : State) (k : Nat) (e : Exec) (r : Except Cause State) : State :=
  match r with
  | .ok t => t.setExec k e.advance
  | .error c => s.raise k e c

end State

/-- SYMLD (R137). -/
def execSymld (g : Guard) (d a : GReg) (s : State) : Out :=
  issue g s fun k e => s.setExec k (e.setG d (s.localWord k e (e.getG a).toNat)).advance

/-- SYMAN (R137). -/
def execSyman (g : Guard) (d a : GReg) (s : State) : Out :=
  issue g s fun k e => s.setExec k (e.setG d (s.localAnn k e (e.getG a).toNat)).advance

/-- SYMCNT (R137). -/
def execSymcnt (g : Guard) (d : GReg) (s : State) : Out :=
  issue g s fun k e => s.setExec k (e.setG d (BitVec.ofNat 64 (s.localSlots k e).length)).advance

/-- EMIT: FREE, MARK and words that are not well formed fault STRUCT (R137). -/
def execEmit (g : Guard) (a : GReg) (s : State) : Out :=
  issue g s fun k e =>
    let w := setSymCtx e.ctx (e.getG a)
    if symTag w = tagFREE || symTag w = tagMARK || !wellFormedSym w then s.raise k e causeSTRUCT
    else s.completeOr k e (s.appendSym k e w)

/-- The TILE symbol of a local tile (R64, R137). -/
def tileSym (k : CtxId) (t : Tile) (cell i : Nat) : Word :=
  mkSym tagTILE k (t.fmt.code.toNat * 2 ^ 53 + cell * 2 ^ 32 + i)

/-- EMITT (R137). -/
def execEmitt (g : Guard) (a : GReg) (s : State) : Out :=
  issue g s fun k e =>
    let i := (e.getG a).toNat % 256
    let t := (s.getCell (k / 256)).getTile i
    if t.state = .free ∨ t.state = .pendfree then s.raise k e causeSCRATCH
    else if t.ctx ≠ e.ctx then s.raise k e causeXCTX
    else if t.state ≠ .priv ∧ t.state ≠ .shared then s.raise k e causeOWNER
    else s.completeOr k e (s.appendSym k e (tileSym e.ctx t (k / 256) i))

/-- EMITR: all its local slots, or a fault (R137, R139). -/
def execEmitr (g : Guard) (a b : GReg) (s : State) : Out :=
  issue g s fun k e =>
    let slots := (s.localSlots k e).map Prod.snd
    let i := (e.getG a).toNat
    let n := (e.getG b).toNat
    if slots.length < i + n then s.raise k e causeSTRUCT
    else s.completeOr k e (s.appendSyms k e ((slots.drop i).take n))

/-- RESV (R138). -/
def execResv (g : Guard) (a : GReg) (s : State) : Out :=
  issue g s fun k e =>
    let l := (e.getG a).toNat
    if l = 0 ∨ 0xFFFFFFFF < l then s.raise k e causeSTRUCT
    else
      match s.getRedex e.ctx e.appo with
      | none => s.setExec k e.advance
      | some r =>
        match r.resv with
        | none =>
          ((s.setRedex e.ctx e.appo { r with resv := some (BitVec.ofNat 32 l) })).setExec k e.advance
        | some m => if m.toNat = l then s.setExec k e.advance else s.raise k e causeSTRUCT

end Sys2Proof.Machine
end

