-- ==== Sys2Proof/Machine/ImageFile.lean ====
section
/-! DEFINITION. Checkpoint and eviction images: their sections, the cut of a checkpoint and its drain (R115 to R118).
What R117 gives no place stands in engine-state records of types 8 to 20, the model's (DESIGN CHOICE, log 28); the
records of types 1 to 7 are R117's. -/

namespace Sys2Proof.Machine

/-! ### Sections (R117) -/

/-- Words filled up with zeros to whole chunks. -/
def padChunk (ws : List Word) : List Word := ws ++ List.replicate ((64 - ws.length % 64) % 64) 0

/-- The dense words of a window of n words. -/
def dense (n : Nat) (t : Tbl Word) : List Word := (List.range n).map fun i => Tbl.get 0 t (8 * i)

namespace State

/-- The symbols of a spilled chunk, and of those spilled in it, when its page serves a read (R69, R76); fuel bounds the
nesting. -/
def spilled (s : State) (k : CtxId) : Nat → Word → Option (List Word)
  | 0, _ => none
  | n + 1, w =>
    match s.access k (field w 47 0) .sump false with
    | .at pa _ =>
      (List.range 64).foldl (fun acc i =>
        let x := s.loadWord (pa + 8 * i)
        match acc, (if symTag x = tagMARK then s.spilled k n x else some [x]) with
        | some l, some m => some (l ++ m)
        | _, _ => none) (some [])
    | _ => none

/-- Every symbol of a context's expression that the part can see: a MARK whose chunk cannot be read stands as it is
(R69). -/
def wholeExpr (s : State) (k : CtxId) : List Word :=
  let c := s.getCtx k
  c.pockets.flatMap fun p =>
    (if symTag p.2 = tagMARK then (s.spilled k (c.sump.length + 1) p.2).getD [p.2] else [p.2])
      ++ Tbl.get [] c.unplaced p.1

/-- Scratch tiles that the symbols of a context name: cell and index. -/
def namedTiles (ws : List Word) : List (Nat × Nat) :=
  (ws.filter fun w => symTag w = tagTILE && !w.getLsbD 52).map fun w => (field w 42 32, field w 7 0)

/-- The tiles that an image holds, with cell and index (R115, R117). -/
def imageTiles (s : State) (k : CtxId) (evict : Bool) : List (Nat × Nat × Tile) :=
  let named := namedTiles (s.wholeExpr k)
  s.cells.flatMap fun p => (p.2.tiles.filter fun t =>
    t.2.ctx = k && t.2.state != .free && t.2.state != .pendfree &&
      (evict || (t.2.state == .shared && named.contains (p.1, t.1)))).map fun t => (p.1, t.1, t.2)

/-- The member executions that an eviction image holds: those that its discards left. -/
def savedExecs (s : State) (k : CtxId) : List (Nat × Exec) := s.execs.filter fun p => p.2.ctx = k

/-- The number of an execution among those of the image. -/
def execNumber (l : List (Nat × Exec)) (k : Nat) : Nat := l.findIdx fun p => p.1 == k

/-- The record number of the member that allocated a tile. -/
def ownerNumber (l : List (Nat × Exec)) (cell : Nat) (t : Tile) : Nat :=
  match t.owner with
  | some appo =>
    let i := l.findIdx fun p => p.1 / 256 == cell && p.2.appo == appo
    if i < l.length then i else 0xFFFF
  | none => 0xFFFF

/-- The tile records of an image (section 10). -/
def tileRecords (s : State) (l : List (Nat × Exec)) : Nat → List (Nat × Nat × Tile) → List Word
  | _, [] => []
  | off, (cell, i, t) :: r =>
    [word (cell * 2 ^ 32 + i), s.tileWord cell i t (ownerNumber l cell t), t.bitmap, word off]
      ++ s.tileRecords l (off + t.count) r

/-- The chunks of the tiles of an image (section 11). -/
def tileData (s : State) (ts : List (Nat × Nat × Tile)) : List Word :=
  ts.flatMap fun x => wordsOfBytes (64 * x.2.2.count)
    ((s.getCell x.1).scratch.readBytes (512 * x.2.2.base) (512 * x.2.2.count))

/-- A redex as an image holds it: one that has been discarded is COMMIT-PENDING with its BOT, or to be replayed (R117,
R135). -/
def imageRedex (k : CtxId) (r : Redex) : Redex :=
  match r.state, r.fate with
  | .discarded, .bot c =>
    { r with state := .commitPending, fate := .none, out := [(0, [mkBot k c])], serial := none, cause := 0 }
  | .discarded, _ => r.toReplay
  | _, _ => r

/-- The redexes that an image holds. -/
def imageRedexList (s : State) (k : CtxId) : List (Nat × Redex) :=
  (s.getCtx k).redexes.map fun p => (p.1, imageRedex k p.2)

/-- A record of engine state (section 17): its type, its own bits, and its words. -/
def engineRecord (type low : Nat) (ws : List Word) : List Word :=
  word (type * 2 ^ 56 + (ws.length + 1) % 2 ^ 16 * 2 ^ 40 + low) :: ws

/-- Type 18: the results that are committed and not yet placed, by the position that they follow. They stand at the end
of section 13, after eight words of zeros, since a checkpoint has no section 17 (DESIGN CHOICE, log 28); it has some
where their segment cannot hold them before TIDY spills (DEDUCED, log 51). -/
def unplacedRecords (c : Ctx) : List Word :=
  if c.unplaced.isEmpty then []
  else List.replicate 8 0 ++ c.unplaced.flatMap fun p => engineRecord 18 p.1 p.2

/-- The redexes of an image (section 13). -/
def imageRedexes (s : State) (k : CtxId) (evict : Bool) : List Word :=
  ((s.imageRedexList k).flatMap fun p =>
    let r := if evict then p.2
      else { p.2 with state := .innermost, out := [], held := [], resv := none, cause := 0 }
    s.redexWords k p.1 r ++ result r ++ r.held.flatMap fun h => [word (8 * h.1), h.2.val])
    ++ unplacedRecords (s.getCtx k)

/-- An entry of a matrix queue in a record. -/
def matOpWords (m : MatOp) : List Word :=
  [m.pc, m.iter, (encode m.instr).getD 0, m.ga, m.ga1, m.gb, m.gb1, m.gc, word (m.next * 2 ^ 32 + m.mmag),
   word m.started.toNat] ++ (List.range 4).map fun i => match m.strays[i]? with
      | some n => word (n + 1)
      | none => 0

/-- The waits that a restored execution does not enter again by issuing its word once more: messages sent,
collectives joined, and a missing page that a WAKE is to name (DESIGN CHOICE, log 28). -/
def waitWord (w : WaitOn) : Word :=
  match w with
  | .sending _ => 1
  | .collective mmag n => word (n * 2 ^ 32 + 2 + mmag.toNat)
  | .page va write => word (field va 47 0 * 2 ^ 8 + 4 + write.toNat)
  | _ => 0

/-- The order of the loop starts of an execution: how many loops started earlier than each (R206). -/
def stampWord (e : Exec) : Word :=
  word ((List.range 4).foldl (fun a i => a + ((List.range 4).filter fun j =>
    (vget {} e.loops j).stamp < (vget {} e.loops i).stamp).length * 2 ^ (8 * i)) 0)

/-- Type 8: what the block of kind 0x03 does not show of an execution (DESIGN CHOICE, log 28). -/
def execRecord (l : List (Nat × Exec)) (k : Nat) (e : Exec) : List Word :=
  let reply : List Word := match e.reply with
    | some (f, v) => [word (1 + f.toNat * 2), v]
    | none => [0, 0]
  let arena : List Word := match e.arena with
    | some v => [1, v]
    | none => [0, 0]
  engineRecord 8 (execNumber l k)
    ([word e.appo, word (e.spans * 2 ^ 32 + e.mmags), word (e.met.toNat * 2 ^ 4 + e.aUsed.toNat), e.grow, e.pc,
      waitWord e.wait, stampWord e, word e.recv.length] ++ e.recv.map (fun m => word m.sender) ++ reply ++ arena
      ++ [word e.tags.length] ++ e.tags.map (fun t => t.setWidth 64)
      ++ [word e.mq.length] ++ e.mq.flatMap matOpWords)

/-- Types 1 and 2: the templates of an execution, or that only a chain of it stands on, and their firings; type 12 holds
whether a member has armed the template, and the PC, the iteration vector and the maker of its chain and of each
trigger that is still to fire it, and type 13 the PC,
the iteration vector and the stalled regions of a firing (DESIGN CHOICE, log 28). -/
def tmplRecords (s : State) (l : List (Nat × Exec)) (k : Nat) (e : Exec) : List Word :=
  (List.range 8).flatMap fun t =>
    let x := vget {} (s.getCell (k / 256)).tmpls t
    let me := some (e.ctx, e.appo)
    if x.owner ≠ me && !(x.owner.isNone && (x.chain.map Chain.owner == me || x.chain.isNone &&
        (x.pending.head?.map Trigger.owner) == me)) then []
    else
      let chain : List Word := match x.chain with
        | some c => [word (2 ^ 63 + c.k.toNat), c.mask]
        | none => [0, 0]
      let maker (o : CtxId × Nat) : Word := word (l.findIdx fun p => p.1 / 256 == k / 256 && (p.2.ctx, p.2.appo) == o)
      let at' : List Word := match x.chain with
        | some c => [c.pc, c.iter, maker c.owner]
        | none => [0, 0, 0]
      let n := execNumber l k
      engineRecord 1 0 ([word t, word n, x.src, x.dst, x.shape] ++ chain ++ [word x.pending.length])
        ++ engineRecord 12 (t * 2 ^ 16 + n) (word x.owner.isNone.toNat :: at' ++
          x.pending.flatMap fun p => [p.pc, p.iter, maker p.owner])
        ++ match x.firing with
          | some f => engineRecord 2 n [word t, f.num.setWidth 64, f.landed]
              ++ engineRecord 13 (t * 2 ^ 16 + n) ([f.pc, f.iter] ++ f.stalled.map word)
          | none => []

/-- The code of a choice in a record of type 10. -/
def choiceCode : Choice → Nat
  | .unrouted => 0 | .missing => 1 | .dropped => 2 | .row _ => 3

/-- Types 3 and 10: the reassembly entries of an execution; type 10 holds what the words of kind 0x07 do not: the cycle
of issue, the source format, the chunks of the sum buffer, and what each choice has come to (DESIGN CHOICE, log 28). -/
def ratRecords (s : State) (l : List (Nat × Exec)) (k : Nat) (e : Exec) : List Word :=
  let c := s.getCell (k / 256)
  (c.rat.filter fun p => p.2.ctx = e.ctx && p.2.owner == e.appo && p.2.state != .free).flatMap fun p =>
    let r := p.2
    let done := r.state = .complete
    let rows := (List.range r.rows).flatMap fun i =>
      vecWords (if done then (r.final.getD i (false, zeroVec)).2
        else Rat.sumRow (r.got.getD i (.unrouted, .unrouted)))
    let codes := (List.range r.rows).map fun i =>
      let (a, b) := r.got.getD i (.unrouted, .unrouted)
      word (if done then (r.final.getD i (false, zeroVec)).1.toNat else choiceCode a + 4 * choiceCode b)
    engineRecord 3 (p.1 * 2 ^ 16 + execNumber l k) (s.ratWords (k / 256) r ++ rows)
      ++ engineRecord 10 (p.1 * 2 ^ 16 + execNumber l k)
        ([r.issued, word (r.chunks.length * 2 ^ 8 + r.fmt.code.toNat)] ++ codes)

/-- The code of a station's state in a record of type 4. -/
def stationCode : StState → Nat
  | .bound => 0 | .opened => 1 | .closed => 2

/-- The words of rows of an inbox: each ticket and its 256 bytes. -/
def inboxWords (rows : List InboxRow) : List Word := rows.flatMap fun r => r.ticket :: vecWords r.vec

/-- Type 4: the inboxes of the stations that remain, with as many rows as a record's length can state; type 14 holds a
station's state and redex, and types 15 the rows beyond (DESIGN CHOICE, log 28). -/
def stationRecords (c : Ctx) : List Word :=
  c.stations.flatMap fun p =>
    engineRecord 4 0 (word p.1 :: word p.2.cap :: inboxWords (p.2.rows.take 1024))
      ++ engineRecord 14 p.1 [word (stationCode p.2.state), word p.2.appo]
      ++ (List.range ((p.2.rows.length - 1) / 1024)).flatMap fun i =>
        engineRecord 15 p.1 (inboxWords ((p.2.rows.drop (1024 * (i + 1))).take 1024))

/-- Types 5 and 7: the ticket positions and the receive buffer of an execution. -/
def boxRecords (l : List (Nat × Exec)) (k : Nat) (e : Exec) : List Word :=
  e.tickets.flatMap (fun t => engineRecord 5 0 [word (execNumber l k), word t.1, t.2])
    ++ if e.recv.isEmpty then [] else
      engineRecord 7 0 (word (execNumber l k) :: e.recv.flatMap fun m => vecWords m.vec)

/-- Type 6: the contributions to open collectives; type 16 holds the word and gB with which a member joined, whether its
block is done, and the panels that it has sent (DESIGN CHOICE, log 28). -/
def collRecords (l : List (Nat × Exec)) (c : Ctx) : List Word :=
  c.colls.flatMap fun x => x.joins.flatMap fun j =>
    match l.find? fun p => p.2.appo == x.appo && p.2.rank == j.rank with
    | none => []
    | some p =>
      let pan : List Word := match j.panels with
        | some (a, b) => (a.toArray.toList ++ b.toArray.toList).flatMap vecWords
        | none => []
      let n := word (execNumber l p.1)
      engineRecord 6 0 ([n, word x.mmag.toNat, word x.count] ++ vecWords j.vec)
        ++ engineRecord 16 0 ([n, word x.mmag.toNat, word x.count, (encode j.word).getD 0, j.gb,
          word (j.sent * 2 + j.ended.toNat)] ++ pan)

/-- Type 9: the redex, by its APPO, to which a tile belongs, and the engine work given on it (DESIGN CHOICE, log 28). -/
def tileOwners (ts : List (Nat × Nat × Tile)) : List Word :=
  ((List.range ts.length).zip ts).flatMap fun p =>
    let t := p.2.2.2
    if t.owner.isNone && !t.working then []
    else engineRecord 9 p.1 [word (match t.owner with
      | some appo => appo + 1
      | none => 0), word t.working.toNat]

/-- Type 11: what the words of kind 0x09 do not show of a redex: whether it has a launch serial, its failed loads, its
reservation, the sump page that it waits for, whether it is a station, the members that have halted, and the symbols
of each member (DESIGN CHOICE, log 28). -/
def redexRecord (p : Nat × Redex) : List Word :=
  let r := p.2
  engineRecord 11 0
    ([word p.1, word ((r.sumpAsk.getD 0) * 2 ^ 32 + r.station.toNat * 8 + r.sumpAsk.isSome.toNat * 4 + r.resv.isSome.toNat * 2 + r.serial.isSome.toNat), word r.loadFails,
      word (r.granted * 2 ^ 32 + r.grantAt), word r.halts.length]
      ++ r.halts.flatMap (fun h => [word h.rank, h.pc, h.iter])
      ++ [word r.out.length] ++ r.out.flatMap fun o => [word o.1, word o.2.length])

/-- The words that section 15 is sized for (R113): for each saved execution one for its wait, eight messages, the
missing returns of its OPEN reassembly entries and the inbox of its station; one for each WAIT, and one for each entry
of the fault queue; and no fewer than the events that have come. -/
def eventRoom (s : State) (k : CtxId) : Nat :=
  let c := s.getCtx k
  let saved := s.savedExecs k
  let ofExec (p : Nat × Exec) : Nat :=
    9 + ((s.getCell (p.1 / 256)).rat.filter fun r => r.2.ctx = k && r.2.owner == p.2.appo && r.2.state == .opened).foldl
      (fun n r => n + (r.2.expected - (r.2.got.foldl (fun n g => n + [g.1, g.2].countP fun x => match x with
        | .row _ | .dropped => true
        | _ => false) 0))) 0
      + (c.stations.filter fun t => t.2.appo == p.2.appo).foldl (fun n t => n + t.2.cap) 0
  max c.events.length (saved.foldl (fun n p => n + ofExec p) 0 + (c.pockets.countP fun p => symTag p.2 == tagWAIT)
    + c.fq.length)

/-- Type 20: the saved executions to which the messages of section 15 go, in their order (DESIGN CHOICE, log 28). -/
def messageRecord (l : List (Nat × Exec)) (c : Ctx) : List Word :=
  if c.msgFor.isEmpty then [] else engineRecord 20 0 (c.msgFor.map fun k => word (execNumber l k))

/-- Type 19: how many applications each sump chunk opens more than it closes (DESIGN CHOICE, log 28). -/
def netRecords (c : Ctx) : List Word :=
  c.sumpNet.flatMap fun p => engineRecord 19 0 [word p.1, BitVec.ofInt 64 p.2]

/-- Section 17; type 17 holds the words that section 15 is sized for (DESIGN CHOICE, log 28). -/
def engineState (s : State) (k : CtxId) (ts : List (Nat × Nat × Tile)) : List Word :=
  let l := s.savedExecs k
  let c := s.getCtx k
  l.flatMap (fun p => execRecord l p.1 p.2 ++ s.tmplRecords l p.1 p.2 ++ s.ratRecords l p.1 p.2 ++ boxRecords l p.1 p.2)
    ++ stationRecords c ++ collRecords l c ++ tileOwners ts ++ (s.imageRedexList k).flatMap redexRecord
    ++ engineRecord 17 0 [word (s.eventRoom k)] ++ messageRecord l c ++ netRecords c

/-- The word of PRI (R104). -/
def priWord (c : Ctx) : Word :=
  word (c.regs.waited.toNat * 2 ^ 48 + c.regs.urg.toNat * 2 ^ 16 + effPriority c * 2 ^ 8 + c.regs.bp.toNat)

/-- The word of TIDYCFG (R144). -/
def tidyWord (r : CtxRegs) : Word := word (r.rth.toNat * 2 ^ 16 + r.spread.toNat * 2 ^ 4)

/-- Section 18. -/
def contextWords (c : Ctx) : List Word :=
  let r := c.regs
  [priWord c, r.tmask.setWidth 64, tidyWord r, word r.bken.toNat, r.sumpBase, r.sumpLim, r.arena, r.ptroot, r.fqBase,
   r.fqProd, r.fqCons, c.launches.setWidth 64]

/-- Section 15: the pending-event words, the room for those that can still arrive, and their data area, with room for
the data of each (R113). -/
def eventSection (s : State) (k : CtxId) : List Word :=
  let c := s.getCtx k
  let n := s.eventRoom k
  c.events ++ List.replicate (n - c.events.length) 0
    ++ wordsOfBytes (max (33 * n) ((c.eventData.length + 7) / 8)) c.eventData

/-- Sections 8 to 18 of an image (R117). -/
def sections (s : State) (k : CtxId) (evict : Bool) : List (List Word) :=
  let c := s.getCtx k
  let ts := s.imageTiles k evict
  let l := if evict then s.savedExecs k else []
  let top := c.sump.foldl (fun n p => max n (p.1 + 1)) 0
  [(List.range rowEnd).map fun p => Tbl.get 0 c.pockets p,
   [word c.sump.length, c.regs.sumpLim] ++ List.replicate 6 0 ++ mapWords (c.sump.map Prod.fst) 0 ((top + 63) / 64),
   s.tileRecords l 0 ts, s.tileData ts, c.ops.map fun o => o.setWidth 64, s.imageRedexes k evict,
   if evict then l.flatMap fun p => dense 10304 (s.execWords p.1 p.2) else [],
   if evict then s.eventSection k else [], c.fq.flatMap (fqWords c),
   if evict then s.engineState k ts else [], contextWords c]

/-- The directory words of sections of the given lengths in chunks, from an offset (R116). -/
def directory : Nat → List Nat → List Word
  | _, [] => []
  | off, n :: ns => (if n = 0 then 0 else word (n * 2 ^ 32 + off)) :: directory (off + n) ns

/-- Words cut into chunks of 64. -/
def chunksOf : Nat → List Word → List (List Word)
  | 0, _ => []
  | n + 1, ws => ws.take 64 :: chunksOf n (ws.drop 64)

/-- The header chunk (R116): BITMAP and DONE as given. -/
def headerChunk (s : State) (k : CtxId) (evict : Bool) (chunks : Nat) (dir : List Word) (bitmap : Word) (done : Bool) :
    List Word :=
  let c := s.getCtx k
  let w0 := chunks * 2 ^ 32 + c.regs.spread.toNat * 2 ^ 24 + c.regs.tmask.toNat * 2 ^ 16 + c.regs.bp.toNat * 2 ^ 12
    + c.regs.urg.toNat * 2 ^ 10 + k.val * 2 ^ 8 + (if evict then 2 else 1)
  padChunk ([word w0, bitmap, word (done.toNat * 2 ^ 63), c.passes, c.regs.arena, c.regs.sumpBase, word c.sump.length,
    c.regs.ptroot] ++ dir)

/-- A header chunk as it stands once every other chunk is written: BITMAP full, and DONE (R116). -/
def doneHeader (h : List Word) : List Word := (h.set 1 (BitVec.allOnes 64)).set 2 (1 <<< 63)

/-- The image of a context as it stands, in chunks, with nothing of it written (R116, R117). -/
def imageOf (s : State) (k : CtxId) (evict : Bool) : List (List Word) :=
  let secs := (s.sections k evict).map padChunk
  let lens := secs.map fun x => x.length / 64
  let n := 1 + lens.foldl (· + ·) 0
  s.headerChunk k evict n (directory 1 lens) 0 false :: secs.flatMap fun x => chunksOf (x.length / 64) x

/-! ### The targets of an image (R117) -/

/-- Words written at an image address: HBM through the home slices, or host memory. An address of a checkpoint that is
not aligned, or lies above HBM, is taken as it stands, modulo 2^40 in HBM (DESIGN CHOICE, log 96). -/
def writeTarget (s : State) (target : Nat) (addr : Nat) (ws : List Word) : State :=
  if target = 1 then { s with mem := { s.mem with host := s.mem.host.write (addr % 2 ^ 64) (bytesOfWords ws) } }
  else s.storeBytes (addr % 2 ^ 40) (bytesOfWords ws)

/-- The four lines of an image chunk set out for a remote part (R117, R391). -/
def sendImage (s : State) (k : CtxId) (fab : BitVec 18) (addr c : Nat) (ws : List Word) : State :=
  (List.range 4).foldl (fun s i =>
    s.fabSend 0 Flit.tImage fab (word ((addr + 512 * c) / 128 + i)) ((ws.drop (16 * i)).take 16)
      { num := 0, dst := 0, vc := 0, words := [], ctx := k, part := 4 * c + i }) s

/-- Chunks of an image of a context are on their way to a remote part. -/
def imageOut (s : State) (k : CtxId) : Bool :=
  s.fab.sent.any fun m => m.ctx = k && Flit.type m.words == Flit.tImage

/-- Bit b of BITMAP: every chunk of part b of the image's 64 equal parts is written (R116). -/
def drainBitmap (n : Nat) (written : List Nat) : Word :=
  word ((List.range 64).foldl (fun a b =>
    if (List.range n).all fun c => 64 * c / n != b || written.contains c then a + 2 ^ b else a) 0)

/-! ### The cut of a checkpoint (R115, R116) -/

/-- PIN of the tiles of an image (R277). -/
def setPin (s : State) (cell i : Nat) (b : Bool) : State :=
  s.modCell cell fun c =>
    let t := c.getTile i
    let t := { t with pin := b }
    c.setTile i (if !b && t.state = .pendfree && t.reads == 0 then {} else t)

/-- First and last chunk of an image that hold the data of each of its tiles. -/
def tilePins (base : Nat) : Nat → List (Nat × Nat × Tile) → List (Nat × Nat × Nat × Nat)
  | _, [] => []
  | off, (cell, i, t) :: r => (cell, i, base + off, base + off + t.count - 1) :: tilePins base (off + t.count) r

/-- A checkpoint into a buffer takes its cut, with the row as `row` shows it: another that drains makes it start nothing
and sets SKIP (R115, R118, R189). -/
def cutOf (row s : State) (k : CtxId) (buf : BitVec 4) : State :=
  let c := s.getCtx k
  if c.drain.isSome then s.modCtx k fun c => { c with ckptAsked := none, regs := { c.regs with ckSkip := true } }
  else
    let (w0, w1) := vget (0, 0) c.regs.ckbuf buf.toNat
    let ts := row.imageTiles k false
    let chunks := row.imageOf k false
    let base := field ((chunks.getD 0 []).getD 11 0) 31 0
    let d : Drain :=
      { buf := buf, target := w1.extractLsb' 0 2, addr := w0.toNat, fab := w1.extractLsb' 2 18, chunks := chunks
        room := field w1 63 32, pins := tilePins base 0 ts, sump := c.sump.map Prod.fst }
    let s := ts.foldl (fun s x => s.setPin x.1 x.2.1 true) s
    s.modCtx k fun c => { c with drain := some d, ckptAsked := none, regs := { c.regs with ckBuf := buf, ckErr := false } }

/-! ### The drain (R116 to R118, R157, R277) -/

/-- The chunks of a pinned tile have drained. -/
def pinDrained (d : Drain) (p : Nat × Nat × Nat × Nat) : Bool :=
  (List.range (p.2.2.2 + 1 - p.2.2.1)).all fun i => d.written.contains (p.2.2.1 + i)

/-- The pins whose chunks have drained are cleared, each once (R277). -/
def unpinDrained (s : State) (d : Drain) : State :=
  (d.pins.filter (pinDrained d)).foldl (fun s p => s.setPin p.1 p.2.1 false) s

/-- Chunks that a recall has emptied and the drain has held are free (R157). -/
def freeDrained (s : State) (k : CtxId) : State :=
  s.modCtx k fun c => { c with sump := c.sump.filter fun p => !c.sumpDrain.contains p.1, sumpDrain := [] }

/-- A drain ends: DONE, with the count of checkpoints, or ERR (R118). -/
def endDrain (s : State) (k : CtxId) (d : Drain) (err : Bool) : State :=
  let s := d.pins.foldl (fun s p => s.setPin p.1 p.2.1 false) s
  let s := s.freeDrained k
  (s.modCtx k fun c =>
    { c with drain := none
             regs := { c.regs with ckErr := err, ckSeq := if err then c.regs.ckSeq else c.regs.ckSeq + 1 } }).signal
    (8 * k.val + 3)

/-- A chunk of the image is final at its target, and BITMAP follows: at a remote part the header chunk goes out again
when a bit of it is new (R116). -/
def chunkWritten (s : State) (k : CtxId) (d : Drain) (c : Nat) : State :=
  let n := d.chunks.length
  let d := { d with written := if d.written.contains c then d.written else c :: d.written }
  let s := s.unpinDrained d
  let map := drainBitmap n d.written
  let head := (d.chunks.getD 0 []).set 1 map
  let d := { d with pins := d.pins.filter fun p => !pinDrained d p }
  if d.target ≠ 2 then
    (s.writeTarget d.target.toNat (d.addr + 8) [map]).modCtx k fun x => { x with drain := some d }
  else if d.evict || d.chunks.getD 0 [] = head || (d.chunks.getD 0 []).getD 2 0 != 0 then
    s.modCtx k fun x => { x with drain := some d }
  else
    (s.modCtx k fun x => { x with drain := some { d with chunks := d.chunks.set 0 head } }).sendImage k d.fab d.addr 0 head

end State

/-- CKPT_CHUNK_DRAINED: chunk id of a draining checkpoint goes to its target; one past the buffer, and a memory error,
end the checkpoint with ERR (R115 to R118). A buffer whose CKBUF names target 3, which is none, takes no chunk and ends
it with ERR as well (DESIGN CHOICE, log 68). -/
def execCkptChunkDrained (s : State) : Out :=
  let k := s.arg.ctx
  let c := s.arg.id
  match (s.getCtx k).drain with
  | none => .next s
  | some d =>
    if d.evict || d.chunks.length ≤ c || d.written.contains c || s.fab.sent.any (fun m => m.ctx = k && m.part / 4 == c &&
        Flit.type m.words == Flit.tImage) then .next s
    else if d.room ≤ c || d.target = 3 || s.arg.bad then
      .next ((if s.arg.bad then s.count State.telUncorrected 1 else s).endDrain k d true)
    else
      let ws := d.chunks.getD c []
      if d.target = 2 then .next (s.sendImage k d.fab d.addr c ws)
      else .next ((s.writeTarget d.target.toNat (d.addr + 512 * c) ws).chunkWritten k d c)

/-- CKPT_DRAIN_DONE: every chunk of a checkpoint stands at its target: DONE is set last (R116, R118). At a remote part,
the header chunk goes out again, and the drain ends with its acknowledgement. -/
def execCkptDrainDone (s : State) : Out :=
  let k := s.arg.ctx
  match (s.getCtx k).drain with
  | none => .next s
  | some d =>
    let n := d.chunks.length
    if d.evict || !((List.range n).all d.written.contains) then .next s
    else
      let head := State.doneHeader (d.chunks.getD 0 [])
      if d.target ≠ 2 then
        .next ((s.writeTarget d.target.toNat d.addr head).endDrain k d false)
      else if s.imageOut k then .next s
      else if d.chunks.getD 0 [] = head then .next (s.endDrain k d false)
      else
        .next ((s.modCtx k fun c => { c with drain := some { d with chunks := d.chunks.set 0 head } }).sendImage k d.fab
          d.addr 0 head)

end Sys2Proof.Machine
end

