-- ==== Sys2Proof/Machine/Passes.lean ====
section
/-! DEFINITION. The pass: arbitration, and its COMMIT, TIDY and MARK phases (R12, R73, R74, R103, R122 to R126, R148 to
R155, R303). -/

namespace Sys2Proof.Machine

namespace State

/-! ### Faults of a phase (R110) -/

/-- The record of a trap that a phase raises (R110): no instruction raised it (DESIGN CHOICE, log 27). -/
def passRec (s : State) (pos : Nat) (nr : Bool) (cause : Cause) (cls : Class) (addr : Option Word) : TrapRec :=
  { cause := cause, nr := nr, pass := true, cls := cls, pos := pos, cell := 0, op := 0,
    pc := Config.noInstruction s.clk.toNat, iter := Config.noInstruction (s.clk.toNat + 1), addr := addr }

/-- An operator that the context defines is non-replayable (R67, R94). -/
def definedNR (s : State) (k : CtxId) (op : BitVec 16) : Bool :=
  match s.defined k op with
  | some o => o.nr
  | none => false

/-- A fault of a redex that a phase decides ends as TMASK, the class and NR decide (R135); an operator that the context
does not define has no NR (R67). -/
def passFault (s : State) (k : CtxId) (appo : Nat) (cause : Cause) (cls : Class) (addr : Option Word := none) : State :=
  match s.getRedex k appo with
  | none => s
  | some r =>
    if !s.definedNR k r.op && cls.masked (s.tmaskNow k) then s.faultBot k appo cause
    else
      (((s.discard k appo).modRedex k appo fun r => { r with state := .discarded, fate := .trapped cause })).trap k
        (s.passRec appo (s.definedNR k r.op) cause cls addr)

/-! ### Pass requests and arbitration (R102, R103) -/

/-- The test of a WAIT word of the pockets would have an outcome: it is replaced, or its page is missing and a queue
entry is due. The write of a word whose deferred read found the table full requests nothing (R73, R74, R75, R103). -/
def waitRipe (s : State) (k : CtxId) (w : Word) : Bool :=
  symTag w == tagWAIT && !(s.getCtx k).waitStall.contains (field w 47 0) &&
    match s.access k (field w 47 0) .heap false with
    | .at pa _ => s.present pa && !(s.getCtx k).waitRefused.contains (field w 47 0)
    | .fault _ => true
    | .missing => true

/-- A WAIT symbol stands in an application (R71). -/
def holdsWait (c : Ctx) (p : RedexAt) : Bool := (Row.between c.pockets p.1 p.2.appc).any fun x => symTag x.2 == tagWAIT

/-- A queue of a cell that a redex spans is full (R128). -/
def queueFull (s : State) (r : Redex) : Bool :=
  (List.range (width r)).any fun i => 256 ≤ (s.execs.filter fun p => p.1 / 256 = r.first + i).length

/-- A redex for which a pass would do something: a commit waits, or an application could launch (R103, R128). -/
def redexWants (s : State) (c : Ctx) (p : RedexAt) : Bool :=
  match p.2.state with
  | .halted => true
  | .commitPending => p.2.woken || (p.2.cause != causeSUMPPAGE && p.2.cause != 0x17)
  | .discarded => match p.2.fate with
    | .bot _ => true
    | _ => false
  | .innermost => p.2.cause = 5 || (!holdsWait c p && p.2.cause != 2 && !s.queueFull p.2)
  | .loading | .running => false

/-- The four conditions of R330 for a station; the wall of one that has halted stands until it is retired (R142). -/
def quiet (s : State) (k : CtxId) (i : Nat) : Bool :=
  let c := s.getCtx k
  let walls := (c.redexes.filter fun p => p.2.active && p.2.station).map wallOf
  c.pockets.all (fun p => (symTag p.2 != tagAPPO && symTag p.2 != tagAPPC) ||
      walls.any fun w => w.1 ≤ p.1 && p.1 ≤ w.2)
    && (c.unplaced.all fun u => u.2.all fun w => symTag w != tagAPPO && symTag w != tagAPPC)
    && c.pockets.all (fun p => symTag p.2 != tagMARK)
    && (s.cells.all fun x => x.2.rat.all fun r => !(r.2.ctx = k && r.2.state == .opened))
    && c.rowsIn.all fun r => r.station != i

/-- A pass request stands for a context (R103): MARK would also find a station that has become quiescent (R330, R345).
-/
def requestStands (s : State) (k : CtxId) : Bool :=
  let c := s.getCtx k
  c.request || c.redexes.any (s.redexWants c) || (c.pockets.any fun p => s.waitRipe k p.2) ||
    c.stations.any fun t => !t.2.quiescent && s.quiet k t.1

/-- The contexts that the tree can serve, with EP and W. -/
def candidates (s : State) : List CtxId :=
  ([0, 1, 2, 3] : List CtxId).filter fun k => (s.getCtx k).state == .running && s.requestStands k

/-- Context a is served before b: EP, then W, then the lower number (R103). -/
def servedBefore (s : State) (a b : CtxId) : Bool :=
  let ea := effPriority (s.getCtx a)
  let eb := effPriority (s.getCtx b)
  let wa := (s.getCtx a).regs.waited.toNat
  let wb := (s.getCtx b).regs.waited.toNat
  eb < ea || (ea == eb && (wb < wa || (wa == wb && a.val ≤ b.val)))

/-- The context that the tree serves next (R103). -/
def nextServed (s : State) : Option CtxId :=
  s.candidates.foldl (fun best k => match best with
    | none => some k
    | some b => if s.servedBefore b k then some b else some k) none

/-- A pass of a context begins: its request is served, TIDYCFG and SUMPLIM take effect, its W starts anew, that of every
other context whose request stands counts up, whatever its state, and the redexes that are HALTED are those that its
COMMIT will collect (R99, R102, R122, R144, R191). -/
def beginPass (s : State) (k : CtxId) : State :=
  let waiting := ([0, 1, 2, 3] : List CtxId).filter fun j => j != k && s.requestStands j
  let s := s.modCtx k fun c =>
    { c with
      request := false, passes := c.passes + 1, rthNow := c.regs.rth, spreadNow := c.regs.spread
      sumpLimNow := c.regs.sumpLim, regs := { c.regs with waited := 0 } }
  let s := waiting.foldl (fun s j => s.modRegs j fun r =>
    { r with waited := if r.waited = 0xFFFF then r.waited else r.waited + 1 }) s
  let halted := (s.getCtx k).redexes.filter fun p => p.2.state == .halted
  { s with pass := some { ctx := k, phase := .commit, halted := halted.map Prod.fst } }

/-- An urgent HOLD of the context is under way (R105). -/
def urgentHold (c : Ctx) : Bool :=
  c.regs.busy && c.regs.code == 3 && c.pendStatus == 0 && c.state == .held && c.cmd0.getLsbD 0

/-- Steps 2 and 3 of an eviction: the redexes that run replayable members return to INNERMOST, and every other
execution is suspended (R112, R331). -/
def evictDiscard (s : State) (k : CtxId) : State :=
  (((s.getCtx k).redexes.filter fun p => p.2.state == .running && !s.opNR p.2.op).foldl (fun s p =>
    (s.discard k p.1).modRedex k p.1 Redex.toReplay) s).suspendAll k

/-- A pass of a context ends: what an urgent HOLD or an EVICT has left for then follows (R112, R136). -/
def passOver (s : State) (k : CtxId) : State :=
  let s := { s with pass := none }
  if urgentHold (s.getCtx k) then s.suspendAll k
  else if (s.getCtx k).state = .evicting then s.evictDiscard k
  else s

/-- The four root results of a phase disagree: it takes effect in nothing and runs again, and the third time the
context traps with cause SDC (R12). -/
def corrupt (s : State) (p : Pass) : State :=
  let s := s.count telRoot 1
  if p.repeats < 2 then
    { s with pass := some { p with repeats := p.repeats + 1, allRepeats := p.allRepeats + 1 } }
  else (s.trap p.ctx (s.passRec (Config.noSymbol s.clk.toNat) false causeSDC .machine none)).passOver p.ctx

/-- A phase of the pass under way, while every bridge carries its summaries: on disagreement nothing but its repeat
(R12, R122, R384). -/
def inPhase (s : State) (ph : Phase) (body : Pass → State) : State :=
  match s.pass with
  | none => s
  | some p =>
    if p.phase ≠ ph || !s.bridgesUp then s
    else if s.arg.bad && ph ≠ .launch then s.corrupt p
    else body p

/-- The pass goes on to its next phase. -/
def nextPhase (s : State) (ph : Phase) : State :=
  { s with pass := s.pass.map fun p => { p with phase := ph, repeats := 0 } }

/-! ### Segments laid out (R142, R145, R164) -/

/-- A segment as TIDY works on it: what it may hold, its symbols, whether it spilt, and whether its layout is to be
applied. -/
structure TidySeg where
  seg   : Seg
  room  : Nat
  items : List Item
  spilt : Bool := false
  apply : Bool := true
  deriving Repr, DecidableEq

/-- The redexes that are not walls, which have not been launched, move with their symbols, and one whose symbols are
spilled is forgotten. -/
def moveRedex (seg : Seg) (moved : List (Nat × Nat)) (p : RedexAt) : Option RedexAt :=
  if p.2.active || !Seg.has seg p.1 then some p
  else match moved.find? fun m => m.1 == p.1, moved.find? fun m => m.1 == p.2.appc with
    | some a, some b => some (a.2, { p.2 with appc := b.2, first := a.2 / 16, last := b.2 / 16 })
    | _, _ => none

/-- The symbols of a segment stand where a layout puts them, and its redexes that are not walls follow (R145, R164). -/
def putLayout (s : State) (k : CtxId) (seg : Seg) (l : List (Nat × Item)) : State :=
  let moved := l.filterMap fun x => x.2.1.map fun o => (o, x.1)
  s.modCtx k fun c =>
    { c with
      pockets := l.foldl (fun t x => Tbl.set t x.1 x.2.2) (c.pockets.filter fun p => !seg.has p.1)
      unplaced := c.unplaced.filter fun p => !seg.has p.1
      redexes := (c.redexes.filterMap (moveRedex seg moved)).foldl (fun t p => Tbl.set t p.1 p.2) [] }

/-- The layout of a segment takes effect (R145, R164). -/
def applySeg (s : State) (k : CtxId) (g : TidySeg) : State :=
  let c := s.getCtx k
  let l := layout c.spreadNow.toNat (unreserved (grants c) g.seg) (s.gangOf k) g.items
  if !g.apply || l.length ≠ g.items.length then s else s.putLayout k g.seg l

/-- The TIDY segments of a context with what they hold (R143, R145). -/
def tidySegs (c : Ctx) : List TidySeg :=
  let walls := (c.redexes.filter fun p => p.2.active).map wallOf
  (segments rowEnd 0 walls).map fun g =>
    { seg := g, room := capacity c.spreadNow.toNat g - reservedIn (grants c) g, items := segItems c g }

/-! ### The cut of a checkpoint (R115) -/

/-- The row with every committed result in a place: each segment that still has some is packed; none where a segment
cannot hold its symbols. A checkpoint image shows it where results are still to be placed (DEDUCED, log 51). -/
def packed (s : State) (k : CtxId) : Option State :=
  (tidySegs (s.getCtx k)).foldl (fun acc g =>
    match acc with
    | none => none
    | some t =>
      if g.items.all (fun x => x.1.isSome) then some t
      else if capacity 0 g.seg < g.items.length + reservedIn (grants (s.getCtx k)) g.seg then none
      else
        let l := layout 0 (unreserved (grants (s.getCtx k)) g.seg) (fun _ => 1) g.items
        some (t.putLayout k g.seg l)) (some s)

/-- A checkpoint into a buffer takes its cut (R115). Results that their segment cannot hold before TIDY spills stand in
records of the image (DEDUCED, log 51). -/
def cut (s : State) (k : CtxId) (buf : BitVec 4) : State := s.cutOf ((s.packed k).getD s) k buf

/-- The pass under way has still to end its COMMIT phase for a context. -/
def beforeCommit (s : State) (k : CtxId) : Bool := s.pass.any fun p => p.ctx = k && p.phase == .commit

/-- A context has left RUNNING: the checkpoint that a command asked for takes its cut, unless the COMMIT phase of a pass
that has begun is still to end, with which it is then taken (R115). -/
def cutOnLeave (s : State) (k : CtxId) : State :=
  match (s.getCtx k).ckptAsked with
  | none => s
  | some buf => if s.beforeCommit k then s else s.cut k buf

/-! ### COMMIT (R123) -/

/-- Step 1 for one redex: a HALTED one of the pass, and one left to be rewritten to BOT, become COMMIT-PENDING. -/
def collectRedex (k : CtxId) (halted : Bool) (r : Redex) : Redex :=
  match r.state, r.fate with
  | .halted, _ => if halted then { r with state := .commitPending, cause := 0 } else r
  | .discarded, .bot c =>
    { r with state := .commitPending, fate := .none, out := [(0, [mkBot k c])], serial := none, cause := 0 }
  | _, _ => r

/-- Step 1: the redexes that were HALTED as the pass began, and no others, are collected (R122). -/
def collect (s : State) (k : CtxId) (halted : List Nat) : State :=
  s.modCtx k fun c => { c with redexes := c.redexes.map fun p => (p.1, collectRedex k (halted.contains p.1) p.2) }

/-- The COMMIT-PENDING redexes in row order. -/
def pendingOf (s : State) (k : CtxId) : List RedexAt :=
  (s.getCtx k).redexes.filter fun p => p.2.state == .commitPending

/-- What keeps the held words of a redex from having their pages. -/
inductive HeldStop where
  | missing (va : Nat)
  | fault (cause : Cause) (va : Nat)

/-- The held words with the physical addresses that their pages give, and the first of them that has none. -/
def translateHeld (s : State) (k : CtxId) : Tbl Held → Tbl Held × Option HeldStop
  | [] => ([], none)
  | (v, h) :: r =>
    let (l, stop) := s.translateHeld k r
    match h.pa with
    | some _ => ((v, h) :: l, stop)
    | none => match s.access k (8 * v) .heap true with
      | .missing => ((v, h) :: l, some (.missing (8 * v)))
      | .fault c => ((v, h) :: l, some (.fault c (8 * v)))
      | .at pa _ => ((v, { h with pa := some pa }) :: l, stop)

/-- The physical words of held writes that have their page. -/
def heldPas (held : Tbl Held) : List Nat := held.filterMap fun h => h.2.pa

/-- The held words of the pending redexes checked, from the left: one that waits for a page is tried again only after
the WAKE of its entry, and its words count for the redexes to its right all the same (R303, R375). -/
def checkHeld (s : State) (k : CtxId) : List RedexAt → List Nat → State
  | [], _ => s
  | (a, r) :: rest, seen =>
    if r.cause = 0x17 && !r.woken then s.checkHeld k rest (heldPas r.held ++ seen)
    else
      let (held, stop) := s.translateHeld k r.held
      match stop with
      | some (.missing va) =>
        let s := s.modRedex k a fun r => { r with held := held, cause := 0x17, woken := false }
        (s.fqStall k (a / 16) va 0 fqWrite).checkHeld k rest (heldPas held ++ seen)
      | some (.fault c va) => (s.passFault k a c .memory (some (word va))).checkHeld k rest seen
      | none =>
        match held.find? fun h => match h.2.pa with
          | some pa => s.present pa || seen.contains pa
          | none => false with
        | some h => (s.passFault k a causeHEAPDUP .program (some (word (8 * h.1)))).checkHeld k rest seen
        | none => (s.modRedex k a fun r => { r with held := held, cause := 0, woken := false }).checkHeld k rest
            (heldPas held ++ seen)

/-- The redexes that admission decides: those whose held words have their pages (DEDUCED, log 81). -/
def ready (s : State) (k : CtxId) : List RedexAt := (s.pendingOf k).filter fun p => p.2.cause != 0x17

/-- Step 2: admission's refusals are named, and the page of a chunk is asked for once until its WAKE; the entry names
the cell of the redex's APPO, and its KIND is sump (R150, R155, R375, R377; DESIGN CHOICE, log 101). -/
def refuse (s : State) (k : CtxId) (a : Admission) : State :=
  let pages := ((a.refused.filter fun x => x.2 == causeSUMPPAGE).map Prod.fst).zip a.missing
  let s := a.refused.foldl (fun s x => s.modRedex k x.1 fun r => { r with cause := x.2, woken := false }) s
  pages.foldl (fun s x =>
    let va := chunkVa (s.getCtx k) x.2
    if (s.getRedex k x.1).any fun r => r.sumpAsk == some (va / 2 ^ 16) then s
    else (s.fqStall k (x.1 / 16) va 2 fqSump).modRedex k x.1 fun r => { r with sumpAsk := some (va / 2 ^ 16) }) s

/-- The tiles that a redex's members allocated: SHARED when a committed symbol names them, and otherwise freed
(R276). -/
def settleTiles (s : State) (k : CtxId) (appo : Nat) (named : List (Nat × Nat)) : State :=
  s.cells.foldl (fun s p =>
    (p.2.tiles.filter fun t => t.2.ctx = k && t.2.owner == some appo && t.2.state != .free).foldl (fun s t =>
      if named.contains (p.1, t.1) then
        s.modCell p.1 fun c => c.setTile t.1 { t.2 with state := .shared, owner := none, ownx := 0xFFFF }
      else s.modCell p.1 fun c => c.freeTile t.1) s) s

/-- The symbols of a redex's slots, and those that stay unplaced, after the emitted symbols have taken the slots in
row order (R123). -/
def rewriteSlots (slots : Row) (out : List Word) : Row × List Word :=
  ((slots.map Prod.fst).zip out, out.drop slots.length)

/-- Step 3 for one admitted redex: its effects are released and its slots take its symbols (R123, R133). -/
def commitOne (s : State) (k : CtxId) (p : RedexAt) : State :=
  let r := p.2
  let s := r.held.foldl (fun s h => match h.2.pa with
    | some pa => s.putHeap pa h.2.val
    | none => s) s
  let out := result r
  let slots := Row.between (s.getCtx k).pockets p.1 r.appc
  let (new, rest) := rewriteSlots slots out
  let s := (s.settleTiles k p.1 (namedTiles out)).freeSymChunks r.chunks
  s.modCtx k fun c =>
    { c with
      pockets := new.foldl (fun t x => Tbl.set t x.1 x.2) (c.pockets.filter fun x => !(p.1 ≤ x.1 && x.1 ≤ r.appc))
      unplaced := if rest = [] then c.unplaced else Tbl.set c.unplaced ((slots.getLast?.map Prod.fst).getD p.1) rest
      redexes := Tbl.erase c.redexes p.1 }

/-- The buffer of a CKPT form whose rewrite commits: its argument (R189). A strict form, which takes no serial, and a
BOT start nothing. -/
def ckptForm (c : Ctx) (p : RedexAt) : Option (BitVec 4) :=
  if p.2.op = 0x50 && p.2.serial.isSome then
    match (Row.between c.pockets p.1 p.2.appc).map Prod.snd with
    | _ :: _ :: _ :: n :: _ => if symTag n = tagINT && field n 47 4 = 0 then some (BitVec.ofNat 4 n.toNat) else none
    | _ => none
  else none

/-- What a WAIT of the pockets becomes, tested against the presence of a state (R74). -/
inductive WaitTest where
  | stays
  | stall (va : Nat)
  | becomes (w : Word)

def testWait (s : State) (k : CtxId) (w : Word) : WaitTest :=
  let va := field w 47 0
  if (s.getCtx k).waitStall.contains va then .stays
  else match s.access k va .heap false with
    | .missing => .stall va
    | .fault _ => .becomes (mkBot k causePAGE)
    | .at pa _ =>
      if !s.present pa then .stays
      else
        let x := s.loadWord (pa / 8 * 8)
        if !(isAtom x && wellFormedSym x) then .becomes (mkBot k causeSTRUCT)
        else if symCtx x = k.val then .becomes x
        else .becomes (mkBot k causeXCTX)

/-- A WAIT that stays holds an entry of its channel's deferral table, unless the others fill it (R75). -/
def deferWait (s : State) (k : CtxId) (va : Nat) : State :=
  match s.access k va .heap false with
  | .at pa _ =>
    let rest := s.modCtx k fun c => { c with waitRefused := va :: c.waitRefused }
    if rest.deferralFull pa then
      if (s.getCtx k).waitRefused.contains va then s else rest
    else s.modCtx k fun c => { c with waitRefused := c.waitRefused.filter (· != va) }
  | _ => s

/-- Step 4: every WAIT that stood as the phase began, outside what the phase rewrote, by the presence of that moment
(R73). -/
def resolveWaits (s : State) (k : CtxId) (old : State) : State :=
  ((old.getCtx k).pockets.filter fun p => symTag p.2 = tagWAIT).foldl (fun s p =>
    if Tbl.get 0 (s.getCtx k).pockets p.1 ≠ p.2 then s
    else match old.testWait k p.2 with
      | .stays => s.deferWait k (field p.2 47 0)
      | .becomes w => s.modCtx k fun c =>
          { c with pockets := Tbl.set c.pockets p.1 w, waitRefused := c.waitRefused.filter (· != field p.2 47 0) }
      | .stall va =>
        (s.fqStall k (p.1 / 16) va 0 fqWait).modCtx k fun c => { c with waitStall := va :: c.waitStall }) s

/-- The cuts at the end of a COMMIT phase (R115): into the buffers of the CKPT forms it rewrote, in row order, and of
the command. The first takes place, and the others find it draining and set SKIP (R189). -/
def cutsOfCommit (s : State) (k : CtxId) (bufs : List (BitVec 4)) : State :=
  match bufs ++ (s.getCtx k).ckptAsked.toList with
  | [] => s
  | b :: more => if more.isEmpty then s.cut k b else (s.cut k b).modRegs k fun r => { r with ckSkip := true }

/-- The COMMIT phase of a context (R123). -/
def commitPhase (s : State) (k : CtxId) : State :=
  let old := s
  let s := s.collect k (match s.pass with
    | some p => p.halted
    | none => [])
  let s := s.checkHeld k (s.pendingOf k) []
  let a := s.admission k (s.ready k)
  let s := s.refuse k a
  let admitted := (s.ready k).filter fun p => a.admitted.any fun q => q.1 == p.1
  let bufs := admitted.filterMap fun p => ckptForm (s.getCtx k) p
  let s := admitted.foldl (fun s p => s.commitOne k p) s
  let s := ((s.resolveWaits k old).grantAll k).cutsOfCommit k bufs
  { s with pass := s.pass.map fun p => { p with admitted := !admitted.isEmpty } }

/-! ### TIDY (R145, R152 to R155) -/

/-- A TIDY under way: the sump transfers so far, and whether it has trapped. -/
structure TidyRun where
  st      : State
  moves   : Nat := 0
  trapped : Bool := false

/-- A trap of TIDY (R155). -/
def tidyTrap (t : TidyRun) (k : CtxId) (pos : Nat) (cause : Cause) (cls : Class) (va : Nat) : TidyRun :=
  { t with
    st := t.st.trap k (t.st.passRec pos false cause cls (some (word va)))
    moves := t.moves + 1, trapped := true }

/-- The position of an item, or that of the first after it that stands. -/
def itemPos (g : Seg) : List Item → Nat
  | [] => g.1
  | (some p, _) :: _ => p
  | (none, _) :: r => itemPos g r

/-- A transfer of TIDY that waits for a page is tried again only after the WAKE of its queue entry (R375). -/
def sumpStalled (c : Ctx) (va : Nat) : Bool := c.sumpStall.contains (va / 2 ^ 16)

/-- A transfer of TIDY meets a page that is missing, as the page of a chunk can become after admission or be at a
recall: it enters the host fault queue, the transfer does not take place, and the pass goes on (R375; DESIGN CHOICE,
log 65). -/
def tidyMissing (t : TidyRun) (k : CtxId) (pos va : Nat) : TidyRun :=
  { t with st := (t.st.fqStall k (pos / 16) va 2 fqSump).modCtx k fun c =>
      { c with sumpStall := va / 2 ^ 16 :: c.sumpStall } }

/-- How many applications some symbols open more than they close, those of the chunks of their MARKs included: as the
chunk stands where it can be read, and otherwise as it was spilled (R78). -/
def netOf (s : State) (k : CtxId) (ws : List Word) : Int :=
  ws.foldl (fun n w =>
    if symTag w = tagAPPO then n + 1
    else if symTag w = tagAPPC then n - 1
    else if symTag w = tagMARK then
      n + match s.spilled k ((s.getCtx k).sump.length + 1) w with
        | some l => (l.countP fun x => symTag x == tagAPPO : Int) - (l.countP fun x => symTag x == tagAPPC)
        | none => Tbl.get 0 (s.getCtx k).sumpNet (field w 47 0)
    else n) 0

/-- One spill of a segment's 64 rightmost symbols (R151, R152, R155). A trap of it names the leftmost of them
(DESIGN CHOICE, log 97). -/
def spillOnce (t : TidyRun) (k : CtxId) (g : TidySeg) : TidyRun × TidySeg :=
  let c := t.st.getCtx k
  match freeChunks c 0 1 with
  | [] => (t, { g with apply := false })
  | i :: _ =>
    if c.sumpLimNow.toNat ≤ i then (t, { g with apply := false })
    else
      let va := chunkVa c i
      let out := g.items.drop (g.items.length - 64)
      let pos := itemPos g.seg out
      if sumpStalled c va then (t, { g with apply := false })
      else match t.st.access k va .sump true with
      | .missing => (tidyMissing t k pos va, { g with apply := false })
      | .fault cause =>
        (tidyTrap t k pos (if cause = causeSUMPRD then causePAGE else cause) .memory va, { g with apply := false })
      | .at pa _ =>
        if t.st.arg.val.toNat = t.moves + 1 then
          let t := { t with st := t.st.count telUncorrected 1 }
          (tidyTrap t k pos causeECC .machine va, { g with apply := false })
        else
          let s := t.st.storeBytes pa (bytesOfWords (out.map Prod.snd))
          let net := t.st.netOf k (out.map Prod.snd)
          let s := s.modCtx k fun c => { c with sump := Tbl.set c.sump i (word va), sumpNet := Tbl.set c.sumpNet va net }
          ({ t with st := s, moves := t.moves + 1 },
           { g with spilt := true
                    items := g.items.take (g.items.length - 64) ++ [(some pos, mkSym tagMARK k va)] })

/-- Spills until the segment fits (R152). -/
def spillSeg (k : CtxId) : Nat → TidyRun → TidySeg → TidyRun × TidySeg
  | 0, t, g => (t, g)
  | n + 1, t, g =>
    if !g.apply || g.items.length ≤ g.room then (t, g)
    else if g.room < 64 then (t, { g with apply := false })
    else
      let (t, g) := spillOnce t k g
      spillSeg k n t g

/-- The spills of a segment: those before a trap are undone, since its layout is not applied (R155). -/
def spillAll (k : CtxId) (t : TidyRun) (g : TidySeg) : TidyRun × TidySeg :=
  let (u, h) := spillSeg k g.items.length t g
  if h.apply then (u, h)
  else
    ({ u with st := u.st.modCtx k fun c => { c with sump := (t.st.getCtx k).sump } }, { h with items := g.items })

/-- The chunk of the sump at a virtual address is free again, or once the draining checkpoint that records it ends
(R151, R157). -/
def dropChunk (c : Ctx) (va : Nat) : Ctx :=
  match c.sump.find? fun p => p.2.toNat == va && !c.sumpDrain.contains p.1 with
  | none => c
  | some p =>
    match c.drain with
    | some d =>
      if d.sump.contains p.1 then { c with sumpDrain := p.1 :: c.sumpDrain } else { c with sump := Tbl.erase c.sump p.1 }
    | none => { c with sump := Tbl.erase c.sump p.1 }

/-- A recalled word passes R63: it is well formed and of the context; the zero word of FREE is both in context 0
(R60). -/
def recallOk (k : CtxId) (w : Word) : Bool := wellFormedSym w && symCtx w == k.val

/-- Up to n recalls of a segment (R154, R155); recalls that are due after those of the pass request another
(DEDUCED, log 49). -/
def recallSeg (k : CtxId) (rth : Nat) : Nat → TidyRun → TidySeg → TidyRun × TidySeg
  | 0, t, g =>
    if g.items.length + rth ≤ g.room && g.items.any fun x => symTag x.2 == tagMARK then
      ({ t with st := t.st.request k }, g)
    else (t, g)
  | n + 1, t, g =>
    if g.room < g.items.length + rth then (t, g)
    else
      let pre := g.items.takeWhile fun x => symTag x.2 != tagMARK
      match g.items.drop pre.length with
      | [] => (t, g)
      | m :: post =>
        let va := field m.2 47 0
        let pos := itemPos g.seg (m :: post)
        if sumpStalled (t.st.getCtx k) va then (t, g)
        else match t.st.access k va .sump true with
        | .missing => (tidyMissing t k pos va, g)
        | .fault cause =>
          (tidyTrap t k pos (if cause = causeSUMPRD then causePAGE else cause) .memory va, { g with apply := false })
        | .at pa _ =>
          if t.st.arg.val.toNat = t.moves + 1 then
            let t := { t with st := t.st.count telUncorrected 1 }
            (tidyTrap t k pos causeECC .machine va, { g with apply := false })
          else
            let ws := wordsOfBytes 64 (t.st.loadBytes pa 512)
            if !ws.all (recallOk k) then (tidyTrap t k pos causeSTRUCT .machine va, { g with apply := false })
            else
              let t := { t with st := t.st.modCtx k fun c => dropChunk c va, moves := t.moves + 1 }
              recallSeg k rth n t { g with items := pre ++ (ws.filter (· != 0)).map (fun w => (none, w)) ++ post }

/-- The recalls of a segment that took no spill; those before a trap are undone. -/
def recallAll (k : CtxId) (rth : Nat) (t : TidyRun) (g : TidySeg) : TidyRun × TidySeg :=
  if g.spilt || !g.apply then (t, g)
  else
    let (u, h) := recallSeg k rth 8 t g
    if h.apply then (u, h)
    else
      ({ u with st := u.st.modCtx k fun c =>
          { c with sump := (t.st.getCtx k).sump, sumpDrain := (t.st.getCtx k).sumpDrain } }, { h with items := g.items })

/-- A list of segments worked on one after another. -/
def overSegs (f : TidyRun → TidySeg → TidyRun × TidySeg) (t : TidyRun) (l : List TidySeg) : TidyRun × List TidySeg :=
  l.foldl (fun acc g =>
    let (t, h) := f acc.1 g
    (t, acc.2 ++ [h])) (t, [])

/-- The TIDY phase of a context: spills, recalls, layout (R145, R152, R154), and whether it trapped. -/
def tidyPhase (s : State) (k : CtxId) : State × Bool :=
  let c := s.getCtx k
  let (t, l) := overSegs (spillAll k) { st := s } (tidySegs c)
  let (t, l) := overSegs (recallAll k c.rthNow.toNat) t l
  (l.foldl (fun s g => s.applySeg k g) t.st, t.trapped)

/-! ### MARK (R71, R77 to R79, R126) -/

/-- The application depth at each placed symbol of a row, its own brackets included: what stands before it changes the
depth, a MARK by what its chunk holds, and a committed result without a place too (R78). -/
def depths (s : State) (k : CtxId) : Int → List Item → Tbl Nat
  | _, [] => []
  | d, (p, w) :: r =>
    let next := d + s.netOf k [w]
    let rest := s.depths k next r
    match p with
    | some p => (p, (if symTag w = tagAPPO then next else d).toNat) :: rest
    | none => rest

/-- The operator that a function part names: its OP atom, or the head of its form (R67, R68). -/
def funOp : List Word → BitVec 16
  | _ :: f :: h :: _ => if symTag f = tagFRMO then symOp h else symOp f
  | _ => 0

/-- The record of an application that MARK finds, with what an earlier record of it keeps (R79, R126, R135). -/
def markRedex (ad : Tbl Nat) (row : Row) (old : Option Redex) (x : Nat × Nat) : Redex :=
  let slots := Row.between row x.1 x.2
  let ann := annotate ad 0 {} slots
  let r : Redex :=
    { state := .innermost, op := funOp (slots.map Prod.snd), first := x.1 / 16, last := x.2 / 16, appc := x.2
      len := slots.length, elems := countElems ann, ann := ann }
  match old with
  | some o => { r with sdc := o.sdc, loadFails := o.loadFails, cause := o.cause }
  | none => r

/-- A context ends DONE: no application symbol, and no redex that waits for a commit or a fate (R98). -/
def finished (s : State) (k : CtxId) : Bool :=
  let c := s.getCtx k
  c.state == .running && c.redexes.isEmpty && c.unplaced.isEmpty &&
    (s.wholeExpr k).all fun w => symTag w != tagAPPO && symTag w != tagMARK

/-- The MARK phase of a context (R126, R330, R98). -/
def markPhase (s : State) (k : CtxId) : State :=
  let c := s.getCtx k
  let row := c.pockets
  let ad := s.depths k 0 (rowItems c)
  let kept := c.redexes.filter fun p => p.2.active
  let found := (innermost (rowItems c)).filter fun x => !kept.any fun p => p.1 == x.1
  let redexes := found.foldl (fun t x => Tbl.set t x.1 (markRedex ad row (Tbl.find c.redexes x.1) x)) kept
  let frozen (p : Nat) : Bool := redexes.any fun r => r.1 ≤ p && p ≤ r.2.appc
  let s := s.modCtx k fun c =>
    { c with
      redexes := redexes
      ann := (ad.filter fun x => !frozen x.1).map fun x => (x.1, outsideAnn x.2) }
  let s := s.modCtx k fun c =>
    { c with stations := c.stations.map fun t => (t.1, { t.2 with quiescent := s.quiet k t.1 }) }
  if s.finished k then
    (s.modCtx k fun c => { c with state := .done }).signal (8 * k.val + 4)
  else s

end State

/-- PASS_ARBITRATION: the free tree begins a pass of the context that R103 picks; none is served from the time a bridge
is DOWN until it is UP again (R389). -/
def execPassArbitration (s : State) : Out :=
  match s.pass, s.nextServed with
  | none, some k => .next (if s.bridgesUp then s.beginPass k else s)
  | _, _ => .next s

/-- COMMIT (R12, R123). -/
def execCommit (s : State) : Out :=
  .next (s.inPhase .commit fun p => (s.commitPhase p.ctx).nextPhase .tidy)

/-- TIDY (R12, R145): a trap ends the pass. An error that the CRC let pass in a flit of the row, for the cell numbered
one less than the event's idx, is an ECC fault there: no layout is applied, and the context traps (R160, R388). -/
def execTidy (s : State) : Out :=
  .next (s.inPhase .tidy fun p =>
    let (t, trapped) := s.tidyPhase p.ctx
    let moved := (t.getCtx p.ctx).pockets != (s.getCtx p.ctx).pockets
    if moved && s.arg.idx ≠ 0 then
      ((s.count State.telUncorrected 1).trap p.ctx
        (s.passRec (16 * ((s.arg.idx - 1) % 2048)) false causeECC .machine none)).passOver p.ctx
    else if trapped then t.passOver p.ctx
    else { t with pass := some { p with phase := .mark, repeats := 0 } })

/-- MARK (R12, R126): a context that it leaves DONE has nothing to launch. -/
def execMark (s : State) : Out :=
  .next (s.inPhase .mark fun p => (s.markPhase p.ctx).nextPhase .launch)

end Sys2Proof.Machine
end

