-- ==== Sys2Proof/Machine/Launch.lean ====
section
/-! DEFINITION. LAUNCH: the causes that hold a redex back, the load of its operator, its queue entries, stations and
SUMPFULL (R72, R92, R127 to R130, R158, R190, R327), and the launch queue's pick with the urgent right (R105 to R107,
R367, R368). -/

namespace Sys2Proof.Machine

/-! ### Built-ins (R175) -/

/-- The code words of a built-in; none where the number is not listed (R175). -/
def builtinCode (op : BitVec 16) : Option Nat :=
  match op.toNat with
  | 0x01 => some 28 | 0x02 => some 36 | 0x03 => some 32 | 0x04 => some 36 | 0x05 => some 40
  | 0x06 => some 30 | 0x07 => some 26 | 0x08 => some 14 | 0x09 => some 24 | 0x0A => some 18
  | 0x10 => some 6 | 0x11 => some 24 | 0x12 => some 20 | 0x13 => some 18 | 0x14 => some 60
  | 0x15 => some 40 | 0x16 => some 40 | 0x17 => some 24 | 0x18 => some 24 | 0x19 => some 36
  | 0x1A => some 22 | 0x1B => some 28 | 0x1C => some 16
  | 0x20 | 0x21 | 0x22 | 0x23 | 0x24 | 0x25 | 0x26 | 0x27 | 0x28 | 0x29 | 0x2A | 0x2B | 0x2C => some 72
  | 0x30 => some 40 | 0x40 => some 56 | 0x41 => some 60 | 0x42 => some 64 | 0x43 => some 30 | 0x44 => some 34
  | 0x50 => some 10 | 0x51 => some 0
  | _ => none

namespace State

/-- The code words of an operator that a context defines; none where it is undefined in the context (R67). -/
def codeLength (s : State) (k : CtxId) (op : BitVec 16) : Option Nat :=
  if isBuiltin op then builtinCode op else (s.defined k op).map fun o => o.code.length

/-! ### Caches (R130) -/

/-- The code words of an operator that a cache holds. -/
def cachedLength (s : State) (op : Nat) : Nat :=
  if isBuiltin (BitVec.ofNat 16 op) then (builtinCode (BitVec.ofNat 16 op)).getD 0
  else match s.operator (BitVec.ofNat 16 op) with
    | some o => o.code.length
    | none => 0

/-- An operator is pinned in a cell (R130). -/
def pinnedOp (s : State) (cell op : Nat) : Bool := s.execs.any fun p => p.1 / 256 = cell && p.2.op.toNat == op

/-- The operators of a cache from the least recently launched; of those launched in one cycle the lower number comes
first (DESIGN CHOICE, log 66). -/
def byAge (l : Tbl Nat) : List (Nat × Nat) :=
  l.foldl (fun acc x => acc.takeWhile (fun y => y.2 ≤ x.2) ++ [x] ++ acc.dropWhile (fun y => y.2 ≤ x.2)) []

/-- A cache that takes an operator of n words, its unpinned operators leaving until it fits (R130). -/
def evictFor (s : State) (cell n : Nat) : List (Nat × Nat) → Tbl Nat → Option (Tbl Nat)
  | l, t =>
    let fits (t : Tbl Nat) : Bool :=
      t.length < 8 && (t.foldl (fun m x => m + s.cachedLength x.1) 0) + n ≤ 2048
    if fits t then some t
    else match l with
      | [] => none
      | x :: r => if s.pinnedOp cell x.1 then s.evictFor cell n r t else s.evictFor cell n r (Tbl.erase t x.1)

/-- The cache of a cell with an operator in it; none where it cannot take it (R130). -/
def cacheWith (s : State) (cell : Nat) (op : BitVec 16) (n : Nat) : Option (Tbl Nat) :=
  let t := (s.getCell cell).cache
  if (Tbl.find t op.toNat).isSome then some t else s.evictFor cell n (byAge t) t

/-! ### What keeps a redex INNERMOST (R128, R190, R327) -/

def causeWAIT : BitVec 8 := 1
def causeWIDTH : BitVec 8 := 2
def causeQUEUE : BitVec 8 := 3
def causeCACHE : BitVec 8 := 4
def causeLOAD : BitVec 8 := 5
def causeINBOX : BitVec 8 := 6

/-- What LAUNCH runs for a redex: the operator, the gang it asks for, and a station's cap. -/
structure Plan where
  op   : BitVec 16
  gang : Nat
  code : Nat
  cap  : Option Nat := none
  deriving Repr, DecidableEq

/-- The plan of a redex, or the cause with which LAUNCH discards it (R67, R190). -/
def planOf (s : State) (k : CtxId) (ws : List Word) : Except Cause Plan :=
  let op := funOp ws
  match s.codeLength k op with
  | none => .error causeUNDEFOP
  | some n =>
    if op ≠ 0x51 then .ok { op := op, code := n, gang := match s.defined k op with
      | some o => o.gang
      | none => 1 }
    else match ws with
      | _ :: o :: h :: f :: cap :: c :: _ =>
        if symTag o ≠ tagFRMO || symTag f ≠ tagOP || field h 31 0 ≠ 0 then .error causeTYPE
        else match s.codeLength k (symOp f), s.defined k (symOp f) with
          | none, _ => .error causeUNDEFOP
          | some _, none => .error causeTYPE
          | some m, some i =>
            let n := field cap 47 0
            if i.sta && symTag cap = tagINT && symTag c = tagFRMC && 1 ≤ n && n ≤ i.stcap then
              .ok { op := symOp f, gang := i.gang, code := m, cap := some n }
            else .error causeTYPE
      | _ => .error causeTYPE

/-- The cells of a span. -/
def spanCells (r : Redex) : List Nat := (List.range (width r)).map fun i => r.first + i

/-- The chunks of an inbox (R327). -/
def inboxChunks (cap : Nat) : Nat := (cap + 1) / 2 + (cap + 63) / 64

/-- The lowest station number that a context has free (R327). -/
def freeStation (c : Ctx) : Option Nat := (List.range 64).find? fun i => (Tbl.find c.stations i).isNone

/-- The first cause, in the order of R128, that keeps a redex INNERMOST. -/
def heldBack (s : State) (k : CtxId) (r : Redex) (p : Plan) : Option (BitVec 8) :=
  if width r < p.gang then some causeWIDTH
  else if s.queueFull r then some causeQUEUE
  else if (spanCells r).any fun c => (s.cacheWith c p.op p.code).isNone then some causeCACHE
  else match p.cap with
    | none => none
    | some cap =>
      if (freeStation (s.getCtx k)).isNone || ((s.getCell r.first).topChunks (inboxChunks cap)).isNone then
        some causeINBOX
      else none

/-! ### The launch of a redex (R127) -/

/-- A load of the context is interrupted: a trap, an urgent HOLD, or an EVICT (R129). -/
def interrupted (c : Ctx) : Bool := c.state == .trapped || c.state == .evicting || urgentHold c

/-- The lowest free entry of a cell's launch queue (R367). -/
def freeQueueEntry (s : State) (cell : Nat) : Option Nat :=
  (List.range 256).find? fun i => (s.getExec (256 * cell + i)).isNone

/-- The operator's place in a member cell's cache, and the member's place in its launch queue (R88, R92, R130, R367). A
member whose cell is still to be sent the code for another redex waits for that load too (R127). -/
def startMember (s : State) (k : CtxId) (appo : Nat) (r : Redex) (p : Plan) (serial : BitVec 32) (cell : Nat) : State :=
  let new := (Tbl.find (s.getCell cell).cache p.op.toNat).isNone ||
    s.execs.any fun x => x.1 / 256 = cell && x.2.op == p.op && x.2.newCode
  let s := match s.cacheWith cell p.op p.code with
    | some t => s.modCell cell fun c => { c with cache := Tbl.set t p.op.toNat s.clk.toNat }
    | none => s
  match s.freeQueueEntry cell with
  | some i => s.setExec (256 * cell + i)
      { ctx := k, appo := appo, rank := cell - r.first, op := p.op, status := .loading, rand := randLaunch cell serial
        newCode := new }
  | none => s

/-- A launch serial: that of the first launch when the redex is replayed, and otherwise the context's launch count,
which goes on (R92, R127). -/
def takeSerial (s : State) (k : CtxId) (appo : Nat) (r : Redex) : State × BitVec 32 :=
  match r.serial with
  | some n => (s, n)
  | none =>
    let n := (s.getCtx k).launches
    ((s.modCtx k fun c => { c with launches := n + 1 }).modRedex k appo fun r => { r with serial := some n }, n)

/-- A station bound, with its inbox (R327, R328). -/
def bindStation (s : State) (k : CtxId) (appo : Nat) (r : Redex) (cap : Nat) : State :=
  match freeStation (s.getCtx k), (s.getCell r.first).topChunks (inboxChunks cap) with
  | some i, some l =>
    let st : Station := { id := s.nextId, appo := appo, cell := r.first, state := .bound, cap := cap, chunks := l }
    (s.fresh.modCell r.first fun c => { c with taken := l ++ c.taken }).modCtx k fun c =>
      { c with stations := Tbl.set c.stations i st }
  | _, _ => s

/-- A station whose members hold f is OPEN (R328). -/
def openStation (appo : Nat) (st : Station) : Station :=
  if st.appo = appo ∧ st.state = .bound then { st with state := .opened } else st

/-- Every member cell holds the code: the redex is RUNNING, its station OPEN, its members are queued, and a failed load
before this one no longer counts (R127, R129: DEDUCED, log 30). -/
def startRedex (s : State) (k : CtxId) (appo : Nat) : State :=
  (s.members k appo).foldl (fun s p =>
    s.setExec p.1 { p.2 with status := .queued, age := s.clk.toNat, newCode := false })
    ((s.modRedex k appo fun r => { r with state := .running, loadFails := 0 }).modCtx k fun c =>
      { c with stations := c.stations.map fun t => (t.1, openStation appo t.2) })

/-- A redex launches (R127): its serial, its station, and its members' places; it is LOADING while the code that a
member cell lacks is sent (R129). A context that is TRAPPED, EVICTING or under an urgent HOLD starts none: its redexes
show the cause LOAD, as those do whose load it interrupts (DESIGN CHOICE, log 67). -/
def launchNow (s : State) (k : CtxId) (appo : Nat) (r : Redex) (p : Plan) : State :=
  if interrupted (s.getCtx k) then s.modRedex k appo fun r => { r with cause := causeLOAD }
  else
    let (s, serial) := s.takeSerial k appo r
    let s := match p.cap with
      | some cap => s.bindStation k appo r cap
      | none => s
    let s := s.modRedex k appo fun r => { r with state := .loading, op := p.op, cause := 0, station := p.cap.isSome }
    let s := (spanCells r).foldl (fun s c => s.startMember k appo r p serial c) s
    if (s.members k appo).any fun p => p.2.newCode then s else s.startRedex k appo

/-- LAUNCH of one INNERMOST redex: WAIT, strictness, the operator, and the other causes, in this order (R71, R72, R127,
R128). -/
def launchOne (s : State) (k : CtxId) (appo : Nat) : State :=
  match s.getRedex k appo with
  | none => s
  | some r =>
    if r.state ≠ .innermost then s
    else
      let ws := (Row.between (s.getCtx k).pockets appo r.appc).map Prod.snd
      if ws.any fun w => symTag w == tagWAIT then s.modRedex k appo fun r => { r with cause := causeWAIT }
      else match ws.find? fun w => symTag w == tagBOT with
        | some b => s.modRedex k appo fun r =>
            { r with state := .halted, out := [(0, [b])], serial := none, cause := 0 }
        | none =>
          match s.planOf k ws with
          | .error c => s.passFault k appo c .value
          | .ok p =>
            match s.heldBack k r p with
            | some c => s.modRedex k appo fun r => { r with cause := c }
            | none => s.launchNow k appo r p

/-! ### SUMPFULL (R158) -/

/-- A redex other than a station that is LOADING, RUNNING, WAITING or HALTED. -/
def busyRedex (c : Ctx) (p : RedexAt) : Bool := p.2.busy && !c.stations.any fun t => t.2.appo == p.1

/-- The redex that SUMPFULL names, when the context can make no progress for want of space: a redex that this LAUNCH
started or halted is busy itself. -/
def sumpFull (c : Ctx) (admitted started : Bool) : Option Nat :=
  let spaces := c.redexes.filter fun p => p.2.state == .commitPending && p.2.cause == causeSPACE
  if admitted || started || c.redexes.any (busyRedex c) ||
      c.redexes.any (fun p => p.2.state == .commitPending && p.2.cause == causeSUMPPAGE) then none
  else spaces.head?.map Prod.fst

/-! ### The loads (R129) -/

/-- Code that a load brought leaves the caches of its cells; the redex is INNERMOST again with cause LOAD, and its next
launch takes a serial of its own, unless it is replayed or the failed load is to discard it (R92, R129, R135). -/
def dropLoad (s : State) (k : CtxId) (appo : Nat) (last : Bool) : State :=
  let l := (s.members k appo).filter fun p => p.2.newCode
  let s := (s.discard k appo).modRedex k appo fun r =>
    { r with state := .innermost, cause := causeLOAD, serial := if r.replayed || last then r.serial else none }
  l.foldl (fun s p => if s.pinnedOp (p.1 / 256) p.2.op.toNat then s
    else s.modCell (p.1 / 256) fun c => { c with cache := Tbl.erase c.cache p.2.op.toNat }) s

/-- The load of a redex meets the uncorrectable chandlery error of the event, in its gallery (R129). -/
def loadErr (s : State) (k : CtxId) (appo : Nat) : Bool :=
  s.arg.bad && (s.members k appo).any fun p => p.2.newCode && galOf (p.1 / 256) == s.arg.gal.val

/-- The load of a redex ends: it has succeeded, or failed, the second time with LOADFAULT (R129). -/
def endLoad (s : State) (k : CtxId) (appo : Nat) : State :=
  match s.getRedex k appo with
  | none => s
  | some r =>
    if s.loadErr k appo then
      let s := (s.dropLoad k appo (r.loadFails != 0)).count telUncorrected 1
      if r.loadFails = 0 then s.modRedex k appo fun r => { r with loadFails := 1 }
      else s.passFault k appo causeLOADFAULT (classOf causeLOADFAULT (isBuiltin r.op))
    else s.startRedex k appo

/-- The LOADING redexes of a context. -/
def loadingOf (c : Ctx) : List RedexAt := c.redexes.filter fun p => p.2.state == .loading

/-- Every load of a context is interrupted (R129). -/
def dropLoads (s : State) (k : CtxId) : State := (loadingOf (s.getCtx k)).foldl (fun s p => s.dropLoad k p.1 false) s

/-- The next load of a LAUNCH ends: the operators come in ascending number (R140); an interruption ends all (R129). -/
def loadPhase (s : State) (k : CtxId) : State :=
  let l := loadingOf (s.getCtx k)
  if interrupted (s.getCtx k) then s.dropLoads k
  else
    let op := l.foldl (fun m p => min m p.2.op.toNat) 65536
    (l.filter fun p => p.2.op.toNat == op).foldl (fun s p => s.endLoad k p.1) s

/-- The LAUNCH phase of a context (R127, R158). The record of SUMPFULL, which no operator raises, has NR 0
(DESIGN CHOICE, log 98). -/
def launchPhase (s : State) (k : CtxId) (admitted : Bool) : State :=
  let l := ((s.getCtx k).redexes.filter fun p => p.2.state == .innermost).map Prod.fst
  let t := l.foldl (fun s a => s.launchOne k a) s
  let started := l.any fun a => match t.getRedex k a with
    | some r => r.busy
    | none => false
  match sumpFull (t.getCtx k) admitted started with
  | some a => t.trap k (t.passRec a false causeSUMPFULL .machine none)
  | none => t

/-! ### The launch queue (R107, R367, R368) -/

/-- An execution can be picked: it is ready, in a RUNNING context, and with every save area taken it frees one
(R107, R368). -/
def pickable (s : State) (cell : Nat) (p : Nat × Exec) : Bool :=
  p.1 / 256 = cell && (s.getCtx p.2.ctx).state == .running &&
    match p.2.status with
    | .queued => (s.freeArea cell).isSome
    | .ready => (s.freeArea cell).isSome || p.2.area.isSome
    | .suspended => true
    | .loading | .live | .parked => false

/-- Entry a comes before entry b in the order of R368. -/
def pickedBefore (s : State) (a b : Nat × Exec) : Bool :=
  let ea := effPriority (s.getCtx a.2.ctx)
  let eb := effPriority (s.getCtx b.2.ctx)
  if ea ≠ eb then eb < ea
  else if a.2.ctx = b.2.ctx && a.2.status ≠ b.2.status && (a.2.status = .suspended || b.2.status = .suspended) then
    a.2.status == .suspended
  else if a.2.age ≠ b.2.age then a.2.age < b.2.age
  else if a.2.appo ≠ b.2.appo then a.2.appo < b.2.appo
  else a.2.ctx < b.2.ctx

/-- The first of some entries. -/
def firstPick (s : State) (l : List (Nat × Exec)) : Option (Nat × Exec) :=
  l.foldl (fun best p => match best with
    | none => some p
    | some b => if s.pickedBefore p b then some p else some b) none

/-- The entry that a free cell picks: the first of each context, and of those the first (R368). -/
def pick (s : State) (cell : Nat) : Option (Nat × Exec) :=
  let l := s.execs.filter (s.pickable cell)
  s.firstPick (([0, 1, 2, 3] : List CtxId).filterMap fun k => s.firstPick (l.filter fun p => p.2.ctx = k))

end State

/-- LAUNCH (R127): it starts what it can, and then ends its loads one after another, with which the phase ends; it takes
no root result and is never repeated (R12, R140). -/
def execLaunch (s : State) : Out :=
  .next (s.inPhase .launch fun p =>
    let t := if (State.loadingOf (s.getCtx p.ctx)).isEmpty then s.launchPhase p.ctx p.admitted else s.loadPhase p.ctx
    if (State.loadingOf (t.getCtx p.ctx)).isEmpty then t.passOver p.ctx else t)

/-- LAUNCH_QUEUE_PICK: a cell with no live execution picks the entry that R368 names, which becomes live (R106, R131,
R132). -/
def execLaunchQueuePick (s : State) : Out :=
  let c := s.arg.cell.val
  if (s.liveOf c).isSome || (s.getCell c).failed then .next s
  else match s.pick c with
    | some (k, e) => .next (s.unpark k e)
    | none => .next s

/-- A queued execution of an urgent context of higher base priority, which the free cell would pick, takes the place of
the live one (R105). -/
def State.preempts (s : State) (c : Nat) (e : Exec) : Bool :=
  match s.pick c with
  | some (_, x) =>
    let r := (s.getCtx x.ctx).regs
    r.urg && (s.getCtx e.ctx).regs.bp < r.bp
  | none => false

/-- URGENT_PREEMPT: the live execution of a cell is suspended, for one of an urgent context of higher base priority, or
because its context is TRAPPED (R105, R106, R110). -/
def execUrgentPreempt (s : State) : Out :=
  let c := s.arg.cell.val
  match s.liveOf c with
  | some (k, e) =>
    if s.preempts c e || (s.getCtx e.ctx).state == .trapped then .next (s.suspend k e) else .next s
  | none => .next s

end Sys2Proof.Machine
end

