-- ==== Sys2Proof/Machine/Evict.lean ====
section
/-! DEFINITION. Giving up a context's place in the part: what EVICT waits for, the pending events of its closing, and
the freeing of everything of a context, which RETIRE shares (R97, R100, R112, R113). -/

namespace Sys2Proof.Machine

/-- The operator numbers that some context's table holds (R97). -/
def opsInUse (s : State) : List Nat := s.ctxs.toArray.toList.flatMap fun c => c.ops.map BitVec.toNat

namespace State

/-! ### What is still under way (R112, R326) -/

/-- A chunk of a firing waits for presence or a page (R286, R292, R375). -/
def chunkWaits (s : State) (cell : Nat) (e : Exec) (f : Firing) (c : Nat) : Bool :=
  chunkStalled f c ||
    match s.readChunk cell e f c with
    | .wait _ => true
    | _ => false

/-- Nothing of a firing is under way but what waits for presence or a page, as the rest of a chunk may of which some
lines have gone. -/
def firingRests (s : State) (cell : Nat) (e : Exec) (f : Firing) : Bool :=
  f.unacked.isEmpty && (f.landed &&& bitRange f.first f.last != bitRange f.first f.last) &&
    (List.range (f.last + 1 - f.first)).all fun i =>
      f.landed.getLsbD (f.first + i) || s.chunkWaits cell e f (f.first + i)

/-- Every firing of a context rests, of those that a test of the firing picks. -/
def firingsRest (s : State) (k : CtxId) (p : Firing → Bool) : Bool :=
  s.cells.all fun c => (List.range 8).all fun i =>
    let t := vget {} c.2.tmpls i
    match t.firing, s.tmplOwner c.1 t with
    | some f, some (_, e) => e.ctx != k || !p f || s.firingRests c.1 e f
    | _, _ => true

/-- Every system-space access of a context, every word that its copies have sent, and every line of it sent to another
part, has completed. -/
def accessesDone (s : State) (k : CtxId) : Bool :=
  s.mem.accs.all (fun a => a.ctx != k) && s.mem.copyOut.all (fun w => w.ctx != k) &&
    s.fab.sent.all fun m => m.ctx != k || m.firing == 0

/-- The image of an eviction can be closed: the pass is over, and no engine, access, walk or request is under way but
what waits for presence or a page (R112). -/
def evictReady (s : State) (k : CtxId) : Bool :=
  let passOver := match s.pass with
    | some p => p.ctx != k
    | none => true
  passOver && s.execs.all (fun p => p.2.ctx != k || p.2.status != .live) && (s.getCtx k).drain.isNone
    && s.accessesDone k && s.firingsRest k (fun _ => true) && (s.mem.walks.all fun w => w.ctx != k)
    && (s.fab.asks.all fun a => match a.exec with
        | some key => match s.getExec key with
          | some e => e.ctx != k
          | none => true
        | none => true)
    && (s.getCtx k).rowsIn.all fun r => (s.rowVec r).isSome
    && s.cells.all fun c => c.2.tiles.all fun t => t.2.ctx != k || !t.2.sealing

/-! ### Pending events (R113) -/

/-- Messages still in flight at the closing. -/
def noteMessages (s : State) (k : CtxId) : State :=
  ((s.getCtx k).msgs).foldl (fun s m => s.noteMessage k m) s

/-- Rows still in flight at the closing: DROP answers those to a station that is gone. -/
def noteRows (s : State) (k : CtxId) : State :=
  ((s.getCtx k).rowsIn).foldl (fun s r => s.noteRow k r ((s.rowVec r).getD zeroVec)) s

/-- Returns still in flight at the closing. -/
def noteReturns (s : State) (k : CtxId) : State :=
  ((s.getCtx k).rets).foldl (fun s r => s.noteReturn k r) s

/-- Span collectives that every member has joined; an MMAG completes with its ranks' blocks, which a saved rank goes on
with. -/
def noteColls (s : State) (k : CtxId) : State :=
  ((s.getCtx k).colls).foldl (fun s x =>
    match s.getRedex k x.appo with
    | some r => if !x.mmag && x.joins.length = width r then s.noteColl k x else s
    | none => s) s

/-- Everything that is still in flight to a saved execution at the closing stands in the pending events, after those
that came before (R113). -/
def noteInFlight (s : State) (k : CtxId) : State :=
  (((s.noteMessages k).noteRows k).noteReturns k).noteColls k

/-! ### Freeing a context (R97, R112, R157) -/

/-- The chunks of tile space in a cell that a context holds outside tiles. -/
def ctxChunks (s : State) (k : CtxId) (cell : Nat) : List Nat :=
  let c := s.getCtx k
  (s.execs.filter fun p => p.1 / 256 = cell && p.2.ctx = k).flatMap (fun p => p.2.frame)
    ++ (c.redexes.flatMap fun p => (p.2.chunks.filter fun x => x.1 = cell).map Prod.snd)
    ++ (c.stations.flatMap fun p => if p.2.cell = cell then p.2.chunks else [])
    ++ ((s.getCell cell).rat.flatMap fun p => if p.2.ctx = k then p.2.chunks else [])

/-- A cell without what a context holds in it; a tile that a draining checkpoint pins is PENDFREE until its chunks have
drained (R274, R277). -/
def clearCell (s : State) (k : CtxId) (cell : Nat) : State :=
  let gone := s.ctxChunks k cell
  let holder (entry : Nat) : Bool := match s.getExec (256 * cell + entry) with
    | some e => e.ctx = k
    | none => false
  s.modCell cell fun c =>
    { c with
      tiles := c.tiles.filterMap fun t =>
        if t.2.ctx ≠ k then some t
        else if t.2.pin then some (t.1, { t.2.freed with reads := 0, sealing := false, working := false, ownx := 0xFFFF })
        else none
      taken := c.taken.filter fun n => !gone.contains n
      areas := c.areas.filter fun a => !holder a.2
      tmpls := tabulate 8 fun i =>
        let t := vget {} c.tmpls i
        let t := if (t.owner.map Prod.fst) = some k then t.disarmed else t
        { t with
          chain := if (t.chain.map fun x => x.owner.1) = some k then none else t.chain
          pending := t.pending.filter fun p => p.owner.1 != k }
      rat := c.rat.filter fun r => r.2.ctx != k }

/-- Everything that the part holds for a context is freed; its registers, its readback window, a checkpoint that drains
and what is on its way to stations and origins that are gone stay, and so does the operator table of a context that is
only EVICTED (R97, R100, R112). The part's own map of sump chunks is emptied at an eviction too, whose image holds it
(DEDUCED, log 86), and W is 0 (DESIGN CHOICE, log 95). -/
def clearContext (s : State) (k : CtxId) (st : CtxState) : State :=
  let s := (s.cells.map Prod.fst).foldl (fun s c => s.clearCell k c) s
  let accs := s.mem.accs.map fun (a : Access) => if a.ctx = k then { a with dest := none, entry := 256 } else a
  let mem := { s.mem with
    accs := accs, walks := s.mem.walks.filter (fun w => w.ctx != k)
    redRecs := s.mem.redRecs.filter fun r => r.ctx != k }
  let fab := { s.fab with
    sent := s.fab.sent.map fun (m : FabMsg) => if m.ctx = k then { m with firing := 0 } else m
    stalled := s.fab.stalled.filter fun x => x.2.1 != k }
  let s := { s with execs := s.execs.filter fun p => p.2.ctx != k, mem := mem, fab := fab }
  s.modCtx k fun c =>
    { state := st, retired := st == .free, regs := { c.regs with waited := 0 }, rowsIn := c.rowsIn, rets := c.rets, pendStatus := c.pendStatus, found := c.found
      cmd0 := c.cmd0, cmd1 := c.cmd1, cmd2 := c.cmd2, ops := if st = .evicted then c.ops else []
      window := c.window, drain := c.drain.map fun (d : Drain) => { d with sump := [] } }

/-- An operator that no context's table holds any longer leaves the chandlery (R97). One that no table ever held, as an
OPREG with an empty mask leaves it, or that a RESTORE took out of the last table, goes with the next RETIRE of any
context (DESIGN CHOICE, log 69). -/
def freeOperators (s : State) : State :=
  { s with dev := { s.dev with ops := s.dev.ops.filter fun o => (opsInUse s).contains o.1 } }

/-- Every station of a context is discarded, and the tickets that members hold are answered DROP (R328, R331). -/
def dropRoutes (s : State) (k : CtxId) : State :=
  let s := (s.execs.filter fun p => p.2.ctx = k).foldl (fun s p => s.dropTickets p.1 p.2) s
  (s.getCtx k).stations.foldl (fun s p => s.endStation k p.1 p.2) s

/-- RETIRE (R97, R100, R331). -/
def retire (s : State) (k : CtxId) : State := ((s.dropRoutes k).clearContext k .free).freeOperators

end State

end Sys2Proof.Machine
end

