-- ==== Sys2Proof/Machine/LoadImage.lean ====
section
/-! DEFINITION. Reading an image, and LOAD: the placing of a load image's expression and tiles (R24, R25, R62, R63, R69,
R116, R406, R407). -/

namespace Sys2Proof.Machine

/-! ### An image and its header (R116, R117) -/

namespace State

/-- n words of an image at a source: this part's HBM, host memory, or a remote part, whose words the event brings
(R117, DESIGN CHOICE, log 16). -/
def readSource (s : State) (source addr n : Nat) : List Word :=
  if source = 0 then wordsOfBytes n (s.loadBytes (addr % 2 ^ 40) (8 * n))
  else if source = 1 then wordsOfBytes n (s.mem.host.readBytes (addr % 2 ^ 64) (8 * n))
  else s.arg.words.take n ++ List.replicate (n - s.arg.words.length) 0

/-- A cell of the part has failed since its reset (R9). -/
def cellFailed (s : State) : Bool := s.cells.any fun c => c.2.failed

end State

/-- A directory word lies inside an image of n chunks. -/
def dirWordOk (n : Nat) (w : Word) : Bool :=
  field w 63 32 == 0 || (1 ≤ field w 31 0 && field w 31 0 + field w 63 32 ≤ n)

/-- A header chunk of a kind whose directory is words 8 to a last (R116): reserved bits zero, every part written, DONE,
and every section inside the image. -/
def headerOk (h : List Word) (kind last : Nat) : Bool :=
  let w0 := h.getD 0 0
  field w0 7 0 == kind && fieldZero w0 31 28 && fieldZero w0 23 21 && !w0.getLsbD 11 &&
    h.getD 1 0 == BitVec.allOnes 64 && h.getD 2 0 == 1 <<< 63 &&
    (List.range 56).all fun i =>
      if 8 + i ≤ last then dirWordOk (field w0 63 32) (h.getD (8 + i) 0) else h.getD (8 + i) 0 == 0

/-- The words of a section of an image (R116). -/
def imgSection (img : List Word) (n : Nat) : List Word :=
  let d := img.getD n 0
  (img.drop (64 * field d 31 0)).take (64 * field d 63 32)

/-- Words without the zero words at their end. -/
def trimWords (ws : List Word) : List Word := (ws.reverse.dropWhile (· == 0)).reverse

/-! ### LOAD (R24, R25, R407) -/

namespace State

/-- A tile placed for LOAD or RESTORE at an entry, its chunks holding the words given (R25, R114). -/
def putTile (s : State) (cell i : Nat) (t : Tile) (ws : List Word) : State :=
  s.modCell cell fun c =>
    { c.setTile i t with scratch := c.scratch.write (512 * t.base) (bytesOfWords ws) }

/-- One scratch tile of a load image: its record, the expression's layout, and the section that holds it (R25, R406). -/
def loadTile (s : State) (k : CtxId) (row : Row) (sec : List Word) (rec : Word) : Except Byte State :=
  match row[field rec 31 0]? with
  | none => .error 4
  | some (pos, w) =>
    let start := field rec 47 32
    match fmtOfCode (field w 57 53) with
    | none => .error 4
    | some f =>
      let n := fmtChunks f
      if symTag w ≠ tagTILE || w.getLsbD 52 || sec.length < 64 * (start + n) then .error 4
      else match s.freeEntry (pos / 16), (s.getCell (pos / 16)).lowRun n with
        | some i, some b =>
          let t : Tile :=
            { base := b, count := n, fmt := f, ctx := k, state := .shared, bitmap := bitRange 0 (n - 1) }
          let sym := mkSym tagTILE k (f.code.toNat * 2 ^ 53 + pos / 16 * 2 ^ 32 + i)
          .ok ((s.putTile (pos / 16) i t ((sec.drop (64 * start)).take (64 * n))).modCtx k fun c =>
            { c with pockets := Tbl.set c.pockets pos sym })
        | _, _ => .error 5

/-- The scratch tiles of a load image, in declaration order. -/
def loadTiles (s : State) (k : CtxId) (row : Row) (sec : List Word) : List Word → Except Byte State
  | [] => .ok s
  | r :: rs => match s.loadTile k row sec r with
    | .ok s => s.loadTiles k row sec rs
    | .error e => .error e

/-- The records of section 9: a record names a chunk after the records themselves (R406, DESIGN CHOICE, log 28). -/
def tileRecs (sec : List Word) : List Word :=
  (sec.take (64 * field (sec.getD 0 0) 47 32)).takeWhile fun r => field r 47 32 != 0

/-- The heap words of a load image with their physical addresses; none where one lies in no writable heap page of the
context, or is present (R407). -/
def heapWords (s : State) (k : CtxId) (va : Nat) : List Word → Option (List (Nat × Word))
  | [] => some []
  | w :: ws =>
    match s.access k va .heap true, s.heapWords k (va + 8) ws with
    | .at pa _, some l => if s.present pa then none else some ((pa, w) :: l)
    | _, _ => none

/-- The registers that LOAD and RESTORE set (R104, R108, R118, R144, R209, R376): BP, URG and S as given. Of CKPTST
only SEQ starts anew: ERR, SKIP and BUF stay as the last checkpoint of the context number left them
(DESIGN CHOICE, log 71). -/
def freshRegs (r : CtxRegs) (bp : BitVec 4) (urg : Bool) (sp : BitVec 4) : CtxRegs :=
  { r with
    bp := bp, urg := urg, waited := 0, tmask := 0x13, tmaskAt := none, rth := 128, spread := sp, bken := false
    bkenAt := none, fqProd := 0, fqCons := 0, ckSeq := 0 }

/-- The placing of a load image, which has passed the header's checks: the context is HELD, or the status that refuses
the image (R24, R25, R62, R63, R69, R101, R407). -/
def placeLoad (s : State) (k : CtxId) (img : List Word) : Except Byte State :=
  let w0 := img.getD 0 0
  let sp : BitVec 4 := BitVec.ofNat 4 (field w0 27 24)
  let expr := (trimWords (imgSection img 8)).map (setSymCtx k)
  let row := initialLayout sp.toNat expr
  if !(expr.all fun w => wellFormedSym w && symTag w != tagMARK) || !oneExpr expr || row.length ≠ expr.length then
    .error 4
  else
    let s := s.modCtx k fun c => { c with pockets := row, sumpStall := [] }
    match s.loadTiles k row (imgSection img 9) (tileRecs (imgSection img 9)) with
    | .error e => .error e
    | .ok s =>
      let arena := (img.getD 4 0).toNat
      let va := (arena + 511) / 512 * 512
      let heap := imgSection img 10
      match s.heapWords k va heap with
      | none => .error 7
      | some l =>
        let s := l.foldl (fun s x => s.putHeap x.1 x.2) s
        let top := if heap.isEmpty then arena else va + 8 * heap.length
        .ok (s.modCtx k fun c =>
          { c with
            state := .held, request := true, passes := 0, launches := 0, fq := [], fqSeq := 0, fqWrap := false
            rthNow := 128, spreadNow := sp, sumpLimNow := c.regs.sumpLim
            regs := { freshRegs c.regs (BitVec.ofNat 4 (field w0 15 12)) false sp with arena := word top } })

/-- LOAD ends: HELD with the image placed; the state that it found when the image is refused; FREE after a memory error
or a cell failure (R9, R98, R101). -/
def closeLoad (s : State) (k : CtxId) (bad : Bool) : State × Byte :=
  let c := s.getCtx k
  if bad || s.cellFailed then ((if bad then s.count telUncorrected 1 else s).retire k, 6)
  else
    let source := field c.cmd1 0 0
    let h := s.readSource source c.cmd0.toNat 64
    let refused (st : Byte) : State × Byte := (s.modCtx k fun c => { c with state := c.found }, st)
    if !(headerOk h 3 12 && [3, 5, 6, 7].all fun i => h.getD i 0 == 0) then refused 3
    else match s.placeLoad k (s.readSource source c.cmd0.toNat (64 * field (h.getD 0 0) 63 32)) with
      | .ok t => (t, 0)
      | .error e => refused e

end State

end Sys2Proof.Machine
end

