-- ==== Sys2Proof/Machine/Restore.lean ====
section
/-! DEFINITION. The closing of an EVICT, and RESTORE: an eviction or checkpoint image read back into a context (R62,
R63, R69, R101, R104, R108, R113, R114, R116, R117, R331). -/

namespace Sys2Proof.Machine

/-! ### Records -/

/-- A record of section 17: its type, its own bits, and the words after its head. -/
structure ImgRec where
  type : Nat
  low  : Nat
  ws   : List Word
  deriving DecidableEq, Repr, Inhabited

/-- The records of section 17; fuel bounds their number, and a head of length 0 ends them. -/
def imgRecs : Nat → List Word → List ImgRec
  | 0, _ => []
  | _ + 1, [] => []
  | n + 1, h :: r =>
    let len := field h 55 40
    if len = 0 then [] else ⟨field h 63 56, field h 39 0, r.take (len - 1)⟩ :: imgRecs n (r.drop (len - 1))

/-- Word i of a record. -/
def ImgRec.at (r : ImgRec) (i : Nat) : Word := r.ws.getD i 0

/-- Word i of a record as a number. -/
def ImgRec.nat (r : ImgRec) (i : Nat) : Nat := (r.ws.getD i 0).toNat

/-- The words of a list in groups of n. -/
def groups (n : Nat) : Nat → List Word → List (List Word)
  | 0, _ => []
  | m + 1, ws => ws.take n :: groups n m (ws.drop n)

/-- The first record of a type and its own bits. -/
def findRec (l : List ImgRec) (type low : Nat) : Option ImgRec := l.find? fun r => r.type == type && r.low == low

/-- The first record of a type whose first word is the number of an execution. -/
def ofExec (l : List ImgRec) (type n : Nat) : Option ImgRec := l.find? fun r => r.type == type && r.nat 0 == n

/-! ### Executions (section 14, types 5, 7 and 8) -/

/-- The loop state of a word of R418 and the order of its start. -/
def loopOf (w : Word) (stamp : Nat) : LoopState :=
  { start := word (field w 58 48), last := word (field w 42 32), count := BitVec.ofNat 16 (field w 15 0)
    active := w.getLsbD 63, stamp := stamp }

/-- An entry of a matrix queue of fourteen words. -/
def queueOpOf (dc : Decl) (ws : List Word) : MatOp :=
  { pc := ws.getD 0 0, iter := ws.getD 1 0, instr := instrOfWord dc (ws.getD 2 0), ga := ws.getD 3 0, ga1 := ws.getD 4 0
    gb := ws.getD 5 0, gb1 := ws.getD 6 0, gc := ws.getD 7 0, next := field (ws.getD 8 0) 63 32
    mmag := field (ws.getD 8 0) 31 0, started := ws.getD 9 0 != 0
    strays := ((ws.drop 10).filter (· != 0)).map fun w => w.toNat - 1 }

/-- The wait that a restored execution goes on with (DESIGN CHOICE, log 28). -/
def waitOf (w : Word) : WaitOn :=
  match field w 7 0 with
  | 1 => .sending []
  | 2 => .collective false (field w 63 32)
  | 3 => .collective true (field w 63 32)
  | 4 => .page (word (field w 55 8)) false
  | 5 => .page (word (field w 55 8)) true
  | _ => .nothing

/-- The status of a restored execution: a parked one that goes on with no wait of its own is ready, and issues its word
again (DEDUCED, log 5). -/
def restoredStatus (code : Nat) (w : WaitOn) : ExecStatus :=
  match code with
  | 0 => .queued
  | 2 => if w = .nothing then .ready else .parked
  | 3 => .ready
  | _ => .suspended

/-- An execution of its block of section 14, its record of type 8, and its records of types 5 and 7. Its special
registers take what an MTS of the image's words stores, reserved fields 0 (R7). -/
def execOf (s : State) (k : CtxId) (n : Nat) (b : List Word) (x : ImgRec) (rs : List ImgRec) : Exec :=
  let at' (off : Nat) : Word := b.getD (off / 8) 0
  let op : BitVec 16 := BitVec.ofNat 16 (field (at' 0x3C0) 31 16)
  let wait := waitOf (x.at 5)
  let nrecv := x.nat 7
  let senders := (x.ws.drop 8).take nrecv
  let y := x.ws.drop (8 + nrecv)
  let ntags := (y.getD 4 0).toNat
  let z := y.drop (5 + ntags)
  let vecs := match ofExec rs 7 n with
    | some r => groups 32 nrecv (r.ws.drop 1)
    | none => []
  let e : Exec :=
  { ctx := k, appo := x.nat 0, rank := field (at' 0x3C0) 58 48, op := op
    status := restoredStatus (field (at' 0x3C0) 10 8) wait, wait := wait
    met := (x.at 2).getLsbD 4, aUsed := BitVec.ofNat 4 (x.nat 2), age := s.clk.toNat, pc := x.at 4
    g := tabulate 64 fun i => at' (8 * i)
    q := tabulate 16 fun i => at' (0x200 + 8 * i)
    cnt := tabulate 4 fun i => BitVec.ofNat 16 (at' (0x280 + 8 * i)).toNat
    loops := tabulate 4 fun i => loopOf (at' (0x2A0 + 8 * i)) (field (x.at 6) (8 * i + 7) (8 * i))
    events := BitVec.ofNat 6 (field (at' 0x2C0) 21 16)
    grow := x.at 3, fstat := at' 0x338 &&& 0xFFFFFFFF00FF7F0F
    cpEnds := BitVec.ofNat 32 (field (at' 0x348) 63 32)
    ratst := (at' 0x358) &&& 0xFF00FFFF00000000
    v := tabulate 32 fun i => vecOfWords ((b.drop (0x200 + 32 * i)).take 32)
    a := tabulate 4 fun i => tabulate 64 fun j => vecOfWords ((b.drop (0x800 + 2048 * i + 32 * j)).take 32)
    perm := tabulate 256 fun i => (at' (0x14000 + 2 * i / 8 * 8)).extractLsb' (16 * (i % 4)) 16
    spans := field (x.at 1) 63 32, mmags := field (x.at 1) 31 0
    recv := (senders.zip vecs).map fun p => ⟨p.1.toNat, vecOfWords p.2⟩
    reply := if (y.getD 0 0).getLsbD 0 then some ((y.getD 0 0).getLsbD 1, y.getD 1 0) else none
    arena := if y.getD 2 0 = 0 then none else some (y.getD 3 0)
    tags := ((y.drop 5).take ntags).map fun w => w.setWidth 16
    mq := (groups 14 (z.getD 0 0).toNat (z.drop 1)).map (queueOpOf (s.opDecl op))
    tickets := (rs.filter fun r => r.type == 5 && r.nat 0 == n).foldl
      (fun t r => Tbl.set t (r.nat 1) (r.at 2)) [] }
  [0x005, 0x008, 0x00C, 0x00E].foldl (fun e n => e.writeSreg n (at' (0x300 + 8 * n))) e

/-- The executions of an image with their cells; none where one belongs to no redex of the image. -/
def execsOf (s : State) (k : CtxId) (rs : List ImgRec) : Nat → List (List Word) → Option (List (Nat × Exec))
  | _, [] => some []
  | n, b :: bs =>
    match findRec rs 8 n, execsOf s k rs (n + 1) bs with
    | some x, some l => some ((field (b.getD 0x60 0) 10 0, execOf s k n b x rs) :: l)
    | _, _ => none

/-- Free launch-queue entries for executions in the given cells, as keys; none where a queue lacks them. -/
def queueKeys (s : State) : List Nat → List Nat → Option (List Nat)
  | [], _ => some []
  | c :: cs, got =>
    match (List.range 256).find? fun i => (s.getExec (256 * c + i)).isNone && !got.contains (256 * c + i) with
    | none => none
    | some i => (queueKeys s cs ((256 * c + i) :: got)).map ((256 * c + i) :: ·)

namespace State

/-- The n highest free chunks of a cell, taken; none where they are lacking. -/
def takeChunks (s : State) (cell n : Nat) : Option (State × List Nat) :=
  match (s.getCell cell).topChunks n with
  | none => none
  | some l => some (s.modCell cell fun c => { c with taken := l ++ c.taken }, l)

/-- A save area taken for an execution; none where all three are. -/
def takeArea (s : State) (key : Nat) : Option (State × Nat) :=
  match s.freeArea (key / 256) with
  | none => none
  | some a => some (s.modCell (key / 256) fun c => { c with areas := Tbl.set c.areas a (key % 256) }, a)

/-- An execution enters its cell, with the chunks or the area that its saved files need (R106, R131). -/
def putExec (s : State) (key : Nat) (e : Exec) : Option State :=
  match e.status with
  | .loading | .queued | .live => some (s.setExec key e)
  | .suspended => (s.takeArea key).map fun x => x.1.setExec key { e with area := some x.2, saved := true }
  | .parked | .ready =>
    match s.takeChunks (key / 256) ((frameBytes (s.opDecl e.op) e + 511) / 512) with
    | some x => some (x.1.setExec key { e with frame := x.2 })
    | none => (s.takeArea key).map fun x => x.1.setExec key { e with area := some x.2 }

/-- The executions enter their cells. -/
def putExecs (s : State) : List (Nat × Exec) → Option State
  | [] => some s
  | p :: r => match s.putExec p.1 p.2 with
    | some s => s.putExecs r
    | none => none

end State

/-! ### Tiles (sections 10 and 11, type 9) -/

def tileStateOf (n : Nat) : TileState :=
  match n with
  | 1 => .priv | 2 => .shared | 3 => .copy | 4 => .matrix | 5 => .route | 6 => .pendfree | _ => .free

/-- A tile of its record of four words, with its record of type 9, or else its owner the saved execution that OWNX
numbers (R117); none where its format is reserved or it lies outside tile space. -/
def tileOf (k : CtxId) (owns : List (Nat × Nat)) (r : List Word) (x : Option ImgRec) : Option Tile :=
  let w := r.getD 1 0
  match fmtOfCode (field w 41 37) with
  | none => none
  | some f =>
    let t : Tile :=
      { base := field w 58 48, count := field w 47 42, fmt := f, ctx := k, state := tileStateOf (field w 34 32)
        owner := match x with
          | some x => if x.nat 0 = 0 then none else some (x.nat 0 - 1)
          | none => owns[field w 15 0]?.map Prod.snd
        ownx := match owns[field w 15 0]? with
          | some own => own.1 % 256
          | none => 0xFFFF
        bitmap := r.getD 2 0
        working := match x with
          | some x => x.nat 1 != 0
          | none => false }
    if t.base + t.count ≤ 1568 && 1 ≤ t.count && t.count ≤ 33 then some t else none

namespace State

/-- A tile returns to its home cell, index and chunks; status 0x05 where they are taken (R101, R114). -/
def restoreTile (s : State) (k : CtxId) (owns : List (Nat × Nat)) (data : List Word) (r : List Word) (x : Option ImgRec) :
    Except Byte State :=
  let cell := field (r.getD 0 0) 42 32
  let i := field (r.getD 0 0) 7 0
  match tileOf k owns r x with
  | none => .error 4
  | some t =>
    let c := s.getCell cell
    if (c.getTile i).state ≠ .free || !(List.range t.count).all fun j => c.chunkFree (t.base + j) then .error 5
    else .ok (s.putTile cell i t ((data.drop (64 * (r.getD 3 0).toNat)).take (64 * t.count)))

/-- The tiles of an image, from record n on; the keys and the redexes of its executions name their owners. -/
def restoreTiles (s : State) (k : CtxId) (owns : List (Nat × Nat)) (data : List Word) (rs : List ImgRec) :
    Nat → List (List Word) → Except Byte State
  | _, [] => .ok s
  | n, r :: rest => match s.restoreTile k owns data r (findRec rs 9 n) with
    | .ok s => s.restoreTiles k owns data rs (n + 1) rest
    | .error e => .error e

/-! ### Redexes (section 13, type 11) -/

/-- The parts of one redex in section 13: its eight words, its symbols, its held words, and what follows. -/
def redexParts (ws : List Word) : List Word × List Word × List Word × List Word :=
  let n := (ws.getD 4 0).toNat
  let h := 2 * field (ws.getD 2 0) 31 0
  (ws.take 8, (ws.drop 8).take n, (ws.drop (8 + n)).take h, ws.drop (8 + n + h))

def redexStateOf (n : Nat) : RState :=
  match n with
  | 3 | 4 => .running
  | 5 => .halted
  | 6 => .commitPending
  | 8 => .discarded
  | _ => .innermost

/-- Emitted symbols dealt out to ranks by pairs of rank and count. -/
def dealSymbols : Nat → List Word → List Word → Tbl (List Word)
  | 0, _, _ => []
  | n + 1, ps, ws =>
    let c := (ps.getD 1 0).toNat
    Tbl.set (dealSymbols n (ps.drop 2) (ws.drop c)) (ps.getD 0 0).toNat (ws.take c)

/-- Held words of their pairs, at the physical addresses that their pages now give (R133). -/
def heldOf (s : State) (k : CtxId) : Nat → List Word → Tbl Held
  | 0, _ => []
  | n + 1, ws =>
    let va := (ws.getD 0 0).toNat
    let pa := match s.access k va .heap true with
      | .at pa _ => some pa
      | _ => none
    Tbl.set (s.heldOf k n (ws.drop 2)) (va / 8) ⟨ws.getD 1 0, pa⟩

/-- The record of type 11 of the redex at a position. -/
def redexRecOf (rs : List ImgRec) (appo : Nat) : Option ImgRec := rs.find? fun r => r.type == 11 && r.nat 0 == appo

/-- What stands in for a record of type 11 that an image lacks: a launch serial and a reservation where section 13 shows
one that is not 0, no member halted, and the symbols those of rank 0 (DESIGN CHOICE, log 28). -/
def plainRedex (appo : Nat) (h syms : List Word) : ImgRec :=
  { type := 11, low := 0
    ws := [word appo, word ((field (h.getD 3 0) 31 0 != 0).toNat + 2 * (h.getD 5 0 != 0).toNat), 0, 0, 0] ++
      if syms.isEmpty then [0] else [1, 0, word syms.length] }

/-- The chunks of held symbols of each member: one for each 64 (R137). -/
def takeSymChunks (s : State) (first : Nat) : Tbl (List Word) → Option (State × List (Nat × Nat))
  | [] => some (s, [])
  | o :: r =>
    match s.takeChunks (first + o.1) ((o.2.length + 63) / 64) with
    | none => none
    | some (s, l) => (s.takeSymChunks first r).map fun x => (x.1, l.map (fun c => (first + o.1, c)) ++ x.2)

/-- One redex of an image (R114, R117): MARK's findings are those of the restored row. A symbol that it emitted passes
R63 as the pockets do. -/
def restoreRedex (s : State) (k : CtxId) (ad : Tbl Nat) (rs : List ImgRec) (p : List Word × List Word × List Word) :
    Except Byte State :=
  let (h, syms, held) := p
  let row := (s.getCtx k).pockets
  let appo := field (h.getD 0 0) 62 48
  let serial := field (h.getD 3 0) 31 0
  match findAppc (row.filter fun x => appo < x.1) with
  | none => .error 4
  | some appc =>
    if !(syms.map (setSymCtx k)).all fun w => wellFormedSym w && symTag w != tagFREE && symTag w != tagMARK then .error 4
    else
    let r0 := markRedex ad row none (appo, appc)
    let r1 : Redex :=
      { r0 with
        state := redexStateOf (field (h.getD 0 0) 3 0), op := BitVec.ofNat 16 (field (h.getD 0 0) 47 32)
        cause := BitVec.ofNat 8 (field (h.getD 2 0) 63 48), sdc := field (h.getD 3 0) 33 32 }
    let x := (redexRecOf rs appo).getD (plainRedex appo h syms)
    let out := dealSymbols (x.nat (5 + 3 * x.nat 4)) (x.ws.drop (6 + 3 * x.nat 4)) (syms.map (setSymCtx k))
    match s.takeSymChunks r1.first out with
    | none => .error 5
    | some (s, chunks) =>
      let r2 : Redex :=
        { r1 with
          serial := if (x.at 1).getLsbD 0 then some (BitVec.ofNat 32 serial) else none
          replayed := r1.state == .innermost && (x.at 1).getLsbD 0
          station := (x.at 1).getLsbD 3
          sumpAsk := if (x.at 1).getLsbD 2 then some (field (x.at 1) 63 32) else none
          resv := if (x.at 1).getLsbD 1 then some (BitVec.ofNat 32 (h.getD 5 0).toNat) else none
          loadFails := x.nat 2, granted := field (x.at 3) 63 32, grantAt := field (x.at 3) 31 0
          halts := (groups 3 (x.nat 4) (x.ws.drop 5)).map fun w => ⟨(w.getD 0 0).toNat, w.getD 1 0, w.getD 2 0⟩
          out := out, held := s.heldOf k (held.length / 2) held, chunks := chunks }
      .ok (s.setRedex k appo r2)

/-- The redexes of section 13; fuel bounds their number. -/
def restoreRedexes (s : State) (k : CtxId) (ad : Tbl Nat) (rs : List ImgRec) : Nat → List Word → Except Byte State
  | 0, _ => .ok s
  | n + 1, ws =>
    let (h, syms, held, rest) := redexParts ws
    if field (h.getD 0 0) 3 0 = 0 then .ok s
    else match s.restoreRedex k ad rs (h, syms, held) with
      | .ok s => s.restoreRedexes k ad rs n rest
      | .error e => .error e

/-! ### Engine state (section 17) -/

/-- Rows of an inbox of their words. -/
def inboxOf (ws : List Word) : List InboxRow :=
  (groups 33 (ws.length / 33) ws).map fun w => { ticket := w.getD 0 0, vec := vecOfWords (w.drop 1) }

/-- The station of a record of type 4, with those of types 14 and 15 of its number: bound again under that number, or
refused with 0x05 when it is bound (R117, R331). -/
def restoreStation (s : State) (k : CtxId) (rs : List ImgRec) (r : ImgRec) : Except Byte State :=
  let num := r.nat 0
  let cap := r.nat 1
  match Tbl.find (s.getCtx k).stations num, findRec rs 14 num with
  | some _, _ => .error 5
  | none, none => .error 4
  | none, some x =>
    let appo := x.nat 1
    let cell := match s.getRedex k appo with
      | some x => x.first
      | none => appo / 16
    match s.takeChunks cell (inboxChunks cap) with
    | none => .error 5
    | some (s, l) =>
      let state : StState := match x.nat 0 with
        | 0 => .bound
        | 1 => .opened
        | _ => .closed
      let more := (rs.filter fun y => y.type == 15 && y.low == num).flatMap fun y => inboxOf y.ws
      let st : Station :=
        { id := s.nextId, appo := appo, cell := cell, state := state, cap := cap, rows := inboxOf (r.ws.drop 2) ++ more
          chunks := l }
      .ok (s.fresh.modCtx k fun c => { c with stations := Tbl.set c.stations num st })

/-- The words of the first record of a type and its own bits; none at all where there is none. -/
def recWords (rs : List ImgRec) (type low : Nat) : List Word :=
  match findRec rs type low with
  | some r => r.ws
  | none => []

/-- A template and its chain, of records of types 1 and 12 (R283, R288); 0x05 where another execution holds it. -/
def restoreTmpl (s : State) (keys : List Nat) (rs : List ImgRec) (r : ImgRec) : Except Byte State :=
  let i := r.nat 0 % 8
  match keys[r.nat 1]?.bind fun key => (s.getExec key).map fun e => (key, e) with
  | none => .error 4
  | some (key, e) =>
    let x := recWords rs 12 (r.nat 0 * 2 ^ 16 + r.nat 1)
    if (s.getTmpl (key / 256) i).owner.isSome then .error 5
    else
      let chain : Option Chain :=
        if (r.at 5).getLsbD 63 then
          (keys[(x.getD 3 0).toNat]?.bind s.getExec).map fun m =>
            ⟨BitVec.ofNat 3 (r.nat 5), r.at 6, x.getD 1 0, x.getD 2 0, (m.ctx, m.appo)⟩
        else none
      let pending : List Trigger := (groups 3 (r.nat 7) (x.drop 4)).filterMap fun w =>
        (keys[(w.getD 2 0).toNat]?.bind s.getExec).map fun m => ⟨w.getD 0 0, w.getD 1 0, (m.ctx, m.appo)⟩
      .ok (s.modCell (key / 256) fun c => c.modTmpl i fun t =>
        { t with
          owner := if x.getD 0 0 = 0 then some (e.ctx, e.appo) else none
          src := r.at 2, dst := r.at 3, shape := r.at 4, chain := chain, pending := pending })

/-- A firing in flight, of records of types 2 and 13: what has landed stays, and its source tile is being read again
(R286). -/
def restoreFiring (s : State) (keys : List Nat) (rs : List ImgRec) (r : ImgRec) : State :=
  match keys[r.low]? with
  | none => s
  | some key =>
    let cell := key / 256
    let i := r.nat 0 % 8
    let t := s.getTmpl cell i
    let x := recWords rs 13 (r.nat 0 * 2 ^ 16 + r.low)
    let f : Firing :=
      { num := BitVec.ofNat 48 (r.nat 1), src := t.src, dst := t.dst, shape := t.shape, first := Shape.first t.shape
        last := s.lastChunk cell t.src t.dst t.shape, landed := r.at 2, pc := x.getD 0 0, iter := x.getD 1 0
        stalled := (x.drop 2).map BitVec.toNat }
    let s := s.modCell cell fun c => c.modTmpl i fun t =>
      { t with firing := some f, num := if t.num.toNat < f.num.toNat then f.num else t.num }
    match Ep.tile cell t.src with
    | some (c, i) => s.modTile c i fun x => { x with reads := x.reads + 1 }
    | none => s

/-- A choice of its code, with the row that it returned. -/
def choiceOf (code : Nat) (v : Vec) : Choice :=
  match code with
  | 0 => .unrouted
  | 1 => .missing
  | 2 => .dropped
  | _ => .row v

/-- The choices of a row of an OPEN entry: the sum of two returns stands for both (R337). -/
def choicesOf (code : Nat) (sum : Vec) : Choice × Choice :=
  if code % 4 = 3 && code / 4 % 4 = 3 then (.row sum, .dropped)
  else (choiceOf (code % 4) sum, choiceOf (code / 4 % 4) sum)

/-- A reassembly entry, of its records of types 3 and 10; 0x05 where the entry is held (R334). -/
def restoreRat (s : State) (k : CtxId) (keys : List Nat) (rs : List ImgRec) (r : ImgRec) : Except Byte State :=
  let i := r.low / 2 ^ 16
  match keys[r.low % 2 ^ 16]? with
  | none => .error 4
  | some key =>
    let cell := key / 256
    let x := (findRec rs 10 r.low).getD { type := 10, low := r.low, ws := [] }
    let w0 := r.at 0
    let w2 := r.at 2
    let n := field w2 6 0
    let sums := (groups 32 n (r.ws.drop 4)).map vecOfWords
    let codes := (List.range n).map fun j => x.nat (2 + j)
    match s.getExec key, s.takeChunks cell (x.nat 1 / 2 ^ 8) with
    | some e, some (s, l) =>
      if (s.getRat cell i).state ≠ .free then .error 5
      else
        let done := field w0 1 0 == 2
        .ok (s.setRat cell i
          { state := if done then .complete else .opened, owner := e.appo, ctx := k
            tag := BitVec.ofNat 16 (field w0 31 16), rows := n, cols := field w2 14 8, pass := w0.getLsbD 2
            tmo := field (r.at 1) 47 16, issued := x.at 0, timeout := w0.getLsbD 3, expected := field w2 23 16
            drops := field (r.at 3) 6 0, late := field (r.at 3) 39 32, tile := field (r.at 1) 7 0
            fmt := (fmtOfCode (x.nat 1 % 32)).getD .f32
            got := (codes.zip sums).map fun p => choicesOf p.1 p.2
            final := if done then (codes.zip sums).map fun p => (p.1 != 0, p.2) else [], chunks := l })
    | none, _ => .error 4
    | _, none => .error 5

/-- A contribution to an open collective, of records of types 6 and 16 (R168, R245). -/
def restoreJoin (s : State) (k : CtxId) (keys : List Nat) (rs : List ImgRec) (r : ImgRec) : State :=
  match (keys[r.nat 0]?).bind s.getExec, rs.find? fun x => x.type == 16 && x.ws.take 3 == r.ws.take 3 with
  | none, _ | _, none => s
  | some e, some x =>
    let mmag := r.nat 1 != 0
    let count := r.nat 2
    let pan := (groups 32 128 (x.ws.drop 6)).map vecOfWords
    let mat (l : List Vec) : Mat := tabulate 64 fun i => l.getD i zeroVec
    let j : Join :=
      { rank := e.rank, word := instrOfWord (s.opDecl e.op) (x.at 3), vec := vecOfWords (r.ws.drop 3), gb := x.at 4
        panels := if x.ws.length = 6 then none else some (mat pan, mat (pan.drop 64)), ended := (x.at 5).getLsbD 0
        sent := field (x.at 5) 63 1 }
    let same (c : Coll) : Bool := c.appo == e.appo && c.count == count && c.mmag == mmag
    s.modCtx k fun c =>
      if c.colls.any same then
        { c with colls := c.colls.map fun x => if same x then { x with joins := x.joins ++ [j] } else x }
      else { c with colls := c.colls ++ [{ appo := e.appo, count := count, mmag := mmag, joins := [j] }] }

/-- Records taken in turn by a restoring that may refuse. -/
def eachRec (f : State → ImgRec → Except Byte State) (s : State) : List ImgRec → Except Byte State
  | [] => .ok s
  | r :: rs => match f s r with
    | .ok s => eachRec f s rs
    | .error e => .error e

/-- The engine state of an image. -/
def restoreEngines (s : State) (k : CtxId) (keys : List Nat) (rs : List ImgRec) : Except Byte State :=
  let of (t : Nat) := rs.filter fun r => r.type == t
  match eachRec (fun s r => s.restoreTmpl keys rs r) s (of 1) with
  | .error e => .error e
  | .ok s =>
    let s := (of 2).foldl (fun s r => s.restoreFiring keys rs r) s
    match eachRec (fun s r => s.restoreRat k keys rs r) s (of 3) with
    | .error e => .error e
    | .ok s => match eachRec (fun s r => s.restoreStation k rs r) s (of 4) with
      | .error e => .error e
      | .ok s => .ok ((of 6).foldl (fun s r => s.restoreJoin k keys rs r) s)

/-! ### Pending events (section 15, R113) -/

/-- The receiver of a restored message for which no record names one: the lowest saved execution of its cell in a redex
that the sender's rank fits (DESIGN CHOICE, log 28). -/
def receiverIn (s : State) (k : CtxId) (cell sender : Nat) : Option Nat :=
  (s.execs.find? fun p => p.1 / 256 = cell && p.2.ctx = k && (match s.getRedex k p.2.appo with
    | some r => sender < width r
    | none => false)).map Prod.fst

/-- A sender that waits for its messages waits for one more. -/
def sentAgain (s : State) (k : CtxId) (appo sender id : Nat) : State :=
  match s.memberOf k appo sender with
  | some (key, e) => match e.wait with
    | .sending ids => s.setExec key { e with wait := .sending (id :: ids) }
    | _ => s
  | none => s

/-- A message of the pending events reaches the buffer of its receiver while it has room, and is on its way again when
it has none (R113, R114, R171). -/
def deliverMessage (s : State) (k : CtxId) (key sender : Nat) (v : Vec) : State :=
  match s.getExec key with
  | none => s
  | some e =>
    if e.recv.length < 8 then s.setExec key { e with recv := e.recv ++ [⟨sender, v⟩], events := e.events ||| 8 }
    else
      (s.fresh.modCtx k fun c => { c with msgs := c.msgs ++ [⟨s.nextId, e.appo, e.rank, ⟨sender, v⟩⟩] }).sentAgain k e.appo
        sender s.nextId

/-- WAKE of the POSTED entry with a sequence number: every access merged into it is tried again (R375, R378, R379).
While the context is EVICTING it is a pending event (R113, R381). -/
def wakeEntry (s : State) (k : CtxId) (q : FqEntry) : State :=
  if (s.getCtx k).state = .evicting then s.noteEvent k 4 q.cell (q.seq.getD 0).toNat []
  else
  let s := s.modCtx k fun c =>
    { c with
      fq := c.fq.filter fun x => x != q, request := true
      waitStall := c.waitStall.filter fun va => va / 2 ^ 16 != q.region
      sumpStall := c.sumpStall.filter (· != q.region)
      redexes := c.redexes.map fun p =>
        let retry := p.2.state == .commitPending && (p.2.sumpAsk == some q.region ||
          (p.2.cause == 0x17 && p.2.held.any fun h => 8 * h.1 / 2 ^ 16 == q.region))
        let sumpAsk := if p.2.sumpAsk = some q.region then none else p.2.sumpAsk
        (p.1, { p.2 with woken := p.2.woken || retry, sumpAsk := sumpAsk }) }
  let s := s.execs.foldl (fun s p =>
    match p.2.wait with
    | .page va _ =>
      if p.2.ctx = k && va.toNat / 2 ^ 16 = q.region then
        let e := { p.2 with wait := .nothing }
        s.setExec p.1 (if e.status = .parked then { e with status := .ready, age := s.clk.toNat } else e)
      else s
    | _ => s) s
  let s := { s with fab := { s.fab with
    stalled := s.fab.stalled.filter fun x => x.2 != (k, q.region) } }
  s.cells.foldl (fun s c => s.modCell c.1 fun x =>
    { x with tmpls := tabulate 8 fun i =>
        let t := vget {} x.tmpls i
        if (t.owner.map Prod.fst) = some k then
          { t with firing := t.firing.map fun f => { f with stalled := f.stalled.filter (· != q.region) } }
        else t }) s

/-- A completed collective delivers to the member of a cell (R113, R167). -/
def deliverCount (s : State) (k : CtxId) (cell count : Nat) : State :=
  match (s.getCtx k).colls.find? fun x => !x.mmag && x.count == count &&
      x.joins.any fun j => match s.memberOf k x.appo j.rank with
        | some p => p.1 / 256 == cell
        | none => false with
  | none => s
  | some x => match s.getRedex k x.appo with
    | some r => if x.joins.length = width r && !x.joins.any Join.checked then s.endColl k r x else s
    | none => s

/-- One pending event delivered (R113, R114): messages, returns and inbox rows bring their data, a collective delivers,
and a WAKE wakes its entry; a message goes to the execution whose key is given, when one is. Presence, chunks and
firings that have ended, barriers, templates, engines and the blocks of an MMAG stand in the state that the image
restores: what awaits one is ready, and finds it (kinds 1, 2, 3, 9 and 10, and 5 with MMAG). -/
def deliverEvent (s : State) (k : CtxId) (data : List Byte) (key : Option Nat) (w : Word) : State :=
  let cell := field w 58 48
  let bytes := data.drop (field w 31 0)
  match field w 63 60 with
  | 4 =>
    match (s.getCtx k).fq.find? fun q => q.seq == some (BitVec.ofNat 32 (field w 31 0)) with
    | some q => s.wakeEntry k q
    | none => s
  | 5 => if w.getLsbD 32 then s else s.deliverCount k cell (field w 31 0)
  | 6 =>
    let sender := field w 42 32
    match key.or (s.receiverIn k cell sender) with
    | none => s
    | some key => s.deliverMessage k key sender (vecOfWords (wordsOfBytes 32 bytes))
  | 7 =>
    let i := field w 47 43
    let ticket := mkTicket cell (s.getRat cell i).tag i (field w 42 37) (field w 36 36) 0 .f32
    s.retAccept k ticket (if w.getLsbD 35 then none else some (vecOfWords (wordsOfBytes 32 bytes)))
  | 8 =>
    match ((s.getCtx k).stations.find? fun p => p.2.cell == cell).map Prod.fst with
    | none => s
    | some n =>
      s.rowArrives k n ((wordsOfBytes 1 bytes).getD 0 0) (vecOfWords (wordsOfBytes 32 (bytes.drop 8)))
  | _ => s

/-- The pending events delivered in recorded order, the messages to the executions given. -/
def deliverEvents (s : State) (k : CtxId) (data : List Byte) : List Nat → List Word → State
  | _, [] => s
  | keys, w :: ws =>
    (s.deliverEvent k data keys.head? w).deliverEvents k data (if field w 63 60 = 6 then keys.tail else keys) ws

/-- The events of section 15, sized as the record of type 17 tells: the words in use, and the data area (R113). -/
def sectionEvents (rs : List ImgRec) (ws : List Word) : List Word × List Byte :=
  let evs := ws.takeWhile (· != 0)
  let room := match rs.find? fun r => r.type == 17 with
    | some r => r.nat 0
    | none => evs.length
  (evs, bytesOfWords (ws.drop room))

/-! ### Images without the model's records (R117)

The records of types 1 to 7 are all that R117 names. Where one of types 8 to 16 is missing, these stand in for it, with
what the image shows besides, and otherwise with nothing queued, sent or under way (DESIGN CHOICE, log 28). -/

/-- The heads of the redexes of section 13; fuel bounds their number. -/
def redexHeads : Nat → List Word → List (List Word)
  | 0, _ => []
  | n + 1, ws =>
    let (h, _, _, rest) := redexParts ws
    if field (h.getD 0 0) 3 0 = 0 then [] else h :: redexHeads n rest

/-- The cell, the operator and the rank of a block of section 14. -/
def blockPlace (b : List Word) : Nat × Nat × Nat :=
  (field (b.getD 0x60 0) 10 0, field (b.getD 0x78 0) 31 16, field (b.getD 0x78 0) 58 48)

/-- The APPO of the redex that an execution belongs to: of its operator, running, with its cell at its rank. Executions
that share all three take such redexes in turn. -/
def appoOf (hs earlier : List (List Word)) (b : List Word) : Option Nat :=
  let (cell, op, rank) := blockPlace b
  let fits := hs.filter fun h => field (h.getD 0 0) 47 32 == op && field (h.getD 1 0) 10 0 + rank == cell &&
    redexStateOf (field (h.getD 0 0) 3 0) == .running
  (fits[(earlier.filter fun x => blockPlace x == (cell, op, rank)).length]?).map fun h => field (h.getD 0 0) 62 48

/-- The redexes of the blocks, each with those before it. -/
def appos (hs : List (List Word)) : List (List Word) → List (List Word) → List (Option Nat)
  | _, [] => []
  | earlier, b :: bs => appoOf hs earlier b :: appos hs (b :: earlier) bs

/-- The collectives that a member has joined: one more than the count of the open one that it or another member of its
redex stands in. -/
def joinedCount (rs : List ImgRec) (redex : List (Option Nat)) (appo mmag : Nat) : Nat :=
  (rs.filter fun r => r.type == 6 && r.nat 1 == mmag && redex.getD (r.nat 0) none == some appo).foldl
    (fun n r => max n (r.nat 2 + 1)) 0

/-- Type 8: its accumulators are all its own, and a member that R419 shows in a collective waits for it. -/
def plainExec (rs : List ImgRec) (redex : List (Option Nat)) (n : Nat) (b : List Word) (appo : Nat) : ImgRec :=
  let wait : Word := match rs.find? fun r => r.type == 6 && r.nat 0 == n with
    | some r => if field (b.getD 0x78 0) 47 32 = 0x18 then word (r.nat 2 * 2 ^ 32 + 2 + min 1 (r.nat 1)) else 0
    | none => 0
  let msgs := match ofExec rs 7 n with
    | some r => (r.ws.length - 1) / 32
    | none => 0
  { type := 8, low := n
    ws := [word appo, word (joinedCount rs redex appo 0 * 2 ^ 32 + joinedCount rs redex appo 1), 0xF, b.getD 0x66 0,
      word (field (b.getD 0x58 0) 11 0), wait, 0, word msgs] ++ List.replicate msgs 0 }

/-- What stands in for the model's record of one of R117's: types 10, 12, 14 and 16. -/
def plainEngine (s : State) (hs : List (List Word)) (redex : List (Option Nat)) (blocks : List (List Word)) (r : ImgRec) :
    List ImgRec :=
  match r.type with
  | 1 => [⟨12, r.nat 0 * 2 ^ 16 + r.nat 1,
      [0, 0, 0, r.at 1] ++ (List.replicate (r.nat 7) [0, 0, r.at 1]).flatten⟩]
  | 3 =>
    let back (i : Nat) : Word := if ((r.ws.drop (4 + 32 * i)).take 32).all (· == 0) then 1 else 3
    [⟨10, r.low, [s.clk, word (32 * 2 ^ 8 + Fmt.f32.code.toNat)] ++ (List.range (field (r.at 2) 6 0)).map back⟩]
  | 4 =>
    let free := hs.filter fun h => redexStateOf (field (h.getD 0 0) 3 0) == .running
    [⟨14, r.nat 0, [1, word (field ((free.getD 0 []).getD 0 0) 62 48)]⟩]
  | 6 =>
    let b := blocks.getD (r.nat 0) []
    let e : Exec :=
      { ctx := 0, appo := (redex.getD (r.nat 0) none).getD 0, rank := 0
        op := BitVec.ofNat 16 (field (b.getD 0x78 0) 31 16), pc := word (field (b.getD 0x58 0) 11 0) }
    let gb : Word := match instrOfWord (s.opDecl e.op) (s.fetchWord e) with
      | .tbcast _ _ _ _ g | .tred _ _ _ _ _ _ g => b.getD g.toNat 0
      | _ => 0
    [⟨16, 0, r.ws.take 3 ++ [s.fetchWord e, gb, 0]⟩]
  | _ => []

/-- The records of an image, with those that stand in for what it lacks after its own. -/
def allRecs (s : State) (img : List Word) : List ImgRec :=
  let rs := imgRecs (imgSection img 17).length (imgSection img 17)
  let hs := redexHeads (imgSection img 13).length (imgSection img 13)
  let sec := imgSection img 14
  let blocks := groups 10304 (sec.length / 10304) sec
  let redex := appos hs [] blocks
  let execs := ((List.range blocks.length).zip (blocks.zip redex)).filterMap fun p =>
    p.2.2.map fun appo => plainExec rs redex p.1 p.2.1 appo
  rs ++ execs ++ rs.flatMap (s.plainEngine hs redex blocks)

/-! ### The rest of the context -/

/-- An entry of the fault queue of its four words (R377, R418). -/
def fqOf (ws : List Word) : FqEntry :=
  let w0 := ws.getD 0 0
  let w1 := ws.getD 1 0
  { region := field w0 47 16, space := BitVec.ofNat 2 (field w0 57 56), kind := BitVec.ofNat 5 (field w0 52 48)
    count := field w1 31 16, cell := field w1 10 0
    seq := if (ws.getD 2 0).getLsbD 0 then some (BitVec.ofNat 32 (field w1 63 32)) else none }

/-- The entries of section 16: an entry has a COUNT of at least 1. -/
def fqEntries (ws : List Word) : List FqEntry :=
  ((groups 4 (ws.length / 4) ws).map fqOf).filter fun q => q.count != 0

/-- The WAIT symbols whose missing page an entry of the fault queue stands for (R74, R378). -/
def stalledWaits (row : Row) (fq : List FqEntry) : List Nat :=
  ((row.filter fun p => symTag p.2 = tagWAIT).map fun p => field p.2 47 0).filter fun va =>
    fq.any fun q => q.kind.getLsbD 3 && q.region == va / 2 ^ 16

/-- The numbers of the chunk map of section 9. -/
def mapChunks (ws : List Word) : List Nat :=
  ((List.range ws.length).zip ws).flatMap fun p => ((List.range 64).filter p.2.getLsbD).map fun b => 64 * p.1 + b

/-- A word of an image passes R63: well formed, and a MARK names a chunk of the sump section. -/
def symbolOk (base : Nat) (chunks : List Nat) (w : Word) : Bool :=
  wellFormedSym w &&
    (symTag w != tagMARK || chunks.any fun i => base + 512 * i == field w 47 0)

/-- What follows the redexes in section 13: the records of results without a place, after eight words of zeros; fuel
bounds the redexes. -/
def unplacedOf : Nat → List Word → List ImgRec
  | 0, _ => []
  | n + 1, ws =>
    let (h, _, _, rest) := redexParts ws
    if field (h.getD 0 0) 3 0 = 0 then (imgRecs ws.length (ws.drop 8)).filter fun r => r.type == 18 else unplacedOf n rest

/-- The row and the registers of an image set in the context, before anything of it is placed. The POSTED entries of its
fault queue keep the SEQ under which the host wakes them, and those to come count from 1 again (R377); TMASK, TIDYCFG,
DBGCFG, FQPROD and FQCONS take the values of the rules that name them (R108, R144, R209, R376; DEDUCED, log 38). The
chunks of the sump region stay as they are: CTX of their words is not rewritten when the number is another, and a recall
that finds one of them then traps STRUCT (R62, R117; DESIGN CHOICE, log 83). -/
def restoreCtx (s : State) (k : CtxId) (img : List Word) : State :=
  let w0 := img.getD 0 0
  let reg := imgSection img 18
  let sp : BitVec 4 := BitVec.ofNat 4 (field w0 27 24)
  let pk := ((imgSection img 8).take rowEnd).map (setSymCtx k)
  let row := ((List.range pk.length).zip pk).filter fun p => p.2 != 0
  let chunks := mapChunks ((imgSection img 9).drop 8)
  let base := field (reg.getD 4 0) 47 0
  let fq := fqEntries (imgSection img 16)
  let rs := imgRecs (imgSection img 17).length (imgSection img 17)
  s.modCtx k fun c =>
    { c with
      pockets := row, sump := chunks.map fun i => (i, word (base + 512 * i))
      ops := (trimWords (imgSection img 12)).map fun w => w.setWidth 16
      launches := BitVec.ofNat 32 (reg.getD 11 0).toNat, passes := 0, fq := fq, fqSeq := 0
      unplaced := (unplacedOf (imgSection img 13).length (imgSection img 13)).map fun r => (r.low, r.ws.map (setSymCtx k))
      sumpStall := []
      sumpNet := (rs.filter fun r => r.type == 19).foldl (fun t r => Tbl.set t (r.nat 0) (r.at 1).toInt) []
      fqWrap := false, waitStall := stalledWaits row fq, request := true
      rthNow := 128, spreadNow := sp, sumpLimNow := reg.getD 5 0
      regs :=
        { freshRegs c.regs (BitVec.ofNat 4 (field w0 15 12)) (w0.getLsbD 10) sp with
          sumpBase := sumpBaseStored (reg.getD 4 0), sumpLim := reg.getD 5 0, arena := reg.getD 6 0
          ptroot := ptrootStored (reg.getD 7 0), fqBase := fqBaseStored (reg.getD 8 0) } }

/-- The symbols of an image pass R63, and its expression R69 as far as its MARKs can be read. -/
def restoredOk (s : State) (k : CtxId) (img : List Word) : Bool :=
  let c := s.getCtx k
  let base := field c.regs.sumpBase 47 0
  let pk := ((imgSection img 8).take rowEnd).map (setSymCtx k)
  let expr := s.wholeExpr k
  pk.all (symbolOk base (c.sump.map Prod.fst)) &&
    (c.unplaced.all fun u => u.2.all fun w => wellFormedSym w && symTag w != tagFREE && symTag w != tagMARK) &&
    ((expr.any fun w => symTag w == tagMARK) || oneExpr expr)

/-- The placing of an image that has passed the header's checks (R114, R117). -/
def placeRestore (s : State) (k : CtxId) (img : List Word) : Except Byte State :=
  let s := s.restoreCtx k img
  let rs := imgRecs (imgSection img 17).length (imgSection img 17)
  let all := s.allRecs img
  if !s.restoredOk k img then .error 4
  else
    let sec := imgSection img 14
    match execsOf s k all 0 (groups 10304 (sec.length / 10304) sec) with
    | none => .error 4
    | some l =>
      match queueKeys s (l.map Prod.fst) [] with
      | none => .error 5
      | some keys =>
        let tr := trimWords (imgSection img 10)
        match s.restoreTiles k (keys.zip (l.map fun x => x.2.appo)) (imgSection img 11) all 0 (groups 4 ((tr.length + 3) / 4) tr) with
        | .error e => .error e
        | .ok s => match s.putExecs (keys.zip (l.map Prod.snd)) with
          | none => .error 5
          | some s =>
            let ad := s.depths k 0 (rowItems (s.getCtx k))
            match s.restoreRedexes k ad all (imgSection img 13).length (imgSection img 13) with
            | .error e => .error e
            | .ok s => match s.restoreEngines k keys all with
              | .error e => .error e
              | .ok s =>
                let (evs, data) := sectionEvents rs (imgSection img 15)
                let dests := (recWords rs 20 0).filterMap fun w => keys[w.toNat]?
                .ok ((s.deliverEvents k data dests evs).modCtx k fun c => { c with state := .held, still := true })

/-- The header of an image that RESTORE takes (R116, R117); a checkpoint has no executions, pending events or engine
state. -/
def restorable (h : List Word) : Bool :=
  let len (i : Nat) : Nat := field (h.getD i 0) 63 32
  len 8 == 512 && (headerOk h 2 18 || (headerOk h 1 18 && len 14 == 0 && len 15 == 0 && len 17 == 0))

/-- The collectives of a context whose completion is no longer a pending event. -/
def clearNoted (s : State) (k : CtxId) : State :=
  s.modCtx k fun c => { c with colls := c.colls.map fun x => { x with noted := false } }

/-- An eviction that fails: the context is in the state that EVICT found, with its discards made, and the pending events
are delivered after all (R9, R101, R113). -/
def failEvict (s : State) (k : CtxId) : State :=
  let c := s.getCtx k
  let gone : Option Drain := if c.drain.any Drain.evict then none else c.drain
  ((s.modCtx k fun c => { c with state := c.found, drain := gone, events := [], eventData := [], msgFor := [] }).deliverEvents
    k c.eventData c.msgFor c.events).clearNoted k

/-! ### The image is written (R112, R117) -/

/-- The chunks of an image written at a target that is this part's memory or the host's. -/
def writeImage (s : State) (target addr : Nat) (chunks : List (List Word)) : State :=
  s.writeTarget target addr chunks.flatten

/-- The closing of an eviction: the image is written, or sets out for a remote part, where what has changed meanwhile
goes out again, and the header chunk with DONE goes last of all; the context is EVICTED once it stands there. A memory
error ends the command with 0x06 in the state that it found, with the pending events delivered after all (R9, R101,
R112, R113, R116). -/
def closeEvict (s : State) (k : CtxId) (bad : Bool) : State × Option Byte :=
  let c := s.getCtx k
  let fail (s : State) : State × Option Byte := (s.failEvict k, some 6)
  let addr := c.cmd0.toNat
  let fab : BitVec 18 := c.cmd2.setWidth 18
  let done (img : List (List Word)) : List (List Word) := img.set 0 (doneHeader (img.getD 0 []))
  match c.drain with
  | some d =>
    if !d.evict then (s, none)
    else if bad then fail (s.count telUncorrected 1)
    else if s.imageOut k then (s, none)
    else if (d.chunks.getD 0 []).getD 2 0 != 0 then
      ((s.modCtx k fun c => { c with drain := none }).clearContext k .evicted, some 0)
    else
      let s := s.noteInFlight k
      let img := s.imageOf k true
      let news := ((List.range img.length).zip img).filter fun x => x.1 != 0 && d.chunks.getD x.1 [] != x.2
      if news.isEmpty then
        ((s.modCtx k fun c => { c with drain := some { d with chunks := done img } }).sendImage k fab addr 0
          ((done img).getD 0 []), none)
      else
        (news.foldl (fun s x => s.sendImage k fab addr x.1 x.2)
          (s.modCtx k fun c => { c with drain := some { d with chunks := img } }), none)
  | none =>
    if !s.evictReady k then (s, none)
    else if bad then fail (s.count telUncorrected 1)
    else
      let target := field c.cmd1 1 0
      let s := s.noteInFlight k
      let img := s.imageOf k true
      if target ≠ 2 then ((s.writeImage target addr (done img)).clearContext k .evicted, some 0)
      else
        let d : Drain :=
          { buf := 0, target := 2, addr := addr, fab := fab, chunks := img, room := img.length, evict := true }
        (((List.range img.length).zip img).tail.foldl (fun s x => s.sendImage k fab addr x.1 x.2)
          (s.modCtx k fun c => { c with drain := some d }), none)

/-! ### RESTORE ends -/

/-- RESTORE ends, as LOAD does (R9, R98, R101). -/
def closeRestore (s : State) (k : CtxId) (bad : Bool) : State × Byte :=
  let c := s.getCtx k
  if bad || s.cellFailed then ((if bad then s.count telUncorrected 1 else s).retire k, 6)
  else
    let source := field c.cmd1 1 0
    let h := s.readSource source c.cmd0.toNat 64
    let refused (st : Byte) : State × Byte := (s.modCtx k fun c => { c with state := c.found }, st)
    if !restorable h then refused 3
    else match s.placeRestore k (s.readSource source c.cmd0.toNat (64 * field (h.getD 0 0) 63 32)) with
      | .ok t => (t, 0)
      | .error e => refused e

end State

end Sys2Proof.Machine
end

