-- ==== Sys2Proof/Machine/HostCmds.lean ====
section
/-! DEFINITION. The host's commands to a context (R100, R101, R104, R111, R112, R114, R115, R326, R379, R417), and the
registers of its block (R99, R104, R108, R144, R209, R376, R380). -/

namespace Sys2Proof.Machine

/-! ### Acceptance (R100, R101) -/

/-- The codes of R100. -/
def cmdLOAD : Byte := 0x01
def cmdSTART : Byte := 0x02
def cmdHOLD : Byte := 0x03
def cmdRELEASE : Byte := 0x04
def cmdSETPRI : Byte := 0x05
def cmdCKPT : Byte := 0x06
def cmdEVICT : Byte := 0x07
def cmdRESTORE : Byte := 0x08
def cmdWAKE : Byte := 0x09
def cmdREADBACK : Byte := 0x0A
def cmdRETIRE : Byte := 0x0B

/-- The states in which a command is legal (R100). -/
def legalIn (code : Byte) (st : CtxState) : Bool :=
  match code.toNat with
  | 0x01 | 0x08 => st == .free || st == .evicted
  | 0x02 => st == .held
  | 0x03 => st == .running
  | 0x04 => st == .held || st == .trapped
  | 0x05 => st != .free && st != .evicted
  | 0x06 | 0x07 => st == .running || st == .held || st == .trapped || st == .done
  | 0x0B => st == .held || st == .trapped || st == .done || st == .evicted
  | _ => true

/-- An image address of a target (R117): 512-byte aligned, and a physical address has 40 bits. -/
def imageAddrOk (target : Nat) (a : Word) : Bool := a.toNat % 512 == 0 && (target == 1 || a.toNat < 2 ^ 40)

/-- The arguments of a command lie in their ranges, and their reserved bits are zero (R100, R101). -/
def argsOk (code : Byte) (r : CtxRegs) : Bool :=
  let remote : Bool := fieldZero r.arg1 63 2 && field r.arg1 1 0 ≤ 2 && imageAddrOk (field r.arg1 1 0) r.arg0
    && (field r.arg1 1 0 != 2 || fieldZero r.arg2 63 18)
  match code.toNat with
  | 0x01 => fieldZero r.arg1 63 1 && imageAddrOk (field r.arg1 0 0) r.arg0
  | 0x02 => fieldZero r.arg0 63 4 && r.arg0 != 0
  | 0x03 | 0x04 => fieldZero r.arg0 63 1
  | 0x05 | 0x06 => fieldZero r.arg0 63 4
  | 0x07 | 0x08 => remote
  | 0x09 => fieldZero r.arg0 63 32
  | 0x0A => fieldZero r.arg0 63 48
  | 0x0B => true
  | _ => false

namespace State

/-- The status with which a command is refused at its acceptance, or 0 (R9, R101, R411). -/
def cmdStatus (s : State) (k : CtxId) (code : Byte) : Byte :=
  let c := s.getCtx k
  if s.dev.state ≠ .ready || !legalIn code c.state then 1
  else if !argsOk code c.regs then 2
  else if s.cellFailed && (code = cmdSTART || code = cmdRELEASE) then 6
  else 0

/-- A write to CMD (R100): discarded with OVR while BUSY is set; otherwise the command is accepted, with its arguments,
and what it does at once is done unless it is refused. -/
def command (s : State) (k : CtxId) (code : Byte) (body : State → State) : State :=
  if (s.getCtx k).regs.busy then s.modRegs k fun r => { r with ovr := true }
  else
    let st := s.cmdStatus k code
    let s := s.modCtx k fun c =>
      { c with
        pendStatus := st, found := c.state, cmd0 := c.regs.arg0, cmd1 := c.regs.arg1, cmd2 := c.regs.arg2
        regs := { c.regs with busy := true, code := code } }
    if st = 0 then body s else s

/-- A pass of the context is in progress. -/
def inPass (s : State) (k : CtxId) : Bool := match s.pass with
  | some p => p.ctx == k
  | none => false

/-- A soft HOLD (R98, R104): no pass is served and nothing launches; what runs goes on. -/
def softHold (s : State) (k : CtxId) : State := s.modCtx k fun c => { c with state := .held }

end State

/-! ### The commands -/

/-- LOAD: the context is LOADING until the command ends (R98, R100). -/
def execLoad (s : State) : Out :=
  let k := s.arg.ctx
  .next (s.command k cmdLOAD fun s => s.modCtx k fun c => { c with state := .loading })

/-- START: the base priority, and RUNNING (R100). -/
def execStart (s : State) : Out :=
  let k := s.arg.ctx
  .next (s.command k cmdSTART fun s => s.modCtx k fun c =>
    { c with state := .running, request := true, still := false, regs := { c.regs with bp := c.cmd0.setWidth 4 } })

/-- HOLD with ARG0[0] = 0 (R98, R326); with another ARG0 a write of its code is HOLD_URGENT. -/
def execHoldSoft (s : State) : Out :=
  let k := s.arg.ctx
  if (s.getCtx k).regs.arg0.getLsbD 0 then .next s else .next (s.command k cmdHOLD fun s => s.softHold k)

/-- HOLD with ARG0[0] = 1: every execution is suspended, after the pass in progress (R105, R136, R326). -/
def execHoldUrgent (s : State) : Out :=
  let k := s.arg.ctx
  if !(s.getCtx k).regs.arg0.getLsbD 0 then .next s
  else .next (s.command k cmdHOLD fun s => if s.inPass k then s.softHold k else (s.softHold k).suspendAll k)

/-- RELEASE: the return from a trap, with the fate of the trapped redexes; the loads that the trap fell into have been
dropped (R111, R129). -/
def execRelease (s : State) : Out :=
  let k := s.arg.ctx
  .next (s.command k cmdRELEASE fun s => (s.dropLoads k).releaseCtx k ((s.getCtx k).cmd0.getLsbD 0))

/-- SETPRI (R104): 0 in RUNNING is a soft HOLD that leaves BP; elsewhere 0 changes nothing. -/
def execSetpri (s : State) : Out :=
  let k := s.arg.ctx
  .next (s.command k cmdSETPRI fun s =>
    let c := s.getCtx k
    if c.cmd0 ≠ 0 then s.modRegs k fun r => { r with bp := c.cmd0.setWidth 4 }
    else if c.state = .running then s.softHold k else s)

/-- CKPT (R115): the cut is at the next COMMIT of a RUNNING context, and otherwise now; another checkpoint that drains
or waits for its cut makes it set SKIP. -/
def execCkpt (s : State) : Out :=
  let k := s.arg.ctx
  .next (s.command k cmdCKPT fun s =>
    let c := s.getCtx k
    if c.drain.isSome || c.ckptAsked.isSome then s.modRegs k fun r => { r with ckSkip := true }
    else s.modCtx k fun c => { c with ckptAsked := some (c.cmd0.setWidth 4) })

/-- EVICT: the context is neither served nor launched any more; its discards and suspensions follow its pass (R112). A
checkpoint that waited for a COMMIT is not started. -/
def execEvict (s : State) : Out :=
  let k := s.arg.ctx
  .next (s.command k cmdEVICT fun s =>
    let s := s.modCtx k fun c =>
      { c with
        state := .evicting, ckptAsked := if s.beforeCommit k then c.ckptAsked else none
        regs := { c.regs with ckSkip := c.regs.ckSkip || (c.ckptAsked.isSome && !s.beforeCommit k) } }
    if s.inPass k then s.suspendAll k else s.evictDiscard k)

/-- RESTORE: the context is RESTORING until the command ends (R98, R114). -/
def execRestore (s : State) : Out :=
  let k := s.arg.ctx
  .next (s.command k cmdRESTORE fun s => s.modCtx k fun c => { c with state := .restoring })

/-- WAKE: a sequence number that names no POSTED entry ends it with 0x02 (R379). -/
def execWake (s : State) : Out :=
  let k := s.arg.ctx
  .next (s.command k cmdWAKE fun s =>
    let c := s.getCtx k
    match c.fq.find? fun q => q.seq == some (c.cmd0.setWidth 32) with
    | some q => s.wakeEntry k q
    | none => s.modCtx k fun c => { c with pendStatus := 2 })

/-- READBACK: the snapshot is taken before the command ends (R417). -/
def execReadback (s : State) : Out := .next (s.command s.arg.ctx cmdREADBACK id)

/-- RETIRE: its effect stands at the command's end (R100). -/
def execRetire (s : State) : Out := .next (s.command s.arg.ctx cmdRETIRE id)

/-- CMD_UNLISTED: a write of a code, the event's value, that R100 does not list ends with status 0x02. -/
def execCmdUnlisted (s : State) : Out :=
  let code : Byte := s.arg.val.setWidth 8
  if 0x01 ≤ code.toNat ∧ code.toNat ≤ 0x0B then .next s else .next (s.command s.arg.ctx code id)

/-! ### The end of a command (R100, R326) -/

namespace State

/-- A command ends: BUSY clears, the status is written, and the completion vector is signalled (R100, R416). -/
def endCmd (s : State) (k : CtxId) (st : Byte) : State :=
  (s.modRegs k fun r => { r with busy := false, status := st }).signal (8 * k.val)

/-- A HOLD, or a SETPRI 0 that acts as one, is under way (R104, R326). -/
def holding (c : Ctx) : Bool :=
  c.pendStatus == 0 && (c.regs.code == cmdHOLD || (c.regs.code == cmdSETPRI && c.found == .running && c.cmd0 == 0))

/-- READBACK's snapshot, or the status that refuses it (R417). -/
def snapshot (s : State) (k : CtxId) : State × Byte :=
  let a := (s.getCtx k).cmd0
  match s.readWindow k (field a 7 0) (field a 47 8) with
  | some w => (s.modCtx k fun c => { c with window := w }, 0)
  | none => (s, 2)

/-- What the running command of a context has still to do, with the status that it ends with; none while it cannot end.
-/
def closeCmd (s : State) (k : CtxId) (bad : Bool) : State × Option Byte :=
  let c := s.getCtx k
  if c.pendStatus ≠ 0 then (s, some c.pendStatus)
  else if holding c then (s, none)
  else if c.regs.code = cmdLOAD then
    let (t, st) := s.closeLoad k bad
    (t, some st)
  else if c.regs.code = cmdRESTORE then
    let (t, st) := s.closeRestore k bad
    (t, some st)
  else if c.regs.code = cmdEVICT then s.closeEvict k bad
  else if c.regs.code = cmdREADBACK then
    let (t, st) := s.snapshot k
    (t, some st)
  else if c.regs.code = cmdRETIRE then
    if s.inPass k || s.mem.copyOut.any fun w => w.ctx = k then (s, none) else (s.retire k, some 0)
  else (s, some 0)

/-- No execution of a context is live, and nothing that its executions started is under way but what waits for presence
or a page (R326). -/
def heldStill (s : State) (k : CtxId) : Bool :=
  !s.inPass k && (s.execs.all fun p => p.2.ctx != k || p.2.status != .live) && s.accessesDone k
    && s.firingsRest k fun _ => true

end State

/-- CMD_COMPLETE: the running command of a context ends, once it can (R100). -/
def execCmdComplete (s : State) : Out :=
  let k := s.arg.ctx
  if !(s.getCtx k).regs.busy then .next s
  else match s.closeCmd k s.arg.bad with
    | (t, some st) => .next (t.endCmd k st)
    | (t, none) => .next t

/-- HOLD_COMPLETE: a HOLD ends once the context stands still, and so does the stop that a PRI write of BP = 0 began
(R104, R326). -/
def execHoldComplete (s : State) : Out :=
  let k := s.arg.ctx
  let c := s.getCtx k
  let cmd := c.regs.busy && State.holding c
  if (cmd || c.state = .held) && s.heldStill k then
    let s := s.modCtx k fun c => { c with still := true }
    .next (if cmd then s.endCmd k 0 else s)
  else .next s

/-! ### Registers of the block -/

/-- SUMPBASE, SUMPLIM, PTROOT and TIDYCFG can be written in a state (R99, R144). -/
def regsOpen (st : CtxState) : Bool :=
  match st with
  | .running | .loading | .restoring | .evicting => false
  | _ => true

/-- PRI_WRITE (R104). -/
def execPriWrite (s : State) : Out :=
  let k := s.arg.ctx
  let st := (s.getCtx k).state
  let bp : BitVec 4 := s.arg.val.setWidth 4
  let urg := s.arg.val.getLsbD 16
  if st = .free ∨ st = .evicted then .next s
  else if bp ≠ 0 then .next (s.modRegs k fun r => { r with bp := bp, urg := urg })
  else if st = .running then .next ((s.modRegs k fun r => { r with urg := urg }).softHold k)
  else .next s

/-- TMASK_WRITE: it governs the faults of the cycles after this one (R108). -/
def execTmaskWrite (s : State) : Out :=
  let k := s.arg.ctx
  .next (s.modRegs k fun r =>
    { r with tmask := s.arg.val.setWidth 5, tmaskOld := s.tmaskNow k, tmaskAt := some s.clk })

/-- TIDYCFG_WRITE (R144). -/
def execTidycfgWrite (s : State) : Out :=
  let k := s.arg.ctx
  if !regsOpen (s.getCtx k).state then .next s
  else .next (s.modRegs k fun r =>
    { r with rth := BitVec.ofNat 12 (max 64 (field s.arg.val 27 16)), spread := BitVec.ofNat 4 (field s.arg.val 7 4) })

/-- DBGCFG_WRITE: it governs the BKPTs of the cycles after this one (R209). -/
def execDbgcfgWrite (s : State) : Out :=
  let k := s.arg.ctx
  .next (s.modRegs k fun r =>
    { r with bken := s.arg.val.getLsbD 0, bkenOld := s.bkenNow k, bkenAt := some s.clk })

/-- TLBINV_WRITE (R380). -/
def execTlbinvWrite (s : State) : Out :=
  let k := s.arg.ctx
  if (s.getCtx k).regs.tlbBusy then .next s
  else .next (s.modRegs k fun r => { r with tlbinv := s.arg.val &&& 0x0000FFFFFFFF0003, tlbBusy := true })

/-- The addresses from a base, size bytes, meet the range that TLBINV names (R380). -/
def inRange (w : Word) (at' size : Nat) : Bool :=
  let page := match field w 1 0 with
    | 0 => 2 ^ 16
    | 1 => 2 ^ 21
    | _ => 2 ^ 30
  let base := field w 47 16 * 2 ^ 16 / page * page
  field w 1 0 == 3 || (at' < base + page && base < at' + size)

/-- A cached translation lies in the range that TLBINV names (R380). -/
def invalidated (k : CtxId) (w : Word) (t : Trans) : Bool := t.ctx == k && inRange w t.base t.size

/-- The held heap words of a context in the range that TLBINV names are translated by the tables as they stand now; one
that has no page any more finds its page at its commit (R303, R380). -/
def State.retranslate (s : State) (k : CtxId) (w : Word) : State :=
  let again (h : Nat × Held) : Nat × Held :=
    if h.2.pa.isSome && inRange w (8 * h.1) 8 then
      (h.1, { h.2 with pa := match s.access k (8 * h.1) .heap true with
        | .at pa _ => some pa
        | _ => none })
    else h
  s.modCtx k fun c => { c with redexes := c.redexes.map fun p => (p.1, { p.2 with held := p.2.held.map again }) }

/-- TLBINV_DONE: the translations are gone, every access of the context made before has been accepted, and what is held
no longer goes by them (R380). -/
def execTlbinvDone (s : State) : Out :=
  let k := s.arg.ctx
  let r := (s.getCtx k).regs
  if !r.tlbBusy || s.mem.accs.any (fun a => a.ctx = k && a.accepted.isNone)
    || s.mem.copyOut.any (fun w => w.ctx = k) then .next s
  else
    let keep (l : List Trans) : List Trans := l.filter fun t => !invalidated k r.tlbinv t
    let s := s.cells.foldl (fun s c => s.modCell c.1 fun x => { x with tlb := keep x.tlb }) s
    let s := { s with gals := tabulate 4 fun i =>
      let g := s.getGal i
      { g with tlb := keep g.tlb } }
    .next ((s.retranslate k r.tlbinv).modRegs k fun r => { r with tlbBusy := false })

/-- FQCONS_WRITE (R376). -/
def execFqconsWrite (s : State) : Out :=
  .next (s.modRegs s.arg.ctx fun r => { r with fqCons := word (field s.arg.val 7 0) })

/-! ### Reading and writing a block by offset (R99) -/

/-- The words of a trap record (R110). -/
def trapWords (t : TrapRec) : List Word :=
  [word (t.cause.toNat * 2 ^ 48 + t.nr.toNat * 2 ^ 47 + t.pass.toNat * 2 ^ 46 + t.cls.code * 2 ^ 40
      + t.pos % 16 * 2 ^ 36 + t.pos / 16 % 2048 * 2 ^ 16 + t.cell % 2048),
   word (t.op.toNat * 2 ^ 32 + field t.pc 11 0), t.iter,
   match t.addr with
   | some a => word (2 ^ 63 + field a 47 0)
   | none => 0]

/-- The state code of R99. -/
def CtxState.code : CtxState → Nat
  | .free => 0 | .loading => 1 | .held => 2 | .running => 3 | .trapped => 4 | .evicting => 5 | .evicted => 6
  | .restoring => 7 | .done => 8

/-- CMDST (R99). -/
def cmdstWord (r : CtxRegs) : Word :=
  word (r.busy.toNat * 2 ^ 63 + r.ovr.toNat * 2 ^ 62 + r.status.toNat * 2 ^ 8 + r.code.toNat)

/-- A register of a context's block as the host reads it (R99, R376). -/
def ctxReg (c : Ctx) (off : Nat) : Word :=
  let r := c.regs
  match off with
  | 0x008 => r.arg0
  | 0x010 => r.arg1
  | 0x018 => r.arg2
  | 0x020 => cmdstWord r
  | 0x028 => word c.state.code
  | 0x030 => State.priWord c
  | 0x038 => r.tmask.setWidth 64
  | 0x040 => word (c.trapOvf.toNat * 2 ^ 8 + c.traps.length)
  | 0x048 => ckptst c
  | 0x050 => r.sumpBase
  | 0x058 => r.sumpLim
  | 0x060 => r.arena
  | 0x068 => r.ptroot
  | 0x070 => State.tidyWord r
  | 0x078 => word r.bken.toNat
  | 0x080 => word (r.tlbBusy.toNat * 2 ^ 63) ||| r.tlbinv
  | 0x088 => r.fqBase
  | 0x090 => r.fqProd
  | 0x098 => r.fqCons
  | _ =>
    if 0x100 ≤ off ∧ off < 0x200 then
      let b := vget (0, 0) r.ckbuf ((off - 0x100) / 16)
      if off / 8 % 2 = 0 then b.1 else b.2
    else if 0x200 ≤ off ∧ off < 0x400 then
      match c.traps[(off - 0x200) / 32]? with
      | some t => (trapWords t).getD (off / 8 % 4) 0
      | none => 0
    else 0

/-- A host write of a register of a context's block that has no row of its own (R99, R116, R372, R376). Bits [31:20] of
CKBUF word 1, which R116 neither names nor reserves, keep what is written (DESIGN CHOICE, log 82). -/
def ctxWrite (s : State) (k : CtxId) (off : Nat) (v : Word) : State :=
  let opn := regsOpen (s.getCtx k).state
  match off with
  | 0x008 => s.modRegs k fun r => { r with arg0 := v }
  | 0x010 => s.modRegs k fun r => { r with arg1 := v }
  | 0x018 => s.modRegs k fun r => { r with arg2 := v }
  | 0x050 => if opn then s.modRegs k fun r => { r with sumpBase := sumpBaseStored v } else s
  | 0x058 => if opn then s.modRegs k fun r => { r with sumpLim := v } else s
  | 0x068 =>
    if opn then (s.modRegs k fun r => { r with ptroot := ptrootStored v }).modCtx k fun c => { c with retired := false } else s
  | 0x088 => s.modRegs k fun r => { r with fqBase := fqBaseStored v }
  | _ =>
    if 0x100 ≤ off ∧ off < 0x200 then
      s.modRegs k fun r =>
        let i := (off - 0x100) / 16
        let b := vget (0, 0) r.ckbuf i
        { r with ckbuf := vset r.ckbuf i (if off / 8 % 2 = 0 then (v, b.2) else (b.1, v)) }
    else s

end Sys2Proof.Machine
end

