-- ==== Sys2Proof/Machine/Device.lean ====
section
/-! DEFINITION. The device: its states, commands, capabilities, telemetry and tables (R9, R96, R97, R315, R409 to R424),
and part reset (R411). -/

namespace Sys2Proof.Machine

/-! ### Registration (R94 to R97) -/

/-- The part of an operator image that OPREG reads: the words within the given length (R414). -/
structure Offer where
  hdr0  : Word
  hdr1  : Word
  words : List Word
  bytes : Nat
  deriving DecidableEq, Repr, Inhabited

namespace Offer

def code (o : Offer) : Nat := field o.hdr1 11 0
def data (o : Offer) : Nat := field o.hdr1 47 32
/-- The words of the whole image (R94). -/
def total (o : Offer) : Nat := 2 + o.code + o.data
def num (o : Offer) : Nat := field o.hdr0 15 0
def decl (o : Offer) : Decl := ⟨field o.hdr0 38 32, field o.hdr0 45 40, field o.hdr0 52 48⟩
/-- The code words that were read. -/
def codeWords (o : Offer) : List Word := (o.words.drop 2).take o.code
/-- The image as the chandlery holds it. -/
def image (o : Offer) : OpImage := ⟨o.hdr0, o.hdr1, o.codeWords, o.words.drop (2 + o.code)⟩

/-- A header field outside its range, or a reserved header bit set (R94, R95). -/
def headerBad (o : Offer) : Bool :=
  let sta := o.hdr0.getLsbD 24
  let cap := field o.hdr1 63 48
  !(fieldZero o.hdr0 63 53 && fieldZero o.hdr0 47 46 && !o.hdr0.getLsbD 39 && fieldZero o.hdr0 31 25
    && fieldZero o.hdr1 31 12 && o.decl.q ≤ 16 && o.decl.v ≤ 32 && 1 ≤ o.decl.g && o.decl.g ≤ 64
    && 1 ≤ field o.hdr0 22 16 && field o.hdr0 22 16 ≤ 64 && 1 ≤ o.code && o.code ≤ 2048 && o.data ≤ 32768
    && (if sta then 1 ≤ cap && cap ≤ 4096 else cap == 0))

/-- A BR or CALL target, or a LOOP body end, outside the code (R96). -/
def targetBad (n w : Nat) (i : Instr) : Bool :=
  let out (t : Word) : Bool := n ≤ t.toNat
  match i with
  | .br _ off | .call _ off => out (word w + simm off)
  | .loop _ _ _ len | .loopi _ _ _ len => out (word (w + len.toNat))
  | _ => false

/-- The first code word, by number, with a property of its decoding (R87). -/
def firstWord (o : Offer) (p : Nat → Word → Bool) : Option Nat :=
  (((List.range o.codeWords.length).zip o.codeWords).find? fun x => p x.1 x.2).map Prod.fst

/-- A word fails an ILLOP check; or a REGGRP check alone, judged against the header's counts (R87, R96). -/
def isIllop (w : Word) : Bool :=
  match decodeWord .full w with
  | .error .illop => true
  | _ => false

def isReggrp (o : Offer) (w : Word) : Bool :=
  !isIllop w && match decodeWord o.decl w with
    | .error .reggrp => true
    | _ => false

end Offer

namespace State

/-- The bytes of the chandlery that an image of n words takes (R14). -/
def chandleryBytes (n : Nat) : Nat := (8 * n + 63) / 64 * 64

def OpImage.words (o : OpImage) : List Word := o.hdr0 :: o.hdr1 :: (o.code ++ o.data)

/-- The chandlery space in use (R14). -/
def chandleryUsed (s : State) : Nat :=
  s.dev.ops.foldl (fun n o => n + chandleryBytes (OpImage.words o.2).length) 0

/-- The image that OPREG reads at a bus address (R414). -/
def readOffer (s : State) (addr bytes : Nat) : Offer :=
  let w (i n : Nat) : List Word := wordsOfBytes n (s.mem.host.readBytes (addr + 8 * i) (8 * n))
  let h := w 0 (min 2 (bytes / 8))
  let o : Offer := { hdr0 := h.getD 0 0, hdr1 := h.getD 1 0, words := [], bytes := bytes }
  { o with words := w 0 (min o.total (bytes / 8)) }

/-- The contexts of a mask that are FREE, as a mask. -/
def freeMask (s : State) (mask : Nat) : Nat :=
  (([0, 1, 2, 3] : List CtxId).filter fun k => mask.testBit k.val && (s.getCtx k).state == .free).foldl
    (fun a k => a + 2 ^ k.val) 0

/-- The conditions of R96 that hold, with their details, the lowest status first; a header that was not read whole
decides none but the length. -/
def opregFaults (s : State) (o : Offer) (mask : Nat) : List (Nat × Nat) :=
  let held := s.operator (BitVec.ofNat 16 o.num)
  let some' (st : Nat) (x : Option Nat) : List (Nat × Nat) := match x with
    | some w => [(st, w)]
    | none => []
  let when (st : Nat) (b : Bool) : List (Nat × Nat) := if b then [(st, 0)] else []
  let len := when 8 (o.bytes != 8 * o.total)
  let free := if s.freeMask mask = 0 then [] else [(9, s.freeMask mask)]
  if o.bytes < 16 then [(8, 0)]
  else
    when 1 (o.num < 0x100)
    ++ when 2 (match held with
      | some h => (OpImage.words h).take o.words.length != o.words || (OpImage.words h).length != o.total
      | none => false)
    ++ when 3 o.headerBad
    ++ some' 4 (o.firstWord fun _ w => Offer.isIllop w)
    ++ some' 5 (o.firstWord fun _ w => o.isReggrp w)
    ++ some' 6 (o.firstWord fun n w => match decodeWord .full w with
        | .ok i => Offer.targetBad o.code n i
        | .error _ => false)
    ++ when 7 (held.isNone && 2 ^ 21 < s.chandleryUsed + chandleryBytes o.total)
    ++ len ++ free

/-- An accepted image enters the four chandleries at once, and then the tables of the named contexts (R97). -/
def enterOperator (s : State) (o : Offer) (mask : Nat) : State :=
  let num : BitVec 16 := BitVec.ofNat 16 o.num
  let s := { s with dev := { s.dev with ops := Tbl.set s.dev.ops o.num o.image } }
  ([0, 1, 2, 3] : List CtxId).foldl (fun s k =>
    if mask.testBit k.val then s.modCtx k fun c => { c with ops := if c.ops.contains num then c.ops else c.ops ++ [num] }
    else s) s

/-! ### Device commands (R413, R414) -/

/-- A write to DCMD (R413): discarded with OVR while BUSY, and before READY unless it is FWLOAD. -/
def dcommand (s : State) (code : Byte) (body : State → State) : State :=
  let d := s.dev
  if d.busy || (d.state ≠ .ready && code != 1) then { s with dev := { d with ovr := true } }
  else
    body { s with dev :=
      { d with busy := true, code := code, pendStatus := 0, pendDetail := 0, cmd0 := d.arg0, cmd1 := d.arg1
               cmd2 := d.arg2 } }

/-- The running device command is to end with a status and a detail. -/
def dpend (s : State) (st : Byte) (detail : Word) : State :=
  { s with dev := { s.dev with pendStatus := st, pendDetail := detail } }

/-- Verification fails, or a read of the image (R411, R414). -/
def fwFail (s : State) (reason : Byte) : State :=
  ({ s with dev := { s.dev with state := .locked, reason := reason } }).dpend 3 (reason.setWidth 64)

/-- The reason with which a firmware image fails, or 0 (R411, R412). -/
def fwReason (fw : List Byte) : Byte :=
  let rsa := Config.firmwareRsaOk fw
  let hash := Config.firmwareHashOk fw
  if fw.length < 4096 || !Config.firmwareHeaderOk fw then 5
  else if !rsa && !hash then 4
  else if !rsa then 2
  else if !hash then 3
  else if !Config.firmwareDigestOk fw then 5
  else if (Config.firmwareSvn fw).toNat < Config.fusedSvn.toNat then 6
  else 0

/-- Dirty lines of a gigabyte written to HBM and dropped from their slices (R414). -/
def flushLines (s : State) (p : Nat → Bool) : State :=
  let gone := s.mem.dirty.filter fun l => p (l.1 % 2 ^ 33 * 128)
  { s with mem := { s.mem with
      hbm := gone.foldl (fun m l => m.write (l.1 % 2 ^ 33 * 128) l.2) s.mem.hbm
      dirty := s.mem.dirty.filter fun l => !p (l.1 % 2 ^ 33 * 128)
      lines := s.mem.lines.filter fun l => !p (l.1 % 2 ^ 33 * 128) } }

/-- HEAPWR: the host's write of a heap word, with the status that ends it (R304, R415). -/
def heapWrite (s : State) : State × Byte :=
  let d := s.dev
  let k : CtxId := Fin.ofNat 4 d.cmd0.toNat
  if !fieldZero d.cmd0 63 2 || !fieldZero d.cmd1 63 48 || field d.cmd1 2 0 ≠ 0 then (s, 2)
  else match s.access k d.cmd1.toNat .heap true with
    | .missing | .fault _ => (s, 2)
    | .at pa _ => if s.present pa then (s, 9) else (s.putHeap pa d.cmd2, 0)

/-- DEVID (R409). -/
def devid : Word := word (0x6A57 * 2 ^ 48 + 0xC102 * 2 ^ 32 + Config.revision.toNat)

/-- What an attestation report is formed from: the nonce, the cycle, DEVID, the SVN, FABID, the firmware and the
registered images, whose digests it holds (R423). -/
def attested (s : State) (nonce : List Byte) : List Byte :=
  nonce ++ leBytes 8 s.clk.toNat ++ leBytes 8 devid.toNat ++ leBytes 2 s.dev.svn.toNat ++ leBytes 3 s.fab.fabid.toNat
    ++ s.dev.fw ++ s.dev.ops.flatMap fun o => bytesOfWords (OpImage.words o.2)

/-- ATTEST: the report of 8 KiB stands in host memory (R423). -/
def attest (s : State) : State :=
  let d := s.dev
  let nonce := s.mem.host.readBytes d.cmd1.toNat 64
  let report := (List.range 8192).map (Config.attestByte (s.attested nonce))
  { s with mem := { s.mem with host := s.mem.host.write d.cmd0.toNat report } }

/-- What the running device command has still to do, with its status and detail; none while the firmware is loading. -/
def closeDcmd (s : State) (bad : Bool) : State × Option (Byte × Word) :=
  let d := s.dev
  match d.code.toNat with
  | 0x01 => (s, if d.state = .loading ∨ d.state = .verifying then none else some (d.pendStatus, d.pendDetail))
  | 0x02 =>
    let o := s.readOffer d.cmd0.toNat d.cmd2.toNat
    match s.opregFaults o (field d.cmd1 3 0) with
    | (st, w) :: _ => (s, some (BitVec.ofNat 8 st, word w))
    | [] => (s.enterOperator o (field d.cmd1 3 0), some (0, 0))
  | 0x03 => (s.flushLines fun pa => pa / 2 ^ 38 == field d.cmd0 1 0 && pa / 2 ^ 30 % 256 == field d.cmd0 9 2, some (0, 0))
  | 0x04 =>
    let (t, st) := s.heapWrite
    (t, some (st, 0))
  | 0x05 => if bad then (s, some (6, 0)) else (s.attest, some (0, 0))
  | 0x06 => ({ s with dev := { d with telem := .replicate 10 0 } }, some (0, 0))
  | _ => (s, some (d.pendStatus, d.pendDetail))

end State

/-- FWLOAD: legal in LOCKED; a part locked with REASON 8 stays so (R411, R414). -/
def execFwload (s : State) : Out :=
  .next (s.dcommand 1 fun s =>
    if s.dev.state ≠ .locked then s.dpend 1 0
    else if s.dev.reason = 8 then s.dpend 3 8
    else { s with dev := { s.dev with state := .loading, reason := 0, fw := [] } })

/-- FW_VERIFY: the image has been read, or met a read error; then its checks decide (R411, R412). -/
def execFwVerify (s : State) : Out :=
  let d := s.dev
  match d.state with
  | .loading =>
    if s.arg.bad then .next (s.fwFail 7)
    else
      let fw := s.mem.host.readBytes d.cmd0.toNat d.cmd1.toNat
      .next { s with dev := { d with state := .verifying, fw := fw } }
  | .verifying =>
    let r := State.fwReason d.fw
    if r = 0 then .next { s with dev := { d with state := .ready, svn := Config.firmwareSvn d.fw } }
    else .next (s.fwFail r)
  | _ => .next s

/-- OPREG: its checks and its effect stand at the command's end (R96, R97). -/
def execOpreg (s : State) : Out := .next (s.dcommand 2 id)

/-- FLUSH (R414). -/
def execFlush (s : State) : Out := .next (s.dcommand 3 id)

/-- HEAPWR (R415). -/
def execHeapwr (s : State) : Out := .next (s.dcommand 4 id)

/-- ATTEST (R423). -/
def execAttest (s : State) : Out := .next (s.dcommand 5 id)

/-- TELCLR (R414). -/
def execTelclr (s : State) : Out := .next (s.dcommand 6 id)

/-- DCMD_UNLISTED: a write of a code, the event's value, that R414 does not list (R413). -/
def execDcmdUnlisted (s : State) : Out :=
  let code : Byte := s.arg.val.setWidth 8
  if 0x01 ≤ code.toNat ∧ code.toNat ≤ 0x06 then .next s else .next (s.dcommand code fun s => s.dpend 2 0)

/-- DCMD_COMPLETE (R413). -/
def execDcmdComplete (s : State) : Out :=
  if !s.dev.busy then .next s
  else match s.closeDcmd s.arg.bad with
    | (t, none) => .next t
    | (t, some (st, w)) => .next (({ t with dev := { t.dev with busy := false, status := st, detail := w } }).signal 32)

/-! ### Reset, self-test, failures (R9, R411, R424) -/

/-- PART_RESET: the device, the contexts, the cells, the links and every table are as at reset; memory keeps what it
held, the lines of the slices included (R411, R424). -/
def execPartReset (s : State) : Out :=
  let m := (s.flushLines fun _ => true).mem
  .next { State.reset with
    mem := { hbm := m.hbm, present := m.present, host := m.host }
    dev := { State.reset.dev with msi := s.dev.msi }
    fab := { State.reset.fab with sentOut := s.fab.sentOut }
    agenda := s.agenda, turns := s.turns, nextId := s.nextId, lastRead := s.lastRead, arg := s.arg, cur := s.cur }

/-- SELF_TEST_DONE: the self-test has ended, a failing cell being the event's error; one that every cell passes ends
RESET once the bridges have trained (R411). -/
def execSelfTestDone (s : State) : Out :=
  if s.dev.state = .reset && (s.arg.bad || s.bridgesUp) then
    .next { s with dev := { s.dev with state := .locked, reason := if s.arg.bad then 8 else 1 } }
  else .next s

namespace State

/-- The trap of a context by a cell failure (R9). -/
def cellTrap (s : State) (k : CtxId) (cell : Nat) : State :=
  s.trap k (s.passRec (16 * cell) false causeECC .machine none)

/-- What a cell failure does to a context (R9): an eviction ends with status 0x06 in the state that it found, with its
pending events delivered after all, and then it traps as well; a LOAD or RESTORE under way ends when its command
does. -/
def failContext (s : State) (cell : Nat) (k : CtxId) : State :=
  let c := s.getCtx k
  match c.state with
  | .running | .held | .done => s.cellTrap k cell
  | .evicting =>
    ((s.failEvict k).endCmd k 6).cellTrap k cell
  | _ => s

end State

/-- CELL_FAILURE (R9). -/
def execCellFailure (s : State) : Out :=
  let cell := s.arg.cell.val
  let s := (s.modCell cell fun c => { c with failed := true }).count State.telCells 1
  .next (([0, 1, 2, 3] : List CtxId).foldl (fun s k => s.failContext cell k) s)

/-! ### Telemetry and tables (R313, R315, R393, R420 to R422) -/

/-- POWER_CAP_ADJUST: firmware lowers the power cap of a gallery, or raises it again, to the event's value, as the
package power stands above or below PWRLIM; 0 is no cap (R422, DESIGN CHOICE, log 18). -/
def execPowerCapAdjust (s : State) : Out :=
  let p := Config.packagePower s.clk.toNat
  let lim := s.dev.pwrlim.toNat
  let new : BitVec 16 := s.arg.val.setWidth 16
  let old := (s.getGal s.arg.gal.val).power
  let lower := new != 0 && (old == 0 || new < old)
  let raise := old != 0 && (new == 0 || old < new)
  if (lim < p.toNat && lower) || (p.toNat < lim && raise) then
    .next (s.modGal s.arg.gal.val fun g => { g.windowAt s.clk with power := new })
  else .next s

/-- GLIM_WRITE: in force from the next window (R420, R424). -/
def execGlimWrite (s : State) : Out :=
  .next (s.modGal s.arg.gal.val fun g => { g.windowAt s.clk with glim := s.arg.val.setWidth 16 })

/-- SLICE_WINDOW_WRITE of entry idx of a gallery: lines that a slice holds and that now home in another are lost (R313,
R315). -/
def execSliceWindowWrite (s : State) : Out :=
  let s := s.modGal s.arg.gal.val fun g =>
    { g with window := Tbl.put (8, 0) g.window (s.arg.idx % 256) (field s.arg.val 19 16, field s.arg.val 7 0) }
  .next { s with mem := { s.mem with
    dirty := s.mem.dirty.filter fun l => lineKey s (l.1 % 2 ^ 33 * 128) == l.1
    lines := s.mem.lines.filter fun l => lineKey s (l.1 % 2 ^ 33 * 128) == l.1 } }

/-- REDUCTION_GROUP_WRITE of word id of entry idx: while the entry's V is set, every write of it is discarded (R421). -/
def execReductionGroupWrite (s : State) : Out :=
  let i := s.arg.idx % 64
  let g := Tbl.get (0, 0) s.fab.groups i
  let put (g : Word × Word) : State := { s with fab := { s.fab with groups := Tbl.put (0, 0) s.fab.groups i g } }
  if g.1.getLsbD 63 then .next s
  else match s.arg.id % 4 with
    | 0 => .next (put (s.arg.val &&& 0x8FFFFF7FFFFFFFFF, g.2))
    | 1 => .next (put (g.1, s.arg.val &&& 0xFFFF1F00FFFF8FF7))
    | _ => .next s

/-- PWRLIM_WRITE (R422). -/
def execPwrlimWrite (s : State) : Out :=
  .next { s with dev := { s.dev with pwrlim := BitVec.ofNat 16 (min 3000 (max 100 (field s.arg.val 31 16))) } }

/-- FABID_WRITE (R393). -/
def execFabidWrite (s : State) : Out :=
  if (List.range 16).any fun l => (s.getLink (4 + l)).usable then .next s
  else .next { s with fab := { s.fab with fabid := s.arg.val.setWidth 18 } }

/-! ### BAR0 (R409) -/

/-- A word of the capability list (R410). -/
def capWord (i : Nat) : Word :=
  let n := i / 2
  if n < 6 then
    if i % 2 = 0 then word ((if n = 5 then 0 else 0x100 + 16 * (n + 1)) * 2 ^ 16 + 2 ^ 8 + (n + 1))
    else [(4 : Word), 0x80060, 0x110, 0, 3, 0xFFFF].getD n 0
  else 0

/-- The code of a device state (R411). -/
def DevState.code : DevState → Nat
  | .reset => 0 | .locked => 1 | .loading => 2 | .verifying => 3 | .ready => 4

/-- The code of a link state (R382). -/
def LinkSt.code : LinkSt → Nat
  | .training => 0 | .up => 1 | .retrying => 2 | .degraded => 3 | .down => 4

def dstateWord (d : Device) : Word := word (d.svn.toNat * 2 ^ 32 + d.reason.toNat * 2 ^ 8 + d.state.code)

/-- DSTAT (R413). -/
def dstatWord (d : Device) : Word :=
  word (d.busy.toNat * 2 ^ 63 + d.ovr.toNat * 2 ^ 62 + d.code.toNat * 2 ^ 32 + field d.detail 11 0 * 2 ^ 16
    + d.status.toNat)

def lstatWord (l : Link) : Word :=
  word (l.crce.toNat * 2 ^ 48 + l.rtry.toNat * 2 ^ 32 + l.downs.toNat * 2 ^ 24 + l.lanes.toNat * 2 ^ 16 + l.st.code)

def lctlWord (l : Link) : Word := word (l.peer.toNat * 2 ^ 22 + l.rf.toNat * 4 + l.en.toNat)

/-- The link whose registers stand at an offset of 0x3_0000 or 0x3_0100. -/
def linkAt (off : Nat) : Option Nat :=
  if off < 0x30040 then some ((off - 0x30000) / 16)
  else if 0x30100 ≤ off ∧ off < 0x30200 then some (4 + (off - 0x30100) / 16)
  else none

namespace State

/-- The device command block and the telemetry page. -/
def devReg (s : State) (off : Nat) : Word :=
  let d := s.dev
  match off with
  | 0x1008 => d.arg0
  | 0x1010 => d.arg1
  | 0x1018 => d.arg2
  | 0x1020 => d.arg3
  | 0x1028 => dstatWord d
  | 0x40F00 => Config.packagePower s.clk.toNat
  | 0x40F08 => word (d.pwrlim.toNat * 2 ^ 16)
  | _ =>
    if 0x40000 ≤ off ∧ off < 0x40050 then vget 0 d.telem ((off - 0x40000) / 8)
    else if 0x40800 ≤ off ∧ off < 0x40850 then vget 0 d.thresh ((off - 0x40800) / 8)
    else if 0x80000 ≤ off ∧ off < 0x88000 then msixWord d ((off - 0x80000) / 8)
    else if 0x88000 ≤ off ∧ off < 0x88100 then pbaWord d ((off - 0x88000) / 8)
    else 0

/-- The registers of a gallery (R420). -/
def galReg (s : State) (g off : Nat) : Word :=
  if off = 0 then (s.getGal g).glim.setWidth 64
  else if 0x800 ≤ off then
    let (k, b) := Tbl.get (8, 0) (s.getGal g).window ((off - 0x800) / 8)
    word (k * 2 ^ 16 + b)
  else 0

/-- A word of BAR0 as the host reads it; reserved offsets read 0 (R7, R409). -/
def barReg (s : State) (off : Nat) : Word :=
  if off = 0 then devid
  else if off = 0x8 then 0x100
  else if off = 0x10 then dstateWord s.dev
  else if 0x100 ≤ off ∧ off < 0x160 then capWord ((off - 0x100) / 8)
  else if 0x10000 ≤ off ∧ off < 0x11000 then ctxReg (s.getCtx (Fin.ofNat 4 ((off - 0x10000) / 0x400))) (off % 0x400)
  else if 0x20000 ≤ off ∧ off < 0x24000 then s.galReg ((off - 0x20000) / 0x1000) (off % 0x1000)
  else if 0x30000 ≤ off ∧ off < 0x30200 then match linkAt off with
    | some l => if off / 8 % 2 = 0 then lstatWord (s.getLink l) else lctlWord (s.getLink l)
    | none => 0
  else if off = 0x31000 then s.fab.fabid.setWidth 64
  else if 0x31100 ≤ off ∧ off < 0x31900 then
    let g := Tbl.get (0, 0) s.fab.groups ((off - 0x31100) / 32)
    if off / 8 % 4 = 0 then g.1 else if off / 8 % 4 = 1 then g.2 else 0
  else if 0x100000 ≤ off ∧ off < 0x200000 then
    Tbl.get 0 (s.getCtx (Fin.ofNat 4 ((off - 0x100000) / 0x40000))).window ((off - 0x100000) % 0x40000)
  else s.devReg off

end State

/-- REG_WRITE of the register at offset id: one that has no row of its own (R7, R99, R116, R413, R416, R422). -/
def execRegWrite (s : State) : Out :=
  let off := s.arg.id
  let v := s.arg.val
  let d := s.dev
  if 0x10000 ≤ off ∧ off < 0x11000 then
    .next (ctxWrite s (Fin.ofNat 4 ((off - 0x10000) / 0x400)) (off % 0x400) v)
  else if 0x40800 ≤ off ∧ off < 0x40850 then
    .next { s with dev := { d with thresh := vset d.thresh ((off - 0x40800) / 8) v } }
  else if 0x80000 ≤ off ∧ off < 0x88000 then .next (s.writeMsix ((off - 0x80000) / 8) v)
  else match off with
    | 0x1008 => .next { s with dev := { d with arg0 := v } }
    | 0x1010 => .next { s with dev := { d with arg1 := v } }
    | 0x1018 => .next { s with dev := { d with arg2 := v } }
    | 0x1020 => .next { s with dev := { d with arg3 := v } }
    | _ => .next s

/-- A host's bytes from a physical address at their home slices; a heap word that is present stays as it was (R300,
R304). -/
def State.hostBytes (s : State) (pa : Nat) : List Byte → State
  | [] => s
  | b :: bs => (if s.present pa then s else s.storeByte pa b).hostBytes (pa + 1) bs

/-- HOST_STORE: bytes at physical address id are accepted at their home slices (R304, R350). -/
def execHostStore (s : State) : Out :=
  if s.arg.id + s.arg.bytes.length ≤ 2 ^ 40 then .next (s.hostBytes s.arg.id s.arg.bytes) else .next s

/-- STATUS_READ: CMDST of a context's block, or DSTAT, by its offset id (R99, R413). -/
def execStatusRead (s : State) : Out :=
  let off := s.arg.id
  let t := { s with lastRead := s.barReg off }
  if off = 0x1028 then .next { t with dev := { t.dev with ovr := false } }
  else if 0x10000 ≤ off ∧ off < 0x11000 ∧ off % 0x400 = 0x20 then
    .next (t.modRegs (Fin.ofNat 4 ((off - 0x10000) / 0x400)) fun r => { r with ovr := false })
  else .next s

end Sys2Proof.Machine
end

