-- ==== Sys2Proof/Machine/Links.lean ====
section
/-! DEFINITION. Bridges and Rhafer links: their states, the link protocol, flows and their loss, reduce-and-forward, and
what the flits of other parts do (R117, R382 to R397). -/

namespace Sys2Proof.Machine

/-! ### Link states (R382 to R384, R389, R416) -/

namespace State

/-- The lanes of a link: 64 of a bridge, 4 of a Rhafer link; and the fewest that DEGRADED allows (R384). -/
def fullLanes (l : Nat) : Nat := if l < 4 then 64 else 4
def leastLanes (l : Nat) : Nat := if l < 4 then 32 else 2

/-- A link changes its state, and signals its vector (R416). -/
def setLink (s : State) (l : Nat) (st : LinkSt) : State :=
  if (s.getLink l).st = st then s else (s.modLink l fun x => { x with st := st }).signal (64 + l)

/-- A message of this part that no link carries goes out where one can, unless earlier ones of its flow hold it. -/
def sendMessages (s : State) : State :=
  s.fab.sent.foldl (fun s m =>
    if m.link.isSome || m.queued || m.dst = s.fab.fabid then s
    else match s.outLink m.via m.dst.toNat with
      | none => s
      | some l =>
        if s.linkHeld (s.fab.sent.takeWhile (· != m)) m l then s
        else
          let ack := Flit.type m.words == Flit.tAck
          let sent := if ack then s.fab.sent.filter (· != m)
            else s.fab.sent.map fun x => if x = m then { m with link := some l } else x
          ({ s with fab := { s.fab with sent := sent } }).transmit l m.words) s

/-- An earlier message of this part, of the flow of a flit, waits for a link, or is on its way over another one
(R393). -/
def sentBefore (s : State) (f : FlitWords) (l : Nat) : Bool :=
  Flit.src f == s.fab.fabid.toNat &&
    flowHeld (s.fab.sent.filter fun m => Flit.msgBefore m.num (Flit.msg f)) (BitVec.ofNat 18 (Flit.dst f)) (Flit.vc f) l

/-- A flit is passed on by its mask, in the order of its flow, or waits for a link, and for the bridges between the link
by which it came and that one (R384, R393). -/
def passOn (s : State) (since : Word) (f : FlitWords) : State :=
  let wait : State := { s with fab := { s.fab with transit := s.fab.transit ++ [(since, f)] } }
  if s.fab.transit.any fun p => Flit.flow p.2 == Flit.flow f then wait
  else match s.routeTo (Flit.dst f) with
    | some l =>
      if s.transitHeld f l || s.sentBefore f l || !s.reaches (s.portOf f) l then wait
      else (s.setPort f none).transmit l f
    | none => wait

/-- What waits for a link of its mask sets out where it can: this part's messages, and flits of other parts (R393). -/
def sendWaiting (s : State) : State :=
  let s := s.sendMessages
  s.fab.transit.foldl (fun s p => s.passOn p.1 p.2) { s with fab := { s.fab with transit := [] } }

/-- A link stops carrying traffic: from now on, what it might have carried may have no usable link (R393). -/
def lostCarrier (s : State) (l : Nat) : State :=
  if !(s.getLink l).usable then s
  else
    let on (dst : Nat) (old : Word) : Word := if s.mayCarry dst l then s.clk else old
    { s with fab := { s.fab with
        sent := s.fab.sent.map fun (m : FabMsg) => { m with since := on m.dst.toNat m.since }
        asks := s.fab.asks.map fun (a : Ask) => { a with since := on a.dst.toNat a.since }
        transit := s.fab.transit.map fun (p : Word × FlitWords) => (on (Flit.dst p.2) p.1, p.2) } }

/-- The masks of an identifier change: what it may take now sets out (R393). -/
def writeRoute (s : State) (dst : Nat) (mask : BitVec 16) : State :=
  let s := { s with fab := { s.fab with
    routes := Tbl.put 0 s.fab.routes dst mask
    sent := s.fab.sent.map fun (m : FabMsg) => if m.dst.toNat = dst then { m with since := s.clk } else m
    asks := s.fab.asks.map fun (a : Ask) => if a.dst.toNat = dst then { a with since := s.clk } else a
    transit := s.fab.transit.map fun (p : Word × FlitWords) => if Flit.dst p.2 = dst then (s.clk, p.2) else p } }
  s.sendWaiting

/-- A link goes to TRAINING (R384). -/
def train (s : State) (l : Nat) : State :=
  ((s.lostCarrier l).setLink l .training).modLink l fun x =>
    { x with began := s.clk, fails := 0, lanes := 0, nak := none, resent := none, nakSent := false }

/-- The state in which a link carries traffic, by its lanes (R384). -/
def carrying (l : Nat) (x : Link) : LinkSt := if fullLanes l ≤ x.lanes.toNat then .up else .degraded

/-- A link retries: it goes to RETRYING, or fails a retry there; the eighth failure in a row sends it to TRAINING (R382,
R384). -/
def retrying (s : State) (l : Nat) : State :=
  let s := s.modLink l fun x => { x with rtry := if x.rtry = 0xFFFF then x.rtry else x.rtry + 1 }
  let x := s.getLink l
  if x.st ≠ .retrying then (s.setLink l .retrying).modLink l fun x => { x with fails := 0 }
  else if 7 ≤ x.fails then s.train l
  else s.modLink l fun x => { x with fails := x.fails + 1 }

/-- The retries of a link have come through, once what it named is there and what it resent is acknowledged (R384); what
waited for a link that is UP or DEGRADED sets out (R393). -/
def recovered (s : State) (l : Nat) : State :=
  let x := s.getLink l
  if x.nakSent || x.resent.isSome then s
  else
    let s := s.modLink l fun x => { x with fails := 0 }
    if x.st = .retrying then (s.setLink l (carrying l x)).sendWaiting else s

/-- Every message of a link that has gone DOWN and is not acknowledged end to end is sent again by its mask, with the
same MSG; so is what other parts had sent through it (R393). -/
def resendFrom (s : State) (l : Nat) : State :=
  let kept := (s.getLink l).retry.map Prod.snd ++ (s.getLink l).waiting
  let mine := (s.fab.sent.filter fun m => m.link == some l).map FabMsg.words
  let sent := s.fab.sent.map fun (m : FabMsg) => if m.link = some l then { m with link := none } else m
  let s := s.modLink l fun x =>
    { x with retry := [], waiting := [], txSeq := 0, rxSeq := 0, nak := none, resent := none, nakSent := false }
  let others := kept.filter fun f => !mine.contains f
  let s := others.foldl (fun s f => s.setPort f (some (linkGal l))) s
  let transit := others.map (fun f => (s.clk, f)) ++ s.fab.transit
  ({ s with fab := { s.fab with sent := sent, transit := transit } }).sendWaiting

/-- A bridge that is DOWN traps every context that is RUNNING, HELD or DONE; a pass under way does not go on (R389). -/
def splitRow (s : State) : State :=
  let s := { s with pass := none }
  ([0, 1, 2, 3] : List CtxId).foldl (fun s k =>
    match (s.getCtx k).state with
    | .running | .held | .done =>
      s.trap k (s.passRec (Config.noSymbol s.clk.toNat) false causeECC .machine none)
    | .evicting => s.evictDiscard k
    | _ => s) s

/-- A link goes DOWN (R384, R389, R393). -/
def goDown (s : State) (l : Nat) : State :=
  if (s.getLink l).st = .down then s
  else
    let s := ((s.lostCarrier l).setLink l .down).modLink l fun x =>
      { x with lanes := 0, downs := if x.downs = 0xFF then x.downs else x.downs + 1, fails := 0 }
    if l < 4 then s.splitRow else s.resendFrom l

/-- A write to LCTL (R383): EN, RETRAIN, and RF of a Rhafer link. -/
def writeLctl (s : State) (l : Nat) (v : Word) : State :=
  let s := s.modLink l fun x => { x with en := v.getLsbD 0, rf := 4 ≤ l && v.getLsbD 2 }
  if !v.getLsbD 0 then s.goDown l
  else if v.getLsbD 1 || (s.getLink l).st = .down then s.train l
  else s

end State

/-- LINK_ENABLE: a write to LCTL without RETRAIN (R383, R384). -/
def execLinkEnable (s : State) : Out :=
  if s.arg.val.getLsbD 1 then .next s else .next (s.writeLctl s.arg.link.val s.arg.val)

/-- LINK_RETRAIN: a write to LCTL with RETRAIN (R383, R384). -/
def execLinkRetrain (s : State) : Out :=
  if s.arg.val.getLsbD 1 then .next (s.writeLctl s.arg.link.val s.arg.val) else .next s

/-- LSTAT_CLEAR: a write of zero clears CRCE and RTRY (R382). -/
def execLstatClear (s : State) : Out :=
  if s.arg.val = 0 then .next (s.modLink s.arg.link.val fun x => { x with crce := 0, rtry := 0 }) else .next s

/-- LINK_TRAINING_DONE: training ends with idx working lanes, and for a Rhafer link the far part's identifier; what
waited sets out, and what its receiver had not acknowledged is sent again (R384, R387, R393). -/
def execLinkTrainingDone (s : State) : Out :=
  let l := s.arg.link.val
  let x := s.getLink l
  if x.st ≠ .training || !x.en || 2 ^ 24 ≤ s.clk.toNat - x.began.toNat then .next s
  else if s.arg.idx < State.leastLanes l then .next (s.goDown l)
  else
    let lanes : Byte := BitVec.ofNat 8 (min s.arg.idx (State.fullLanes l))
    let s := s.modLink l fun x => { x with lanes := lanes, peer := if l < 4 then 0 else s.arg.val.setWidth 18 }
    let s := s.setLink l (State.carrying l (s.getLink l))
    let x := s.getLink l
    let out := x.retry.map fun p => (l, Flit.stamp p.2 p.1.toNat (x.rxSeq - 1).toNat false)
    .next ({ s with fab := { s.fab with sentOut := s.fab.sentOut ++ out } }).sendWaiting

/-- LINK_TRAINING_TIMEOUT: training that has not succeeded within 2^24 cc puts the link DOWN (R384). -/
def execLinkTrainingTimeout (s : State) : Out :=
  let l := s.arg.link.val
  let x := s.getLink l
  if x.st = .training ∧ 2 ^ 24 ≤ s.clk.toNat - x.began.toNat then .next (s.goDown l) else .next s

/-- LANE_LOSS: idx lanes are left, fewer than carried data; the link trains again (R384, R385). -/
def execLaneLoss (s : State) : Out :=
  let l := s.arg.link.val
  let x := s.getLink l
  if x.usable && s.arg.idx < x.lanes.toNat then .next (s.train l) else .next s

/-! ### The link protocol (R387, R391, R393) -/

namespace State

/-- Sequence number a comes before b, modulo 2^16. -/
def seqBefore (a b : BitVec 16) : Bool := a != b && (b - a).toNat < 2 ^ 15

/-- The acknowledgement that a flit carries: what the far receiver holds leaves the retry buffer (R390, R391). -/
def takeAck (s : State) (l : Nat) (f : FlitWords) : State :=
  if !Flit.ackv f then s
  else
    let ack := BitVec.ofNat 16 (Flit.ack f)
    let old := s.getLink l
    let left := old.retry.filter fun p => seqBefore ack p.1
    let s := s.modLink l fun x =>
      { x with
        retry := left
        nak := if Flit.nak f then some (ack + 1) else x.nak
        resent := x.resent.filter fun n => seqBefore ack n }
    if left.length < old.retry.length || old.resent.isSome then ((s.recovered l).sendQueued l).sendWaiting else s

/-- An idle flit: an acknowledgement alone, or the NAK that names the expected number (R387, R390, R391). -/
def sendIdle (s : State) (l : Nat) (nak : Bool) : State :=
  let x := s.getLink l
  let f := Flit.stamp (Flit.make 0 Flit.tIdle x.peer.toNat s.fab.fabid.toNat 0 0 []) x.txSeq.toNat (x.rxSeq - 1).toNat nak
  { s with fab := { s.fab with sentOut := s.fab.sentOut ++ [(l, f)] } }

/-- A receiver that has dropped a flit names the one that it expects, and its link retries; a CRC error while it waits
for that one is a failed retry (R384, R387). -/
def sendNak (s : State) (l : Nat) : State :=
  ((s.sendIdle l true).modLink l fun x => { x with nakSent := true }).retrying l

/-- A line of a reduction group is taken once, into the queue of its child; one of no child is dropped and counted
(R393, R395). -/
def rfReceive (s : State) (i : Nat) (child : Option Nat) (f : FlitWords) : State :=
  let seen := Tbl.get [] s.fab.seen (Flit.flow f)
  if seen.contains (Flit.msg f) then s
  else
    let s := { s with fab := { s.fab with seen := Tbl.set s.fab.seen (Flit.flow f) ((Flit.msg f :: seen).take 4096) } }
    match child with
    | some c => s.rfPush i c f
    | none => s.count telReduce 1

/-- An accepted flit of a Rhafer link: for this part, for a reduction group, to be passed on by its mask, or dropped
and counted (R391, R393, R395). -/
def takeFlit (s : State) (l : Nat) (f : FlitWords) : State :=
  if 10 ≤ Flit.type f then s.count telDropped 1
  else match s.rfTakes (l - 4) f with
    | some (i, child) => s.rfReceive i child f
    | none =>
      if Flit.dst f = s.fab.fabid.toNat then s.deliver f (some (linkGal l))
      else if Tbl.get 0 s.fab.routes (Flit.dst f) = 0 then s.count telDropped 1
      else (s.setPort f (some (linkGal l))).passOn s.clk f

/-- The fields that a link gives a flit are taken off before the flit goes on. -/
def unstamp (f : FlitWords) : FlitWords :=
  let w0 := Flit.w f 0 &&& 0x0000FFFFFFFFFFFF
  let w1 := Flit.w f 1 &&& 0xFFFFFFFF00000000
  (w0 :: w1 :: f.drop 2).take 31

end State

/-- FLIT_RECEIVE: a flit, the event's words, reaches a receiver. One with a bad CRC is dropped; a lower number is a
duplicate; a gap is answered with one NAK, and what still follows in it is dropped; an idle flit carries an
acknowledgement alone, and answers an accepted flit that no other traffic acknowledges (R387, R391, R397). Its SEQ is
the number of the flit that comes next, so that it ends a retry in which nothing was lost, or shows a gap
(DEDUCED, log 46). Of a bridge the model keeps the numbers, errors and retries, since what crosses it inside the
part is carried by the part's own events (DESIGN CHOICE, log 62). -/
def execFlitReceive (s : State) : Out :=
  let l := s.arg.link.val
  let f := s.arg.words
  let x := s.getLink l
  if !x.usable then .next s
  else if s.arg.bad then
    .next ((s.modLink l fun x => { x with crce := if x.crce = 0xFFFF then x.crce else x.crce + 1 }).sendNak l)
  else
    let s := s.takeAck l f
    let seq := BitVec.ofNat 16 (Flit.seq f)
    if Flit.type f = Flit.tIdle then
      if seq = x.rxSeq && x.nakSent then .next ((s.modLink l fun x => { x with nakSent := false }).recovered l)
      else if State.seqBefore x.rxSeq seq && !x.nakSent then .next (s.sendNak l)
      else .next s
    else if seq = x.rxSeq then
      let out := s.fab.sentOut.length
      let s := (s.modLink l fun x => { x with rxSeq := x.rxSeq + 1, nakSent := false }).recovered l
      let s := if l < 4 then s else s.takeFlit l (State.unstamp f)
      .next (if (s.fab.sentOut.drop out).any fun p => p.1 == l then s else s.sendIdle l false)
    else if State.seqBefore seq x.rxSeq || x.nakSent then .next s
    else .next (s.sendNak l)

/-- LINK_NAK_RESEND: on a NAK the sender resends from the named flit (R387), and with it the NAK of its own that is
still open, in case that was the flit lost. Where a Rhafer link has nothing to resend, as when an idle flit was lost,
an idle flit answers, and the retry has come through (DEDUCED, log 46). The flits of a bridge are not in the
retry buffer of the model, but its retry is: it ends with the acknowledgement of the named flit (R384, DESIGN CHOICE,
log 62). -/
def execLinkNakResend (s : State) : Out :=
  let l := s.arg.link.val
  let x := s.getLink l
  match x.nak with
  | none => .next s
  | some n =>
    if !x.usable then .next s
    else
      let again := x.retry.filter fun p => !State.seqBefore p.1 n
      let out := again.map fun p => (l, Flit.stamp p.2 p.1.toNat (x.rxSeq - 1).toNat x.nakSent)
      let s := { s with fab := { s.fab with sentOut := s.fab.sentOut ++ out } }
      let s := if again.isEmpty then s.sendIdle l x.nakSent else s
      let s := (s.retrying l).modLink l fun x => { x with nak := none }
      match if l < 4 then some n else again.getLast?.map Prod.fst with
      | none => .next (s.recovered l)
      | some last => .next (s.modLink l fun x => { x with resent := if x.st = .retrying then some last else none })

/-! ### End-to-end acknowledgement and loss (R391, R393) -/

namespace State

/-- The message of this part with a destination, a channel and a number. -/
def sentMsg (s : State) (dst vc num : Nat) : Option FabMsg :=
  s.fab.sent.find? fun m => m.dst.toNat == dst && m.vc == vc && m.num == num

/-- A message is no longer kept. -/
def dropMsg (s : State) (m : FabMsg) : State := { s with fab := { s.fab with sent := s.fab.sent.filter (· != m) } }

/-- A chunk part of an image has arrived; the chunk is final once all four have (R116, R117). -/
def imagePartDone (s : State) (m : FabMsg) : State :=
  match (s.getCtx m.ctx).drain with
  | none => s
  | some d =>
    let c := m.part / 4
    if d.evict || d.written.contains c ||
        s.fab.sent.any (fun x => x.ctx = m.ctx && Flit.type x.words == Flit.tImage && x.part / 4 == c) then s
    else s.chunkWritten m.ctx d c

/-- A line of a firing has been applied: the firing no longer waits for it (R286, R290). -/
def lineDone (s : State) (m : FabMsg) : State :=
  s.modFiring m.cell m.tmpl fun f => if f.num = m.firing then { f with unacked := f.unacked.filter (· != m.part) } else f

/-- The acknowledgements or failures of the lines that a combined line stands for, with the target that each was sent
to, plus 1, and 1 for a line lost on its way, from the link unit that combined them (R393, R396). -/
def tellSources (s : State) (type : Nat) (m : FabMsg) (lost : Bool := false) : State :=
  let vc := if type = Flit.tAck then 2 else 3
  m.acks.foldl (fun s a =>
    s.fabPost vc type (BitVec.ofNat 18 a.1) 0 [word a.2.1, word a.2.2, word (m.dst.toNat + 1), word lost.toNat]
      { num := 0, dst := 0, vc := 0, words := [], gal := m.via.map linkGal }) s

/-- What the acknowledgement of a message does, by its kind. -/
def ackMsg (s : State) (m : FabMsg) : State :=
  let s := s.dropMsg m
  if !m.acks.isEmpty then s.tellSources Flit.tAck m
  else if Flit.type m.words = Flit.tImage then s.imagePartDone m
  else if m.firing ≠ 0 then s.lineDone m
  else s

/-- The firing that sent a line ends with a fault of class MACHINE (R393, R396). -/
def lineFault (s : State) (m : FabMsg) (cause : Cause) : State :=
  let t := s.getTmpl m.cell m.tmpl
  match t.firing, s.tmplOwner m.cell t with
  | some f, some (k, e) =>
    if f.num = m.firing then s.faultRedex e.ctx e.appo cause .machine ⟨k / 256, f.pc, f.iter, none⟩ else s
  | _, _ => s

/-- An image chunk part is lost: the checkpoint ends with ERR, the eviction with status 0x06 (R393). -/
def imageLost (s : State) (m : FabMsg) : State :=
  let s := { s with fab := { s.fab with
    sent := s.fab.sent.filter fun x => !(x.ctx = m.ctx && Flit.type x.words == Flit.tImage) } }
  match (s.getCtx m.ctx).drain with
  | none => s
  | some d =>
    if d.evict then s.modCtx m.ctx fun c =>
      { c with drain := none, state := c.found, pendStatus := 6, events := [], eventData := [], msgFor := [] }
    else s.endDrain m.ctx d true

/-- A steal's items, mid and h, go to PEND of the victim when its acknowledgement is lost (R365). -/
def splitLost (s : State) (pa : Nat) (v : Word) : State := s.storeWord (pa + 40) v

/-- A lost message, with the result of its kind; of a combined line, every source that it stands for (R393, R365). -/
def loseMsg (s : State) (m : FabMsg) : State :=
  let s := s.dropMsg m
  let t := Flit.type m.words
  if t = Flit.tImage then s.imageLost m
  else if !m.acks.isEmpty then s.tellSources Flit.tFail m true
  else if (t = Flit.tLine ∨ t = Flit.tReduce) ∧ m.firing ≠ 0 then s.lineFault m causeECC
  else if t = Flit.tRangeReq then
    match m.ask.bind fun id => s.fab.asks.find? fun a => a.id == id with
    | some a => s.endAsk a false 0
    | none => s
  else if t = Flit.tRangeRep then
    match m.pend with
    | some pa => s.splitLost pa (Flit.pay m.words 2)
    | none => s
  else s

end State

/-- The bridges between where an acknowledgement or a failure came in and the gallery from which its message set out
carry traffic (R384). -/
def State.ackReady (s : State) (f : FlitWords) : Bool :=
  let dst := if Flit.pay f 2 = 0 then Flit.src f else (Flit.pay f 2).toNat - 1
  match s.sentMsg dst (Flit.pay f 0).toNat (Flit.pay f 1).toNat with
  | some m => (s.portOf f).all fun g => m.gal.all fun x => s.joined g x
  | none => true

/-- E2E_ACK: the oldest end-to-end acknowledgement that need not wait retires its message (R384, R391, R393). -/
def execE2eAck (s : State) : Out :=
  match s.fabReady Flit.tAck s.ackReady with
  | none => .next s
  | some f =>
    let t := s.fabDone f
    let dst := if Flit.pay f 2 = 0 then Flit.src f else (Flit.pay f 2).toNat - 1
    match t.sentMsg dst (Flit.pay f 0).toNat (Flit.pay f 1).toNat with
    | some m => .next (t.ackMsg m).sendWaiting
    | none => .next t

/-- No link that may carry traffic to an identifier has been usable for 2^24 cc, since a cycle (R393). -/
def State.carrierLost (s : State) (dst : Nat) (since : Word) : Bool :=
  !s.routable dst && 2 ^ 24 ≤ s.clk.toNat - since.toNat

/-- FLOW_LOSS: a message for which no link of its mask has been usable for 2^24 cc is lost, also one that a link took
which has trained since, and so is a flit of another part. With `bad` a part in between has lost message id, of
channel val, to identifier idx (R393, DEDUCED, log 26). -/
def execFlowLoss (s : State) : Out :=
  if s.arg.bad then
    match s.sentMsg s.arg.idx s.arg.val.toNat s.arg.id with
    | some m => if m.link.isSome then .next (s.loseMsg m).sendWaiting else .next s
    | none => .next s
  else match s.fab.sent.find? fun m =>
    !m.queued && m.dst != s.fab.fabid && s.carrierLost m.dst.toNat m.since with
  | some m => .next (s.loseMsg m).sendWaiting
  | none =>
    .next { s with fab := { s.fab with
      transit := s.fab.transit.filter fun p => !s.carrierLost (Flit.dst p.2) p.1 } }

/-! ### What arrives from another part (R117, R284, R391) -/

namespace State

/-- The line that a flit names, in a page of its target context (R284, R390). -/
def flitLine (s : State) (f : FlitWords) : Access1 :=
  s.access (targetCtx f) (targetVa f + 128 * Flit.tgtLine f) .system true

/-- A line flit that need not wait: its page is there, or has not been tried since the WAKE of its entry, and bridges to
its home slice carry traffic; a context that is FREE or EVICTED keeps no queue of faults (R375, R384). -/
def lineReady (s : State) (f : FlitWords) : Bool :=
  !s.flitStalled f &&
  match s.flitLine f with
  | .missing => s.keepsFaults (targetCtx f)
  | .fault _ => true
  | .at pa _ => s.portJoined f pa

/-- The 128 bytes of a flit's line. -/
def flitBytes (f : FlitWords) (first : Nat) : List Byte := bytesOfWords ((List.range 16).map fun i => Flit.pay f (first + i))

/-- The words of a plain line, of those that a mask names, stand at its home slice, and the mask of those that stand
(R307, R316). -/
def lineWords (s : State) (f : FlitWords) (pa : Nat) (direct : Bool) (mask : Word) : State × Word :=
  let old := ((s.fab.partly.find? fun p => p.1 == f).map Prod.snd).getD 0
  let s := (List.range 16).foldl (fun s i =>
    if mask.getLsbD i && !old.getLsbD i then
      if direct then s.storeDirect (pa + 8 * i) (leBytes 8 (Flit.pay f (1 + i)).toNat)
      else s.storeWord (pa + 8 * i) (Flit.pay f (1 + i))
    else s) s
  (s, (old ||| mask) &&& 0xFFFF)

/-- The mask of a plain line's words that stand is kept, or its record goes. -/
def setPartly (s : State) (f : FlitWords) (got : Option Word) : State :=
  let rest := s.fab.partly.filter fun p => p.1 != f
  { s with fab := { s.fab with partly := match got with
      | some m => rest ++ [(f, m)]
      | none => rest } }

/-- A line flit has taken effect, and is acknowledged. -/
def endLine (s : State) (f : FlitWords) (gal : Option Nat) : State := ((s.setPartly f none).fabDone f).fabAck f gal

/-- A line flit takes effect at its home slice: a reducing line in one step, and a plain one word by word (R58, R316);
once all of it stands it is acknowledged. One that meets a missing page opens an entry of the fault queue and waits
for its WAKE (R375), and one whose page does not serve it is acknowledged without effect (DEDUCED, log 26). -/
def applyLine (s : State) (f : FlitWords) (mask : Word) : State :=
  match s.flitLine f with
  | .missing => s.stallFlit f (targetCtx f) (targetVa f + 128 * Flit.tgtLine f) (fqCopy ||| fqWrite)
  | .fault _ => s.endLine f none
  | .at pa direct =>
    if Flit.type f = Flit.tReduce then (s.storeChunk pa direct (Flit.shape f) (flitBytes f 1)).endLine f (some (s.galAt pa))
    else
      let (t, got) := s.lineWords f pa direct mask
      if got = 0xFFFF then t.endLine f (some (s.galAt pa)) else t.setPartly f (some got)

end State

/-- LINE_WRITE: a line-write flit, of those whose words may be written the one that idx picks; val is the mask of the
words that are written, or 0 for all of them (R316, R391). -/
def execLineWrite (s : State) : Out :=
  let l := State.linesNow s.lineReady [] s.fab.inbox
  match l[s.arg.idx % l.length]? with
  | some f => .next (s.applyLine f (if s.arg.val = 0 then BitVec.allOnes 64 else s.arg.val))
  | none => .next s

/-- REDUCING_LINE: the oldest reducing-line flit, applied once at its home slice (R58, R290, R391). -/
def execReducingLine (s : State) : Out :=
  match s.fabNext Flit.tReduce s.lineReady with
  | some f => .next (s.applyLine f 0)
  | none => .next s

/-- Where an image chunk part stands (R117). -/
def State.imageAddr (f : FlitWords) : Nat := (Flit.w f 2).toNat * 128 % 2 ^ 40

/-- IMAGE_CHUNK: the oldest image chunk part is written into HBM through the home slices, once bridges to them carry
traffic (R117, R384). -/
def execImageChunk (s : State) : Out :=
  match s.fabNext Flit.tImage (fun f => s.portJoined f (State.imageAddr f)) with
  | some f => .next (((s.fabDone f).storeBytes (State.imageAddr f) (State.flitBytes f 0)).fabAck f
      (some (s.galAt (State.imageAddr f))))
  | none => .next s

/-! ### Reduce and forward (R395, R396) -/

namespace State

/-- The children of an entry: its incoming links in ascending number, then the part's own copies. -/
def rfChildren (g : Word × Word) : List Nat :=
  (List.range 16).filter (fun i => g.2.getLsbD (16 + i)) ++ if g.2.getLsbD 15 then [16] else []

/-- The head of a child's queue for a line. -/
def rfHead (s : State) (i line child : Nat) : Option FlitWords :=
  (s.fab.rfq.find? fun q => q.1 == i && q.2.1 == line && q.2.2.1 == child).bind fun q => q.2.2.2.head?

/-- The heads of every child's queue, in child order; none while one is empty. -/
def rfHeads (s : State) (i line : Nat) : List Nat → Option (List FlitWords)
  | [] => some []
  | c :: cs => match s.rfHead i line c, s.rfHeads i line cs with
    | some f, some l => some (f :: l)
    | _, _ => none

/-- The heads leave their queues. -/
def rfPop (s : State) (i line : Nat) : State :=
  { s with fab := { s.fab with
    rfq := (s.fab.rfq.map fun q => if q.1 = i ∧ q.2.1 = line then (q.1, q.2.1, q.2.2.1, q.2.2.2.tail) else q).filter fun q =>
      !q.2.2.2.isEmpty } }

/-- The lines combined in child order (R395). -/
def rfCombined (shape : Word) : List FlitWords → List Byte
  | [] => []
  | f :: fs => fs.foldl (fun acc g => reduceBytes (Shape.op shape) (Shape.ty shape) acc (flitBytes g 1)) (flitBytes f 1)

/-- The message that each combined line was: its source, channel and number. -/
def lineMsgs (fs : List FlitWords) : List (Nat × Nat × Nat) := fs.map fun f => (Flit.src f, Flit.vc f, Flit.msg f)

end State

/-- The bridges between where a line of a child came in, or set out, and the entry's parent link carry traffic (R384).
-/
def State.rfJoined (s : State) (g : Word × Word) (child : Nat) (f : FlitWords) : Bool :=
  let gal := if child = 16 then (s.fab.sent.find? fun m => m.words == f).bind FabMsg.gal else some (State.linkGal (4 + child))
  s.reaches gal (State.rfParent g)

/-- RF_COMBINE: the heads of every child's queue of line id of group idx are combined, and one reducing line goes to the
parent. The event's value counts the mismatches of the two adders: each is an SDC event, and a third sends the failure
to the target and to every source (R384, R395, R396). -/
def execRfCombine (s : State) : Out :=
  let i := s.arg.idx % 64
  let g := Tbl.get (0, 0) s.fab.groups i
  let children := State.rfChildren g
  match s.rfHeads i s.arg.id children with
  | none | some [] => .next s
  | some (f :: fs) =>
    if !(children.zip (f :: fs)).all fun p => s.rfJoined g p.1 p.2 then .next s
    else
      let bad := min 3 s.arg.val.toNat
      let t := (s.count State.telLinks bad).rfPop i s.arg.id
      let dst := BitVec.ofNat 18 (Flit.dst f)
      let m : FabMsg := { num := 0, dst := dst, vc := 0, words := [], via := some (State.rfParent g), acks := State.lineMsgs (f :: fs) }
      if bad = 3 then
        .next ((t.fabPost 3 Flit.tFail dst (Flit.w f 2) [] { m with acks := [] }).tellSources Flit.tFail m)
      else
        .next (t.fabPost 1 Flit.tReduce dst (Flit.w f 2)
          (Flit.pay f 0 :: wordsOfBytes 16 (State.rfCombined (Flit.shape f) (f :: fs))) m)

/-- REDUCTION_FAILURE: the oldest failure flit that need not wait. At the target nothing is applied; at a source the
firing that sent the line ends with SDC, or with ECC where the combined line was lost (R393); at a link unit in between
it goes on to the lines that were combined (R384, R396). -/
def execReductionFailure (s : State) : Out :=
  match s.fabReady Flit.tFail s.ackReady with
  | none => .next s
  | some f =>
    let t := (s.fabDone f).fabAck f none
    match t.sentMsg ((Flit.pay f 2).toNat - 1) (Flit.pay f 0).toNat (Flit.pay f 1).toNat with
    | none => .next t
    | some m =>
      let u := t.dropMsg m
      if Flit.pay f 2 = 0 then .next t
      else if m.acks.isEmpty then .next (u.lineFault m (if Flit.pay f 3 = 0 then causeSDC else causeECC)).sendWaiting
      else .next (u.tellSources Flit.tFail m (Flit.pay f 3 != 0)).sendWaiting

end Sys2Proof.Machine
end

