-- ==== Sys2Proof/Machine/Dispatch.lean ====
section
/-! DEFINITION. The one dispatch: each row of the opcode table to its meaning. -/

namespace Sys2Proof.Machine

/-- The effect of one row of the opcode table on the machine. -/
def exec (i : Instr) (s : State) : Host.Outcome State Fault Refusal :=
  match i with
  | .nop g => Sys2Proof.Machine.execNop g s
  | .halt g => Sys2Proof.Machine.execHalt g s
  | .yield g => Sys2Proof.Machine.execYield g s
  | .trap g code => Sys2Proof.Machine.execTrap g code s
  | .bkpt g => Sys2Proof.Machine.execBkpt g s
  | .abort g code => Sys2Proof.Machine.execAbort g code s
  | .waitev g mask => Sys2Proof.Machine.execWaitev g mask s
  | .add g ty sat d a b => Sys2Proof.Machine.execAdd g ty sat d a b s
  | .sub g ty sat d a b => Sys2Proof.Machine.execSub g ty sat d a b s
  | .and g ty d a b => Sys2Proof.Machine.execAnd g ty d a b s
  | .or g ty d a b => Sys2Proof.Machine.execOr g ty d a b s
  | .xor g ty d a b => Sys2Proof.Machine.execXor g ty d a b s
  | .andn g ty d a b => Sys2Proof.Machine.execAndn g ty d a b s
  | .shl g ty d a b => Sys2Proof.Machine.execShl g ty d a b s
  | .shr g ty d a b => Sys2Proof.Machine.execShr g ty d a b s
  | .sra g ty d a b => Sys2Proof.Machine.execSra g ty d a b s
  | .rot g ty d a b => Sys2Proof.Machine.execRot g ty d a b s
  | .min g ty d a b => Sys2Proof.Machine.execMin g ty d a b s
  | .max g ty d a b => Sys2Proof.Machine.execMax g ty d a b s
  | .minu g ty d a b => Sys2Proof.Machine.execMinu g ty d a b s
  | .maxu g ty d a b => Sys2Proof.Machine.execMaxu g ty d a b s
  | .sel g d a b c => Sys2Proof.Machine.execSel g d a b c s
  | .mul g ty sat d a b => Sys2Proof.Machine.execMul g ty sat d a b s
  | .mulh g ty d a b => Sys2Proof.Machine.execMulh g ty d a b s
  | .mulhu g ty d a b => Sys2Proof.Machine.execMulhu g ty d a b s
  | .div g ty d a b => Sys2Proof.Machine.execDiv g ty d a b s
  | .divu g ty d a b => Sys2Proof.Machine.execDivu g ty d a b s
  | .rem g ty d a b => Sys2Proof.Machine.execRem g ty d a b s
  | .remu g ty d a b => Sys2Proof.Machine.execRemu g ty d a b s
  | .madd g ty sat d a b c => Sys2Proof.Machine.execMadd g ty sat d a b c s
  | .clz g ty d a => Sys2Proof.Machine.execClz g ty d a s
  | .popc g ty d a => Sys2Proof.Machine.execPopc g ty d a s
  | .bfx g ty d a b c => Sys2Proof.Machine.execBfx g ty d a b c s
  | .bfi g ty d a b c => Sys2Proof.Machine.execBfi g ty d a b c s
  | .sext g ty d a b => Sys2Proof.Machine.execSext g ty d a b s
  | .cmp g cond ty d a b => Sys2Proof.Machine.execCmp g cond ty d a b s
  | .addi g d a imm => Sys2Proof.Machine.execAddi g d a imm s
  | .andi g d a imm => Sys2Proof.Machine.execAndi g d a imm s
  | .ori g d a imm => Sys2Proof.Machine.execOri g d a imm s
  | .xori g d a imm => Sys2Proof.Machine.execXori g d a imm s
  | .shli g d a imm => Sys2Proof.Machine.execShli g d a imm s
  | .shri g d a imm => Sys2Proof.Machine.execShri g d a imm s
  | .srai g d a imm => Sys2Proof.Machine.execSrai g d a imm s
  | .roti g d a imm => Sys2Proof.Machine.execRoti g d a imm s
  | .cmpi g cond d a imm => Sys2Proof.Machine.execCmpi g cond d a imm s
  | .li g d imm => Sys2Proof.Machine.execLi g d imm s
  | .lih g d imm => Sys2Proof.Machine.execLih g d imm s
  | .br g off => Sys2Proof.Machine.execBr g off s
  | .jmp g a => Sys2Proof.Machine.execJmp g a s
  | .ret g => Sys2Proof.Machine.execRet g s
  | .call g off => Sys2Proof.Machine.execCall g off s
  | .loop g d a len => Sys2Proof.Machine.execLoop g d a len s
  | .loopi g d count len => Sys2Proof.Machine.execLoopi g d count len s
  | .breakLoop g d => Sys2Proof.Machine.execBreakLoop g d s
  | .pand g d a b => Sys2Proof.Machine.execPand g d a b s
  | .por g d a b => Sys2Proof.Machine.execPor g d a b s
  | .pxor g d a b => Sys2Proof.Machine.execPxor g d a b s
  | .pandn g d a b => Sys2Proof.Machine.execPandn g d a b s
  | .pnot g d a => Sys2Proof.Machine.execPnot g d a s
  | .pset g d n => Sys2Proof.Machine.execPset g d n s
  | .pmov g d a => Sys2Proof.Machine.execPmov g d a s
  | .pcnt g d a => Sys2Proof.Machine.execPcnt g d a s
  | .pfirst g d a => Sys2Proof.Machine.execPfirst g d a s
  | .pld g d a => Sys2Proof.Machine.execPld g d a s
  | .pst g d a => Sys2Proof.Machine.execPst g d a s
  | .fadd g rm d a b => Sys2Proof.Machine.execFadd g rm d a b s
  | .fsub g rm d a b => Sys2Proof.Machine.execFsub g rm d a b s
  | .fmul g rm d a b => Sys2Proof.Machine.execFmul g rm d a b s
  | .ffma g rm d a b c => Sys2Proof.Machine.execFfma g rm d a b c s
  | .fdiv g rm d a b => Sys2Proof.Machine.execFdiv g rm d a b s
  | .fsqrt g rm d a => Sys2Proof.Machine.execFsqrt g rm d a s
  | .fmin g rm d a b => Sys2Proof.Machine.execFmin g rm d a b s
  | .fmax g rm d a b => Sys2Proof.Machine.execFmax g rm d a b s
  | .fabs g rm d a => Sys2Proof.Machine.execFabs g rm d a s
  | .fneg g rm d a => Sys2Proof.Machine.execFneg g rm d a s
  | .fcvt g sty dty rm sat d a => Sys2Proof.Machine.execFcvt g sty dty rm sat d a s
  | .fclass g rm d a => Sys2Proof.Machine.execFclass g rm d a s
  | .fcmp g cond d a b => Sys2Proof.Machine.execFcmp g cond d a b s
  | .vadd g ty rm sat d a b => Sys2Proof.Machine.execVadd g ty rm sat d a b s
  | .vsub g ty rm sat d a b => Sys2Proof.Machine.execVsub g ty rm sat d a b s
  | .vmul g ty rm sat d a b => Sys2Proof.Machine.execVmul g ty rm sat d a b s
  | .vfma g ty rm sat d a b c => Sys2Proof.Machine.execVfma g ty rm sat d a b c s
  | .vmin g ty rm d a b => Sys2Proof.Machine.execVmin g ty rm d a b s
  | .vmax g ty rm d a b => Sys2Proof.Machine.execVmax g ty rm d a b s
  | .vabs g ty rm sat d a => Sys2Proof.Machine.execVabs g ty rm sat d a s
  | .vneg g ty rm sat d a => Sys2Proof.Machine.execVneg g ty rm sat d a s
  | .vdiv g rm d a b => Sys2Proof.Machine.execVdiv g rm d a b s
  | .vsqrt g rm d a => Sys2Proof.Machine.execVsqrt g rm d a s
  | .vmulh g ty d a b => Sys2Proof.Machine.execVmulh g ty d a b s
  | .vand g ty d a b => Sys2Proof.Machine.execVand g ty d a b s
  | .vor g ty d a b => Sys2Proof.Machine.execVor g ty d a b s
  | .vxor g ty d a b => Sys2Proof.Machine.execVxor g ty d a b s
  | .vandn g ty d a b => Sys2Proof.Machine.execVandn g ty d a b s
  | .vshl g ty d a b => Sys2Proof.Machine.execVshl g ty d a b s
  | .vshr g ty d a b => Sys2Proof.Machine.execVshr g ty d a b s
  | .vsra g ty d a b => Sys2Proof.Machine.execVsra g ty d a b s
  | .vclz g ty d a => Sys2Proof.Machine.execVclz g ty d a s
  | .vpopc g ty d a => Sys2Proof.Machine.execVpopc g ty d a s
  | .vrcp g rm d a => Sys2Proof.Machine.execVrcp g rm d a s
  | .vrsq g rm d a => Sys2Proof.Machine.execVrsq g rm d a s
  | .vexp2 g rm d a => Sys2Proof.Machine.execVexp2 g rm d a s
  | .vlog2 g rm d a => Sys2Proof.Machine.execVlog2 g rm d a s
  | .vtanh g rm d a => Sys2Proof.Machine.execVtanh g rm d a s
  | .vcmp g cond ty d a b => Sys2Proof.Machine.execVcmp g cond ty d a b s
  | .vsel g d a b c => Sys2Proof.Machine.execVsel g d a b c s
  | .vcvt g sty dty rm sat d a c => Sys2Proof.Machine.execVcvt g sty dty rm sat d a c s
  | .vperm g d a b => Sys2Proof.Machine.execVperm g d a b s
  | .vbcast g d a => Sys2Proof.Machine.execVbcast g d a s
  | .vbl g d a n => Sys2Proof.Machine.execVbl g d a n s
  | .vins g d a n => Sys2Proof.Machine.execVins g d a n s
  | .vext g d a n => Sys2Proof.Machine.execVext g d a n s
  | .vshfu g d a n => Sys2Proof.Machine.execVshfu g d a n s
  | .vshfd g d a n => Sys2Proof.Machine.execVshfd g d a n s
  | .vmov g d a => Sys2Proof.Machine.execVmov g d a s
  | .vred g op ty d a => Sys2Proof.Machine.execVred g op ty d a s
  | .vscan g op ty d a => Sys2Proof.Machine.execVscan g op ty d a s
  | .mma g form planes d a b c => Sys2Proof.Machine.execMma g form planes d a b c s
  | .mmag g form mb1 nb1 d a b c => Sys2Proof.Machine.execMmag g form mb1 nb1 d a b c s
  | .mzero g d => Sys2Proof.Machine.execMzero g d s
  | .mld g fmt d a c => Sys2Proof.Machine.execMld g fmt d a c s
  | .mst g fmt d a c => Sys2Proof.Machine.execMst g fmt d a c s
  | .mrowr g d a b => Sys2Proof.Machine.execMrowr g d a b s
  | .mroww g d a b => Sys2Proof.Machine.execMroww g d a b s
  | .mtran g d a => Sys2Proof.Machine.execMtran g d a s
  | .mchk g d a c => Sys2Proof.Machine.execMchk g d a c s
  | .mchkr g d a c => Sys2Proof.Machine.execMchkr g d a c s
  | .luf g zc d a => Sys2Proof.Machine.execLuf g zc d a s
  | .chol g d a => Sys2Proof.Machine.execChol g d a s
  | .qrh g d a b => Sys2Proof.Machine.execQrh g d a b s
  | .trsm g up unit right d a b => Sys2Proof.Machine.execTrsm g up unit right d a b s
  | .qapply g t d a b => Sys2Proof.Machine.execQapply g t d a b s
  | .papply g d a => Sys2Proof.Machine.execPapply g d a s
  | .papplyt g d a => Sys2Proof.Machine.execPapplyt g d a s
  | .prid g => Sys2Proof.Machine.execPrid g s
  | .prld g a => Sys2Proof.Machine.execPrld g a s
  | .prst g a => Sys2Proof.Machine.execPrst g a s
  | .ld g sz d m => Sys2Proof.Machine.execLd g sz d m s
  | .st g sz d m => Sys2Proof.Machine.execSt g sz d m s
  | .vld g d m => Sys2Proof.Machine.execVld g d m s
  | .vlds g d m c => Sys2Proof.Machine.execVlds g d m c s
  | .vgath g d m => Sys2Proof.Machine.execVgath g d m s
  | .vst g d m => Sys2Proof.Machine.execVst g d m s
  | .vsts g d m c => Sys2Proof.Machine.execVsts g d m c s
  | .vscat g d m => Sys2Proof.Machine.execVscat g d m s
  | .ldh g sz d m => Sys2Proof.Machine.execLdh g sz d m s
  | .sth g d m => Sys2Proof.Machine.execSth g d m s
  | .lds g sz ord sc d m => Sys2Proof.Machine.execLds g sz ord sc d m s
  | .sts g sz ord sc d m => Sys2Proof.Machine.execSts g sz ord sc d m s
  | .stsMask g ord sc d m c => Sys2Proof.Machine.execStsMask g ord sc d m c s
  | .aadd g ord sc d m c => Sys2Proof.Machine.execAadd g ord sc d m c s
  | .afadd g ord sc d m c => Sys2Proof.Machine.execAfadd g ord sc d m c s
  | .amin g ord sc d m c => Sys2Proof.Machine.execAmin g ord sc d m c s
  | .amax g ord sc d m c => Sys2Proof.Machine.execAmax g ord sc d m c s
  | .aand g ord sc d m c => Sys2Proof.Machine.execAand g ord sc d m c s
  | .aor g ord sc d m c => Sys2Proof.Machine.execAor g ord sc d m c s
  | .axchg g ord sc d m c => Sys2Proof.Machine.execAxchg g ord sc d m c s
  | .acas g ord sc d m c => Sys2Proof.Machine.execAcas g ord sc d m c s
  | .fenceAcq g sc => Sys2Proof.Machine.execFenceAcq g sc s
  | .fenceRel g sc => Sys2Proof.Machine.execFenceRel g sc s
  | .fenceFull g sc => Sys2Proof.Machine.execFenceFull g sc s
  | .talloc g fmt d => Sys2Proof.Machine.execTalloc g fmt d s
  | .tfree g a => Sys2Proof.Machine.execTfree g a s
  | .tseal g d a => Sys2Proof.Machine.execTseal g d a s
  | .thdr g d a b => Sys2Proof.Machine.execThdr g d a b s
  | .tseth g a b c => Sys2Proof.Machine.execTseth g a b c s
  | .tpres g d a => Sys2Proof.Machine.execTpres g d a s
  | .tdesc g d a => Sys2Proof.Machine.execTdesc g d a s
  | .cparm g t a b c => Sys2Proof.Machine.execCparm g t a b c s
  | .cpfire g t => Sys2Proof.Machine.execCpfire g t s
  | .cptest g d a b => Sys2Proof.Machine.execCptest g d a b s
  | .cpwait g a b => Sys2Proof.Machine.execCpwait g a b s
  | .cpcan g t => Sys2Proof.Machine.execCpcan g t s
  | .cpchain g t k b => Sys2Proof.Machine.execCpchain g t k b s
  | .give g eng a => Sys2Proof.Machine.execGive g eng a s
  | .recl g eng a => Sys2Proof.Machine.execRecl g eng a s
  | .ownq g d a => Sys2Proof.Machine.execOwnq g d a s
  | .tbcast g ty d a b => Sys2Proof.Machine.execTbcast g ty d a b s
  | .tred g op ty chk d a b => Sys2Proof.Machine.execTred g op ty chk d a b s
  | .tscan g op ty d a => Sys2Proof.Machine.execTscan g op ty d a s
  | .tmcast g a b => Sys2Proof.Machine.execTmcast g a b s
  | .trow g a b => Sys2Proof.Machine.execTrow g a b s
  | .trecv g d => Sys2Proof.Machine.execTrecv g d s
  | .tall g op ty d a => Sys2Proof.Machine.execTall g op ty d a s
  | .symld g d a => Sys2Proof.Machine.execSymld g d a s
  | .syman g d a => Sys2Proof.Machine.execSyman g d a s
  | .symcnt g d => Sys2Proof.Machine.execSymcnt g d s
  | .emit g a => Sys2Proof.Machine.execEmit g a s
  | .emitt g a => Sys2Proof.Machine.execEmitt g a s
  | .emitr g a b => Sys2Proof.Machine.execEmitr g a b s
  | .resv g a => Sys2Proof.Machine.execResv g a s
  | .route g d a b => Sys2Proof.Machine.execRoute g d a b s
  | .ratwt g a => Sys2Proof.Machine.execRatwt g a s
  | .ratrd g a b => Sys2Proof.Machine.execRatrd g a b s
  | .srecv g d a => Sys2Proof.Machine.execSrecv g d a s
  | .sret g a b => Sys2Proof.Machine.execSret g a b s
  | .scap g d a => Sys2Proof.Machine.execScap g d a s
  | .scapSet g d a => Sys2Proof.Machine.execScapSet g d a s
  | .barj g d a b => Sys2Proof.Machine.execBarj g d a b s
  | .barw g a b => Sys2Proof.Machine.execBarw g a b s
  | .barq g d a b => Sys2Proof.Machine.execBarq g d a b s
  | .grab g d a => Sys2Proof.Machine.execGrab g d a s
  | .steal g d a => Sys2Proof.Machine.execSteal g d a s
  | .rngset g a b c => Sys2Proof.Machine.execRngset g a b c s
  | .rngq g d a => Sys2Proof.Machine.execRngq g d a s
  | .mfs g d sreg => Sys2Proof.Machine.execMfs g d sreg s
  | .mts g sreg a => Sys2Proof.Machine.execMts g sreg a s
  | .notAnInstruction cause => Sys2Proof.Machine.execNotAnInstruction cause s
  | .load => Sys2Proof.Machine.execLoad s
  | .start => Sys2Proof.Machine.execStart s
  | .holdSoft => Sys2Proof.Machine.execHoldSoft s
  | .holdUrgent => Sys2Proof.Machine.execHoldUrgent s
  | .release => Sys2Proof.Machine.execRelease s
  | .setpri => Sys2Proof.Machine.execSetpri s
  | .ckpt => Sys2Proof.Machine.execCkpt s
  | .evict => Sys2Proof.Machine.execEvict s
  | .restore => Sys2Proof.Machine.execRestore s
  | .wake => Sys2Proof.Machine.execWake s
  | .readback => Sys2Proof.Machine.execReadback s
  | .retire => Sys2Proof.Machine.execRetire s
  | .cmdUnlisted => Sys2Proof.Machine.execCmdUnlisted s
  | .cmdComplete => Sys2Proof.Machine.execCmdComplete s
  | .holdComplete => Sys2Proof.Machine.execHoldComplete s
  | .fwload => Sys2Proof.Machine.execFwload s
  | .fwVerify => Sys2Proof.Machine.execFwVerify s
  | .opreg => Sys2Proof.Machine.execOpreg s
  | .flush => Sys2Proof.Machine.execFlush s
  | .heapwr => Sys2Proof.Machine.execHeapwr s
  | .attest => Sys2Proof.Machine.execAttest s
  | .telclr => Sys2Proof.Machine.execTelclr s
  | .dcmdUnlisted => Sys2Proof.Machine.execDcmdUnlisted s
  | .dcmdComplete => Sys2Proof.Machine.execDcmdComplete s
  | .priWrite => Sys2Proof.Machine.execPriWrite s
  | .tmaskWrite => Sys2Proof.Machine.execTmaskWrite s
  | .tidycfgWrite => Sys2Proof.Machine.execTidycfgWrite s
  | .dbgcfgWrite => Sys2Proof.Machine.execDbgcfgWrite s
  | .tlbinvWrite => Sys2Proof.Machine.execTlbinvWrite s
  | .tlbinvDone => Sys2Proof.Machine.execTlbinvDone s
  | .fqconsWrite => Sys2Proof.Machine.execFqconsWrite s
  | .fqPost => Sys2Proof.Machine.execFqPost s
  | .fabidWrite => Sys2Proof.Machine.execFabidWrite s
  | .linkEnable => Sys2Proof.Machine.execLinkEnable s
  | .linkRetrain => Sys2Proof.Machine.execLinkRetrain s
  | .lstatClear => Sys2Proof.Machine.execLstatClear s
  | .glimWrite => Sys2Proof.Machine.execGlimWrite s
  | .sliceWindowWrite => Sys2Proof.Machine.execSliceWindowWrite s
  | .reductionGroupWrite => Sys2Proof.Machine.execReductionGroupWrite s
  | .pwrlimWrite => Sys2Proof.Machine.execPwrlimWrite s
  | .regWrite => Sys2Proof.Machine.execRegWrite s
  | .hostStore => Sys2Proof.Machine.execHostStore s
  | .partReset => Sys2Proof.Machine.execPartReset s
  | .selfTestDone => Sys2Proof.Machine.execSelfTestDone s
  | .cellFailure => Sys2Proof.Machine.execCellFailure s
  | .passArbitration => Sys2Proof.Machine.execPassArbitration s
  | .commit => Sys2Proof.Machine.execCommit s
  | .tidy => Sys2Proof.Machine.execTidy s
  | .mark => Sys2Proof.Machine.execMark s
  | .launch => Sys2Proof.Machine.execLaunch s
  | .launchQueuePick => Sys2Proof.Machine.execLaunchQueuePick s
  | .urgentPreempt => Sys2Proof.Machine.execUrgentPreempt s
  | .copyChunkLand => Sys2Proof.Machine.execCopyChunkLand s
  | .copyFiringEnd => Sys2Proof.Machine.execCopyFiringEnd s
  | .tsealReadDone => Sys2Proof.Machine.execTsealReadDone s
  | .engineWorkEnd => Sys2Proof.Machine.execEngineWorkEnd s
  | .matrixEngineExec => Sys2Proof.Machine.execMatrixEngineExec s
  | .matrixKblock => Sys2Proof.Machine.execMatrixKblock s
  | .factStep => Sys2Proof.Machine.execFactStep s
  | .limiterWindow => Sys2Proof.Machine.execLimiterWindow s
  | .powerCapAdjust => Sys2Proof.Machine.execPowerCapAdjust s
  | .collectiveComplete => Sys2Proof.Machine.execCollectiveComplete s
  | .messageArrive => Sys2Proof.Machine.execMessageArrive s
  | .stationRowArrive => Sys2Proof.Machine.execStationRowArrive s
  | .routeReturn => Sys2Proof.Machine.execRouteReturn s
  | .ratTimeout => Sys2Proof.Machine.execRatTimeout s
  | .deferralRetry => Sys2Proof.Machine.execDeferralRetry s
  | .lineFill => Sys2Proof.Machine.execLineFill s
  | .pageWalk => Sys2Proof.Machine.execPageWalk s
  | .ckptDrainDone => Sys2Proof.Machine.execCkptDrainDone s
  | .flitReceive => Sys2Proof.Machine.execFlitReceive s
  | .linkNakResend => Sys2Proof.Machine.execLinkNakResend s
  | .linkTrainingDone => Sys2Proof.Machine.execLinkTrainingDone s
  | .linkTrainingTimeout => Sys2Proof.Machine.execLinkTrainingTimeout s
  | .laneLoss => Sys2Proof.Machine.execLaneLoss s
  | .flowLoss => Sys2Proof.Machine.execFlowLoss s
  | .lineWrite => Sys2Proof.Machine.execLineWrite s
  | .reducingLine => Sys2Proof.Machine.execReducingLine s
  | .e2eAck => Sys2Proof.Machine.execE2eAck s
  | .barrierArrivalFlit => Sys2Proof.Machine.execBarrierArrivalFlit s
  | .barrierReleaseFlit => Sys2Proof.Machine.execBarrierReleaseFlit s
  | .rangeRequest => Sys2Proof.Machine.execRangeRequest s
  | .rangeReply => Sys2Proof.Machine.execRangeReply s
  | .imageChunk => Sys2Proof.Machine.execImageChunk s
  | .reductionFailure => Sys2Proof.Machine.execReductionFailure s
  | .rfCombine => Sys2Proof.Machine.execRfCombine s
  | .ckptChunkDrained => Sys2Proof.Machine.execCkptChunkDrained s
  | .heapScrub => Sys2Proof.Machine.execHeapScrub s
  | .statusRead => Sys2Proof.Machine.execStatusRead s
  | .accessAccepted => Sys2Proof.Machine.execAccessAccepted s

end Sys2Proof.Machine
end

