-- ==== Sys2Proof/Machine/Prims.lean ====
section
/-! DEFINITION. The built-in operators as rewrites (R175 to R189). The manual gives their semantics and their cost and
not their code: a member of a built-in does its part of the rewrite in one turn (DEDUCED, log 8). -/

namespace Sys2Proof.Machine

/-! ### Expressions of a redex -/

/-- The first expression of a row, from inside d brackets, and what follows it (R68). -/
def takeExpr : Nat → Row → Row × Row
  | _, [] => ([], [])
  | d, (p, w) :: r =>
    let t := symTag w
    let d := if t = tagAPPO ∨ t = tagSEQO ∨ t = tagFRMO then d + 1
      else if t = tagAPPC ∨ t = tagSEQC ∨ t = tagFRMC then d - 1 else d
    if d = 0 then ([(p, w)], r)
    else
      let (a, b) := takeExpr d r
      ((p, w) :: a, b)

/-- The expressions of a row, at most n. -/
def exprsOf : Nat → Row → List Row
  | 0, _ => []
  | _, [] => []
  | n + 1, r =>
    let (a, b) := takeExpr 0 r
    a :: exprsOf n b

/-- The top-level elements of a sequence (R78). -/
def elementsOf (r : Row) : Option (List Row) :=
  match r with
  | (_, w) :: rest => if symTag w = tagSEQO then some (exprsOf r.length rest.dropLast) else none
  | [] => none

def wordsOf (r : Row) : List Word := r.map Prod.snd

/-- A built-in redex taken apart. -/
structure Prim where
  ctx   : CtxId
  op    : Nat
  par   : Nat
  form  : Bool
  fn    : List Word
  args  : List (List Word)
  obj   : List Word
  elems : Option (List (List Word))
  /-- The cell of the first symbol of each top-level element. -/
  cells : List Nat
  first : Nat
  last  : Nat

/-- The parts of a redex's slots (R68, R175). -/
def parsePrim (k : CtxId) (slots : Row) : Prim :=
  let (f, rest) := takeExpr 0 (slots.drop 1)
  let obj := (rest.drop 1).dropLast
  let fw := wordsOf f
  let form := symTag (fw.getD 0 0) == tagFRMO
  let head := if form then fw.getD 1 0 else fw.getD 0 0
  let els := elementsOf obj
  let cellOf (r : Row) : Nat := (r.head?.map fun p => p.1 / 16).getD 0
  { ctx := k, op := (symOp head).toNat, par := field head 31 0, form := form, fn := fw
    args := if form then (exprsOf f.length ((f.drop 2).dropLast)).map wordsOf else []
    obj := wordsOf obj, elems := els.map fun l => l.map wordsOf
    cells := match els with
      | some l => l.map cellOf
      | none => [cellOf obj]
    first := cellOf slots, last := (slots.getLast?.map fun p => p.1 / 16).getD 0 }

/-! ### Results (R178) -/

/-- A result symbol, with the top-level element that it is copied or computed from. -/
abbrev Piece := Word × Option Nat

def plainPieces (ws : List Word) : List Piece := ws.map fun w => (w, none)

def elemPieces (i : Nat) (ws : List Word) : List Piece := ws.map fun w => (w, some i)

/-- The application of a function to an object. -/
def appPieces (k : CtxId) (f x : List Piece) : List Piece :=
  (mkSym tagAPPO k 0, none) :: f ++ (mkSym tagCOLON k 0, none) :: x ++ [(mkSym tagAPPC k 0, none)]

/-- A sequence of expressions. -/
def seqPieces (k : CtxId) (l : List (List Piece)) : List Piece :=
  (mkSym tagSEQO k 0, none) :: l.flatten ++ [(mkSym tagSEQC k 0, none)]

/-- An OP atom of a built-in. -/
def opSym (k : CtxId) (op : Nat) : Word := mkSym tagOP k (op * 2 ^ 32)

/-- A form headed by a built-in. -/
def formPieces (k : CtxId) (op : Nat) (l : List (List Piece)) : List Piece :=
  (mkSym tagFRMO k 0, none) :: (opSym k op, none) :: l.flatten ++ [(mkSym tagFRMC k 0, none)]

/-- The value of an INT atom (R43). -/
def intAtom (w : Word) : Int := intOf true 48 (w.toNat % 2 ^ 48)

/-- An INT atom. -/
def mkInt (k : CtxId) (v : Int) : Word := mkSym tagINT k (bitsOf 48 v)

/-- An INT atom whose value is in range, or ARITH (R43). -/
def checkedInt (k : CtxId) (v : Int) : Except Cause Word :=
  if -(2 ^ 47) ≤ v && v < 2 ^ 47 then .ok (mkInt k v) else .error causeARITH

/-- The expression is a function: an OP atom or a form (R68). -/
def isFunction (ws : List Word) : Bool := symTag (ws.getD 0 0) == tagOP || symTag (ws.getD 0 0) == tagFRMO

/-- The expression is one INT atom. -/
def isInt (ws : List Word) : Bool := ws.length == 1 && symTag (ws.getD 0 0) == tagINT

/-- The pieces of the object. -/
def Prim.objPieces (p : Prim) : List Piece :=
  match p.elems with
  | none => elemPieces 0 p.obj
  | some l => seqPieces p.ctx (((List.range l.length).zip l).map fun x => elemPieces x.1 x.2)

/-- The pieces of the top-level elements. -/
def Prim.elemList (p : Prim) : List (List Piece) :=
  ((List.range (p.elems.getD []).length).zip (p.elems.getD [])).map fun x => elemPieces x.1 x.2

/-- INSERT over two or more elements (R182). -/
def insertPieces (k : CtxId) (f : List Piece) : List (List Piece) → List Piece
  | [] => []
  | [x] => x
  | x :: y :: [] => appPieces k f (seqPieces k [x, y])
  | x :: r => appPieces k f (seqPieces k [x, insertPieces k f r])

/-- The neighbours of TREE paired from the left (R182). -/
def pairPieces (k : CtxId) (f : List Piece) : List (List Piece) → List (List Piece)
  | x :: y :: r => appPieces k f (seqPieces k [x, y]) :: pairPieces k f r
  | l => l

/-! ### The combining forms (R177, R182, R189) -/

/-- The rewrite of a combining form, or TYPE. -/
def combining (p : Prim) : Except Cause (List Piece) :=
  let k := p.ctx
  let fs := p.args.map plainPieces
  let allFn := p.args.all isFunction
  let n := p.args.length
  let x := p.objPieces
  let els := p.elemList
  let f := fs.getD 0 []
  let g := fs.getD 1 []
  let type : Except Cause (List Piece) := .error causeTYPE
  match p.op with
  | 0x01 => if n = 0 || !allFn then type else .ok (fs.foldr (fun f acc => appPieces k f acc) x)
  | 0x02 => if !allFn then type else .ok (seqPieces k (fs.map fun f => appPieces k f x))
  | 0x03 => if n ≠ 1 || !allFn || p.elems.isNone then type else .ok (seqPieces k (els.map fun y => appPieces k f y))
  | 0x04 => if n ≠ 1 || !allFn || els = [] then type else .ok (insertPieces k f els)
  | 0x05 =>
    if n ≠ 1 || !allFn || els = [] then type
    else if els.length = 1 then .ok (els.getD 0 [])
    else if els.length = 2 then .ok (appPieces k f (seqPieces k els))
    else .ok (appPieces k (plainPieces p.fn) (seqPieces k (pairPieces k f els)))
  | 0x06 =>
    if !allFn then type
    else if n = 3 then
      .ok (appPieces k (formPieces k 0x06 (fs.drop 1)) (seqPieces k [appPieces k f x, x]))
    else if n ≠ 2 || els.length ≠ 2 then type
    else
      let b := (p.elems.getD []).getD 0 []
      if isInt b then .ok (appPieces k (if intAtom (b.getD 0 0) = 0 then g else f) (els.getD 1 [])) else type
  | 0x07 =>
    if !allFn || n < 3 || n % 2 = 0 then type
    else if n = 3 then .ok (appPieces k (formPieces k 0x06 fs) x)
    else .ok (appPieces k (formPieces k 0x06 [f, g, formPieces k 0x07 (fs.drop 2)]) x)
  | 0x08 => if n ≠ 1 then type else .ok f
  | 0x09 =>
    if n ≠ 2 || !allFn then type
    else
      let loop := formPieces k 0x01 [formPieces k 0x09 [f, g], g]
      .ok (appPieces k (formPieces k 0x06 [f, loop, [(opSym k 0x10, none)]]) x)
  | 0x0A => if n ≠ 2 || !isFunction (p.args.getD 0 []) then type else .ok (appPieces k f (seqPieces k [g, x]))
  | 0x50 =>
    let a := p.args.getD 0 []
    if n = 1 && isInt a && 0 ≤ intAtom (a.getD 0 0) && intAtom (a.getD 0 0) ≤ 15 then .ok x else type
  | _ => type

/-! ### The structural operators (R183) -/

/-- The elements of each of some rows that are sequences. -/
def subElems : List (List Word) → Option (List (List (List Word)))
  | [] => some []
  | ws :: r =>
    match elementsOf ((List.range ws.length).zip ws), subElems r with
    | some l, some m => some (l.map wordsOf :: m)
    | _, _ => none

/-- The rewrite of a structural operator, or TYPE. -/
def structural (p : Prim) : Except Cause (List Piece) :=
  let k := p.ctx
  let els := p.elemList
  let type : Except Cause (List Piece) := .error causeTYPE
  let pair (f : List (List Word) → List (List Word) → Except Cause (List Piece)) : Except Cause (List Piece) :=
    match p.elems with
    | some [a, b] => f [a] [b]
    | _ => type
  let sub (ws : List (List Word)) (f : List (List Word) → List Piece) : Except Cause (List Piece) :=
    match subElems ws with
    | some [l] => .ok (f l)
    | _ => type
  match p.op with
  | 0x10 => .ok p.objPieces
  | 0x1A =>
    if isInt p.obj && 0 ≤ intAtom (p.obj.getD 0 0) then
      .ok (seqPieces k ((List.range (intAtom (p.obj.getD 0 0)).toNat).map fun (i : Nat) =>
        [(mkInt k ((i : Int) + 1), some 0)]))
    else type
  | _ =>
    if p.elems.isNone then type
    else match p.op with
    | 0x11 => if 1 ≤ p.par && p.par ≤ els.length then .ok (els.getD (p.par - 1) []) else type
    | 0x12 => if els = [] then type else .ok (seqPieces k (els.drop 1))
    | 0x13 => .ok [(mkInt k els.length, none)]
    | 0x1B => .ok (seqPieces k els.reverse)
    | 0x1C => .ok [(mkInt k (if els = [] then 1 else 0), none)]
    | 0x14 =>
      match subElems (p.elems.getD []) with
      | none => type
      | some rows =>
        let m := (rows.getD 0 []).length
        if rows.all fun r => r.length == m then
          .ok (seqPieces k ((List.range m).map fun j => seqPieces k (((List.range rows.length).zip rows).map fun x =>
            elemPieces x.1 (x.2.getD j []))))
        else type
    | 0x19 =>
      match subElems (p.elems.getD []) with
      | none => type
      | some rows => .ok (seqPieces k (((List.range rows.length).zip rows).flatMap fun x => x.2.map (elemPieces x.1)))
    | 0x15 => pair fun a b => sub b fun l => seqPieces k (l.map fun z =>
        seqPieces k [elemPieces 0 (a.getD 0 []), elemPieces 1 z])
    | 0x16 => pair fun a b => sub a fun l => seqPieces k (l.map fun y =>
        seqPieces k [elemPieces 0 y, elemPieces 1 (b.getD 0 [])])
    | 0x17 => pair fun a b => sub b fun l => seqPieces k (elemPieces 0 (a.getD 0 []) :: l.map (elemPieces 1))
    | 0x18 => pair fun a b => sub a fun l => seqPieces k (l.map (elemPieces 0) ++ [elemPieces 1 (b.getD 0 [])])
    | _ => type

/-! ### Arithmetic on atoms (R184) -/

/-- The binary and unary integer operations, exact; a division of y = 0 gives none. -/
def intExact (op : Nat) (x y : Int) : Option Int :=
  match op with
  | 0x20 => some (x + y)
  | 0x21 => some (x - y)
  | 0x22 => some (x * y)
  | 0x23 => if y = 0 then none else some (x.tdiv y)
  | 0x24 => some (-x)
  | 0x25 => some (if x < y then y else x)
  | 0x26 => some (if x < y then x else y)
  | 0x27 => some (if x = y then 1 else 0)
  | 0x28 => some (if x < y then 1 else 0)
  | 0x29 => some (if x ≤ y then 1 else 0)
  | 0x2A => some (if x ≠ 0 ∧ y ≠ 0 then 1 else 0)
  | 0x2B => some (if x ≠ 0 ∨ y ≠ 0 then 1 else 0)
  | _ => some (if x = 0 then 1 else 0)

/-- A comparison, or the truth of AND, OR and NOT, on floating operands. -/
def floatTest (op : Nat) (x y : Exact) : Bool :=
  match op with
  | 0x27 => Exact.eqNum x y
  | 0x28 => Exact.ltNum x y
  | 0x29 => Exact.ltNum x y || Exact.eqNum x y
  | 0x2A => !x.isZero && !y.isZero
  | 0x2B => !x.isZero || !y.isZero
  | _ => x.isZero

/-- The floating operations, RNE, as bits of the format (R184, R185). -/
def floatOp (t : FloatFmt) (op x y : Nat) : Nat :=
  match op with
  | 0x20 => (fArith t .add .rne x y).1
  | 0x21 => (fArith t .sub .rne x y).1
  | 0x22 => (fArith t .mul .rne x y).1
  | 0x23 => (fArith t .div .rne x y).1
  | 0x24 => (fSign t true x).1
  | 0x25 => (fMinMax t true x y).1
  | 0x26 => (fMinMax t false x y).1
  | _ => (t.enc (.ofInt (if floatTest op (t.dec x) (t.dec y) then 1 else 0)) .rne).1

/-- ADD to NOT on atoms of one kind (R184). -/
def atomOp (k : CtxId) (op : Nat) (a b : Word) : Except Cause Word :=
  if symTag a ≠ symTag b then .error causeTYPE
  else if symTag a = tagINT then
    match intExact op (intAtom a) (intAtom b) with
    | none => .error causeARITH
    | some v => checkedInt k v
  else if symTag a = tagF32 && op < 0x2A then
    let x := field a 31 0
    let y := field b 31 0
    if op < 0x27 then .ok (mkSym tagF32 k (floatOp .f32 op x y))
    else .ok (mkInt k (if floatTest op (FloatFmt.f32.dec x) (FloatFmt.f32.dec y) then 1 else 0))
  else .error causeTYPE

/-! ### RED on atoms (R56, R186) -/

/-- One level of the tree over contributions by node number, in ascending order. -/
def treeStep {α : Type} (f : α → α → α) (l : List (Nat × α)) : List (Nat × α) :=
  (l.foldl (fun acc p =>
    match acc with
    | (n, x) :: r => if n = p.1 / 8 then (n, f x p.2) :: r else (p.1 / 8, p.2) :: acc
    | [] => [(p.1 / 8, p.2)]) ([] : List (Nat × α))).reverse

/-- Contributions of one cell combined, in order. -/
def memberStep {α : Type} (f : α → α → α) (l : List (Nat × α)) : List (Nat × α) :=
  (l.foldl (fun acc p =>
    match acc with
    | (n, x) :: r => if n = p.1 then (n, f x p.2) :: r else p :: acc
    | [] => [p]) ([] : List (Nat × α))).reverse

/-- The order of RED: within each member, then up the tree (R56, R186). -/
def redFold {α : Type} (f : α → α → α) (l : List (Nat × α)) : Option α :=
  (treeStep f (treeStep f (treeStep f (treeStep f (memberStep f l))))).head?.map Prod.snd

/-- The operation of R184 that RED's parameter names. -/
def redOpNum (p : Nat) : Nat := [0x20, 0x25, 0x26, 0x2A, 0x2B].getD p 0x20

/-- RED over atoms by cell (R186). -/
def redAtoms (k : CtxId) (p : Nat) (l : List (Nat × Word)) : Except Cause Word :=
  match l with
  | [] => if p = 1 || p = 2 then .error causeTYPE else .ok (mkInt k (if p = 3 then 1 else 0))
  | [x] => if symTag x.2 = tagINT || (symTag x.2 = tagF32 && p < 3) then .ok x.2 else .error causeTYPE
  | x :: _ =>
    if l.any fun y => symTag y.2 != symTag x.2 then .error causeTYPE
    else if symTag x.2 = tagINT then
      match redFold (fun a b => (intExact (redOpNum p) a b).getD 0) (l.map fun y => (y.1, intAtom y.2)) with
      | some v => checkedInt k v
      | none => .error causeTYPE
    else if symTag x.2 = tagF32 && p < 3 then
      match redFold (floatOp .f32 (redOpNum p)) (l.map fun y => (y.1, field y.2 31 0)) with
      | some v => .ok (mkSym tagF32 k v)
      | none => .error causeTYPE
    else .error causeTYPE

/-! ### What a redex of a built-in asks for (R177) -/

/-- The rewrite of a built-in: symbols, or an operation on the tiles that some symbols name, each with the cell of its
element. -/
inductive Rewrite where
  | words (l : List Piece)
  | tiles (l : List (Nat × Word))

/-- The parameter is one that the entry accepts (R175, R177). -/
def parOk (op par : Nat) : Bool :=
  match op with
  | 0x11 => 1 ≤ par
  | 0x30 => par ≤ 4
  | 0x42 => par < 32 && (fmtOfCode par).isSome
  | _ => par == 0

/-- An operator that is used as a form (R175). -/
def isCombining (op : Nat) : Bool := op ≤ 0x0A || op == 0x50 || op == 0x51

/-- One atom as the whole of an expression. -/
def oneAtom (ws : List Word) : Option Word :=
  match ws with
  | [w] => some w
  | _ => none

/-- Atoms of a list of expressions, each one symbol. -/
def atomsOf : List (List Word) → Option (List Word)
  | [] => some []
  | [w] :: r => (atomsOf r).map (w :: ·)
  | _ :: _ => none

/-- The operands of a built-in on n atoms: the elements of the object, or the object itself. -/
def Prim.operands (p : Prim) (n : Nat) : Option (List Word) :=
  if n = 1 then (oneAtom p.obj).map fun w => [w]
  else match p.elems with
    | some l => if l.length = n then atomsOf l else none
    | none => none

/-- The rewrite of a built-in redex, or the fault of class VALUE that it raises (R177 to R189). -/
def rewriteOf (p : Prim) : Except Cause Rewrite :=
  let arity := match p.op with
    | 0x24 | 0x2C | 0x42 | 0x43 | 0x44 => 1
    | 0x41 => 3
    | _ => 2
  let tagged (l : List Word) (t : Nat) : Bool := l.all fun w => symTag w == t
  let handles (l : List Word) : Rewrite := .tiles ((p.cells ++ List.replicate l.length 0).zip l)
  if isCombining p.op != p.form || !parOk p.op p.par then .error causeTYPE
  else if isCombining p.op then (combining p).map .words
  else if p.op < 0x20 then (structural p).map .words
  else if p.op < 0x2D then
    match p.operands arity with
    | none => .error causeTYPE
    | some l =>
      if tagged l tagTILE then .ok (handles l)
      else (atomOp p.ctx p.op (l.getD 0 0) (l.getD (arity - 1) 0)).map fun w =>
        .words [(w, if arity = 1 then some 0 else none)]
  else if p.op = 0x30 then
    match p.elems with
    | none => .error causeTYPE
    | some es => match atomsOf es with
      | none => .error causeTYPE
      | some l =>
        if l ≠ [] && tagged l tagTILE then .ok (handles l)
        else (redAtoms p.ctx p.par (p.cells.zip l)).map fun w => .words [(w, if l.length = 1 then some 0 else none)]
  else match p.operands arity with
    | none => .error causeTYPE
    | some l => if tagged l tagTILE then .ok (handles l) else .error causeTYPE

/-! ### Tiles (R45 to R49, R180) -/

/-- A tile as a built-in reads it: elements outside the valid region are zero (R49). -/
structure TileVal where
  fmt    : Fmt
  rows   : Nat
  cols   : Nat
  /-- E and, with RSP, the BF16 row scales. -/
  exp    : Int := 0
  scales : Option (List Nat) := none
  elem   : Nat → Nat → Nat

/-- The bits of an element in a tile's bytes (R38, R48). -/
def tileElem (f : Fmt) (bs : List Byte) (i j : Nat) : Nat :=
  if f.isBpi then
    (List.range f.planes).foldl (fun acc p =>
      acc + (if (bs.getD (512 * (1 + p) + 8 * i + j / 8) 0).getLsbD (j % 8) then 2 ^ (7 - p) else 0)) 0
  else leNat ((bs.drop (512 + elemBytes f * (64 * i + j))).take (elemBytes f))

/-- A tile's header is well formed, and its FMT is that of the symbol (R47, R66). -/
def headerFits (f : Fmt) (bs : List Byte) : Bool :=
  let h : Word := BitVec.ofNat 64 (leNat (bs.take 8))
  !headerBad h && fmtOfCode (field h 4 0) == some f

/-- A tile's bytes read under the FMT of its symbol, or none where the header is malformed or differs (R47, R66). -/
def readTile (f : Fmt) (bs : List Byte) : Option TileVal :=
  let h : Word := BitVec.ofNat 64 (leNat (bs.take 8))
  if !headerFits f bs then none
  else
    let rows := field h 14 8
    let cols := field h 22 16
    some {
      fmt := f, rows := rows, cols := cols, exp := intOf true 8 (field h 39 32)
      scales := if h.getLsbD 40 then
          some ((List.range 64).map fun i => leNat ((bs.drop (64 + 2 * i)).take 2))
        else none
      elem := fun i j => if i < rows && j < cols then tileElem f bs i j else 0 }

/-- The bytes of a result tile (R179): its header, the row scales it keeps, and its elements, zero outside the valid
region. -/
def TileVal.bytes (t : TileVal) : List Byte :=
  let el (i j : Nat) : Nat := if i < t.rows && j < t.cols then t.elem i j else 0
  let h := t.fmt.code.toNat + t.rows * 2 ^ 8 + t.cols * 2 ^ 16 + t.fmt.planes * 2 ^ 24 + bitsOf 8 t.exp * 2 ^ 32
    + t.scales.isSome.toNat * 2 ^ 40
  let sc := (t.scales.getD (List.replicate 64 0)).flatMap (leBytes 2)
  let data : List Byte :=
    if t.fmt.isBpi then
      (List.range t.fmt.planes).flatMap fun p => (List.range 64).flatMap fun i => (List.range 8).map fun b =>
        BitVec.ofNat 8 ((List.range 8).foldl (fun acc x =>
          acc + (el i (8 * b + x) / 2 ^ (7 - p) % 2) * 2 ^ x) 0)
    else (List.range 64).flatMap fun i => (List.range 64).flatMap fun j => leBytes (elemBytes t.fmt) (el i j)
  leBytes 8 h ++ List.replicate 56 0 ++ sc ++ List.replicate 320 0 ++ data

/-- The floating format of a tile format. -/
def Fmt.float (f : Fmt) : Option FloatFmt :=
  match f with
  | .f32 => some .f32
  | .bf16 => some .bf16
  | .gf8 => some .gf8
  | _ => none

/-- Bits of an integer element. -/
def intBits (f : Fmt) : Nat := if f = .i32 then 32 else 8

/-- One element of ADD to NOT (R185); none for a zero divisor. -/
def elemOp (f : Fmt) (op x y : Nat) : Option Nat :=
  match Fmt.float f with
  | some t => some (floatOp t op x y)
  | none =>
    let w := intBits f
    (intExact op (intOf true w x) (intOf true w y)).map fun v => bitsOf w (satInt v true w).1

/-- ADD to NOT on tiles (R185). -/
def tileArith (op : Nat) (a b : TileVal) : Except Cause TileVal :=
  if a.fmt ≠ b.fmt || a.rows ≠ b.rows || a.cols ≠ b.cols || a.fmt.isBpi then .error causeTYPE
  else if (List.range a.rows).any fun i => (List.range a.cols).any fun j =>
      (elemOp a.fmt op (a.elem i j) (b.elem i j)).isNone then .error causeARITH
  else .ok { fmt := a.fmt, rows := a.rows, cols := a.cols
             elem := fun i j => (elemOp a.fmt op (a.elem i j) (b.elem i j)).getD 0 }

/-- RED over two or more tiles by cell (R186). -/
def tileRed (p : Nat) (l : List (Nat × TileVal)) : Except Cause TileVal :=
  match l with
  | [] => .error causeTYPE
  | (_, x) :: _ =>
    if x.fmt.isBpi || (l.any fun y => y.2.fmt != x.fmt || y.2.rows != x.rows || y.2.cols != x.cols) ||
        (3 ≤ p && (Fmt.float x.fmt).isSome) then .error causeTYPE
    else
      let at' (i j : Nat) : Nat :=
        (redFold (fun a b => (elemOp x.fmt (redOpNum p) a b).getD 0) (l.map fun y => (y.1, y.2.elem i j))).getD 0
      .ok { fmt := x.fmt, rows := x.rows, cols := x.cols, elem := at' }

/-- The exact value of a BPI element at its stored planes, E and row scale applied (R39). -/
def bpiValue (t : TileVal) (i j : Nat) : Exact :=
  Exact.mul (Exact.mul (.ofInt (matInt (t.elem i j))) (.fin false 1 t.exp)) (match t.scales with
    | some l => ofBF16 (BitVec.ofNat 16 (l.getD i 0))
    | none => .fin false 1 0)

/-- The checked MMA that MMUL and MMULACC issue, of K = 64 (R187). -/
def mulForm (a b : TileVal) : MmaForm := { fa := a.fmt, fb := b.fmt, acc := .accumulate, chk := true, k1 := 63 }

/-- MMUL and MMULACC (R187); the accumulator is absent for MMUL. -/
def tileMul (c0 : Option TileVal) (a b : TileVal) : Except Cause TileVal :=
  let int := a.fmt = .i8
  let kinds := (a.fmt = b.fmt && a.fmt ≠ .i32) || (a.fmt.isBpi && b.fmt.isBpi)
  let out : Fmt := if int then .i32 else .f32
  let accOk := match c0 with
    | some c => c.fmt == out && c.rows == a.rows && c.cols == b.cols
    | none => true
  if !kinds || a.cols ≠ b.rows || !accOk || (b.fmt.isBpi && b.scales.isSome) then .error causeTYPE
  else
    let form := mulForm a b
    let acc (i j : Nat) : Lane := match c0 with
      | some c => BitVec.ofNat 32 (c.elem i j)
      | none => 0
    let blocksOf (f : List Nat → Lane → Lane) (x : Lane) : Lane :=
      (List.range (blocks form)).foldl (fun x n => f (blockKs form n) x) x
    let at' (i j : Nat) : Nat :=
      if a.fmt.isBpi then
        let c := blocksOf (fun ks x => (blockInt form a.elem b.elem ks i j x).1) 0
        let v := Exact.mul (Exact.mul (.ofInt c.toInt) (.fin false 1 (a.exp + b.exp))) (match a.scales with
          | some l => ofBF16 (BitVec.ofNat 16 (l.getD i 0))
          | none => .fin false 1 0)
        (roundF32 (match c0 with
          | some c => Exact.add .rne (ofF32 (BitVec.ofNat 32 (c.elem i j))) v
          | none => v) .rne).1.toNat
      else if int then (blocksOf (fun ks x => (blockInt form a.elem b.elem ks i j x).1) (acc i j)).toNat
      else (blocksOf (fun ks x => blockFloat form a.elem b.elem ks i j x) (acc i j)).toNat
    .ok { fmt := out, rows := a.rows, cols := b.cols, elem := at' }

/-- The element type of a format other than BPI (R27). -/
def Fmt.elemTy (f : Fmt) : ElemTy :=
  match f with
  | .f32 => .float .f32
  | .bf16 => .float .bf16
  | .gf8 => .float .gf8
  | .i32 => .int true 32
  | _ => .int true 8

/-- The exact value of an element of a format other than BPI. -/
def Fmt.value (f : Fmt) (x : Nat) : Exact :=
  match Fmt.float f with
  | some t => t.dec x
  | none => .ofInt (intOf true (intBits f) x)

/-- A quantised element with only its stored planes (R38, R41). -/
def planesOf (f : Fmt) (v : Int) : Nat := bitsOf 8 v / 2 ^ (8 - f.planes) * 2 ^ (8 - f.planes)

/-- TCVT (R188). -/
def tileConv (f : Fmt) (t : TileVal) : TileVal :=
  if t.fmt.isBpi && f.isBpi then
    { t with fmt := f, elem := fun i j => t.elem i j / 2 ^ (8 - f.planes) * 2 ^ (8 - f.planes) }
  else if f.isBpi then
    { fmt := f, rows := t.rows, cols := t.cols
      elem := fun i j => planesOf f (toInt (Fmt.value t.fmt (t.elem i j)) .rne true 8).1 }
  else if t.fmt.isBpi then
    { fmt := f, rows := t.rows, cols := t.cols
      elem := fun i j => (convFromF32 (Fmt.elemTy f) .rne true (roundF32 (bpiValue t i j) .rne).1.toNat).bits }
  else if t.fmt = f then t
  else
    { fmt := f, rows := t.rows, cols := t.cols
      elem := fun i j => (convElem (Fmt.elemTy t.fmt) (Fmt.elemTy f) .rne true (t.elem i j)).bits }

/-- RELU on one element (R188). -/
def reluElem (f : Fmt) (x : Nat) : Nat :=
  match Fmt.float f with
  | some t => if (t.dec x).isNan then t.nan else if Exact.ltNum (t.dec x) (.fin false 0 0) then 0 else x
  | none => if intOf true (intBits f) x < 0 then 0 else x

/-- TCVT, RELU and TTR (R188). Of RELU, whose entry states no E, E is 0 (R179; DEDUCED, log 55). -/
def tileUnary (op par : Nat) (t : TileVal) : Except Cause TileVal :=
  if op = 0x42 then match fmtOfCode par with
    | some f => .ok (tileConv f t)
    | none => .error causeTYPE
  else if t.fmt.isBpi && t.scales.isSome then .error causeTYPE
  else if op = 0x43 then
    .ok { fmt := t.fmt, rows := t.rows, cols := t.cols, elem := fun i j => reluElem t.fmt (t.elem i j) }
  else .ok { fmt := t.fmt, rows := t.cols, cols := t.rows, exp := t.exp, elem := fun i j => t.elem j i }

/-- The result of a built-in on tiles: a new tile, or the operand itself (R185 to R188). -/
def tileResult (op par : Nat) (l : List (Nat × TileVal)) : Except Cause (Option TileVal) :=
  match op, l.map Prod.snd with
  | 0x30, [x] => if x.fmt.isBpi || (3 ≤ par && (Fmt.float x.fmt).isSome) then .error causeTYPE else .ok none
  | 0x30, _ => (tileRed par l).map some
  | 0x40, [a, b] => (tileMul none a b).map some
  | 0x41, [c, a, b] => (tileMul (some c) a b).map some
  | 0x42, [t] | 0x43, [t] | 0x44, [t] => (tileUnary op par t).map some
  | _, [a] => (tileArith op a a).map some
  | _, [a, b] => (tileArith op a b).map some
  | _, _ => .error causeTYPE

/-- The factors of MMUL and MMULACC among their operands. -/
def mulFactors (op : Nat) (l : List TileVal) : Option (TileVal × TileVal) :=
  match op, l with
  | 0x40, [a, b] | 0x41, [_, a, b] => some (a, b)
  | _, _ => none

/-! ### A member's turn -/

namespace State

/-- What a handle gives (R180). -/
inductive Operand where
  | bytes (bs : List Byte)
  | fault (cause : Cause) (va : Option Word)
  | missing (va : Nat)
  | absent (pa : Nat)
  /-- A bridge on the way to it carries no traffic (R384). -/
  | apart

/-- The chunks of a heap tile, from chunk c on; an address outside the context's heap pages faults PAGE (R65, R180).
The words come over the bridges between their home slice and the member's gallery g (R384). -/
def heapOperand (s : State) (k : CtxId) (g va : Nat) : Nat → Operand
  | 0 => .bytes []
  | n + 1 =>
    match s.access k va .heap false with
    | .missing => .missing va
    | .fault _ => .fault causePAGE (some (word va))
    | .at pa _ =>
      if !s.joined g (s.galAt pa) then .apart
      else match (List.range 64).find? fun i => !s.present (pa + 8 * i) with
      | some i => .absent (pa + 8 * i)
      | none => match s.heapOperand k g (va + 512) n with
        | .bytes bs => .bytes (s.loadBytes pa 512 ++ bs)
        | o => o

/-- The bytes of the tile that a handle names, for a member in gallery g: its header first, so that a format that
differs from the symbol's is found before the chunks that the symbol's format would need (R66, R180). -/
def operandOf (s : State) (k : CtxId) (g : Nat) (w : Word) (f : Fmt) : Operand :=
  if Ep.inHeap w then
    match s.heapOperand k g (Ep.heapVa w) 1 with
    | .bytes h => if headerFits f h then s.heapOperand k g (Ep.heapVa w) (fmtChunks f) else .fault causeTYPE none
    | o => o
  else
    let cell := field w 42 32
    let t := (s.getCell cell).getTile (field w 7 0)
    if !s.joined g (galOf cell) then .apart
    else match srcCheck k false t with
    | some c => .fault c none
    | none =>
      if !headerFits f ((s.getCell cell).scratch.readBytes (512 * t.base) 512) then .fault causeTYPE none
      else if t.count < fmtChunks f then .fault causeSCRATCH none
      else .bytes ((s.getCell cell).scratch.readBytes (512 * t.base) (512 * fmtChunks f))

/-- The tiles of some handles, or what stands in the way of the first that has none. -/
def operandsOf (s : State) (k : CtxId) (g : Nat) : List (Nat × Word) → Except Operand (List (Nat × TileVal))
  | [] => .ok []
  | (c, w) :: r =>
    match fmtOfCode (field w 57 53) with
    | none => .error (.fault causeTYPE none)
    | some f => match s.operandOf k g w f with
      | .bytes bs => match readTile f bs with
        | none => .error (.fault causeTYPE none)
        | some t => match s.operandsOf k g r with
          | .ok l => .ok ((c, t) :: l)
          | .error o => .error o
      | o => .error o

/-- A fault of a built-in: the word that raises it is not known (DESIGN CHOICE, log 27). -/
def primFault (s : State) (k : Nat) (e : Exec) (c : Cause) (va : Option Word := none) : State :=
  s.faultRedex e.ctx e.appo c (classOf c true)
    ⟨k / 256, Config.noInstruction s.clk.toNat, Config.noInstruction (s.clk.toNat + 1), va⟩

/-- The symbols of a result, each with the cell whose member emits it: that of its element, and for every other symbol
the APPO's before the first element's symbols, and the APPC's after them (R178). A result that holds no element's
symbols, such as that of LEN, comes from the APPO's member (DESIGN CHOICE, log 84), which is R186's rank 0 for RED. -/
def emitters (p : Prim) : Bool → List Piece → List (Nat × Word)
  | _, [] => []
  | _, (w, some i) :: l => (p.cells.getD i p.first, w) :: emitters p true l
  | seen, (w, none) :: l => (if seen then p.last else p.first, w) :: emitters p seen l

/-- What the member of a cell emits (R178). Where span order (R124) would not give the order that the rewrite states, as
for REV of elements in several cells, rank 0 holds the whole result instead (DEDUCED, log 8). -/
def memberOut (p : Prim) (cell rank : Nat) (l : List Piece) : List Word :=
  let em := emitters p false l
  let cells := em.map Prod.fst
  if (cells.zip (cells.drop 1)).all fun x => x.1 ≤ x.2 then (em.filter fun x => x.1 == cell).map Prod.snd
  else if rank = 0 then em.map Prod.snd
  else []

/-- A member holds its symbols and halts; those that it emits by R178 are n. -/
def primHalt (s : State) (k : Nat) (e : Exec) (n : Nat) (out : List Word) : State :=
  if 16384 < n then s.primFault k e causeSTRUCT
  else match (s.getCell (k / 256)).topChunks ((n + 63) / 64) with
    | none => s.primFault k e causeSCRATCH
    | some ch =>
      let s := (s.modCell (k / 256) fun c => { c with taken := ch ++ c.taken }).modRedex e.ctx e.appo fun r =>
        { r with
          chunks := ch.map (fun x => (k / 256, x)) ++ r.chunks
          out := if out.isEmpty then r.out else Tbl.set r.out e.rank out }
      s.haltMember k e

/-- The result tile in the cell of the APPO, and its symbol (R179). -/
def primTile (s : State) (k : Nat) (e : Exec) (t : TileVal) : State :=
  match s.freeEntry (k / 256), (s.getCell (k / 256)).lowRun (fmtChunks t.fmt) with
  | some i, some b =>
    let tile : Tile := { fmt := t.fmt, ctx := e.ctx, state := .priv, owner := some e.appo, ownx := k % 256 }
    let s := s.placeTile (k / 256) i b tile
    let s := s.modCell (k / 256) fun c => { c with scratch := c.scratch.write (512 * b) t.bytes }
    s.primHalt k e 1 [tileSym e.ctx tile (k / 256) i]
  | _, _ => s.primFault k e causeSCRATCH

/-- A member waits for what a handle lacks, and for a bridge that trains (R180, R384). -/
def primWait (s : State) (k : Nat) (e : Exec) (o : Operand) : State :=
  match o with
  | .bytes _ | .apart => s
  | .fault c va => s.primFault k e c va
  | .absent pa => s.park k e (.presence pa (s.deferralFull pa))
  | .missing va => (s.fqStall e.ctx (k / 256) va 0 (fqRead ||| fqCopy)).park k e (.page (word va) false)

/-- A tile result of a member. MMUL and MMULACC first run the K-blocks of their MMA, one in a turn, as the limiter
admits them, and a mismatch after the last is a detected SDC (R187, R244, R251). -/
def primMul (s : State) (k : Nat) (e : Exec) (op : Nat) (l : List TileVal) (t : TileVal) : State :=
  match mulFactors op l with
  | none => s.primTile k e t
  | some (a, b) =>
    let form := mulForm a b
    if e.blocks < Machine.blocks form then
      s.admitTiles (k / 256) fun s => s.setExec k { e with blocks := e.blocks + 1 }
    else if checkBad form a.rows b.cols a.elem b.elem e.strays then
      s.raiseSDC telMatrix e.ctx e.appo
        ⟨k / 256, Config.noInstruction s.clk.toNat, Config.noInstruction (s.clk.toNat + 1), none⟩
    else s.primTile k e t

/-- The lanes that a member of a RED brings from the slots of its cell: the sum of its INT atoms in three parts, their
count, and the parameters of its OP words (R425). -/
def redLanes (own : List Word) : Vec :=
  let ints := own.filter fun w => symTag w = tagINT
  let sum : Word := BitVec.ofInt 64 (ints.foldl (fun n w => n + intAtom w) 0)
  let par := (own.filter fun w => symTag w = tagOP).foldl (fun n w => n ||| w) 0
  let lanes : List Lane := [(sum &&& 0xFFFF).setWidth 32, ((sum >>> 16) &&& 0xFFFF).setWidth 32, (sum >>> 32).setWidth 32,
    BitVec.ofNat 32 ints.length, par.setWidth 32]
  tabulate 64 fun i => lanes.getD i 0

/-- The sum of a RED of INT atoms, rebuilt from the lanes of v1 (R425). -/
def redTotal (e : Exec) : Int :=
  let v := e.getV 1
  (lane v 0).toInt + (lane v 1).toInt * 2 ^ 16 + (lane v 2).toInt * 2 ^ 32

/-- The first of RED's decisions after its TALL: the object is a sequence of INT atoms alone and the parameter is ADD.
Every member makes it from the same lanes of v1, the count of INT atoms and the parameter (R425). -/
def redSums (r : Redex) (e : Exec) : Bool :=
  let v := e.getV 1
  (spn1 r e.rank >>> 32) - 6 == (lane v 3).setWidth 64 * 0x10001 && lane v 4 == 0

/-- A member of a built-in joins the next collective of its span, with its own lanes, and goes on once every member has
and it has completed (R167, R178). -/
def primJoin (s : State) (k : Nat) (e : Exec) (i : Instr) (own : Vec) : State :=
  let e := e.setV 0 own
  let j : Join := { rank := e.rank, word := i, vec := own, gb := 0 }
  (s.addJoin e.ctx e.appo e.spans false j).stall k { e with spans := e.spans + 1 } (.collective false e.spans)

/-- The operation of RED's parameter on the tree (R168, R186). -/
def redOpOf (par : Nat) : RedOp :=
  match par with
  | 1 => .max | 2 => .min | 3 => .and | 4 => .or | _ => .add

/-- The exchange that a member has still to take part in. A RED's members take part in one TALL, with the lanes of R425,
and on its other path in a checked TRED for rank 0 (R186, R192); those of another built-in, in a span of several cells,
in one TALL. R178 has them exchange what they need through the tree instructions and does not say which these are
(DESIGN CHOICE, log 102). -/
def exchange (r : Redex) (e : Exec) (p : Prim) (own : List Word) : Option (Instr × Vec) :=
  if p.op = 0x30 then match e.spans with
    | 0 => some (.tall .always .add .i32 1 0, redLanes own)
    | 1 => if redSums r e then none else some (.tred .always (redOpOf p.par) .i32 true 2 0 0, tabulate 64 fun _ => 0)
    | _ => none
  else if e.spans = 0 && 1 < State.width r then some (.tall .always .add .i32 1 0, tabulate 64 fun _ => 0)
  else none

/-- What a member does for a rewrite: its part of the symbols, or, in one member, the operation on tiles. That member is
rank 0 in the APPO's cell, and for a RED of one tile, which is no more than copied, its holder (R178, R179). -/
def primRewrite (s : State) (k : Nat) (e : Exec) (p : Prim) : Rewrite → State
  | .words l =>
    let n := ((emitters p false l).filter fun x => x.1 == k / 256).length
    s.primHalt k e n (memberOut p (k / 256) e.rank l)
  | .tiles l =>
    let holder := if p.op = 0x30 && l.length = 1 then (p.cells.getD 0 p.first) - p.first else 0
    if e.rank ≠ holder then s.primHalt k e 0 []
    else match s.operandsOf e.ctx (galOf (k / 256)) l with
      | .error o => s.primWait k e o
      | .ok ts => match tileResult p.op p.par ts with
        | .error c => s.primFault k e c
        | .ok (some t) => s.primMul k e p.op (ts.map Prod.snd) t
        | .ok none => s.primHalt k e 1 (l.map Prod.snd)

/-- The turn of a member of a built-in (R178 to R189, DEDUCED, log 8). It takes part in the exchange of its span, and
then does its part; of a RED, rank 0 alone finds the result or the fault (R186, R425, R426). -/
def primTurn (s : State) (k : Nat) (e : Exec) : State :=
  match s.getRedex e.ctx e.appo with
  | none => s
  | some r =>
    let slots := Row.between (s.getCtx e.ctx).pockets e.appo r.appc
    let p := parsePrim e.ctx slots
    match exchange r e p ((slots.filter fun x => x.1 / 16 = k / 256).map Prod.snd) with
    | some (i, own) => s.primJoin k e i own
    | none =>
    if p.op = 0x30 && e.spans = 1 then
      if e.rank ≠ 0 then s.primHalt k e 0 []
      else match checkedInt e.ctx (redTotal e) with
        | .error c => s.primFault k e c
        | .ok w => s.primHalt k e 1 [w]
    else match rewriteOf p with
      | .error c => if p.op = 0x30 && e.rank ≠ 0 then s.primHalt k e 0 [] else s.primFault k e c
      | .ok x => s.primRewrite k e p x

end State

end Sys2Proof.Machine
end

