-- ==== Sys2Proof/Machine/Turns.lean ====
section
/-! DEFINITION. One turn of the machine: what moves, for a cell the fetch, decode and issue of one word (R81, R87,
R212), for the host the register that it writes or reads (R409), and what follows in the same cycle. -/

namespace Sys2Proof

/-- A cell row of the opcode table: an instruction of a microprogram. -/
def Instr.isCell (i : Instr) : Bool :=
  i.fields.isSome || match i with
    | .notAnInstruction _ => true
    | _ => false

namespace Machine

/-! ### A cell -/

/-- The instruction that the live execution of a cell issues next, decoded under its operator's declaration (R87,
R89). -/
def State.nextInstr (s : State) (e : Exec) : Instr := instrOfWord (s.opDecl e.op) (s.fetchWord e)

/-- A live execution issues its next word. An uncorrectable error in the fetched word discards the execution with cause
ECC (R81). An execution that waits inside its instruction, and a word that cannot issue yet, leave the state as it is; a
member of a built-in does its part (DEDUCED, log 8). While a FACT instruction runs, a word that would fault waits for
its end, so that a fault of an earlier word comes first (R214, R259). -/
def issueTurn (ecc : Bool) (k : Nat) (e : Exec) (s : State) : Out :=
  if e.wait ≠ .nothing then .next s
  else if ecc then .next (s.eccFault k e)
  else if isBuiltin e.op then .next (s.primTurn k e)
  else
    let i := s.nextInstr e
    if !s.canIssue k e i then .next s
    else match exec i s with
      | .next t => .next (if e.mq.any (fun m => m.instr.isFact) && (t.getExec k).isNone then s else t)
      | o => o

/-- The execution at a key is to be suspended at its next boundary: its suspension waits for it, or its context is
TRAPPED (R106, R110). -/
def State.stopDue (s : State) (k : Nat) : Bool :=
  match s.getExec k with
  | some e => e.status == .live && (e.stopAsked || (s.getCtx e.ctx).state == .trapped)
  | none => false

/-- An execution that its word leaves live is suspended when that is due (R106, R110). -/
def State.boundary (s : State) (k : Nat) : State :=
  match s.getExec k with
  | some e => if s.stopDue k then s.suspend k e else s
  | none => s

/-- A turn of a cell's live execution. One that is to be suspended goes on to its instruction boundary (R106, R110). -/
def cellTurn (c : CellId) (ecc : Bool) (s : State) : Out :=
  let s := { s with cur := c }
  match s.live with
  | none => .next s
  | some (k, e) =>
    if s.stopDue k then
      match issueTurn ecc k e s with
      | .next t => .next (t.boundary k)
      | o => o
    else issueTurn ecc k e s

/-! ### The host's registers (R409) -/

/-- The row of a write to CMD (R100). -/
def cmdRow (urgent : Bool) (code : Nat) : Instr :=
  match code with
  | 0x01 => .load | 0x02 => .start | 0x03 => if urgent then .holdUrgent else .holdSoft
  | 0x04 => .release | 0x05 => .setpri | 0x06 => .ckpt | 0x07 => .evict | 0x08 => .restore
  | 0x09 => .wake | 0x0A => .readback | 0x0B => .retire
  | _ => .cmdUnlisted

/-- The row of a write to DCMD (R414). -/
def dcmdRow (code : Nat) : Instr :=
  match code with
  | 0x01 => .fwload | 0x02 => .opreg | 0x03 => .flush | 0x04 => .heapwr | 0x05 => .attest | 0x06 => .telclr
  | _ => .dcmdUnlisted

/-- The row of a write to a register of a context's block (R99). -/
def ctxRow (urgent : Bool) (off : Nat) (v : Word) : Instr :=
  match off with
  | 0x000 => cmdRow urgent (field v 7 0)
  | 0x030 => .priWrite
  | 0x038 => .tmaskWrite
  | 0x070 => .tidycfgWrite
  | 0x078 => .dbgcfgWrite
  | 0x080 => .tlbinvWrite
  | 0x098 => .fqconsWrite
  | _ => .regWrite

/-- The row of a host write at an offset of BAR0, and what it acts on. -/
def barRow (s : State) (off : Nat) (v : Word) : Instr × EventArgs :=
  let a : EventArgs := { id := off, val := v }
  if off = 0x1000 then (dcmdRow (field v 7 0), a)
  else if 0x10000 ≤ off ∧ off < 0x11000 then
    let k : CtxId := Fin.ofNat 4 ((off - 0x10000) / 0x400)
    (ctxRow ((s.getCtx k).regs.arg0.getLsbD 0) (off % 0x400) v, { a with ctx := k })
  else if 0x20000 ≤ off ∧ off < 0x24000 then
    let a := { a with gal := Fin.ofNat 4 ((off - 0x20000) / 0x1000), idx := (off % 0x1000 - 0x800) / 8 }
    if off % 0x1000 = 0 then (.glimWrite, a)
    else if 0x800 ≤ off % 0x1000 then (.sliceWindowWrite, a)
    else (.regWrite, a)
  else if 0x31100 ≤ off ∧ off < 0x31900 then
    (.reductionGroupWrite, { a with idx := (off - 0x31100) / 32, id := off / 8 % 4 })
  else if off = 0x31000 then (.fabidWrite, a)
  else if off = 0x40F08 then (.pwrlimWrite, a)
  else match linkAt off with
    | some l =>
      let a := { a with link := Fin.ofNat 20 l }
      if off < 0x30000 then (.regWrite, a)
      else if off / 8 % 2 = 0 then (.lstatClear, a)
      else if v.getLsbD 1 then (.linkRetrain, a)
      else (.linkEnable, a)
    | none => (.regWrite, a)

/-- A host write of a register of BAR0. -/
def barWrite (off : Nat) (v : Word) (s : State) : Out :=
  let (i, a) := barRow s (off / 8 * 8) v
  exec i { s with arg := a }

/-- A host read of a register of BAR0. -/
def barRead (off : Nat) (s : State) : Out :=
  let off := off / 8 * 8
  if off = 0x1028 ∨ (0x10000 ≤ off ∧ off < 0x11000 ∧ off % 0x400 = 0x20) then
    exec .statusRead { s with arg := { id := off } }
  else .next { s with lastRead := s.barReg off }

/-! ### What follows in the same cycle -/

namespace State

/-- The address that a memory operand of the word at an execution's PC names, for LDH and the barrier instructions. -/
def waitedVa (s : State) (e : Exec) : Nat :=
  match s.nextInstr e with
  | .ldh _ _ _ m => field (e.ea m) 47 0
  | .barw _ a _ | .barj _ _ a _ => field (e.getG a) 47 0
  | _ => 0

/-- The chunks that have landed in a tile since an earlier state: the highest. -/
def newChunk (old s : State) (cell i : Nat) : Nat :=
  let d := ((s.getCell cell).getTile i).bitmap &&& ~~~((old.getCell cell).getTile i).bitmap
  ((List.range 64).filter d.getLsbD).foldl max 0

def engineCode : Engine → Nat
  | .copy => 0 | .matrix => 1 | .route => 2

/-- A tile of a member of a cell that differs from an earlier state as a predicate says. -/
def ownTile (old s : State) (cell : Nat) (e : Exec) (p : Tile → Tile → Bool) : Option Nat :=
  (((old.getCell cell).tiles.filter fun t => t.2.ctx = e.ctx && t.2.owner == some e.appo).find? fun t =>
    p t.2 ((s.getCell cell).getTile t.1)).map Prod.fst

/-- A template of a member whose firing has ended since an earlier state, or template 0. -/
def endedTmpl (old s : State) (cell : Nat) (e : Exec) : Nat :=
  ((List.range 8).find? fun t =>
    let x := vget {} (old.getCell cell).tmpls t
    x.owner == some (e.ctx, e.appo) && x.firing.isSome && (vget {} (s.getCell cell).tmpls t).firing.isNone).getD 0

/-- An engine has ended on a tile of a member: the engine that holds it, or the copy engine that seals it. Work that
names no tile ends without an event (R113). -/
def noteEngineEnd (s old : State) (k : CtxId) (cell : Nat) (e : Exec) : State :=
  match ownTile old s cell e fun a b => (a.working && !b.working) || (a.sealing && !b.sealing) with
  | none => s
  | some i =>
    let eng : Engine := match ((old.getCell cell).getTile i).state with
      | .matrix => .matrix
      | .route => .route
      | _ => .copy
    s.noteEvent k 10 cell (engineCode eng * 2 ^ 8 + i) []

/-- The event that a member waiting in WAITEV awaited: the end of a firing, a chunk, or an engine's end on a tile. A
return, a message and a row are noted as they arrive (R113, R210). -/
def noteEventWait (s old : State) (k : CtxId) (cell : Nat) (e : Exec) (come : BitVec 6) : State :=
  if come.getLsbD 0 then s.noteEvent k 2 cell (2 ^ 31 + endedTmpl old s cell e) []
  else if come.getLsbD 1 then
    match ownTile old s cell e fun a b => (b.bitmap &&& ~~~a.bitmap) != 0 with
    | some i => s.noteEvent k 2 cell (i * 2 ^ 40 + newChunk old s cell i * 2 ^ 32) []
    | none => s
  else if come.getLsbD 5 then s.noteEngineEnd old k cell e
  else s

/-- The event that ends the wait of a HALT: the end of a firing, or an engine's end (R113, R207). A reassembly entry
that has become whole stands in the returns that made it so. -/
def noteHalt (s old : State) (k : CtxId) (cell : Nat) (e : Exec) : State :=
  let fired := (List.range 8).any fun t =>
    let x := vget {} (old.getCell cell).tmpls t
    x.owner == some (e.ctx, e.appo) && x.firing.isSome && (vget {} (s.getCell cell).tmpls t).firing.isNone
  let whole := (old.getCell cell).rat.any fun r => r.2.ctx = e.ctx && r.2.owner == e.appo && r.2.state == .opened
  if fired then s.noteEvent k 2 cell (2 ^ 31 + endedTmpl old s cell e) []
  else if whole then s
  else s.noteEngineEnd old k cell e

/-- The event that a saved execution awaited has come during EVICTING: one word for its wait (R113). -/
def noteWait (s old : State) (k : CtxId) (key : Nat) (e : Exec) : State :=
  let cell := key / 256
  match e.wait with
  | .presence _ _ => s.noteEvent k 1 cell (s.waitedVa e) []
  | .chunks i _ => s.noteEvent k 2 cell (i * 2 ^ 40 + newChunk old s cell i * 2 ^ 32) []
  | .engines => s.noteHalt old k cell e
  | .events m => s.noteEventWait old k cell e (e.events &&& m)
  | .firing t => s.noteEvent k 2 cell (2 ^ 31 + t.toNat) []
  | .barrier _ _ _ => s.noteEvent k 3 cell (s.waitedVa e) []
  | .template t => s.noteEvent k 9 cell t.toNat []
  | .engine i eng => s.noteEvent k 10 cell (engineCode eng * 2 ^ 8 + i) []
  | _ => s

/-- A WAIT of a context that is EVICTING has had its word written (R113). -/
def noteWaits (s old : State) (k : CtxId) : State :=
  ((s.getCtx k).pockets.filter fun p => symTag p.2 = tagWAIT).foldl (fun s p =>
    match s.access k (field p.2 47 0) .heap false with
    | .at pa _ => if s.present pa && !old.present pa then s.noteEvent k 1 (p.1 / 16) (field p.2 47 0) [] else s
    | _ => s) s

/-- The events of a turn that fall in a context's eviction: those that a saved execution or a WAIT awaits (R113). -/
def noteTurn (s old : State) (k : CtxId) : State :=
  if (s.getCtx k).state ≠ .evicting then s
  else
    (s.execs.filter fun p => p.2.ctx = k && p.2.wait != .nothing && s.keptRedex k p.2.appo && s.waitMet p.1 p.2).foldl
      (fun s p => s.noteWait old k p.1 p.2) (s.noteWaits old k)

/-- A checkpoint whose cut waited for a COMMIT takes it as its context leaves RUNNING (R115). -/
def cutTurn (s : State) (k : CtxId) : State :=
  match (s.getCtx k).state with
  | .held | .trapped | .done => s.cutOnLeave k
  | _ => s

/-- What follows a turn in its cycle: events of an eviction, HALTs whose engines have ended, executions whose wait is
over, those that give up their cell and what they leave there, reassembly entries that are whole, and cuts (R13, R113,
R115, R131, R132, R207, R336). -/
def settle (old s : State) : State :=
  let all : List CtxId := [0, 1, 2, 3]
  let s := all.foldl (fun s k => s.noteTurn old k) s
  all.foldl cutTurn (leaveSets old s.completeRats.endHalts.wake.parkWaiting)

end State

/-! ### The turn -/

/-- What moves in a turn moves. -/
def runAct (a : Act) (s : State) : Out :=
  match a with
  | .cell c ecc => cellTurn c ecc s
  | .event i arg => if i.isCell then .next s else exec i { s with arg := arg }
  | .barWrite off v => barWrite off v s
  | .barRead off => barRead off s
  | .hostMemory a bs => .next { s with mem := { s.mem with host := s.mem.host.write (a % 2 ^ 64) bs } }
  | .hostLoad pa => .next { s with lastRead := s.loadWord (pa % 2 ^ 40 / 8 * 8) }
  | .routeMask dst mask => .next (s.writeRoute dst.toNat mask)

/-- The next turn: the head of the agenda, or a free one when the agenda is empty (DESIGN CHOICE, log 1, 2). -/
def nextTurn (s : State) : Turn × State :=
  match s.agenda with
  | t :: ts => (t, { s with agenda := ts })
  | [] => (Config.freeTurn s.turns, { s with turns := s.turns + 1 })

/-- One turn: its cycles pass, routed rows leave, what moves moves, and what follows in the cycle follows. -/
def takeTurn (s : State) : Out :=
  let (t, s) := nextTurn s
  let s := State.departRows { s with clk := s.clk + BitVec.ofNat 64 t.dt }
  match runAct t.act s with
  | .next u => .next (State.settle s u)
  | .fault f => .fault f
  | .refused r => .refused r

end Machine

end Sys2Proof
end

