-- ==== Sys2Proof/Machine/Step.lean ====
section
/-! DEFINITION. One step of the machine, and the placing of an instruction where the next step fetches. -/

namespace Sys2Proof.Machine

/-- One step: one turn of one of the part's agents. -/
def step (s : State) : Host.Outcome State Fault Refusal := takeTurn s

/-- The operator number that withFetchWord uses. -/
def fetchOp : BitVec 16 := 0x0100

/-- s with one instruction word as the whole code of an operator that a live member execution of context 0 runs in cell
0, whose turn comes next: what a load of a program and its passes bring about (DESIGN CHOICE, log 19). -/
def State.withFetchWord (s : State) (nbits w : Nat) : State :=
  let word : Word := BitVec.ofNat 64 (w % 2 ^ nbits)
  let img : OpImage := { hdr0 := 0x0010204000010100, hdr1 := 1, code := [word], data := [] }
  let redex : Redex :=
    { state := .running, op := fetchOp, first := 0, last := 0, appc := 4, len := 5, elems := 1, serial := some 0 }
  { s with
    dev := { s.dev with state := .ready, ops := Tbl.set s.dev.ops fetchOp.toNat img }
    ctxs := vset s.ctxs 0
      { s.getCtx 0 with state := .running, ops := [fetchOp], redexes := Tbl.set (s.getCtx 0).redexes 0 redex }
    execs := Tbl.set (Tbl.erase s.execs 0) 0 { ctx := 0, appo := 0, rank := 0, op := fetchOp, status := .live }
    agenda := ⟨0, .cell 0 false⟩ :: s.agenda }

end Sys2Proof.Machine
end

