-- ==== Sys2Proof/Safety.lean ====
section
/-! DEFINITION. What counts as a safe run, and the terms in which the statements speak: how a word of a microprogram
completes, integer results by width, and the invariants. -/

namespace Sys2Proof

open Machine

/-- A step that neither faults nor is refused. -/
def SafeStep (s : State) : Prop := ∃ t, step s = .next t

/-- Every memory that the host or the memory system writes is in canonical form, and a line that a home slice holds and
HBM does not has its 128 bytes. -/
def MemoryInv (s : State) : Prop :=
  s.mem.hbm.wf = true ∧ s.mem.host.wf = true ∧ ∀ l ∈ s.mem.dirty, l.2.length = 128

/-! ### How a word completes -/

/-- The word i, issued by the live execution e of the current cell, leaves the state that body gives where lane 0 of its
guard is true; where it is false, only the execution goes on to its next word (R82). -/
def Runs (g : Guard) (i : Instr) (s : State) (body : Nat → Exec → State) : Prop :=
  ∀ k e, s.live = some (k, e) →
    exec i s = .next (if e.guardOn g then body k e else s.setExec k e.advance)

/-- The word i changes only the registers of the execution that issues it, from e to f e where lane 0 of its guard is
true, and goes on to its next word: every other execution, all of memory and every other unit stay (R82). -/
def Writes (g : Guard) (i : Instr) (s : State) (f : Exec → Exec) : Prop :=
  Runs g i s fun k e => s.setExec k (f e).advance

/-- The word i, whose guard works lane by lane, changes only the registers of the execution that issues it, from e to
f e, and goes on to its next word (R82). -/
def WritesLanes (i : Instr) (s : State) (f : Exec → Exec) : Prop :=
  ∀ k e, s.live = some (k, e) → exec i s = .next (s.setExec k (f e).advance)

/-! ### Integer results (R193) -/

/-- An operation on the low bits that TY selects, its result sign-extended for i64 and i32 and zero-extended for n32. -/
def wide1 (ty : Ty) (f : (w : Nat) → BitVec w → BitVec w) (x : Word) : Word :=
  match ty with
  | .i64 => f 64 x
  | .i32 => (f 32 (x.setWidth 32)).signExtend 64
  | _ => (f 32 (x.setWidth 32)).setWidth 64

def wide2 (ty : Ty) (f : (w : Nat) → BitVec w → BitVec w → BitVec w) (x y : Word) : Word :=
  match ty with
  | .i64 => f 64 x y
  | .i32 => (f 32 (x.setWidth 32) (y.setWidth 32)).signExtend 64
  | _ => (f 32 (x.setWidth 32) (y.setWidth 32)).setWidth 64

def wide3 (ty : Ty) (f : (w : Nat) → BitVec w → BitVec w → BitVec w → BitVec w) (x y z : Word) : Word :=
  match ty with
  | .i64 => f 64 x y z
  | .i32 => (f 32 (x.setWidth 32) (y.setWidth 32) (z.setWidth 32)).signExtend 64
  | _ => (f 32 (x.setWidth 32) (y.setWidth 32) (z.setWidth 32)).setWidth 64

/-- The value that TY reads from a g register: signed for i64 and i32, unsigned for n32 (R194). -/
def valueOf (ty : Ty) (x : Word) : Int :=
  match ty with
  | .i64 => x.toInt
  | .i32 => (x.setWidth 32).toInt
  | _ => ((x.setWidth 32).toNat : Int)

/-- The least and the greatest value of TY's range. -/
def leastOf (ty : Ty) : Int :=
  match ty with
  | .i64 => -2 ^ 63
  | .i32 => -2 ^ 31
  | _ => 0

def greatestOf (ty : Ty) : Int :=
  match ty with
  | .i64 => 2 ^ 63 - 1
  | .i32 => 2 ^ 31 - 1
  | _ => 2 ^ 32 - 1

/-! ### Vector results (R82, R216) -/

/-- Element q of lane j of a vector of w-bit elements. -/
def elemAt (w : Nat) (v : Vec) (j q : Nat) : BitVec w := (lane v j).extractLsb' (w * q) w

/-- The word i writes vD lane by lane under its guard: lane j becomes the first part of f e j, and the flags that the
lanes written raise join those that stand in FPCSR [12:8]; a lane whose guard is false keeps its bits and raises
nothing, and nothing else changes. -/
def WritesVec (g : Guard) (i : Instr) (s : State) (d : VReg) (f : Exec → Nat → Lane × FFlags) : Prop :=
  ∀ k e, s.live = some (k, e) → ∃ v : Vec,
    let on := (List.range 64).filter (e.guardLane g)
    let flags := on.foldl (fun acc j => acc ||| (f e j).2) (0 : FFlags)
    exec i s = .next (s.setExec k
      { e with v := vset e.v d.toNat v, fpcsr := e.fpcsr ||| (flags.setWidth 64 <<< 8) }.advance) ∧
    ∀ j, j < 64 → lane v j = if e.guardLane g j then (f e j).1 else lane (e.getV d) j

/-- The word i writes vD element by element, w bits each, under its guard, with no flag. -/
def WritesElems (g : Guard) (i : Instr) (s : State) (d : VReg) (w : Nat) (f : Exec → Nat → Nat → BitVec w) : Prop :=
  ∀ k e, s.live = some (k, e) → ∃ v : Vec,
    exec i s = .next (s.setExec k { e with v := vset e.v d.toNat v }.advance) ∧
    ∀ j q, j < 64 → q < 32 / w → elemAt w v j q = if e.guardLane g j then f e j q else elemAt w (e.getV d) j q

/-- The width of a packed integer element, and whether TY reads it as signed (R27). -/
def packedWidth (ty : Ty) : Nat :=
  match ty with
  | .i32 | .n32 => 32
  | .i16x2 | .n16x2 => 16
  | _ => 8

def packedSigned (ty : Ty) : Bool :=
  match ty with
  | .i32 | .i16x2 | .i8x4 => true
  | _ => false

/-- An element as a number. -/
def elemValue {w : Nat} (ty : Ty) (x : BitVec w) : Int := if packedSigned ty then x.toInt else x.toNat

/-- A number clamped to the range of TY's elements. -/
def elemClamp (ty : Ty) (v : Int) : Int :=
  let w := packedWidth ty
  if packedSigned ty then max (-2 ^ (w - 1)) (min (2 ^ (w - 1) - 1) v) else max 0 (min (2 ^ w - 1) v)

/-- The truth of an integer condition on two operands of one width (R198). -/
def ICond.holds {w : Nat} (c : ICond) (x y : BitVec w) : Bool :=
  match c with
  | .eq => x == y
  | .ne => x != y
  | .lt => x.slt y
  | .le => x.sle y
  | .ltu => x.ult y
  | .leu => x.ule y
  | .gt => y.slt x
  | .ge => y.sle x
  | .gtu => y.ult x
  | .geu => y.ule x

/-! ### What a word finds, and what it leaves -/

/-- The word under the guard g is issued by the live execution e of the current cell, and lane 0 of its guard is true
(R82). -/
def Issues (g : Guard) (s : State) (k : Nat) (e : Exec) : Prop := s.live = some (k, e) ∧ e.guardOn g = true

/-- From s to t, nothing but the execution k and its own cell changes: no other execution, no other cell, no context and
nothing of the memory system. -/
def OwnCell (s t : State) (k : Nat) : Prop :=
  (∀ j, j ≠ k → t.getExec j = s.getExec j) ∧ (∀ c, c ≠ k / 256 → t.getCell c = s.getCell c) ∧
  t.ctxs = s.ctxs ∧ t.mem = s.mem

/-- A scratch access of some bytes at an offset, by the member e in a cell, passes the checks of R275 and R297: aligned,
below the end of tile space, whole in one tile of its context that it may read, or may write. -/
def ScratchOk (s : State) (k : Nat) (e : Exec) (a size align : Nat) (write : Bool) : Prop :=
  a % align = 0 ∧ a + size ≤ 0xC4000 ∧ ∃ i,
    let c := s.getCell (k / 256)
    let t := c.getTile i
    c.tileAt a = some i ∧ c.tileAt (a + size - 1) = some i ∧ t.ctx = e.ctx ∧
    ((t.state = .priv ∧ t.owner = some e.appo) ∨ (write = false ∧ t.state = .shared))

/-- The byte runs of an operand lie whole in one tile of a cell that its context has given to the matrix engine
(R238). -/
def InMatrixTile (s : State) (cell : Nat) (k : CtxId) (runs : List (Nat × Nat)) : Prop :=
  runs ≠ [] ∧ ∃ i,
    let c := s.getCell cell
    let t := c.getTile i
    t.state = .matrix ∧ t.ctx = k ∧ ∀ r ∈ runs,
      c.tileAt r.1 = some i ∧ r.1 + r.2 ≤ 0xC4000 ∧ r.1 + r.2 ≤ 512 * (t.base + t.count)

/-- An access of a member to a virtual address finds a translation in its TLBs that serves it: the key of its context,
the space that it wants, and the right to write where it writes (R294, R374). -/
def Mapped (s : State) (k : Nat) (e : Exec) (va : Word) (want : Space) (write : Bool) (t : Trans) : Prop :=
  va.toNat < 2 ^ 48 ∧ s.tlbFind (k / 256) e.ctx va.toNat = some t ∧
  Pte.key t.pte = (s.getCtx e.ctx).key ∧ Pte.space t.pte = want.code ∧ (write = true → Pte.writable t.pte = true)

/-- From s to t, memory, the contexts, the bytes of every scratchpad and every execution but k are as they were. -/
def OnlyMember (s t : State) (k : Nat) : Prop :=
  (∀ j, j ≠ k → t.getExec j = s.getExec j) ∧ t.ctxs = s.ctxs ∧ t.mem = s.mem ∧
  ∀ c, (t.getCell c).scratch = (s.getCell c).scratch

end Sys2Proof
end

