-- ==== Sys2Proof/Certificates/Slice0/Obligations.lean ====
section
/-! DEFINITION. The statements for the provers. -/

section

open Sys2Proof Sys2Proof.Machine

/-! ### Words, decoding and the step -/

/-- The word of a well-formed cell instruction decodes to that instruction: no operand and no bit of it is lost (R80 to
R87). -/
def Obligations.EncodedDecodes : Prop :=
  ∀ i : Instr, i.wf = true → ∀ w, encode i = some w → decodeWord .full w = .ok i

/-- A word that decodes under an operator's declaration is the word of the instruction that it gives, which is well
formed and names only registers of the declaration: no two words decode to one instruction, and reserved bits are zero
(R80, R87, R89). -/
def Obligations.DecodedEncodes : Prop :=
  ∀ (dc : Decl) (w : Word) (i : Instr), decodeWord dc w = .ok i →
    encode i = some w ∧ i.wf = true ∧ i.declared dc = true

/-- Words of several families, written out from the encoding tables, decode to the instructions that they stand for
(R80, R84, R86). -/
def Obligations.KnownWords : Prop :=
  decodeTableWord 64 0x0401040800480000 = some (.add .always .i64 false 4 4 2) ∧
  decodeTableWord 64 0x0000000002000000 = some (.halt .always) ∧
  decodeTableWord 64 0x2800800000000007 = some (.li .always 2 7) ∧
  decodeTableWord 64 0xE000C00000000005 = some (.mfs .always 3 5)

/-- When the turn is a cell's and the word at the PC of its live execution decodes to i and can issue, the step runs i
on the state with the turn taken: the cycles of the turn pass, routed rows leave, and the cell becomes the current one
(R81, R87, R212; turns: DESIGN CHOICE, log 1). Around it, a word that would end the execution waits while a FACT
instruction runs (R214, R259), an execution that is to be suspended is suspended behind the word (R106, R110), and what
follows in the same cycle follows. -/
def Obligations.StepRunsDecoded : Prop :=
  ∀ (s : State) (c : CellId) (dt : Nat) (rest : List Turn) (k : Nat) (e : Exec) (i : Instr),
    s.agenda = ⟨dt, .cell c false⟩ :: rest →
    let u : State := State.departRows { s with agenda := rest, clk := s.clk + BitVec.ofNat 64 dt }
    let v : State := { u with cur := c }
    v.live = some (k, e) → e.wait = .nothing → isBuiltin e.op = false →
    decodeWord (v.opDecl e.op) (v.fetchWord e) = .ok i → v.canIssue k e i = true →
    let behind (t : State) : State := if v.stopDue k = true then t.boundary k else t
    step s = match exec i v with
      | .next t =>
        .next (State.settle u (behind
          (if (∃ m ∈ e.mq, m.instr.isFact = true) ∧ t.getExec k = none then v else t)))
      | .fault f => .fault f
      | .refused r => .refused r

/-- No step stops the machine: from every state, a step answers a next state (R8). The opcode table's rows that
are asked for where they cannot happen leave the state as it is (DESIGN CHOICE, log 6). -/
def Obligations.EveryStepGoesOn : Prop := ∀ s : State, SafeStep s

/-- A word that decodes to no instruction discards the redex with cause ILLOP or REGGRP, whatever its guard: with class
PROGRAM masked by bit 2 of the TMASK that governs the cycle and a replayable operator it waits for the next COMMIT to
become BOT, and otherwise the context takes a trap (R82, R87, R108, R135). -/
def Obligations.IllegalWord : Prop :=
  ∀ (s : State) (cause : DecodeCause) (k : Nat) (e : Exec) (r : Redex), s.live = some (k, e) →
    s.getRedex e.ctx e.appo = some r →
    let code : Cause := match cause with
      | .illop => 0x10
      | .reggrp => 0x11
    exec (.notAnInstruction cause) s = .next (
      if s.opNR r.op = false ∧ (s.tmaskNow e.ctx).getLsbD 2 = true then s.faultBot e.ctx e.appo code
      else s.faultTrap e.ctx e.appo r code .program ⟨k / 256, e.pc, e.iter, none⟩)

/-! ### Reset and invariants -/

/-- After reset the device is in RESET, every context is FREE, no operator is registered, no pass runs, no member
executes and the Rhafer links are disabled and DOWN; memory is in canonical form (R98, R382, R411). That every byte
then reads 0 is the model's choice (DESIGN CHOICE, log 3). -/
def Obligations.ResetState : Prop :=
  (State.reset.dev.state = .reset ∧ State.reset.dev.ops = [] ∧ State.reset.pass = none ∧ State.reset.execs = [] ∧
    (∀ k : CtxId, (State.reset.getCtx k).state = .free ∧ (State.reset.getCtx k).pockets = []) ∧
    (∀ l, 4 ≤ l → l < 20 → (State.reset.getLink l).st = .down ∧ (State.reset.getLink l).en = false) ∧
    (∀ l, l < 4 → (State.reset.getLink l).st = .training)) ∧
  (MemoryInv State.reset ∧ ∀ a, State.reset.mem.hbm.read a = 0)

/-- Every step keeps HBM and host memory in canonical form: addresses strictly rising, and no entry equal to what an
unlisted address reads as (DESIGN CHOICE, log 3). -/
def Obligations.MemoryCanonical : Prop := ∀ s t : State, MemoryInv s → step s = .next t → MemoryInv t

/-! ### Scalar integers -/

/-- ADD, SUB, AND, OR, XOR and ANDN without SAT compute modulo 2^w on the low w bits and extend the result by TY. SHL,
SHR, SRA and ROT shift by gB [5:0] for i64 and gB [4:0] for i32 and n32; SHLI, SHRI, SRAI and ROTI shift all 64 bits by
their immediate. Nothing but gD and the advance to the next word changes (R193, R194, R197). -/
def Obligations.IntegerAddShift : Prop :=
  (∀ (g : Guard) (ty : Ty) (d a b : GReg) (s : State), ty.scalarInt = true →
      (Writes g (.add g ty false d a b) s fun e => e.setG d (wide2 ty (fun _ x y => x + y) (e.getG a) (e.getG b))) ∧
      (Writes g (.sub g ty false d a b) s fun e => e.setG d (wide2 ty (fun _ x y => x - y) (e.getG a) (e.getG b))) ∧
      (Writes g (.and g ty d a b) s fun e => e.setG d (wide2 ty (fun _ x y => x &&& y) (e.getG a) (e.getG b))) ∧
      (Writes g (.or g ty d a b) s fun e => e.setG d (wide2 ty (fun _ x y => x ||| y) (e.getG a) (e.getG b))) ∧
      (Writes g (.xor g ty d a b) s fun e => e.setG d (wide2 ty (fun _ x y => x ^^^ y) (e.getG a) (e.getG b))) ∧
      (Writes g (.andn g ty d a b) s fun e => e.setG d (wide2 ty (fun _ x y => x &&& ~~~y) (e.getG a) (e.getG b)))) ∧
  (∀ (g : Guard) (ty : Ty) (d a b : GReg) (imm : BitVec 6) (s : State), ty.scalarInt = true →
      (Writes g (.shl g ty d a b) s fun e =>
        e.setG d (wide2 ty (fun w x y => x <<< (y.toNat % w)) (e.getG a) (e.getG b))) ∧
      (Writes g (.shr g ty d a b) s fun e =>
        e.setG d (wide2 ty (fun w x y => x >>> (y.toNat % w)) (e.getG a) (e.getG b))) ∧
      (Writes g (.sra g ty d a b) s fun e =>
        e.setG d (wide2 ty (fun w x y => x.sshiftRight (y.toNat % w)) (e.getG a) (e.getG b))) ∧
      (Writes g (.rot g ty d a b) s fun e =>
        e.setG d (wide2 ty (fun w x y => x.rotateLeft (y.toNat % w)) (e.getG a) (e.getG b))) ∧
      (Writes g (.shli g d a imm) s fun e => e.setG d (e.getG a <<< imm.toNat)) ∧
      (Writes g (.shri g d a imm) s fun e => e.setG d (e.getG a >>> imm.toNat)) ∧
      (Writes g (.srai g d a imm) s fun e => e.setG d ((e.getG a).sshiftRight imm.toNat)) ∧
      (Writes g (.roti g d a imm) s fun e => e.setG d ((e.getG a).rotateLeft imm.toNat)))

/-- MIN and MAX compare signed and MINU and MAXU unsigned in w bits; SEL takes all 64 bits of gA or gB by lane 0 of qC.
CLZ and POPC count in w bits; BFX and BFI take and replace a field, and SEXT extends from a bit (R194, R195). -/
def Obligations.IntegerMinMaxBits : Prop :=
  (∀ (g : Guard) (ty : Ty) (d a b : GReg) (c : QReg) (s : State), ty.scalarInt = true →
      (Writes g (.min g ty d a b) s fun e =>
        e.setG d (wide2 ty (fun _ x y => if x.slt y then x else y) (e.getG a) (e.getG b))) ∧
      (Writes g (.max g ty d a b) s fun e =>
        e.setG d (wide2 ty (fun _ x y => if x.slt y then y else x) (e.getG a) (e.getG b))) ∧
      (Writes g (.minu g ty d a b) s fun e =>
        e.setG d (wide2 ty (fun _ x y => if x.ult y then x else y) (e.getG a) (e.getG b))) ∧
      (Writes g (.maxu g ty d a b) s fun e =>
        e.setG d (wide2 ty (fun _ x y => if x.ult y then y else x) (e.getG a) (e.getG b))) ∧
      (Writes g (.sel g d a b c) s fun e => e.setG d (if (e.getQ c).getLsbD 0 then e.getG a else e.getG b))) ∧
  (∀ (g : Guard) (ty : Ty) (d a b c : GReg) (s : State), ty.scalarInt = true →
      let pos (e : Exec) : Nat := (e.getG b).toNat % 64
      let len (w : Nat) (e : Exec) : Nat := min ((e.getG c).toNat % 128) (w - pos e)
      let w : Nat := if ty = .i64 then 64 else 32
      (Writes g (.clz g ty d a) s fun e => e.setG d (wide1 ty (fun w x =>
        BitVec.ofNat w ((List.range w).takeWhile fun i => !x.getLsbD (w - 1 - i)).length) (e.getG a))) ∧
      (Writes g (.popc g ty d a) s fun e => e.setG d (wide1 ty (fun w x =>
        BitVec.ofNat w ((List.range w).filter fun i => x.getLsbD i).length) (e.getG a))) ∧
      (Writes g (.bfx g ty d a b c) s fun e => e.setG d (
        if w ≤ pos e ∨ len w e = 0 then 0
        else wide1 ty (fun w x =>
          if ty = .n32 then (x.extractLsb' (pos e) (len w e)).setWidth w
          else (x.extractLsb' (pos e) (len w e)).signExtend w) (e.getG a))) ∧
      (Writes g (.bfi g ty d a b c) s fun e => e.setG d (
        if w ≤ pos e ∨ len w e = 0 then wide1 ty (fun _ x => x) (e.getG d)
        else wide2 ty (fun w old x =>
          let m := (BitVec.allOnes (len w e)).setWidth w <<< pos e
          (old &&& ~~~m) ||| (x <<< pos e &&& m)) (e.getG d) (e.getG a))) ∧
      (Writes g (.sext g ty d a b) s fun e => e.setG d (wide1 ty (fun w x =>
        if w - 1 ≤ pos e then x else (x.setWidth (pos e + 1)).signExtend w) (e.getG a))))

/-- MUL and MADD without SAT compute modulo 2^w; MULH and MULHU deliver bits [2w-1:w] of the signed and the unsigned
product (R195). -/
def Obligations.IntegerMultiply : Prop :=
  ∀ (g : Guard) (ty : Ty) (d a b c : GReg) (s : State),
    (ty.scalarInt = true → Writes g (.mul g ty false d a b) s fun e =>
      e.setG d (wide2 ty (fun _ x y => x * y) (e.getG a) (e.getG b))) ∧
    (ty.scalarInt = true → Writes g (.madd g ty false d a b c) s fun e =>
      e.setG d (wide3 ty (fun _ x y z => x * y + z) (e.getG a) (e.getG b) (e.getG c))) ∧
    (ty.scalarSigned = true → Writes g (.mulh g ty d a b) s fun e =>
      e.setG d (wide2 ty (fun w x y => ((x.signExtend (2 * w) * y.signExtend (2 * w)) >>> w).setWidth w)
        (e.getG a) (e.getG b))) ∧
    (ty.scalarUnsigned = true → Writes g (.mulhu g ty d a b) s fun e =>
      e.setG d (wide2 ty (fun w x y => ((x.setWidth (2 * w) * y.setWidth (2 * w)) >>> w).setWidth w)
        (e.getG a) (e.getG b)))

/-- DIV and DIVU divide truncated toward zero, REM and REMU deliver the remainder (R195). -/
def Obligations.IntegerDivide : Prop :=
  ∀ (g : Guard) (ty : Ty) (d a b : GReg) (s : State),
    (ty.scalarSigned = true → Writes g (.div g ty d a b) s fun e =>
      e.setG d (wide2 ty (fun w x y => if y = 0 then BitVec.allOnes w else x.sdiv y) (e.getG a) (e.getG b))) ∧
    (ty.scalarSigned = true → Writes g (.rem g ty d a b) s fun e =>
      e.setG d (wide2 ty (fun _ x y => if y = 0 then x else x.srem y) (e.getG a) (e.getG b))) ∧
    (ty.scalarUnsigned = true → Writes g (.divu g ty d a b) s fun e =>
      e.setG d (wide2 ty (fun w x y => if y = 0 then BitVec.allOnes w else x / y) (e.getG a) (e.getG b))) ∧
    (ty.scalarUnsigned = true → Writes g (.remu g ty d a b) s fun e =>
      e.setG d (wide2 ty (fun _ x y => x % y) (e.getG a) (e.getG b)))

/-- Scalar division of any operands completes with no fault and no flag, and its borderline cases: by zero the quotient
is all ones in w bits and the remainder is x; the least number divided by -1 gives the least number and remainder 0 (R196). -/
def Obligations.DivisionCorners : Prop :=
  ∀ (g : Guard) (ty : Ty) (d a b : GReg) (s : State) (k : Nat) (e : Exec),
    s.live = some (k, e) → e.guardOn g = true →
    (ty.scalarSigned = true →
      (∃ x, exec (.div g ty d a b) s = .next (s.setExec k (e.setG d x).advance)) ∧
      ∃ x, exec (.rem g ty d a b) s = .next (s.setExec k (e.setG d x).advance)) ∧
    (ty.scalarUnsigned = true →
      (∃ x, exec (.divu g ty d a b) s = .next (s.setExec k (e.setG d x).advance)) ∧
      ∃ x, exec (.remu g ty d a b) s = .next (s.setExec k (e.setG d x).advance)) ∧
    (ty.scalarSigned = true → valueOf ty (e.getG b) = 0 →
      exec (.div g ty d a b) s = .next (s.setExec k (e.setG d (-1)).advance) ∧
      exec (.rem g ty d a b) s = .next (s.setExec k (e.setG d (BitVec.ofInt 64 (valueOf ty (e.getG a)))).advance)) ∧
    (ty.scalarUnsigned = true → wide1 ty (fun _ x => x) (e.getG b) = 0 →
      exec (.divu g ty d a b) s = .next (s.setExec k (e.setG d (wide1 ty (fun w _ => BitVec.allOnes w) 0)).advance) ∧
      exec (.remu g ty d a b) s = .next (s.setExec k (e.setG d (wide1 ty (fun _ x => x) (e.getG a))).advance)) ∧
    (ty.scalarSigned = true → valueOf ty (e.getG a) = leastOf ty → valueOf ty (e.getG b) = -1 →
      exec (.div g ty d a b) s = .next (s.setExec k (e.setG d (BitVec.ofInt 64 (leastOf ty))).advance) ∧
      exec (.rem g ty d a b) s = .next (s.setExec k (e.setG d 0).advance))

/-- With SAT, ADD, SUB, MUL and MADD deliver the exact result clamped to the range of TY, operands signed for i64 and
i32 and unsigned for n32 (R194, R195). The immediate forms compute on all 64 bits with the sign-extended immediate; LI
delivers its immediate, and LIH replaces bits [63:32] (R197). -/
def Obligations.SaturateImmediates : Prop :=
  (∀ (g : Guard) (ty : Ty) (d a b c : GReg) (s : State), ty.scalarInt = true →
      let clamp (v : Int) : Word := BitVec.ofInt 64 (max (leastOf ty) (min (greatestOf ty) v))
      (Writes g (.add g ty true d a b) s fun e => e.setG d (clamp (valueOf ty (e.getG a) + valueOf ty (e.getG b)))) ∧
      (Writes g (.sub g ty true d a b) s fun e => e.setG d (clamp (valueOf ty (e.getG a) - valueOf ty (e.getG b)))) ∧
      (Writes g (.mul g ty true d a b) s fun e => e.setG d (clamp (valueOf ty (e.getG a) * valueOf ty (e.getG b)))) ∧
      (Writes g (.madd g ty true d a b c) s fun e =>
        e.setG d (clamp (valueOf ty (e.getG a) * valueOf ty (e.getG b) + valueOf ty (e.getG c))))) ∧
  (∀ (g : Guard) (d a : GReg) (imm : BitVec 36) (wide : BitVec 46) (high : BitVec 32) (s : State),
      (Writes g (.addi g d a imm) s fun e => e.setG d (e.getG a + imm.signExtend 64)) ∧
      (Writes g (.andi g d a imm) s fun e => e.setG d (e.getG a &&& imm.signExtend 64)) ∧
      (Writes g (.ori g d a imm) s fun e => e.setG d (e.getG a ||| imm.signExtend 64)) ∧
      (Writes g (.xori g d a imm) s fun e => e.setG d (e.getG a ^^^ imm.signExtend 64)) ∧
      (Writes g (.li g d wide) s fun e => e.setG d (wide.signExtend 64)) ∧
      (Writes g (.lih g d high) s fun e =>
        e.setG d ((e.getG d &&& 0xFFFFFFFF) ||| (high.setWidth 64 <<< 32))))

/-- CMP compares w bits and CMPI all 64 bits with the sign-extended immediate, by their condition; both write the
result to all 64 lanes of qD. The PRED group acts on all 64 lanes; PCNT counts the true lanes, PFIRST finds the lowest,
and PLD and PST move a predicate from and to a g register (R198, R199). -/
def Obligations.ComparePredicates : Prop :=
  (∀ (g : Guard) (cond : ICond) (ty : Ty) (d : QReg) (a b : GReg) (imm : BitVec 36) (s : State), ty.scalarInt = true →
      (Writes g (.cmp g cond ty d a b) s fun e =>
        e.setQ d (if (if ty = .i64 then cond.holds (e.getG a) (e.getG b)
          else cond.holds ((e.getG a).setWidth 32) ((e.getG b).setWidth 32)) then BitVec.allOnes 64 else 0)) ∧
      (Writes g (.cmpi g cond d a imm) s fun e =>
        e.setQ d (if cond.holds (e.getG a) (imm.signExtend 64) then BitVec.allOnes 64 else 0))) ∧
  (∀ (g : Guard) (d a b : QReg) (r : GReg) (n : BitVec 7) (s : State), n.toNat ≤ 64 →
      (Writes g (.pand g d a b) s fun e => e.setQ d (e.getQ a &&& e.getQ b)) ∧
      (Writes g (.por g d a b) s fun e => e.setQ d (e.getQ a ||| e.getQ b)) ∧
      (Writes g (.pxor g d a b) s fun e => e.setQ d (e.getQ a ^^^ e.getQ b)) ∧
      (Writes g (.pandn g d a b) s fun e => e.setQ d (e.getQ a &&& ~~~e.getQ b)) ∧
      (Writes g (.pnot g d a) s fun e => e.setQ d (~~~e.getQ a)) ∧
      (Writes g (.pset g d n) s fun e => e.setQ d ((BitVec.allOnes n.toNat).setWidth 64)) ∧
      (Writes g (.pmov g d a) s fun e => e.setQ d (e.getQ a)) ∧
      (Writes g (.pcnt g r a) s fun e =>
        e.setG r (BitVec.ofNat 64 ((List.range 64).filter fun i => (e.getQ a).getLsbD i).length)) ∧
      (Writes g (.pfirst g r a) s fun e =>
        e.setG r (BitVec.ofNat 64 ((List.range 64).takeWhile fun i => !(e.getQ a).getLsbD i).length)) ∧
      (Writes g (.pld g d r) s fun e => e.setQ d (e.getG r)) ∧
      (Writes g (.pst g r a) s fun e => e.setG r (e.getQ a)))

/-! ### Control -/

/-- NOP has no effect but the advance. WAITEV with an event of its mask in the event set clears the common events and
completes; without one the member waits for the mask, and parks when the matrix queue is empty (R207, R210). -/
def Obligations.NopWaitev : Prop :=
  ∀ (g : Guard) (mask : BitVec 6) (s : State),
    (Writes g (.nop g) s fun e => e) ∧
    ∀ k e, s.live = some (k, e) → e.guardOn g = true →
      (e.events &&& mask ≠ 0 → exec (.waitev g mask) s =
        .next (s.setExec k { e.advance with events := e.events &&& ~~~mask, met := false })) ∧
      (e.events &&& mask = 0 → e.mq = [] →
        exec (.waitev g mask) s = .next (s.park k e (.events mask))) ∧
      (e.events &&& mask = 0 → e.mq ≠ [] → exec (.waitev g mask) s = .next s)

/-- Parking keeps the registers and the PC of a member and takes its frame: from the highest free chunks of tile space
where there is room, and otherwise in a free save area; then the member is parked and the cell is free (R131). -/
def Obligations.Parking : Prop :=
  ∀ (s : State) (k : Nat) (e : Exec) (w : WaitOn),
    let n := (frameBytes (s.opDecl e.op) e + 511) / 512
    (∀ l, (s.getCell (k / 256)).topChunks n = some l →
      (s.park k e w).getExec k =
        some { e with status := .parked, wait := w, met := false, stopAsked := false, frame := l } ∧
      ((s.park k e w).getCell (k / 256)).taken = l ++ (s.getCell (k / 256)).taken) ∧
    (∀ a, (s.getCell (k / 256)).topChunks n = none → s.freeArea (k / 256) = some a →
      (s.park k e w).getExec k =
        some { e with status := .parked, wait := w, met := false, stopAsked := false, area := some a } ∧
      Tbl.find ((s.park k e w).getCell (k / 256)).areas a = some (k % 256)) ∧
    (∀ j, j ≠ k → (s.park k e w).getExec j = s.getExec j) ∧ (s.park k e w).mem = s.mem ∧ (s.park k e w).ctxs = s.ctxs

/-- YIELD parks the member at its next word, ready at once; HALT of a member whose engines are idle and that owes no
collective ends its execution: the entry is gone and the redex records the halt, or, with the last member, is HALTED
when the emitted symbols form one expression of the reserved length (R70, R121, R132, R138, R207). -/
def Obligations.YieldHalt : Prop :=
  ∀ (g : Guard) (s : State) (k : Nat) (e : Exec) (r : Redex), s.live = some (k, e) → e.guardOn g = true →
    e.mq = [] →
    exec (.yield g) s = .next (s.park k e.advance .yielded) ∧
    (s.enginesIdle k e = true → s.openColl e false = false → s.openColl e true = false →
      s.getRedex e.ctx e.appo = some r →
      ∃ t, exec (.halt g) s = .next t ∧ t.getExec k = none ∧
        (r.halts.length + 1 < State.width r →
          ∃ r', t.getRedex e.ctx e.appo = some r' ∧ r'.halts = ⟨e.rank, e.pc, e.iter⟩ :: r.halts ∧ r'.state = r.state) ∧
        (r.halts.length + 1 = State.width r → oneExpr (State.result r) = true →
          (∀ l, r.resv = some l → l.toNat = (State.result r).length) →
          ∃ r', t.getRedex e.ctx e.appo = some r' ∧ r'.state = .halted))

/-- TRAP traps the context with its code and class USER, whatever TMASK and NR hold; ABORT discards the redex as a
fault with its code and the class of that cause; BKPT is a NOP without BKEN, and with it the member is suspended at the
next word and the context traps with nothing discarded (R207 to R209). -/
def Obligations.Traps : Prop :=
  ∀ (g : Guard) (code : BitVec 16) (s : State) (k : Nat) (e : Exec) (r : Redex),
    s.live = some (k, e) → e.guardOn g = true → s.getRedex e.ctx e.appo = some r →
    let w : State.Report := ⟨k / 256, e.pc, e.iter, none⟩
    exec (.trap g code) s = .next (s.faultTrap e.ctx e.appo r code .user w) ∧
    exec (.abort g code) s = .next (
      if s.opNR r.op = false ∧ (classOf code (isBuiltin e.op)).masked (s.tmaskNow e.ctx) = true then
        s.faultBot e.ctx e.appo code
      else s.faultTrap e.ctx e.appo r code (classOf code (isBuiltin e.op)) w) ∧
    (s.bkenNow e.ctx = false → exec (.bkpt g) s = .next (s.setExec k e.advance)) ∧
    (s.bkenNow e.ctx = true → e.wait = .nothing → e.met = false → ∃ t, exec (.bkpt g) s = .next t ∧
      (∃ e', t.getExec k = some e' ∧ e'.status = .suspended ∧ e'.pc = e.advance.pc ∧ e'.g = e.g) ∧
      ((s.getCtx e.ctx).state = .running → (t.getCtx e.ctx).state = .trapped) ∧
      ((s.getCtx e.ctx).traps.length < 16 → (t.getCtx e.ctx).traps = State.insertTrap
        { cause := 0, nr := s.opNR e.op, pass := false, cls := .user, pos := e.appo, cell := k / 256, op := e.op,
          pc := e.pc, iter := e.iter, addr := none, time := s.clk } (s.getCtx e.ctx).traps) ∧
      t.getRedex e.ctx e.appo = some r)

/-- Taking a trap: the context is TRAPPED, its record joins the others in order of cycle and within a cycle of cell
while there is room, and what goes beyond sixteen is lost and sets the overflow bit; every execution of the redex ends,
and the redex waits for RELEASE with nothing held, emitted or reserved (R110, R134, R135). -/
def Obligations.TakingTrap : Prop :=
  ∀ (s : State) (k : CtxId) (appo : Nat) (r : Redex) (cause : Cause) (cls : Machine.Class) (w : State.Report),
    s.getRedex k appo = some r →
    let t := s.faultTrap k appo r cause cls w
    ((s.getCtx k).state ≠ .evicting → (t.getCtx k).state = .trapped) ∧
    (let entry : TrapRec := { s.trapRec appo r.op cause cls w with time := s.clk }
      let l := State.insertTrap entry (s.getCtx k).traps
      let inOrder (a b : TrapRec) : Prop := a.time.toNat < b.time.toNat ∨ a.time = b.time ∧ a.cell ≤ b.cell
      l.Perm (entry :: (s.getCtx k).traps) ∧
      ((s.getCtx k).traps.Pairwise inOrder → (∀ x ∈ (s.getCtx k).traps, x.time.toNat ≤ s.clk.toNat) →
        l.Pairwise inOrder) ∧
      (t.getCtx k).traps = l.take 16 ∧
      (t.getCtx k).trapOvf = ((s.getCtx k).trapOvf || decide (16 ≤ (s.getCtx k).traps.length))) ∧
    (∀ j e, t.getExec j = some e → ¬(e.ctx = k ∧ e.appo = appo)) ∧
    ∃ r', t.getRedex k appo = some r' ∧ r'.state = .discarded ∧ r'.fate = .trapped cause ∧ r'.out = [] ∧
      r'.held = [] ∧ r'.resv = none ∧ r'.halts = [] ∧ r'.serial = r.serial ∧ r'.ann = r.ann

/-- RELEASE from TRAPPED, as it is accepted: the records and the overflow bit go, the context runs, and every redex
that a recorded fault discarded returns to INNERMOST, or with ARG0 [0] set waits to become BOT with its cause (R111).
-/
def Obligations.ReleaseFromTrap : Prop :=
  ∀ (s : State) (k : CtxId) (bot : Bool),
    let t := s.releaseCtx k bot
    (t.getCtx k).state = .running ∧ (t.getCtx k).traps = [] ∧ (t.getCtx k).trapOvf = false ∧
    ∀ appo r, s.getRedex k appo = some r →
      ∃ r', t.getRedex k appo = some r' ∧
        (∀ c, r.fate = .trapped c → bot = false → r'.state = .innermost ∧ r'.fate = .none ∧ r'.cause = 0 ∧
          r'.ann = r.ann ∧ r'.serial = r.serial) ∧
        (∀ c, r.fate = .trapped c → bot = true → r'.fate = .bot c) ∧
        ((∀ c, r.fate ≠ .trapped c) → r' = r)

/-- BR and CALL go to the word at their offset, JMP and RET to the word that a register names, and CALL leaves the
return word in g63; a guard that is false goes on at the next word and writes nothing. The end check of a completed
word, where at most one active loop has it as its last: back to the loop's start with the counter up by one while
iterations remain; otherwise the counter holds the count, the loop is inactive and the next word follows (R204, R205).
-/
def Obligations.BranchesLoopEnd : Prop :=
  (∀ (g : Guard) (off : BitVec 36) (a : GReg) (s : State),
      (Runs g (.br g off) s fun k e => s.setExec k { e with pc := e.pc + off.signExtend 64 }) ∧
      (Runs g (.jmp g a) s fun k e => s.setExec k { e with pc := e.getG a }) ∧
      (Runs g (.ret g) s fun k e => s.setExec k { e with pc := e.getG 63 }) ∧
      (Runs g (.call g off) s fun k e =>
        s.setExec k { e with pc := e.pc + off.signExtend 64, g := vset e.g 63 (e.pc + 1) })) ∧
  (∀ (e : Exec),
      ((∀ c, ¬((e.getLoop c).active = true ∧ (e.getLoop c).last = e.pc)) → e.advance = { e with pc := e.pc + 1 }) ∧
      ∀ c, (e.getLoop c).active = true → (e.getLoop c).last = e.pc →
        (∀ d, d ≠ c → ¬((e.getLoop d).active = true ∧ (e.getLoop d).last = e.pc)) →
        ((e.getCnt c).toNat + 1 < (e.getLoop c).count.toNat →
          e.advance = { e.setCnt c (e.getCnt c + 1) with pc := (e.getLoop c).start }) ∧
        ((e.getLoop c).count.toNat ≤ (e.getCnt c).toNat + 1 →
          e.advance = { (e.setCnt c (e.getLoop c).count).setLoop c { e.getLoop c with active := false } with
            pc := e.pc + 1 }))

/-- LOOP and LOOPI: a count of N makes the loop of cD active over the L words that follow, with cD 0, and the word
completes as any other; N = 0 and a false guard pass the body, and a LOOP count of 2^16 or more faults ILLOP. BREAK
leaves an active loop for the word after its last (R205, R206). That the word of a started loop, and a BREAK at its
loop's own last word, transfer no control and are followed by the end check of the other loops is the model's reading
(DEDUCED, log 63). -/
def Obligations.Loops : Prop :=
  ∀ (g : Guard) (d : CReg) (a : GReg) (n : BitVec 16) (len : BitVec 11) (s : State) (k : Nat) (e : Exec),
    s.live = some (k, e) →
    let past : Word := e.pc + len.setWidth 64 + 1
    let keeps (e' : Exec) : Prop := e'.pc = e.pc ∧ e'.g = e.g ∧ e'.q = e.q ∧ e'.v = e.v ∧ e'.fpcsr = e.fpcsr ∧
      ∀ c, c ≠ d → e'.getCnt c = e.getCnt c ∧ e'.getLoop c = e.getLoop c
    let starts (i : Instr) (n : BitVec 16) : Prop := ∃ e', keeps e' ∧ e'.getCnt d = 0 ∧
      (n = 0 → exec i s = .next (s.setExec k { e' with pc := past }) ∧ (e'.getLoop d).active = false) ∧
      (n ≠ 0 → exec i s = .next (s.setExec k e'.advance) ∧ (e'.getLoop d).active = true ∧
        (e'.getLoop d).start = e.pc + 1 ∧ (e'.getLoop d).last = e.pc + len.setWidth 64 ∧ (e'.getLoop d).count = n ∧
        ∀ c, c ≠ d → (e.getLoop c).stamp < (e'.getLoop d).stamp)
    (e.guardOn g = true → starts (.loopi g d n len) n) ∧
    (e.guardOn g = true → (e.getG a).toNat < 2 ^ 16 → starts (.loop g d a len) ((e.getG a).setWidth 16)) ∧
    (e.guardOn g = true → 2 ^ 16 ≤ (e.getG a).toNat → exec (.loop g d a len) s = .next (s.raise k e 0x10)) ∧
    (e.guardOn g = false →
      exec (.loopi g d n len) s = .next (s.setExec k { e with pc := past }) ∧
      exec (.loop g d a len) s = .next (s.setExec k { e with pc := past })) ∧
    (e.guardOn g = true → (e.getLoop d).active = true → ∃ e', keeps e' ∧ e'.cnt = e.cnt ∧ (e'.getLoop d).active = false ∧
      exec (.breakLoop g d) s = .next (s.setExec k
        (if (e.getLoop d).last = e.pc then e'.advance else { e' with pc := (e.getLoop d).last + 1 }))) ∧
    (e.guardOn g = false ∨ (e.getLoop d).active = false →
      exec (.breakLoop g d) s = .next (s.setExec k e.advance))

/-- MFS of a register other than RAND delivers it and changes nothing else; of RAND it advances the generator and
delivers the new state. MTS stores the fields that the register has, and a zero written to RAND is replaced (R33, R90,
R92, R249, R256). -/
def Obligations.SpecialRegisters : Prop :=
  ∀ (g : Guard) (d a : GReg) (n : BitVec 12) (s : State),
    (n ≠ 0x00E → Runs g (.mfs g d n) s fun k e => s.setExec k (e.setG d (s.sreg k e n.toNat)).advance) ∧
    (Runs g (.mfs g d 0x00E) s fun k e =>
      let x := e.rand ^^^ (e.rand <<< 13)
      let y := x ^^^ (x >>> 7)
      let z := y ^^^ (y <<< 17)
      s.setExec k (({ e with rand := z }).setG d z).advance) ∧
    (Writes g (.mts g 0x005 a) s fun e =>
      { e with fprog := if e.getG a &&& 0x7F = 0 then 0 else e.getG a &&& 0xF7F }) ∧
    (Writes g (.mts g 0x008 a) s fun e => { e with mstat := e.getG a &&& 0x1FFFF }) ∧
    (Writes g (.mts g 0x00E a) s fun e =>
      { e with rand := if e.getG a = 0 then 0x9E3779B97F4A7C15 else e.getG a }) ∧
    (Writes g (.mts g 0x00C a) s fun e => { e with fpcsr := fpcsrStored (e.getG a) })

/-- The layouts of SPN0, SPN1 and ITER: the bits that MFS reads in each field, and zero in every other (R91). -/
def Obligations.SpanRegisters : Prop :=
  ∀ (s : State) (k : Nat) (e : Exec) (r : Redex), s.getRedex e.ctx e.appo = some r →
    r.first ≤ r.last → r.last < 2048 → e.rank < 2048 →
    let spn0 := s.sreg k e 0x002
    let spn1 := s.sreg k e 0x003
    let iter := s.sreg k e 0x00D
    field spn0 42 32 = r.last ∧ field spn0 10 0 = r.first ∧ field spn0 63 43 = 0 ∧ field spn0 31 11 = 0 ∧
    field spn1 63 48 = min r.elems 0xFFFF ∧ field spn1 47 32 = min r.len 0xFFFF ∧
    field spn1 27 16 = r.last + 1 - r.first ∧ field spn1 10 0 = e.rank ∧ field spn1 31 28 = 0 ∧
    field spn1 15 11 = 0 ∧
    iter.extractLsb' 48 16 = e.getCnt 3 ∧ iter.extractLsb' 32 16 = e.getCnt 2 ∧
    iter.extractLsb' 16 16 = e.getCnt 1 ∧ iter.extractLsb' 0 16 = e.getCnt 0

/-! ### Scalar floating point -/

/-- FADD, FSUB, FMUL, FDIV, FFMA and FSQRT deliver the exact result rounded once by their mode, with the flags of the
operation raised in FPCSR and zero above bit 31; FMIN, FMAX, FABS, FNEG, FCVT and FCMP likewise, and none changes
another register (R28, R34, R200, R202, R203). -/
def Obligations.ScalarFloat : Prop :=
  ∀ (g : Guard) (rm : Rm) (d a b c : GReg) (q : QReg) (cond : FCond) (sty dty : Ty) (sat : Bool) (s : State),
    let x (e : Exec) (r : GReg) : Nat := ((e.getG r).setWidth 32).toNat
    let put (e : Exec) (v : Nat × FFlags) : Exec := (e.setG d (BitVec.ofNat 64 v.1)).raiseF v.2
    (Writes g (.fadd g rm d a b) s fun e => put e (fArith .f32 .add (rmOf e.fpcsr rm) (x e a) (x e b))) ∧
    (Writes g (.fsub g rm d a b) s fun e => put e (fArith .f32 .sub (rmOf e.fpcsr rm) (x e a) (x e b))) ∧
    (Writes g (.fmul g rm d a b) s fun e => put e (fArith .f32 .mul (rmOf e.fpcsr rm) (x e a) (x e b))) ∧
    (Writes g (.fdiv g rm d a b) s fun e => put e (fArith .f32 .div (rmOf e.fpcsr rm) (x e a) (x e b))) ∧
    (Writes g (.ffma g rm d a b c) s fun e => put e (fFma .f32 (rmOf e.fpcsr rm) (x e a) (x e b) (x e c))) ∧
    (Writes g (.fsqrt g rm d a) s fun e => put e (fSqrt .f32 (rmOf e.fpcsr rm) (x e a))) ∧
    (Writes g (.fmin g rm d a b) s fun e => put e (fMinMax .f32 false (x e a) (x e b))) ∧
    (Writes g (.fmax g rm d a b) s fun e => put e (fMinMax .f32 true (x e a) (x e b))) ∧
    (Writes g (.fabs g rm d a) s fun e => put e (fSign .f32 false (x e a))) ∧
    (Writes g (.fneg g rm d a) s fun e => put e (fSign .f32 true (x e a))) ∧
    (Writes g (.fcvt g sty dty rm sat d a) s fun e =>
      (e.setG d (fcvtResult sty dty (rmOf e.fpcsr rm) sat (e.getG a)).1).raiseF
        (fcvtResult sty dty (rmOf e.fpcsr rm) sat (e.getG a)).2) ∧
    (Writes g (.fcmp g cond q a b) s fun e =>
      let r := fCompare .f32 (FCond.toV cond) (x e a) (x e b)
      (e.setQ q (if r.1 then BitVec.allOnes 64 else 0)).raiseF r.2)

/-- What the operations of the scalar and vector units deliver for special operands: a NaN gives the canonical NaN and
NV only when it signals; a finite non-zero value divided by zero gives an infinity and DZ; FABS and FNEG clear and
invert bit 31; FMIN and FMAX put -0 below +0 (R32, R200, R203). -/
def Obligations.FloatSpecials : Prop :=
  ∀ (rm : Rm) (x y : Lane),
    let nan (z : Lane) : Bool := isNanF32 z
    let nv : FFlags := if isSnanF32 x || isSnanF32 y then 8 else 0
    ((nan x || nan y) = true → ∀ op, fArith .f32 op rm x.toNat y.toNat = (0x7FC00000, nv)) ∧
    (x.extractLsb' 23 8 ≠ 0xFF → x &&& 0x7FFFFFFF ≠ 0 → y &&& 0x7FFFFFFF = 0 →
      fArith .f32 .div rm x.toNat y.toNat = ((((x ^^^ y) &&& 0x80000000) ||| 0x7F800000).toNat, 16)) ∧
    ((nan x || nan y) = true → ∀ m, fMinMax .f32 m x.toNat y.toNat = (0x7FC00000, nv)) ∧
    (nan x = false → fSign .f32 false x.toNat = ((x &&& 0x7FFFFFFF).toNat, 0) ∧
      fSign .f32 true x.toNat = ((x ^^^ 0x80000000).toNat, 0)) ∧
    (nan x = true → ∀ n, fSign .f32 n x.toNat = (0x7FC00000, if isSnanF32 x then 8 else 0)) ∧
    (fMinMax .f32 false 0x80000000 0 = (0x80000000, 0) ∧ fMinMax .f32 true 0x80000000 0 = (0, 0)) ∧
    ((nan x || nan y) = true → fCompare .f32 .lt x.toNat y.toNat = (false, 8) ∧
      fCompare .f32 .ne x.toNat y.toNat = (true, nv) ∧ fCompare .f32 .un x.toNat y.toNat = (true, nv))

/-- FCLASS writes exactly one of bits 0 to 9 of gD, by the class of the value in bits [31:0], zero elsewhere, and
raises no flag (R201). -/
def Obligations.FloatClass : Prop :=
  ∀ (g : Guard) (rm : Rm) (d a : GReg) (s : State),
    Writes g (.fclass g rm d a) s fun e =>
      let x : Lane := (e.getG a).setWidth 32
      let ex := x.extractLsb' 23 8
      let fr := x.extractLsb' 0 23
      e.setG d (
        if ex = 0xFF ∧ fr ≠ 0 then (if fr.getLsbD 22 then 0x200 else 0x100)
        else if x.getLsbD 31 then
          (if ex = 0xFF then 0x1 else if ex = 0 ∧ fr = 0 then 0x8 else if ex = 0 then 0x4 else 0x2)
        else (if ex = 0xFF then 0x80 else if ex = 0 ∧ fr = 0 then 0x10 else if ex = 0 then 0x20 else 0x40))

/-! ### Vectors -/

/-- The logic, select and permutation forms move and combine whole lanes; their bits pass unchanged and raise no flag
(R221, R225, R231). -/
def Obligations.VectorLanes : Prop :=
  ∀ (g : Guard) (ty : Ty) (d a b : VReg) (r : GReg) (c : QReg) (n : BitVec 6) (s : State), ty.vecInt = true →
    (WritesVec g (.vand g ty d a b) s d fun e j => (lane (e.getV a) j &&& lane (e.getV b) j, 0)) ∧
    (WritesVec g (.vor g ty d a b) s d fun e j => (lane (e.getV a) j ||| lane (e.getV b) j, 0)) ∧
    (WritesVec g (.vxor g ty d a b) s d fun e j => (lane (e.getV a) j ^^^ lane (e.getV b) j, 0)) ∧
    (WritesVec g (.vandn g ty d a b) s d fun e j => (lane (e.getV a) j &&& ~~~lane (e.getV b) j, 0)) ∧
    (WritesVec g (.vsel g d a b c) s d fun e j =>
      (if (e.getQ c).getLsbD j then lane (e.getV a) j else lane (e.getV b) j, 0)) ∧
    (WritesVec g (.vmov g d a) s d fun e j => (lane (e.getV a) j, 0)) ∧
    (WritesVec g (.vperm g d a b) s d fun e j => (lane (e.getV a) ((lane (e.getV b) j).toNat % 64), 0)) ∧
    (WritesVec g (.vbcast g d r) s d fun e _ => ((e.getG r).setWidth 32, 0)) ∧
    (WritesVec g (.vbl g d a n) s d fun e _ => (lane (e.getV a) n.toNat, 0)) ∧
    (WritesVec g (.vins g d r n) s d fun e j =>
      (if j = n.toNat then (e.getG r).setWidth 32 else lane (e.getV d) j, 0)) ∧
    (WritesVec g (.vshfu g d a n) s d fun e j => (if n.toNat ≤ j then lane (e.getV a) (j - n.toNat) else 0, 0)) ∧
    (WritesVec g (.vshfd g d a n) s d fun e j => (if j + n.toNat < 64 then lane (e.getV a) (j + n.toNat) else 0, 0)) ∧
    (Writes g (.vext g r a n) s fun e => e.setG r ((lane (e.getV a) n.toNat).setWidth 64))

/-- The integer forms of the vector arithmetic work on each packed element by itself: modulo 2^w, or with SAT clamped
to the range of TY; shift counts are the low bits of the matching element (R219, R221). -/
def Obligations.VectorIntegers : Prop :=
  ∀ (g : Guard) (ty : Ty) (rm : Rm) (sat : Bool) (d a b c : VReg) (s : State), ty.vecInt = true →
    let w := packedWidth ty
    let x (e : Exec) (j q : Nat) : BitVec w := elemAt w (e.getV a) j q
    let y (e : Exec) (j q : Nat) : BitVec w := elemAt w (e.getV b) j q
    let z (e : Exec) (j q : Nat) : BitVec w := elemAt w (e.getV c) j q
    let num (v : BitVec w) : Int := elemValue ty v
    let put (v : Int) : BitVec w := BitVec.ofInt w (if sat then elemClamp ty v else v)
    (WritesElems g (.vadd g ty rm sat d a b) s d w fun e j q => put (num (x e j q) + num (y e j q))) ∧
    (WritesElems g (.vsub g ty rm sat d a b) s d w fun e j q => put (num (x e j q) - num (y e j q))) ∧
    (WritesElems g (.vmul g ty rm sat d a b) s d w fun e j q => put (num (x e j q) * num (y e j q))) ∧
    (WritesElems g (.vfma g ty rm sat d a b c) s d w fun e j q =>
      put (num (x e j q) * num (y e j q) + num (z e j q))) ∧
    (WritesElems g (.vmin g ty rm d a b) s d w fun e j q => if num (x e j q) < num (y e j q) then x e j q else y e j q) ∧
    (WritesElems g (.vmax g ty rm d a b) s d w fun e j q => if num (x e j q) < num (y e j q) then y e j q else x e j q) ∧
    (WritesElems g (.vabs g ty rm sat d a) s d w fun e j q =>
      put (if num (x e j q) < 0 then -num (x e j q) else num (x e j q))) ∧
    (WritesElems g (.vneg g ty rm sat d a) s d w fun e j q => put (-num (x e j q))) ∧
    (WritesElems g (.vmulh g ty d a b) s d w fun e j q =>
      BitVec.ofInt w (num (x e j q) * num (y e j q) / 2 ^ w)) ∧
    (WritesElems g (.vshl g ty d a b) s d w fun e j q => x e j q <<< ((y e j q).toNat % w)) ∧
    (WritesElems g (.vshr g ty d a b) s d w fun e j q => x e j q >>> ((y e j q).toNat % w)) ∧
    (WritesElems g (.vsra g ty d a b) s d w fun e j q => (x e j q).sshiftRight ((y e j q).toNat % w)) ∧
    (WritesElems g (.vclz g ty d a) s d w fun e j q =>
      BitVec.ofNat w ((List.range w).takeWhile fun i => !(x e j q).getLsbD (w - 1 - i)).length) ∧
    (WritesElems g (.vpopc g ty d a) s d w fun e j q =>
      BitVec.ofNat w ((List.range w).filter fun i => (x e j q).getLsbD i).length)

/-- The floating forms apply the operation of one element, rounded once by the mode of the word, to each element of a
lane, and raise its flags for the lanes written only; VDIV, VSQRT and the functions exist for f32 (R218 to R223). -/
def Obligations.VectorFloats : Prop :=
  ∀ (g : Guard) (ty : Ty) (t : FloatFmt) (rm : Rm) (d a b c : VReg) (s : State), elemOf ty = .float t →
    let w := t.width
    let m (e : Exec) : Rm := rmOf e.fpcsr rm
    let x (e : Exec) (j : Nat) : Lane := lane (e.getV a) j
    let y (e : Exec) (j : Nat) : Lane := lane (e.getV b) j
    let z (e : Exec) (j : Nat) : Lane := lane (e.getV c) j
    (WritesVec g (.vadd g ty rm false d a b) s d fun e j => laneMap2 w (fArith t .add (m e)) (x e j) (y e j)) ∧
    (WritesVec g (.vsub g ty rm false d a b) s d fun e j => laneMap2 w (fArith t .sub (m e)) (x e j) (y e j)) ∧
    (WritesVec g (.vmul g ty rm false d a b) s d fun e j => laneMap2 w (fArith t .mul (m e)) (x e j) (y e j)) ∧
    (WritesVec g (.vfma g ty rm false d a b c) s d fun e j => laneMap3 w (fFma t (m e)) (x e j) (y e j) (z e j)) ∧
    (WritesVec g (.vmin g ty rm d a b) s d fun e j => laneMap2 w (fMinMax t false) (x e j) (y e j)) ∧
    (WritesVec g (.vmax g ty rm d a b) s d fun e j => laneMap2 w (fMinMax t true) (x e j) (y e j)) ∧
    (WritesVec g (.vabs g ty rm false d a) s d fun e j => laneMap1 w (fSign t false) (x e j)) ∧
    (WritesVec g (.vneg g ty rm false d a) s d fun e j => laneMap1 w (fSign t true) (x e j)) ∧
    (WritesVec g (.vdiv g rm d a b) s d fun e j => laneMap2 32 (fArith .f32 .div (m e)) (x e j) (y e j)) ∧
    (WritesVec g (.vsqrt g rm d a) s d fun e j => laneMap1 32 (fSqrt .f32 (m e)) (x e j)) ∧
    (WritesVec g (.vrcp g rm d a) s d fun e j => laneMap1 32 (fFun .rcp (m e)) (x e j)) ∧
    (WritesVec g (.vrsq g rm d a) s d fun e j => laneMap1 32 (fFun .rsq (m e)) (x e j)) ∧
    (WritesVec g (.vexp2 g rm d a) s d fun e j => laneMap1 32 (fFun .exp2 (m e)) (x e j)) ∧
    (WritesVec g (.vlog2 g rm d a) s d fun e j => laneMap1 32 (fFun .log2 (m e)) (x e j)) ∧
    (WritesVec g (.vtanh g rm d a) s d fun e j => laneMap1 32 (fFun .tanh (m e)) (x e j))

/-- VCMP writes the lanes of qD whose guard is true: true where the condition holds of every element of the lane. VCVT
from f32 to a 32-bit integer writes each such lane with the rounded and saturated value and the overflow bit of the
conversion to the matching lane of qC, and keeps the other lanes of both; the other conversions change vD, qC and FPCSR
alone (R224, R226 to R230). -/
def Obligations.VectorCompareConvert : Prop :=
  ∀ (g : Guard) (cond : VCond) (sty dty : Ty) (rm : Rm) (sat : Bool) (d a b : VReg) (q : QReg) (s : State) (k : Nat)
    (e : Exec), s.live = some (k, e) →
    (∃ p fl, exec (.vcmp g cond sty q a b) s = .next (s.setExec k ((e.setQ q p).raiseF fl).advance) ∧
      ∀ j, j < 64 → p.getLsbD j = if e.guardLane g j then
        (vCompareLane cond sty (lane (e.getV a) j) (lane (e.getV b) j)).1 else (e.getQ q).getLsbD j) ∧
    (∃ v p fl, exec (.vcvt g sty dty rm sat d a q) s = .next (s.setExec k (((e.setV d v).setQ q p).raiseF fl).advance) ∧
      (sty = .f32 → dty = .i32 ∨ dty = .n32 → ∀ j, j < 64 →
        let r := toInt (ofF32 (lane (e.getV a) j)) (rmOf e.fpcsr rm) (dty == .i32) 32
        lane v j = (if e.guardLane g j then BitVec.ofInt 32 r.1 else lane (e.getV d) j) ∧
        p.getLsbD j = (if e.guardLane g j then r.2.1 else (e.getQ q).getLsbD j)))

/-- VRED delivers one value of the lanes whose guard is true, and VSCAN in each lane written that of the lanes up to
it: for ADD, AND and OR over i32 and n32 the sum modulo 2^32, the conjunction and the disjunction, extended as TY says,
with no flag; the other operations write the same registers and FPCSR (R54, R55, R232). -/
def Obligations.VectorReduce : Prop :=
  ∀ (g : Guard) (op : RedOp) (ty : Ty) (r : GReg) (d a : VReg) (s : State) (k : Nat) (e : Exec),
    s.live = some (k, e) →
    let total (js : List Nat) : Lane := js.foldl (fun acc j =>
        match op with
        | .add => acc + lane (e.getV a) j
        | .and => acc &&& lane (e.getV a) j
        | .or => acc ||| lane (e.getV a) j
        | .min | .max => acc) (if op = .and then 0xFFFFFFFF else 0)
    let on := (List.range 64).filter (e.guardLane g)
    (∃ x fl, exec (.vred g op ty r a) s = .next (s.setExec k ((e.setG r x).raiseF fl).advance) ∧
      (ty = .i32 ∨ ty = .n32 → op ≠ .min → op ≠ .max → fl = 0 ∧
        x = if ty = .i32 then (total on).signExtend 64 else (total on).setWidth 64)) ∧
    (∃ v fl, exec (.vscan g op ty d a) s = .next (s.setExec k ((e.setV d v).raiseF fl).advance) ∧
      (∀ j, j < 64 → e.guardLane g j = false → lane v j = lane (e.getV d) j) ∧
      (ty = .i32 ∨ ty = .n32 → op ≠ .min → op ≠ .max → fl = 0 ∧
        ∀ j, j < 64 → e.guardLane g j = true → lane v j = total (on.filter (· ≤ j))))

/-! ### Frames -/

/-- A word of a microprogram leaves every register of its execution as it was but those that it names as written; MFS
and MTS of RAND apart, RAND stays; the bits of FPCSR outside the flags stay but for MTS; and the counters and loops of
other loops stay (R82, R86, R88). -/
def Obligations.RegisterFrame : Prop :=
  ∀ (i : Instr) (s t : State) (k : Nat) (e f : Exec), i.isCell = true → s.live = some (k, e) →
    s.getExec k = some e → exec i s = .next t → t.getExec k = some f →
    (∀ r, .g r ∉ i.writes → f.getG r = e.getG r) ∧ (∀ r, .q r ∉ i.writes → f.getQ r = e.getQ r) ∧
    (∀ r, .v r ∉ i.writes → f.getV r = e.getV r) ∧ (∀ r, .a r ∉ i.writes → f.getA r = e.getA r) ∧
    (.perm ∉ i.writes → f.perm = e.perm) ∧ (.mstat ∉ i.writes → f.mstat = e.mstat) ∧
    (.fact ∉ i.writes → f.fprog = e.fprog ∧ f.fstat = e.fstat ∧ f.grow = e.grow) ∧
    ((∀ g d, i ≠ .mfs g d 0x00E) → (∀ g a, i ≠ .mts g 0x00E a) → f.rand = e.rand) ∧
    ((∀ g a, i ≠ .mts g 0x00C a) → f.fpcsr &&& ~~~0x1F00 = e.fpcsr &&& ~~~0x1F00) ∧
    (∀ c, .cnt c ∉ i.writes → ¬((e.getLoop c).active = true ∧ (e.getLoop c).last = e.pc) →
      f.getCnt c = e.getCnt c ∧ f.getLoop c = e.getLoop c) ∧
    f.ctx = e.ctx ∧ f.appo = e.appo ∧ f.rank = e.rank ∧ f.op = e.op

/-- A word of a microprogram writes HBM, the lines of the home slices, host memory and presence only where it is one of
the barrier and range instructions, whose units write their blocks (R346, R359), or CPCAN, which completes a chunk of
which its firing has written a part (R287, DEDUCED, log 93); every other access is done by an event. And it writes no
byte of a scratchpad but where it is a scratch store or one of TALLOC, TSETH, PRST, RATRD and SRECV, and then only in
its own cell (R280, R296, R298). -/
def Obligations.MemoryFrame : Prop :=
  ∀ (i : Instr) (s t : State) (k : Nat) (e : Exec), i.isCell = true → s.live = some (k, e) → exec i s = .next t →
    let cancels : Prop := ∃ g n, i = .cpcan g n ∧ ∃ w ∈ s.mem.copyOut, w.cell = k / 256 ∧ w.tmpl = n.toNat
    let unit : Bool := match i with
      | .barj .. | .grab .. | .steal .. | .rngset .. => true
      | _ => false
    let store : Bool := match i with
      | .st .. | .vst .. | .vsts .. | .vscat .. | .talloc .. | .tseth .. | .prst .. | .ratrd .. | .srecv .. => true
      | _ => false
    (unit = false → ¬cancels → t.mem.hbm = s.mem.hbm ∧ t.mem.dirty = s.mem.dirty ∧ ∀ pa, t.loadByte pa = s.loadByte pa) ∧
    (¬cancels → t.mem.host = s.mem.host) ∧ t.mem.present = s.mem.present ∧
    ∀ c a, (store = false ∨ c ≠ k / 256) → (t.getCell c).scratch.read a = (s.getCell c).scratch.read a

/-! ### The matrix engine -/

/-- A matrix instruction whose size register and operands pass their checks joins the engine's queue with the registers
that it names, and its word completes: no register but the counters and the PC changes, and no byte of memory. A
factorisation whose steps are all done completes with no effect (R235, R237, R238, R253, R254, R257). -/
def Obligations.MatrixIssue : Prop :=
  ∀ (g : Guard) (s : State) (k : Nat) (e : Exec), Issues g s k e → e.mq.length < 4 →
    let entry (i : Instr) (ga ga1 gb gb1 gc : Word) : MatOp :=
      { pc := e.pc, iter := e.iter, instr := i, ga := ga, ga1 := ga1, gb := gb, gb1 := gb1, gc := gc }
    let queued (i : Instr) (ga ga1 gb gb1 gc : Word) : Prop := ∃ t, exec i s = .next t ∧
      t.getExec k = some { e with mq := e.mq ++ [entry i ga ga1 gb gb1 gc] }.advance ∧
      OwnCell s t k ∧ (t.getCell (k / 256)).scratch = (s.getCell (k / 256)).scratch
    let shape (w : Word) : Prop := 1 ≤ field w 15 8 ∧ field w 15 8 ≤ 64 ∧ 1 ≤ field w 7 0 ∧ field w 7 0 ≤ 64
    let held (d : Desc) (runs : List (Nat × Nat)) : Prop :=
      (d.rho = 0 ∨ (d.pitch % 2048 = 0 ∧ d.base % 2048 = 0)) ∧ InMatrixTile s (k / 256) e.ctx runs
    let desc (r : GReg) : Desc := Desc.ofPair (e.getG r) (e.getG (r + 1))
    let size (w : Word) : Prop := 1 ≤ field w 6 0 ∧ field w 6 0 ≤ 64 ∧ field w 14 8 ≤ field w 6 0
    let width (w : Word) : Prop := 1 ≤ field w 22 16 ∧ field w 22 16 ≤ 64
    let goesOn (w : Word) (fn : Nat) : Prop := field e.fprog 6 0 = 0 ∨
      (field e.fprog 11 8 = fn + 1 ∧ field e.fprog 6 0 < field w 6 0)
    let last (w : Word) : Nat := if field w 14 8 = 0 then field w 6 0 else field w 14 8
    let fact (i : Instr) (fn : Nat) (a ga1 gb gb1 : Word) : Prop := goesOn a fn →
      (field e.fprog 6 0 < last a → queued i a ga1 gb gb1 0) ∧
      (last a ≤ field e.fprog 6 0 → exec i s = .next (s.setExec k e.advance))
    (∀ d a v b, queued (.mzero g d) 0 0 0 0 0 ∧ queued (.mtran g d a) 0 0 0 0 0 ∧
      queued (.mrowr g v a b) 0 0 (e.getG b) (e.getG (b + 1)) 0 ∧
      queued (.mroww g d v b) 0 0 (e.getG b) (e.getG (b + 1)) 0) ∧
    (∀ fmt d a c, shape (e.getG c) → field (e.getG c) 7 0 * elemBytes fmt ≤ (desc a).pitch →
      held (desc a) ((desc a).runs fmt 0 0 (field (e.getG c) 15 8) 0 (field (e.getG c) 7 0)) →
      queued (.mld g fmt d a c) (e.getG a) (e.getG (a + 1)) 0 0 (e.getG c) ∧
      queued (.mst g fmt d a c) (e.getG a) (e.getG (a + 1)) 0 0 (e.getG c)) ∧
    (∀ d a c, shape (e.getG c) →
      held ⟨(e.getG a).toNat, 0, 0, 0⟩ [((e.getG a).toNat, 4 * field (e.getG c) 7 0)] →
      queued (.mchk g d a c) (e.getG a) (e.getG (a + 1)) 0 0 (e.getG c) ∧
      queued (.mchkr g d a c) (e.getG a) (e.getG (a + 1)) 0 0 (e.getG c)) ∧
    (∀ (form : MmaForm) planes d a b c, shape (e.getG c) →
      (∀ r, a = .desc r → held (desc r)
        ((desc r).runs form.fa (planesRead form.fa planes) 0 (field (e.getG c) 15 8) 0 (form.k1.toNat + 1))) →
      (∀ r, b = .desc r → held (desc r)
        ((desc r).runs form.fb (planesRead form.fb planes) 0 (form.k1.toNat + 1) 0 (field (e.getG c) 7 0))) →
      let of (x : MmaSrc) : Word × Word := match x with
        | .desc r => (e.getG r, e.getG (r + 1))
        | .group _ => (0, 0)
      queued (.mma g form planes d a b c) (of a).1 (of a).2 (of b).1 (of b).2 (e.getG c)) ∧
    (∀ zc d a, size (e.getG a) → fact (.luf g zc d a) 0 (e.getG a) (e.getG (a + 1)) 0 0 ∧
      fact (.chol g d a) 1 (e.getG a) (e.getG (a + 1)) 0 0) ∧
    (∀ d a b, size (e.getG a) → held (desc b) [((desc b).base, 4 * field (e.getG a) 6 0)] →
      fact (.qrh g d a b) 2 (e.getG a) (e.getG (a + 1)) (e.getG b) (e.getG (b + 1))) ∧
    (∀ up unit right d a b, size (e.getG a) → width (e.getG a) →
      fact (.trsm g up unit right d a b) 3 (e.getG a) (e.getG (a + 1)) 0 0) ∧
    (∀ tr d a b, size (e.getG a) → width (e.getG a) →
      held ⟨field (e.getG a) 51 32, 0, 0, 0⟩ [(field (e.getG a) 51 32, 4 * field (e.getG a) 6 0)] →
      fact (.qapply g tr d a b) 4 (e.getG a) (e.getG (a + 1)) 0 0) ∧
    (∀ d a, 1 ≤ field (e.getG a) 6 0 → field (e.getG a) 6 0 ≤ 64 → width (e.getG a) →
      queued (.papply g d a) (e.getG a) (e.getG (a + 1)) 0 0 0 ∧
      queued (.papplyt g d a) (e.getG a) (e.getG (a + 1)) 0 0 0)

/-- MMAG: the rank joins the collective of its count with its word, and takes a place in its queue with that count,
which goes up, where no rank that has joined differs and none of the ranks has halted (R245, R246). -/
def Obligations.MmagIssue : Prop :=
  ∀ (g : Guard) (form : MmaForm) (mb1 : BitVec 2) (nb1 : BitVec 3) (d : AReg) (a b c : GReg) (s : State) (k : Nat)
    (e : Exec) (r : Redex), Issues g s k e → e.mq.length < 4 → s.getRedex e.ctx e.appo = some r → r.halts = [] →
    let i : Instr := .mmag g form mb1 nb1 d a b c
    let ranks := (mb1.toNat + 1) * (nb1.toNat + 1)
    let desc (r : GReg) : Desc := Desc.ofPair (e.getG r) (e.getG (r + 1))
    let gc := e.getG c
    let held (d : Desc) (runs : List (Nat × Nat)) : Prop :=
      (d.rho = 0 ∨ (d.pitch % 2048 = 0 ∧ d.base % 2048 = 0)) ∧ InMatrixTile s (k / 256) e.ctx runs
    e.rank < ranks → ranks ≤ State.width r → planesOk form.fa form.fb (gc.extractLsb' 16 3) = true →
    1 ≤ field gc 15 8 → field gc 15 8 ≤ 64 → 1 ≤ field gc 7 0 → field gc 7 0 ≤ 64 →
    (e.rank % (nb1.toNat + 1) = 0 → held (desc a) ((desc a).runs form.fa (planesRead form.fa (gc.extractLsb' 16 3)) 0
      (field gc 15 8) 0 (form.k1.toNat + 1))) →
    (e.rank < nb1.toNat + 1 → held (desc b) ((desc b).runs form.fb (planesRead form.fb (gc.extractLsb' 16 3)) 0
      (form.k1.toNat + 1) 0 (field gc 7 0))) →
    let join : Join := { rank := e.rank, word := i, vec := zeroVec, gb := gc &&& 0x7FFFF }
    (s.findColl e.ctx e.appo e.mmags true = none ∨ ∃ x, s.findColl e.ctx e.appo e.mmags true = some x ∧
      ∀ j ∈ x.joins, j.gb = join.gb ∧ ∃ g' d' a' b' c', j.word = .mmag g' form mb1 nb1 d' a' b' c') →
    ∃ t f m, exec i s = .next t ∧ t.getExec k = some f ∧ f.mq = e.mq ++ [m] ∧ m.mmag = e.mmags ∧ m.instr = i ∧
      f.mmags = e.mmags + 1 ∧ f.pc = e.advance.pc ∧ f.g = e.g ∧ f.a = e.a ∧ f.v = e.v ∧ t.mem = s.mem ∧
      ∃ x, t.findColl e.ctx e.appo e.mmags true = some x ∧ join ∈ x.joins

/-- What the engine does with an instruction that it runs whole, at the head of its queue: MZERO clears, MTRAN
transposes; MROWR and MROWW move one row; MLD and MST move the elements of gC in each of their five formats, at the
placement of any rotation; PAPPLY and PAPPLYT exchange rows by IPIV; MCHK counts the columns whose sum differs from the
checksum, in either reading, and MCHKR writes the sums. What it takes by K-blocks or steps is started (R235, R247, R248,
R249, R266, R278). A NaN of BF16 widens to the canonical one by the model's choice, DEDUCED, log 70. -/
def Obligations.MatrixMoves : Prop :=
  ∀ (s : State) (k : Nat) (e : Exec) (m : MatOp), s.matHead s.arg.cell.val = some (k, e, m) → m.started = false →
    (∀ i, i < 8 → (s.getTmpl (k / 256) i).firing = none) →
    let gone : Exec := { e with mq := e.mq.tail }
    let rows := field m.gc 15 8
    let cols := field m.gc 7 0
    let d := Desc.ofPair m.ga m.ga1
    let word (x : Memory) (a : Nat) : Lane := BitVec.ofNat 32 (leNat (x.readBytes a 4))
    let mem := (s.getCell (k / 256)).scratch
    let at_ (f : Fmt) (i j b : Nat) : Nat := d.place (d.base + i * d.pitch + j * elemBytes f + b)
    let data (x : Memory) (f : Fmt) (i j : Nat) : Nat :=
      leNat ((List.range (elemBytes f)).map fun b => x.read (at_ f i j b))
    let loaded (f : Fmt) (x : Nat) : Lane :=
      if f = .bf16 then (roundF32 (FloatFmt.bf16.dec x) .rne).1
      else if f = .gf8 then (roundF32 (FloatFmt.gf8.dec x) .rne).1
      else if f = .i8 then (BitVec.ofNat 8 x).signExtend 32
      else BitVec.ofNat 32 x
    let stored (f : Fmt) (x : Lane) : Nat :=
      if f = .bf16 then (roundBF16 (ofF32 x) .rne).1.toNat
      else if f = .gf8 then (toGF8 (ofF32 x) .rne).1.toNat
      else if f = .i8 then bitsOf 8 (max (-128) (min 127 x.toInt))
      else x.toNat
    let int : Bool := m.gc.getLsbD 24
    let sum (x : Mat) (j : Nat) : Lane :=
      (List.range rows).foldl (fun y i => if int then y + melem x i j else f32AddRne y (melem x i j)) 0
    let size (x : Mat) (j : Nat) : Exact :=
      (List.range rows).foldl (fun y i => y.add .rne (ofF32 (melem x i j)).abs) (.fin false 0 0)
    let finite (x : Lane) : Bool := x &&& 0x7F800000 != 0x7F800000
    let differs (x : Mat) (j : Nat) (y : Lane) : Bool :=
      if int || !finite (sum x j) || !finite y then sum x j != y
      else Exact.ltNum ((size x j).mul (.fin false 1 (-8))) ((ofF32 (sum x j)).sub .rne (ofF32 y)).abs
    let writes (r : AReg) (p : Nat → Nat → Lane) : Prop := ∃ x : Mat,
      exec .matrixEngineExec s = .next (s.setExec k (gone.setA r x)) ∧ ∀ i j, i < 64 → j < 64 → melem x i j = p i j
    let swap (f : Nat → Nat → Lane) (p q i j : Nat) : Lane :=
      if j < field m.ga 22 16 then (if i = p then f q j else if i = q then f p j else f i j) else f i j
    (∀ g r, m.instr = .mzero g r → writes r fun _ _ => 0) ∧
    (∀ g r a, m.instr = .mtran g r a → writes r fun i j => melem (e.getA a) j i) ∧
    (∀ g v a b, m.instr = .mrowr g v a b → ∃ x : Vec,
      exec .matrixEngineExec s = .next (s.setExec k (gone.setV v x)) ∧
      ∀ j, j < 64 → lane x j = melem (e.getA a) (m.gb.toNat % 64) j) ∧
    (∀ g r v b, m.instr = .mroww g r v b →
      writes r fun i j => if i = m.gb.toNat % 64 then lane (e.getV v) j else melem (e.getA r) i j) ∧
    (∀ g f r a c, m.instr = .mld g f r a c → f ∈ [Fmt.f32, .i32, .bf16, .gf8, .i8] →
      writes r fun i j => if i < rows ∧ j < cols then loaded f (data mem f i j) else melem (e.getA r) i j) ∧
    (∀ g f r a c, m.instr = .mst g f r a c → f ∈ [Fmt.f32, .i32, .bf16, .gf8, .i8] → cols * elemBytes f ≤ d.pitch →
      d.rho = 0 ∨ (d.pitch % 2048 = 0 ∧ d.base % 2048 = 0) →
      ∃ t, exec .matrixEngineExec s = .next t ∧ t.getExec k = some gone ∧ OwnCell s t k ∧
        (∀ i j, i < rows → j < cols → data (t.getCell (k / 256)).scratch f i j = stored f (melem (e.getA r) i j)) ∧
        ∀ a, (∀ i j b, i < rows → j < cols → b < elemBytes f → a ≠ at_ f i j b) →
          (t.getCell (k / 256)).scratch.read a = mem.read a) ∧
    (∀ g r a c, m.instr = .mchk g r a c → ∃ w : Word,
      exec .matrixEngineExec s = .next (s.setExec k { gone with mstat := w }) ∧
      w &&& ~~~0xFFFF = e.mstat &&& ~~~0xFFFF ∧
      field w 15 0 = min 0xFFFF (field e.mstat 15 0 +
        ((List.range cols).filter fun j => differs (e.getA r) j (word mem (m.ga.toNat + 4 * j))).length)) ∧
    (∀ g r a c, m.instr = .mchkr g r a c →
      ∃ t, exec .matrixEngineExec s = .next t ∧ t.getExec k = some gone ∧ OwnCell s t k ∧
        (∀ j, j < cols → word (t.getCell (k / 256)).scratch (m.ga.toNat + 4 * j) = sum (e.getA r) j) ∧
        ∀ a, a < m.ga.toNat ∨ m.ga.toNat + 4 * cols ≤ a →
          (t.getCell (k / 256)).scratch.read a = mem.read a) ∧
    (∀ g r a, m.instr = .papply g r a → field m.ga 6 0 ≤ 64 → ∃ x w, exec .matrixEngineExec s =
        .next (s.setExec k { gone.setA r x with fstat := w }) ∧ field w 3 0 = 6 ∧
      ∀ i j, i < 64 → j < 64 → melem x i j = (List.range (field m.ga 6 0)).foldl
        (fun f p => swap f p ((vget 0 e.perm p).toNat % 64)) (melem (e.getA r)) i j) ∧
    (∀ g r a, m.instr = .papplyt g r a → field m.ga 6 0 ≤ 64 → ∃ x w, exec .matrixEngineExec s =
        .next (s.setExec k { gone.setA r x with fstat := w }) ∧ field w 3 0 = 7 ∧
      ∀ i j, i < 64 → j < 64 → melem x i j = (List.range (field m.ga 6 0)).reverse.foldl
        (fun f p => swap f p ((vget 0 e.perm p).toNat % 64)) (melem (e.getA r)) i j) ∧
    ((∃ g form pl r a b c, m.instr = .mma g form pl r a b c) ∨ (∃ g z r a, m.instr = .luf g z r a) ∨
      (∃ g r a, m.instr = .chol g r a) ∨ (∃ g r a b, m.instr = .qrh g r a b) ∨
      (∃ g u n x r a b, m.instr = .trsm g u n x r a b) ∨ (∃ g t r a b, m.instr = .qapply g t r a b) →
      exec .matrixEngineExec s = .next (s.setExec k { e with mq := { m with started := true } :: e.mq.tail }))

/-- A K-block of an MMA, or of an MMAG whose panels the ranks have sent, where the window of the cycle has begun, the
cap of the gallery is not reached, no block that was held back before it waits, and no hardware error strikes a
checker: each element of the rows and columns of gC adds, or with negation subtracts, the exact sum of its products,
wrapped for integers and rounded once for floating operands; it is counted; and the instruction ends with the last
block. Without a hardware error no column of a checked form mismatches. The first rank of a row of an MMAG sends its
row panel and those of the first row their column panels, block by block, and a rank multiplies those of its row and
its column once every rank has issued (R52, R53, R242, R244, R245, R251). -/
def Obligations.MatrixBlocks : Prop :=
  ∀ (s : State) (k : Nat) (e : Exec) (m : MatOp) (g : Guard) (form : MmaForm) (planes : BitVec 3) (d : AReg)
    (a b : MmaSrc) (c : GReg), s.matHead s.arg.cell.val = some (k, e, m) → m.started = true →
    let gal := s.getGal (k / 256 / 512)
    let cell := s.getCell (k / 256)
    let L := if elemBytes form.fa = 1 ∧ elemBytes form.fb = 1 then 32 else 16
    let ks := (List.range L).filterMap fun i => if m.next * L + i ≤ form.k1.toNat then some (m.next * L + i) else none
    let total := (form.k1.toNat + L) / L
    let old (i j : Nat) : Lane := if m.next = 0 ∧ form.acc = .overwrite then 0 else melem (e.getA d) i j
    let inside (i j : Nat) : Prop := i < field m.gc 15 8 ∧ j < field m.gc 7 0
    let adds (A B : Elems) : Prop := ∃ t f, exec .matrixKblock s = .next t ∧ t.getExec k = some f ∧
      (t.getGal (k / 256 / 512)).count.toNat = min 0xFFFF (gal.count.toNat + 1) ∧
      (form.fa.isMatrixInt = true → ∀ i j, i < 64 → j < 64 →
        let sum := ks.foldl (fun x n => x + (BitVec.ofNat 8 (A i n)).toInt * (BitVec.ofNat 8 (B n j)).toInt) (0 : Int)
        (inside i j → melem (f.getA d) i j =
          BitVec.ofInt 32 ((old i j).toInt + if form.acc = .negate then -sum else sum)) ∧
        (¬inside i j → melem (f.getA d) i j = melem (e.getA d) i j)) ∧
      (form.fa.isMatrixInt = false → ∀ i j, i < 64 → j < 64 →
        (inside i j → melem (f.getA d) i j = blockFloat form A B ks i j (old i j)) ∧
        (¬inside i j → melem (f.getA d) i j = melem (e.getA d) i j)) ∧
      (m.next + 1 < total → f.mq = { m with next := m.next + 1 } :: e.mq.tail) ∧
      (total ≤ m.next + 1 → f.mq = e.mq.tail) ∧ f.g = e.g ∧ f.v = e.v ∧ f.q = e.q ∧ f.pc = e.pc ∧
      ∀ r, r ≠ d → f.getA r = e.getA r
    let starts : Prop := gal.win = s.clk.toNat / 1024 ∧ (gal.capNow = 0 ∨ gal.count < gal.capNow) ∧
      (∀ x, gal.waiting.head? = some x → x = k / 256)
    (m.instr = .mma g form planes d a b c → (∀ i, i < 8 → (s.getTmpl (k / 256) i).firing = none) → starts →
      (form.chk = true → s.arg.bad = false ∧ m.strays = []) →
      adds (mmaElems cell e a (Desc.ofPair m.ga m.ga1) form.fa planes)
        (mmaElems cell e b (Desc.ofPair m.gb m.gb1) form.fb planes)) ∧
    (∀ (mb1 : BitVec 2) (nb1 : BitVec 3) (x y z : GReg), m.instr = .mmag g form mb1 nb1 d x y z →
      let nb := nb1.toNat + 1
      let u := s.sendPanels k e m form nb
      (∀ A B, u.ranksPanels e m nb (mmagRanks mb1 nb1) = some (A, B) → starts → s.arg.bad = false →
        (form.chk = true → m.strays = []) → adds A B) ∧
      (u.ranksPanels e m nb (mmagRanks mb1 nb1) = none → exec .matrixKblock s = .next u) ∧
      (∀ A B, u.ranksPanels e m nb (mmagRanks mb1 nb1) = some (A, B) →
        ∃ x p q, u.findColl e.ctx e.appo m.mmag true = some x ∧ x.joins.length = mmagRanks mb1 nb1 ∧
          p ∈ x.joins ∧ p.rank = e.rank / nb * nb ∧ m.next < p.sent ∧ q ∈ x.joins ∧ q.rank = e.rank % nb ∧
            m.next < q.sent ∧
          (∀ v, p.panels = some v → ∀ i n, A i n = (melem v.1 i n).toNat) ∧
          ∀ v, q.panels = some v → ∀ n j, B n j = (melem v.2 n j).toNat) ∧
      (∀ j, s.joinOf e.ctx e.appo m.mmag e.rank = some j → j.rank = e.rank → j.sent ≤ m.next →
        (∀ i, i < 8 → (s.getTmpl (k / 256) i).firing = none) → e.rank % nb = 0 →
        ∃ j' v, u.joinOf e.ctx e.appo m.mmag e.rank = some j' ∧ j'.sent = m.next + 1 ∧ j'.panels = some v ∧
          ∀ i n, i < 64 → n < 64 → n ∈ ks → melem v.1 i n = BitVec.ofNat 32
            (descElem cell (Desc.ofPair m.ga m.ga1) form.fa (opPlanes form.fa (m.gc.extractLsb' 16 3)) i n)))

/-- A step of CHOL divides its column by the root of the diagonal and updates the lower trailing block; one of LUF
takes the lowest row of the largest magnitude as pivot, exchanges whole rows, and updates the trailing block, or with ZC
passes over a zero pivot; one of TRSM solves for one row or column; one of QRH makes the reflector of its column,
applies it to the later columns and stores tau; one of QAPPLY applies a reflector to the columns of its target. A
diagonal that does not serve discards the redex, with the column as the address; FPROG counts the step (R256 to R265).
That DEF stays at 64 is the model's reading (DEDUCED, log 75). -/
def Obligations.FactorSteps : Prop :=
  ∀ (s : State) (k : Nat) (e : Exec) (m : MatOp) (step n : Nat), s.matHead s.arg.cell.val = some (k, e, m) →
    m.started = true → n = field m.ga 6 0 → n ≤ 64 → step = field e.fprog 6 0 → step < n →
    let last := if field m.ga 14 8 = 0 then n else field m.ga 14 8
    let cols := field m.ga 22 16
    let mem := (s.getCell (k / 256)).scratch
    let ends (f : Exec) (fn : Nat) : Prop :=
      f.fprog = (if step + 1 = n then 0 else BitVec.ofNat 64 ((fn + 1) * 256 + (step + 1))) ∧
      f.mq = (if step + 1 = last then e.mq.tail else e.mq) ∧ f.g = e.g ∧ f.v = e.v ∧ f.q = e.q ∧ f.pc = e.pc
    let leaves (r : AReg) (fn : Nat) (p : Nat → Nat → Lane) (also : State → Exec → Prop) : Prop :=
      ∃ t f, exec .factStep s = .next t ∧ t.getExec k = some f ∧ OwnCell s t k ∧ ends f fn ∧
      (∀ x, x ≠ r → f.getA x = e.getA x) ∧ (∀ i j, i < 64 → j < 64 → melem (f.getA r) i j = p i j) ∧ also t f
    let does (r : AReg) (fn : Nat) (p : Nat → Nat → Lane) : Prop := leaves r fn p fun _ _ => True
    let fails (cause : Cause) (col : Nat) : Prop := exec .factStep s = .next
      (s.faultRedex e.ctx e.appo cause .factor ⟨k / 256, m.pc, m.iter, some (BitVec.ofNat 64 col)⟩)
    let zero (x : Lane) : Prop := x &&& 0x7FFFFFFF = 0
    let mag (x : Lane) : Nat := (x &&& 0x7FFFFFFF).toNat
    let below (q : Nat) : List Nat := (List.range n).filter (q < ·)
    let reflected (q : Nat) (tau : Lane) (v y : Nat → Lane) (i : Nat) : Lane :=
      let w := (below q).foldl (fun w i => f32FmaRne (v i) (y i) w) (y q)
      let t := f32MulRne tau w
      if i = q then f32SubRne (y q) t else if q < i ∧ i < n then f32FmsRne (y i) (v i) t else y i
    (∀ g r a, m.instr = .chol g r a →
      let x (i j : Nat) : Lane := melem (e.getA r) i j
      let dg := x step step
      let c := f32SqrtRne dg
      (isNanF32 dg = true ∨ zero dg ∨ dg.getLsbD 31 = true → fails 0x5 step) ∧
      (isNanF32 dg = false → ¬zero dg → dg.getLsbD 31 = false → does r 1 fun i j =>
        if i = step ∧ j = step then c
        else if step < i ∧ i < n ∧ j = step then f32DivRne (x i step) c
        else if step < i ∧ i < n ∧ step < j ∧ j ≤ i then
          f32FmsRne (x i j) (f32DivRne (x i step) c) (f32DivRne (x j step) c)
        else x i j)) ∧
    (∀ g zc r a, m.instr = .luf g zc r a → ∃ p, step ≤ p ∧ p < n ∧
      let x (i j : Nat) : Lane := melem (e.getA r) i j
      (∀ i, step ≤ i → i < n → mag (x i step) ≤ mag (x p step)) ∧
      (∀ i, step ≤ i → i < p → mag (x i step) < mag (x p step)) ∧
      let y (i j : Nat) : Lane := if i = step then x p j else if i = p then x step j else x i j
      (zero (x p step) → zc = false → fails 0x4 step) ∧
      (¬zero (x p step) → does r 0 fun i j =>
        if step < i ∧ i < n ∧ j = step then f32DivRne (y i step) (y step step)
        else if step < i ∧ i < n ∧ step < j ∧ j < n then
          f32FmsRne (y i j) (f32DivRne (y i step) (y step step)) (y step j)
        else y i j) ∧
      (zero (x p step) → zc = true → leaves r 0 (fun i j => if step < i ∧ i < n ∧ j = step then 0 else y i j) fun _ f =>
        step ≠ 0 → field f.fstat 14 8 = min 64 (field e.fstat 14 8 + 1) ∧
          field f.fstat 23 16 = if field e.fstat 23 16 = 0xFF then step else field e.fstat 23 16)) ∧
    (∀ g r a b, m.instr = .qrh g r a b →
      let x (i j : Nat) : Lane := melem (e.getA r) i j
      let at' := (Desc.ofPair m.gb m.gb1).base + 4 * step
      let stores (tau : Lane) (t : State) : Prop :=
        leNat ((t.getCell (k / 256)).scratch.readBytes at' 4) = tau.toNat ∧
        ∀ y, y < at' ∨ at' + 4 ≤ y → (t.getCell (k / 256)).scratch.read y = mem.read y
      let sum := ((List.range n).filter (step ≤ ·)).foldl (fun y i => f32FmaRne (x i step) (x i step) y) 0
      let nrm := f32SqrtRne sum
      let xk := x step step
      let alpha := if Exact.ltNum (ofF32 xk) (.fin false 0 0) then nrm else (roundF32 (ofF32 nrm).neg .rne).1
      let u := f32SubRne xk alpha
      let tau := (roundF32 (Exact.div (Exact.sub .rne (ofF32 alpha) (ofF32 xk)) (ofF32 alpha)) .rne).1
      let v (i : Nat) : Lane := f32DivRne (x i step) u
      ((∀ i ∈ below step, zero (x i step)) → leaves r 2 x fun t _ => stores 0 t) ∧
      ((∃ i ∈ below step, ¬zero (x i step)) → leaves r 2 (fun i j =>
        if j = step then (if i = step then alpha else if step < i ∧ i < n then v i else x i j)
        else if step < j ∧ j < n then reflected step tau v (fun i => x i j) i else x i j) fun t _ => stores tau t)) ∧
    (∀ g t r a b, m.instr = .qapply g t r a b → s.trailing (k / 256) [(field m.ga 51 32, 4 * n)] = false →
      let q := if t then step else n - 1 - step
      let tau : Lane := BitVec.ofNat 32 (leNat (mem.readBytes (field m.ga 51 32 + 4 * q) 4))
      let x (i j : Nat) : Lane := melem (e.getA r) i j
      (tau = 0 → does r 4 x) ∧
      (tau ≠ 0 → does r 4 fun i j =>
        if j < cols then reflected q tau (fun i => melem (e.getA b) i q) (fun i => x i j) i else x i j)) ∧
    (∀ g up unit right r a b, m.instr = .trsm g up unit right r a b →
      let c := if up = right then step else n - 1 - step
      let x (i j : Nat) : Lane := melem (e.getA r) i j
      let t (i j : Nat) : Lane := melem (e.getA b) i j
      let solve (v : Lane) : Lane := if unit then v else f32DivRne v (t c c)
      let later (i : Nat) : Prop := i < n ∧ (if up = right then c < i else i < c)
      (unit = false → zero (t c c) → fails 0x6 c) ∧
      (unit = true ∨ ¬zero (t c c) → ∃ u f, exec .factStep s = .next u ∧ u.getExec k = some f ∧ OwnCell s u k ∧
        ends f 3 ∧ ∀ i j, i < 64 → j < 64 →
        (right = true → (cols ≤ i → melem (f.getA r) i j = x i j) ∧
          (i < cols → j = c → melem (f.getA r) i j = solve (x i c)) ∧
          (i < cols → later j → melem (f.getA r) i j = f32FmsRne (x i j) (solve (x i c)) (t c j)) ∧
          (j ≠ c → ¬later j → melem (f.getA r) i j = x i j)) ∧
        (right = false → (cols ≤ j → melem (f.getA r) i j = x i j) ∧
          (j < cols → i = c → melem (f.getA r) i j = solve (x c j)) ∧
          (j < cols → later i → melem (f.getA r) i j = f32FmsRne (x i j) (t i c) (solve (x c j))) ∧
          (i ≠ c → ¬later i → melem (f.getA r) i j = x i j))))

/-- PRID makes every part of perm the identity; PRLD takes it from the 512 bytes at gA [19:0], and PRST stores it
there; an odd offset, or one whose bytes do not lie whole in a tile that the access may use, faults (R267, R268). -/
def Obligations.PermutationRegister : Prop :=
  ∀ (g : Guard) (a : GReg) (s : State) (k : Nat) (e : Exec), Issues g s k e →
    let base := field (e.getG a) 19 0
    let c := s.getCell (k / 256)
    (∃ p, exec (.prid g) s = .next (s.setExec k { e with perm := p }.advance) ∧
      ∀ i, i < 256 → vget 0 p i = BitVec.ofNat 16 (if i < 192 then i % 64 else 0)) ∧
    (ScratchOk s k e base 512 2 false → ∃ p, exec (.prld g a) s = .next (s.setExec k { e with perm := p }.advance) ∧
      ∀ i, i < 256 → vget 0 p i = BitVec.ofNat 16 (leNat (c.scratch.readBytes (base + 2 * i) 2))) ∧
    (ScratchOk s k e base 512 2 true → ∃ t, exec (.prst g a) s = .next t ∧ t.getExec k = some e.advance ∧
      OwnCell s t k ∧ (∀ i, i < 256 →
        leNat ((t.getCell (k / 256)).scratch.readBytes (base + 2 * i) 2) = (vget 0 e.perm i).toNat) ∧
      ∀ b, b < base ∨ base + 512 ≤ b → (t.getCell (k / 256)).scratch.read b = c.scratch.read b) ∧
    (base % 2 = 1 ∨ 0xC4000 < base + 512 ∨ c.tileAt base = none ∨ c.tileAt (base + 511) ≠ c.tileAt base →
      exec (.prld g a) s = .next (s.raise k e 0x12) ∧ exec (.prst g a) s = .next (s.raise k e 0x12)) ∧
    (∀ i, base % 2 = 0 → base + 512 ≤ 0xC4000 → c.tileAt base = some i → c.tileAt (base + 511) = some i →
      let t := c.getTile i
      t.state ≠ .free → t.state ≠ .pendfree →
      (t.ctx ≠ e.ctx → exec (.prld g a) s = .next (s.raise k e 0x14) ∧ exec (.prst g a) s = .next (s.raise k e 0x14)) ∧
      (t.ctx = e.ctx → (t.state = .priv ∧ t.owner ≠ some e.appo) ∨ t.state = .copy ∨ t.state = .matrix ∨ t.state = .route →
        exec (.prld g a) s = .next (s.raise k e 0x17) ∧ exec (.prst g a) s = .next (s.raise k e 0x17)) ∧
      (t.ctx = e.ctx → t.state = .shared → exec (.prst g a) s = .next (s.raise k e 0x17)))

/-! ### Scratch -/

/-- LD delivers the bytes at its effective address, little-endian, extended by SZ; VLD, VLDS and VGATH write each true
lane from its address once every address of a true lane has passed, and a stride that is no multiple of 4 faults. A
tile of another member faults OWNER and one of another context XCTX (R275, R295 to R298). -/
def Obligations.ScratchLoads : Prop :=
  ∀ (g : Guard) (sz : LdSize) (d : GReg) (v : VReg) (m : Mem) (w : VMem) (c : GReg) (s : State) (k : Nat) (e : Exec),
    s.live = some (k, e) →
    let mem := (s.getCell (k / 256)).scratch
    let n := ldBytes sz
    let a := (e.ea m).toNat
    let x := leNat (mem.readBytes a n)
    let on (i : Nat) : Bool := e.guardLane g i
    let lanes (i : Instr) (addr : Nat → Word) : Prop :=
      (∀ j, j < 64 → on j = true → ScratchOk s k e (addr j).toNat 4 4 false) → ∃ y : Vec,
        exec i s = .next (s.setExec k { e with v := vset e.v v.toNat y }.advance) ∧
        ∀ j, j < 64 → lane y j =
          if on j then BitVec.ofNat 32 (leNat (mem.readBytes (addr j).toNat 4)) else lane (e.getV v) j
    (e.guardOn g = true → ScratchOk s k e a n n false → exec (.ld g sz d m) s = .next (s.setExec k (e.setG d (
      match sz with
      | .i8 => (BitVec.ofNat 8 x).signExtend 64
      | .i16 => (BitVec.ofNat 16 x).signExtend 64
      | .i32 => (BitVec.ofNat 32 x).signExtend 64
      | _ => BitVec.ofNat 64 x)).advance)) ∧
    (e.guardOn g = true → a % n ≠ 0 → exec (.ld g sz d m) s = .next (s.raise k e 0x12)) ∧
    (e.guardOn g = true → a % n = 0 → a + n ≤ 0xC4000 → ∀ i, (s.getCell (k / 256)).tileAt a = some i →
      (s.getCell (k / 256)).tileAt (a + n - 1) = some i →
      let t := (s.getCell (k / 256)).getTile i
      (t.state = .priv → t.ctx ≠ e.ctx → exec (.ld g sz d m) s = .next (s.raise k e 0x14)) ∧
      (t.state = .priv → t.ctx = e.ctx → t.owner ≠ some e.appo → exec (.ld g sz d m) s = .next (s.raise k e 0x17)) ∧
      (t.state = .matrix → t.ctx = e.ctx → exec (.ld g sz d m) s = .next (s.raise k e 0x17))) ∧
    (lanes (.vld g v m) fun j => e.ea m + BitVec.ofNat 64 (4 * j)) ∧
    ((e.getG c).toNat % 4 = 0 → lanes (.vlds g v m c) fun j => e.ea m + BitVec.ofNat 64 j * e.getG c) ∧
    (lanes (.vgath g v w) fun j =>
      e.getG w.base + ((lane (e.getV w.idx) j).setWidth 64 <<< w.scale.toNat) + w.off.signExtend 64) ∧
    ((e.getG c).toNat % 4 ≠ 0 → (∃ j, j < 64 ∧ on j = true) →
      exec (.vlds g v m c) s = .next (s.raise k e 0x12) ∧ exec (.vsts g v m c) s = .next (s.raise k e 0x12))

/-- ST stores the low bytes of its register, little-endian, and VST, VSTS and VSCAT the true lanes in ascending order:
where addresses meet, the last lane stands. No other byte of any scratchpad changes. Where the check of a true lane
fails, the member faults and nothing is stored (R275, R296, R298). -/
def Obligations.ScratchStores : Prop :=
  ∀ (g : Guard) (sz : StSize) (d : GReg) (v : VReg) (m : Mem) (w : VMem) (c : GReg) (s : State) (k : Nat) (e : Exec),
    s.live = some (k, e) →
    let mem := (s.getCell (k / 256)).scratch
    let n := stBytes sz
    let a := (e.ea m).toNat
    let on (i : Nat) : Bool := e.guardLane g i
    let lanes (i : Instr) (addr : Nat → Word) : Prop :=
      ((∀ j, j < 64 → on j = true → ScratchOk s k e (addr j).toNat 4 4 true) → ∃ t,
        exec i s = .next t ∧ t.getExec k = some e.advance ∧ OwnCell s t k ∧
        (∀ j, j < 64 → on j = true → (∀ i, j < i → i < 64 → on i = true → addr i ≠ addr j) →
          leNat ((t.getCell (k / 256)).scratch.readBytes (addr j).toNat 4) = (lane (e.getV v) j).toNat) ∧
        ∀ b, (∀ j, j < 64 → on j = true → b < (addr j).toNat ∨ (addr j).toNat + 4 ≤ b) →
          (t.getCell (k / 256)).scratch.read b = mem.read b) ∧
      ((∃ j, j < 64 ∧ on j = true ∧ ¬ScratchOk s k e (addr j).toNat 4 4 true) →
        ∃ c, (c = 0x12 ∨ c = 0x14 ∨ c = 0x17) ∧ exec i s = .next (s.raise k e c))
    (e.guardOn g = true → ScratchOk s k e a n n true → ∃ t, exec (.st g sz d m) s = .next t ∧
      t.getExec k = some e.advance ∧ OwnCell s t k ∧
      leNat ((t.getCell (k / 256)).scratch.readBytes a n) = (e.getG d).toNat % 2 ^ (8 * n) ∧
      ∀ b, b < a ∨ a + n ≤ b → (t.getCell (k / 256)).scratch.read b = mem.read b) ∧
    (e.guardOn g = true → ¬ScratchOk s k e a n n true →
      ∃ c, (c = 0x12 ∨ c = 0x14 ∨ c = 0x17) ∧ exec (.st g sz d m) s = .next (s.raise k e c)) ∧
    (e.guardOn g = true → a % n ≠ 0 → exec (.st g sz d m) s = .next (s.raise k e 0x12)) ∧
    (lanes (.vst g v m) fun j => e.ea m + BitVec.ofNat 64 (4 * j)) ∧
    ((e.getG c).toNat % 4 = 0 → lanes (.vsts g v m c) fun j => e.ea m + BitVec.ofNat 64 j * e.getG c) ∧
    (lanes (.vscat g v w) fun j =>
      e.getG w.base + ((lane (e.getV w.idx) j).setWidth 64 <<< w.scale.toNat) + w.off.signExtend 64)

/-! ### The heap -/

/-- LDH of a word that its redex holds delivers it at once, and so, over bridges that carry traffic, does that of a
word that is present; of an absent word, the member parks on it. STH holds the word until the commit, and faults
HEAPDUP where it is present or already held; memory is written by neither (R133, R300 to R302, R318, R384). A full
table's deferred read tries again; a word of the heap of a context that RETIRE has made FREE, which the host scrubs,
is absent, and no other is scrubbed (R100, R300). -/
def Obligations.HeapAccess : Prop :=
  ∀ (g : Guard) (d : GReg) (m : Mem) (s : State) (k : Nat) (e : Exec) (r : Redex) (p : Trans), Issues g s k e →
    s.getRedex e.ctx e.appo = some r →
    let va := e.ea m
    let pa := Pte.addr p.pte + va.toNat % p.size
    let full := s.loadWord (pa / 8 * 8)
    let reach : Prop := s.joined (k / 256 / 512) (homeSlice s pa / 256) = true
    let mine (h : Nat × Held) : Prop := h.1 = va.toNat / 8 ∨ ∃ a, h.2.pa = some a ∧ a / 8 = pa / 8
    let free : Prop := ∀ h ∈ r.held, ¬mine h
    let half (x : Word) : Word := if va.toNat / 4 % 2 = 1 then x >>> 32 else x &&& 0xFFFFFFFF
    (Mapped s k e va .heap false p → va.toNat % 8 = 0 → ∀ h ∈ r.held, mine h → (∀ x ∈ r.held, mine x → x = h) →
      ∃ t, exec (.ldh g .w64 d m) s = .next t ∧ t.getExec k = some (e.setG d h.2.val).advance ∧ OnlyMember s t k) ∧
    (Mapped s k e va .heap false p → free → reach → s.present pa = true →
      (va.toNat % 8 = 0 → ∃ t, exec (.ldh g .w64 d m) s = .next t ∧ t.getExec k = some (e.setG d full).advance ∧
        OnlyMember s t k) ∧
      (va.toNat % 4 = 0 → ∃ t, exec (.ldh g .w32 d m) s = .next t ∧ t.getExec k = some (e.setG d (half full)).advance ∧
        OnlyMember s t k)) ∧
    (Mapped s k e va .heap false p → va.toNat % 8 = 0 → free → reach → s.present pa = false → e.mq = [] →
      ∃ t f q, exec (.ldh g .w64 d m) s = .next t ∧ t.getExec k = some f ∧ f.wait = .presence pa q ∧
        f.pc = e.pc ∧ f.g = e.g ∧ t.mem = s.mem) ∧
    (Mapped s k e va .heap true p → va.toNat % 8 = 0 → s.present pa = false →
      free →
      ∃ t q, exec (.sth g d m) s = .next t ∧ t.getExec k = some e.advance ∧ t.mem = s.mem ∧
        t.getRedex e.ctx e.appo = some q ∧ q.state = r.state ∧ q.out = r.out ∧
        ∀ v, Tbl.find q.held v =
          if v = va.toNat / 8 then some ⟨e.getG d, some (pa / 8 * 8)⟩ else Tbl.find r.held v) ∧
    (Mapped s k e va .heap true p → va.toNat % 8 = 0 →
      (s.present pa = true ∨ ∃ h ∈ r.held, mine h) →
      exec (.sth g d m) s = .next ((s.tlbUse (k / 256) p).raise k e 0x13)) ∧
    (va.toNat % 8 ≠ 0 → exec (.sth g d m) s = .next (s.raise k e 0x10) ∧
      exec (.ldh g .w64 d m) s = .next (s.raise k e 0x10)) ∧
    (∀ (k' : Nat) (f : Exec) (a : Nat), s.arg.id = k' → s.getExec k' = some f → f.wait = .presence a true →
      s.present a = true → exec .deferralRetry s = .next (s.setExec k' { f with wait := .presence a false })) ∧
    ((s.getCtx s.arg.ctx).state ≠ .free ∨ (s.getCtx s.arg.ctx).retired = false → exec .heapScrub s = .next s) ∧
    ((s.getCtx s.arg.ctx).state = .free → (s.getCtx s.arg.ctx).retired = true →
      (∀ at' dir, s.access s.arg.ctx s.arg.id .heap false = .at at' dir → ∃ t, exec .heapScrub s = .next t ∧
        t.present at' = false ∧ t.execs = s.execs ∧ t.mem.hbm = s.mem.hbm ∧
        ∀ a, a / 8 ≠ at' / 8 → t.present a = s.present a) ∧
      ((∀ at' dir, s.access s.arg.ctx s.arg.id .heap false ≠ .at at' dir) → exec .heapScrub s = .next s))

/-- The access of a member that its TLBs do not translate starts a walk and waits for it; one to a 64 KiB region that a
walk of its context in its gallery is under way to is merged into that walk. The walk's end makes a leaf the most
recent translation, and every member that waits for it tries again; a malformed entry faults PAGE; a missing one parks
the member and opens an entry of the host fault queue, or merges into that of its region (R294, R373 to R378). -/
def Obligations.PageWalks : Prop :=
  ∀ (g : Guard) (d : GReg) (m : Mem) (s : State) (k : Nat) (e : Exec), Issues g s k e →
    let va := e.ea m
    let under := s.mem.walks.find? fun x =>
      x.cell / 512 == k / 256 / 512 && x.ctx == e.ctx && x.va.toNat / 2 ^ 16 == va.toNat / 2 ^ 16
    (va.toNat % 8 = 0 → va.toNat < 2 ^ 48 → s.tlbFind (k / 256) e.ctx va.toNat = none →
      (under = none → s.mem.walks.length < 2048) →
      ∃ t w, w.id = (match under with
        | some x => x.id
        | none => s.nextId) ∧
        exec (.ldh g .w64 d m) s = .next t ∧ t.mem.walks = s.mem.walks ++ [w] ∧ w.va = va ∧ w.ctx = e.ctx ∧
        w.write = false ∧ w.want = 0 ∧ t.getExec k = some { e with wait := .walk w.id, met := false }) ∧
    (va.toNat % 8 = 0 → 2 ^ 48 ≤ va.toNat → exec (.ldh g .w64 d m) s = .next (s.raise k e 0x15 (some va))) ∧
    (let mine := s.mem.walks.filter fun x => x.id == s.arg.id;
      (∀ x ∈ mine, ∃ tr, s.walkNow x.ctx x.va.toNat = .leaf tr) → ∃ t, exec .pageWalk s = .next t ∧
        t.mem.walks = (s.mem.walks.filter fun x => x.id != s.arg.id) ∧ ∀ x ∈ mine, ∀ f,
          s.getExec (256 * x.cell + x.entry) = some f →
            t.getExec (256 * x.cell + x.entry) = some { f with wait := .nothing }) ∧
    ∀ (w : Walk) (f : Exec), (s.mem.walks.filter fun x => x.id == s.arg.id) = [w] →
      s.getExec (256 * w.cell + w.entry) = some f →
      let key := 256 * w.cell + w.entry
      let rest := s.mem.walks.filter fun x => x.id != w.id
      (∀ tr, s.walkNow w.ctx w.va.toNat = .leaf tr → ∃ t, exec .pageWalk s = .next t ∧ t.mem.walks = rest ∧
        t.getExec key = some { f with wait := .nothing } ∧ (t.getCell w.cell).tlb.head? = some tr) ∧
      (s.walkNow w.ctx w.va.toNat = .malformed → exec .pageWalk s =
        .next (({ s with mem := { s.mem with walks := rest } }).raise key f 0x15 (some w.va))) ∧
      (s.walkNow w.ctx w.va.toNat = .missing → ∃ t u q, exec .pageWalk s = .next t ∧ t.mem.walks = rest ∧
        t.getExec key = some u ∧ u.wait = .page w.va w.write ∧ u.pc = f.pc ∧ u.g = f.g ∧
        q ∈ (t.getCtx w.ctx).fq ∧ q.region = w.va.toNat / 2 ^ 16 ∧
        q.kind &&& (if w.write then 2 else 1) ≠ 0 ∧
        ((∀ x ∈ (s.getCtx w.ctx).fq, x.region ≠ w.va.toNat / 2 ^ 16) →
          (t.getCtx w.ctx).fq = (s.getCtx w.ctx).fq ++ [q] ∧ q.seq = none ∧ q.count = 1 ∧ q.cell = w.cell) ∧
        ((∃ x ∈ (s.getCtx w.ctx).fq, x.region = w.va.toNat / 2 ^ 16) →
          (t.getCtx w.ctx).fq.length = (s.getCtx w.ctx).fq.length))

/-! ### System space -/

/-- LDS, STS, STS.MASK and every ATOM of a non-replayable operator, at an aligned address whose page serves it, set one
access out and complete; an acquiring order makes the next word wait for it. A replayable operator faults PAGE before
any translation. FENCE.acq makes the next word wait for the loads and ATOMs of the member that are under way; FENCE.rel
and FENCE.full complete with no other effect, and where their guard is true can issue only once no access of the member
is under way, and no firing of it into system space, host memory, or for scope fabric a remote part, nor a line that a
cancelled firing of it has sent to such a part (R294, R305 to R309, R320). -/
def Obligations.SystemIssue : Prop :=
  (∀ (g : Guard) (ord : OrdCode) (sc : Scope) (d c : GReg) (m : Mem) (s : State) (k : Nat) (e : Exec) (p : Trans),
      Issues g s k e →
      let va := e.ea m
      let pa := Pte.addr p.pte + va.toNat % p.size
      let x := e.getG c
      let sets (i : Instr) (wide write : Bool) (kind : AccKind) (data : Word) (dest : Option GReg) : Prop :=
        (s.opNR e.op = true → va.toNat % (if wide then 8 else 4) = 0 → Mapped s k e va .system write p →
          ∃ t a, exec i s = .next t ∧ t.mem.accs = s.mem.accs ++ [a] ∧ a.id = s.nextId ∧ a.kind = kind ∧ a.pa = pa ∧
            a.wide = wide ∧ a.data = data ∧ a.dest = dest ∧ a.ctx = e.ctx ∧ a.cell = k / 256 ∧ a.entry = k % 256 ∧
            a.accepted = none ∧ a.keep = BitVec.allOnes 64 ∧ t.getExec k = some ({ e with fence :=
              if ord = OrdCode.acquire ∨ ord = OrdCode.acqRel then s.nextId :: e.fence else e.fence }).advance ∧
            t.mem.hbm = s.mem.hbm ∧ t.mem.dirty = s.mem.dirty ∧ t.ctxs = s.ctxs ∧ t.nextId = s.nextId + 1) ∧
        (s.opNR e.op = false → va.toNat % (if wide then 8 else 4) = 0 →
          exec i s = .next (s.raise k e 0x15 (some va))) ∧
        (va.toNat % (if wide then 8 else 4) ≠ 0 → exec i s = .next (s.raise k e 0x10))
      sets (.lds g .w64 ord sc d m) true false .load 0 (some d) ∧
      sets (.lds g .w32 ord sc d m) false false .load 0 (some d) ∧
      sets (.sts g .w64 ord sc d m) true true .store (e.getG d) none ∧
      sets (.sts g .w32 ord sc d m) false true .store (e.getG d) none ∧
      sets (.stsMask g ord sc d m c) true true (.mask (x.setWidth 8)) (e.getG d) none ∧
      sets (.aadd g ord sc d m c) true true .aadd x (some d) ∧
      sets (.afadd g ord sc d m c) false true .afadd x (some d) ∧
      sets (.amin g ord sc d m c) true true .amin x (some d) ∧
      sets (.amax g ord sc d m c) true true .amax x (some d) ∧
      sets (.aand g ord sc d m c) true true .aand x (some d) ∧
      sets (.aor g ord sc d m c) true true .aor x (some d) ∧
      sets (.axchg g ord sc d m c) true true .axchg x (some d) ∧
      sets (.acas g ord sc d m c) true true (.acas (e.getG d)) x (some d)) ∧
  (∀ (g : Guard) (sc : Scope) (s : State),
      (Runs g (.fenceAcq g sc) s fun k e => s.setExec k { e with fence :=
        ((s.mem.accs.filter fun (a : Access) => a.cell = k / 256 && a.entry = k % 256 && a.kind.returns).map Access.id) ++
          e.fence }.advance) ∧
      (Writes g (.fenceRel g sc) s fun e => e) ∧
      (Writes g (.fenceFull g sc) s fun e => e) ∧
      ∀ (k : Nat) (e : Exec) (i : Instr), e.guardOn g = true → s.canIssue k e i = true →
        (∀ id ∈ e.fence, ∀ a ∈ s.mem.accs, a.cell = k / 256 → a.entry = k % 256 → a.id ≠ id) ∧
        (i = .fenceRel g sc ∨ i = .fenceFull g sc →
          (∀ a ∈ s.mem.accs, ¬(a.cell = k / 256 ∧ a.entry = k % 256)) ∧
          ∀ t f, t < 8 → (s.getTmpl (k / 256) t).owner = some (e.ctx, e.appo) →
            (s.getTmpl (k / 256) t).firing = some f →
            field f.dst 63 60 ≠ 1 ∧ field f.dst 63 60 ≠ 4 ∧ (sc = .fabric → field f.dst 63 60 ≠ 6)) ∧
        (i = .fenceRel g .fabric ∨ i = .fenceFull g .fabric → ∀ x ∈ s.fab.sent,
          ¬(x.firing ≠ 0 ∧ x.ctx = e.ctx ∧ x.cell = k / 256 ∧ x.appo = e.appo)))

/-- An access is accepted in the order of its word: it reads the old word, or the old half of a 32-bit form, and a store
or an ATOM writes the new one; the old word returns at once where the line is held, and otherwise when the line is
filled; a fill changes no byte, also where another line leaves its slice for it. An access crosses bridges that carry
traffic (R384). What the host stores is accepted byte by byte at any physical address, keeps the words of the heap
that are present and changes no presence (DEDUCED, log 45) (R15, R304 to R307, R310, R350). -/
def Obligations.SystemOrder : Prop :=
  ∀ (s : State), MemoryInv s →
    (∀ (a : Access), s.mem.accs.find? (fun x => x.id == s.arg.id) = some a → a.accepted = none → a.direct = false →
      s.arg.bad = false → s.joined (a.cell / 512) (homeSlice s a.pa / 256) = true →
      s.mem.accs.find? (fun x => x.cell == a.cell && x.entry == a.entry && x.pa / 8 == a.pa / 8 && x.accepted.isNone) =
        some a → a.pa + 8 ≤ 2 ^ 40 → a.pa % 8 = 0 → a.wide = true →
      let old := s.loadWord a.pa
      let new : Word := match a.kind with
        | .load => old
        | .store | .axchg => a.data
        | .mask b => (List.range 8).foldl (fun w i =>
            if b.getLsbD i then w ||| (a.data &&& (0xFF <<< (8 * i))) else w ||| (old &&& (0xFF <<< (8 * i)))) 0
        | .aadd => old + a.data
        | .amin => if a.data.slt old then a.data else old
        | .amax => if old.slt a.data then a.data else old
        | .aand => old &&& a.data
        | .aor => old ||| a.data
        | .acas x => if old = x then a.data else old
        | .afadd => (f32AddRne (old.setWidth 32) (a.data.setWidth 32)).setWidth 64
      ∃ t, exec .accessAccepted s = .next t ∧ t.loadWord a.pa = new ∧ t.mem.hbm = s.mem.hbm ∧
        (∀ b, b < 2 ^ 40 → b < a.pa ∨ a.pa + 8 ≤ b → t.loadByte b = s.loadByte b) ∧
        (a.kind = .store → ∀ x ∈ t.mem.accs, x.id ≠ a.id) ∧
        (a.kind ≠ .store → (∀ b, a.kind ≠ .mask b) → Tbl.get false s.mem.lines (lineKey s a.pa) = true →
          ∀ d f, a.dest = some d → a.entry < 256 → s.getExec (256 * a.cell + a.entry) = some f →
            t.getExec (256 * a.cell + a.entry) = some (f.setG d (old &&& a.keep))) ∧
        (a.kind ≠ .store → (∀ b, a.kind ≠ .mask b) → Tbl.get false s.mem.lines (lineKey s a.pa) = false →
          t.execs = s.execs ∧ lineKey s a.pa ∈ t.mem.fills ∧
          ∃ x ∈ t.mem.accs, x.id = a.id ∧ x.accepted = some old ∧ x.line = lineKey s a.pa)) ∧
    (∀ (a : Access), s.mem.accs.find? (fun x => x.id == s.arg.id) = some a → a.accepted = none → a.direct = false →
      s.arg.bad = false → s.joined (a.cell / 512) (homeSlice s a.pa / 256) = true →
      s.mem.accs.find? (fun x => x.cell == a.cell && x.entry == a.entry && x.pa / 8 == a.pa / 8 && x.accepted.isNone) =
        some a → a.pa + 4 ≤ 2 ^ 40 → a.pa % 4 = 0 → a.wide = false →
      a.kind = .load ∨ a.kind = .store ∨ a.kind = .afadd →
      let old := BitVec.ofNat 64 (leNat (s.loadBytes a.pa 4))
      let new : Lane := if a.kind = .store then a.data.setWidth 32
        else if a.kind = .afadd then f32AddRne (old.setWidth 32) (a.data.setWidth 32) else old.setWidth 32
      ∃ t, exec .accessAccepted s = .next t ∧ leNat (t.loadBytes a.pa 4) = new.toNat ∧ t.mem.hbm = s.mem.hbm ∧
        (∀ b, b < 2 ^ 40 → b < a.pa ∨ a.pa + 4 ≤ b → t.loadByte b = s.loadByte b) ∧
        (a.kind = .store → ∀ x ∈ t.mem.accs, x.id ≠ a.id) ∧
        (a.kind ≠ .store → Tbl.get false s.mem.lines (lineKey s a.pa) = true →
          ∀ d f, a.dest = some d → a.entry < 256 → s.getExec (256 * a.cell + a.entry) = some f →
            t.getExec (256 * a.cell + a.entry) = some (f.setG d (old &&& a.keep))) ∧
        (a.kind ≠ .store → Tbl.get false s.mem.lines (lineKey s a.pa) = false →
          t.execs = s.execs ∧ lineKey s a.pa ∈ t.mem.fills ∧
          ∃ x ∈ t.mem.accs, x.id = a.id ∧ x.accepted = some old ∧ x.line = lineKey s a.pa)) ∧
    (∀ (a : Access) (v : Word) (d : GReg) (f : Exec), s.arg.id ∈ s.mem.fills → s.mem.accs = [a] →
      a.line = s.arg.id → a.accepted = some v → a.dest = some d → a.entry < 256 →
      s.getExec (256 * a.cell + a.entry) = some f → s.joined (a.cell / 512) (homeSlice s a.pa / 256) = true →
      ∃ t, exec .lineFill s = .next t ∧ t.mem.accs = [] ∧ Tbl.get false t.mem.lines s.arg.id = true ∧
        s.arg.id ∉ t.mem.fills ∧
        t.getExec (256 * a.cell + a.entry) = some (f.setG d (v &&& a.keep))) ∧
    (∃ t, exec .lineFill s = .next t ∧ ∀ b, b < 2 ^ 40 → t.loadByte b = s.loadByte b) ∧
    (s.arg.id + s.arg.bytes.length ≤ 2 ^ 40 → ∃ t, exec .hostStore s = .next t ∧
      (∀ i, i < s.arg.bytes.length → t.loadByte (s.arg.id + i) =
        if s.present (s.arg.id + i) = true then s.loadByte (s.arg.id + i) else s.arg.bytes.getD i 0) ∧
      (∀ b, b < 2 ^ 40 → b < s.arg.id ∨ s.arg.id + s.arg.bytes.length ≤ b → t.loadByte b = s.loadByte b) ∧
      t.execs = s.execs ∧ t.ctxs = s.ctxs ∧ t.mem.present = s.mem.present)

/-! ### Tiles and the copy engine -/

/-- TALLOC takes the lowest free entry and the lowest run of free chunks, writes the header and zeros; TFREE frees a
tile of its member or a shared one, or leaves it to the reads and pins that hold it, and an entry that they hold is free
to no word (R274); TSEAL gives it an address of the arena at once and holds its bytes, or faults HEAPDUP at issue where a word is present
or held already (DEDUCED, log 85); THDR, TSETH, TPRES and TDESC read and write what they name, without the reserved
fields of a header (R272 to R280; DEDUCED, log 76). -/
def Obligations.Tiles : Prop :=
  ∀ (g : Guard) (fmt : Fmt) (d a b x : GReg) (s : State) (k : Nat) (e : Exec), Issues g s k e →
    let c := s.getCell (k / 256)
    let n := fmtChunks fmt
    let i := (e.getG a).toNat % 256
    let t := c.getTile i
    let mem := c.scratch
    let mine : Prop := t.ctx = e.ctx ∧ t.state = .priv ∧ t.owner = some e.appo
    let shared : Prop := t.ctx = e.ctx ∧ t.state = .shared
    let header (r : GReg) : Nat := 512 * t.base + 8 * ((e.getG r).toNat % 64)
    let keep (n : Nat) : Word := if n = 0 then 0x7FF0F7F7F1F else if n = 1 then 0xFFFF else if n < 8 then 0
      else if n < 56 then BitVec.allOnes 64 else 0xBFBFBFBFBFBFBFBF
    (∀ j w, j < 256 → (c.getTile j).state = .free → (∀ l, l < j → (c.getTile l).state ≠ .free) →
      w + n ≤ 1568 → (∀ y, y < n → c.chunkFree (w + y) = true) →
      (∀ v, v < w → ∃ y, y < n ∧ c.chunkFree (v + y) = false) →
      ∃ u, exec (.talloc g fmt d) s = .next u ∧ u.getExec k = some (e.setG d (BitVec.ofNat 64 j)).advance ∧
        OwnCell s u k ∧
        (u.getCell (k / 256)).getTile j =
          { base := w, count := n, fmt := fmt, ctx := e.ctx, state := .priv, owner := some e.appo, ownx := k % 256 } ∧
        (∀ l, l ≠ j → (u.getCell (k / 256)).getTile l = c.getTile l) ∧
        leNat ((u.getCell (k / 256)).scratch.readBytes (512 * w) 8) =
          fmt.planes * 2 ^ 24 + 64 * 2 ^ 16 + 64 * 2 ^ 8 + fmt.code.toNat ∧
        (∀ y, 512 * w + 8 ≤ y → y < 512 * (w + n) → (u.getCell (k / 256)).scratch.read y = 0) ∧
        ∀ y, y < 512 * w ∨ 512 * (w + n) ≤ y → (u.getCell (k / 256)).scratch.read y = mem.read y) ∧
    ((∀ j, j < 256 → (c.getTile j).state ≠ .free) → exec (.talloc g fmt d) s = .next (s.raise k e 0x12)) ∧
    (mine ∨ shared → ∃ u, exec (.tfree g a) s = .next u ∧ u.getExec k = some e.advance ∧ OwnCell s u k ∧
      (t.pin = false → t.reads = 0 → (u.getCell (k / 256)).getTile i = {}) ∧
      (t.pin = true ∨ t.reads ≠ 0 → ((u.getCell (k / 256)).getTile i).state = .pendfree ∧
        ((u.getCell (k / 256)).getTile i).bitmap = 0) ∧
      ∀ l, l ≠ i → (u.getCell (k / 256)).getTile l = c.getTile l) ∧
    (t.state = .pendfree → exec (.ownq g d a) s = .next (s.raise k e 0x12) ∧
      exec (.tfree g a) s = .next (s.raise k e 0x12) ∧ exec (.tpres g d a) s = .next (s.raise k e 0x12)) ∧
    (mine ∨ shared → exec (.thdr g d a b) s =
      .next (s.setExec k (e.setG d
        (BitVec.ofNat 64 (leNat (mem.readBytes (header b) 8)) &&& keep ((e.getG b).toNat % 64))).advance)) ∧
    (mine → ∃ u, exec (.tseth g a b x) s = .next u ∧ u.getExec k = some e.advance ∧ OwnCell s u k ∧
      leNat ((u.getCell (k / 256)).scratch.readBytes (header b) 8) =
        (e.getG x &&& keep ((e.getG b).toNat % 64)).toNat ∧
      ∀ y, y < header b ∨ header b + 8 ≤ y → (u.getCell (k / 256)).scratch.read y = mem.read y) ∧
    (t.state ≠ .free → t.state ≠ .pendfree → t.ctx = e.ctx →
      exec (.tpres g d a) s = .next (s.setExec k (e.setG d t.bitmap).advance) ∧
      exec (.tdesc g d a) s = .next (s.setExec k
        ((e.setG d (BitVec.ofNat 64 (rowPitch t.fmt * 2 ^ 24 + 512 * (t.base + 1)))).setG (d + 1)
          (BitVec.ofNat 64 (if t.fmt.isBpi then 512 else 512 * (t.count - 1)))).advance)) ∧
    (∀ (p q : Trans) (r : Redex), e.arena = none → (mine ∨ shared) → s.getRedex e.ctx e.appo = some r →
      let va := ((s.getCtx e.ctx).regs.arena.toNat + 511) / 512 * 512
      let bytes := 512 * t.count
      va + bytes ≤ 2 ^ 40 →
      Mapped s k e (BitVec.ofNat 64 va) .heap true p →
      Mapped (s.tlbUse (k / 256) p) k e (BitVec.ofNat 64 (va + bytes - 512)) .heap true q →
      let pa (o : Nat) : Nat := if (va + o) / 65536 = va / 65536 then Pte.addr p.pte + va % p.size + o
        else Pte.addr q.pte + (va + bytes - 512) % q.size + (va + o) - (va + bytes - 512)
      let taken (j : Nat) : Prop := s.present (pa (8 * j)) = true ∨
        s.holds e.ctx e.appo (va + 8 * j) (pa (8 * j)) = true
      ((∃ j, j < bytes / 8 ∧ taken j) → ∃ u : State, exec (.tseal g d a) s = .next (u.raise k e 0x13) ∧ u.mem = s.mem ∧
        u.execs = s.execs) ∧
      ((∀ j, j < bytes / 8 → ¬taken j) → ∃ u f, exec (.tseal g d a) s = .next u ∧ u.getRedex e.ctx e.appo = some f ∧
        u.getExec k = some (e.setG d (BitVec.ofNat 64 (3 * 2 ^ 60 + e.ctx.val * 2 ^ 58 +
          (t.fmt.code.toNat * 2 ^ 53 + 2 ^ 52 + va / 512 % 2 ^ 31) % 2 ^ 58))).advance ∧
        (u.getCtx e.ctx).regs.arena = BitVec.ofNat 64 (va + bytes) ∧ u.mem = s.mem ∧
        (∀ j, j < bytes / 8 → ∃ h, Tbl.find f.held (va / 8 + j) = some h ∧
          h.val = BitVec.ofNat 64 (leNat (mem.readBytes (512 * t.base + 8 * j) 8)) ∧ h.pa = some (pa (8 * j))) ∧
        (mine → ((u.getCell (k / 256)).getTile i).state = .copy ∧ ((u.getCell (k / 256)).getTile i).sealing = true) ∧
        (shared → (u.getCell (k / 256)).getTile i = t))) ∧
    (∀ j, s.arg.id = j →
      let y := (s.getCell s.arg.cell.val).getTile j
      y.sealing = true → ∃ u, exec .tsealReadDone s = .next u ∧ u.execs = s.execs ∧
        (u.getCell s.arg.cell.val).getTile j = if y.state = .copy then { y with state := .priv, working := false, sealing := false }
          else { y with sealing := false })

/-- GIVE hands a tile of its member to an engine, and RECL takes it back once the engine's work on it has ended,
parking until then; OWNQ tells who holds it. The end of an engine's work is told to the member that gave the tile
(R274, R275, R281). -/
def Obligations.TileOwnership : Prop :=
  ∀ (g : Guard) (eng : Engine) (d a : GReg) (s : State) (k : Nat) (e : Exec), Issues g s k e →
    let c := s.getCell (k / 256)
    let i := (e.getG a).toNat % 256
    let t := c.getTile i
    let owned : TileState := match eng with
      | .copy => .copy
      | .matrix => .matrix
      | .route => .route
    let code : Nat := match t.state with
      | .free => 0 | .priv => 1 | .shared => 2 | .copy => 3 | .matrix => 4 | .route => 5 | .pendfree => 0
    let becomes (i' : Instr) (st : TileState) : Prop := ∃ u, exec i' s = .next u ∧ u.getExec k = some e.advance ∧
      OwnCell s u k ∧ (u.getCell (k / 256)).getTile i = { t with state := st } ∧
      (∀ l, l ≠ i → (u.getCell (k / 256)).getTile l = c.getTile l) ∧ (u.getCell (k / 256)).scratch = c.scratch
    (t.ctx = e.ctx → t.owner = some e.appo → t.state = .priv ∨ (t.state = .copy ∧ eng ≠ .copy) →
      becomes (.give g eng a) owned) ∧
    (t.ctx = e.ctx → t.state = .shared → exec (.give g eng a) s = .next (s.raise k e 0x17)) ∧
    (t.ctx = e.ctx → t.owner = some e.appo → t.state = .priv →
      exec (.recl g eng a) s = .next (s.setExec k e.advance)) ∧
    (t.ctx = e.ctx → t.owner = some e.appo → t.state = owned →
      (t.working = false → s.engineWork (k / 256) i eng = false → becomes (.recl g eng a) .priv) ∧
      (t.working = true ∨ s.engineWork (k / 256) i eng = true → e.mq = [] →
        ∃ u f, exec (.recl g eng a) s = .next u ∧ u.getExec k = some f ∧ f.wait = .engine i eng ∧ f.pc = e.pc ∧
          f.g = e.g)) ∧
    (t.state = .free → exec (.ownq g d a) s = .next (s.setExec k (e.setG d 0).advance)) ∧
    (t.state ≠ .free → t.state ≠ .pendfree → t.ctx ≠ e.ctx → exec (.ownq g d a) s = .next (s.raise k e 0x14)) ∧
    (t.state ≠ .free → t.state ≠ .pendfree → t.ctx = e.ctx → ∃ w : Word,
      exec (.ownq g d a) s = .next (s.setExec k (e.setG d w).advance) ∧ field w 2 0 = code ∧
      w.getLsbD 8 = (s.engineWork (k / 256) i .copy || s.engineWork (k / 256) i .matrix ||
        s.engineWork (k / 256) i .route) ∧
      w.getLsbD 9 = t.pin ∧ (w.getLsbD 10 = true ↔ t.owner = some e.appo) ∧ w >>> 11 = 0 ∧ field w 7 3 = 0) ∧
    (∀ (j : Nat) (x : Exec), j = s.arg.id → s.arg.cell.val = k / 256 → (c.getTile j).state = owned →
      (c.getTile j).working = true → s.engineWork (k / 256) j eng = false → (c.getTile j).owner = some x.appo →
      s.execs.find? (fun p => p.1 / 256 = k / 256 && p.2.ctx = (c.getTile j).ctx && p.2.appo == x.appo) = some (k, x) →
      ∃ u, exec .engineWorkEnd s = .next u ∧ (u.getCell (k / 256)).getTile j = { c.getTile j with working := false } ∧
        u.getExec k = some { x with events := x.events ||| 0x20 })

/-- CPARM sets up a free template, or its own while no firing of it is in flight; CPFIRE starts a firing that its
checks allow: numbered, the bits of the destination's chunks cleared, the source being read; CPTEST and CPWAIT look for
the chunks of a mask; CPCAN disarms and CPCHAIN ties a template to another, whoever armed it (DEDUCED, log 23), and one
of mask 0 removes the chain alone. CPCAN leaves no word of its firing on the way, having completed a chunk that stood in
part (DEDUCED, log 93). A chunk of a firing that lands in a tile of the cell, read from a tile of the cell as its bytes
stand then, as far as it goes, or from galleries that its cell reaches (R384), writes 512 bytes there and sets its bit; a firing whose
chunks have all landed ends, counted and told to its member (R283 to R289). -/
def Obligations.CopyEngine : Prop :=
  ∀ (g : Guard) (t t' : TmplId) (q : QReg) (a b c : GReg) (s : State) (k : Nat) (e : Exec), s.live = some (k, e) →
    e.guardOn g = true →
    let x := s.getTmpl (k / 256) t.toNat
    let mine := x.owner = some (e.ctx, e.appo)
    let i := (e.getG a).toNat % 256
    let tile := (s.getCell (k / 256)).getTile i
    let mask := e.getG b
    let here : Prop := tile.ctx = e.ctx ∧ tile.state ≠ .free ∧ tile.state ≠ .pendfree ∧ mask.toNat < 2 ^ tile.count
    let covered : Bool := tile.bitmap &&& mask == mask
    let sets (j : Instr) (y : Tmpl) : Prop := ∃ u, exec j s = .next u ∧ u.getExec k = some e.advance ∧
      u.getTmpl (k / 256) t.toNat = y ∧ (∀ n, n ≠ t.toNat → u.getTmpl (k / 256) n = s.getTmpl (k / 256) n) ∧
      u.ctxs = s.ctxs ∧ u.mem.hbm = s.mem.hbm ∧ u.mem.dirty = s.mem.dirty
    (x.owner = none ∨ mine → x.firing = none → sets (.cparm g t a b c)
      { x with owner := some (e.ctx, e.appo), src := e.getG a, dst := e.getG b, shape := e.getG c }) ∧
    (x.owner ≠ none → ¬mine → e.mq = [] → ∃ u f, exec (.cparm g t a b c) s = .next u ∧ u.getExec k = some f ∧
      f.wait = .template t ∧ f.pc = e.pc) ∧
    (¬mine → exec (.cpfire g t) s = .next (s.raise k e 0x10)) ∧
    (mine → x.firing = none → s.fireCheck k e x.src x.dst x.shape = none → ∃ u f,
      exec (.cpfire g t) s = .next u ∧ u.getExec k = some e.advance ∧ (u.getTmpl (k / 256) t.toNat).firing = some f ∧
      (u.getTmpl (k / 256) t.toNat).num = x.num + 1 ∧ f.num = x.num + 1 ∧ f.src = x.src ∧ f.dst = x.dst ∧
      f.first = field x.shape 47 40 ∧ f.landed = 0 ∧ f.pc = e.pc ∧ u.mem = s.mem ∧ u.ctxs = s.ctxs ∧
      (field x.shape 39 32 ≠ 0 → f.last = f.first + field x.shape 39 32 - 1) ∧
      ∀ j, field x.dst 63 60 = 0 → field x.src 63 60 ≠ 0 → field x.src 63 60 ≠ 3 → j = field x.dst 7 0 →
        ∀ n, n < 64 → ((u.getCell (k / 256)).getTile j).bitmap.getLsbD n =
          (((s.getCell (k / 256)).getTile j).bitmap.getLsbD n && !(f.first ≤ n && n ≤ f.last))) ∧
    (mine → x.firing = none → s.fireCheck k e x.src x.dst x.shape = none → field x.src 63 60 = 0 → ∃ u,
      exec (.cpfire g t) s = .next u ∧
      let y := (u.getCell (k / 256)).getTile (field x.src 7 0)
      let z := (s.getCell (k / 256)).getTile (field x.src 7 0)
      y.reads = z.reads + 1 ∧ y.state = z.state ∧ y.base = z.base ∧ y.count = z.count ∧ y.owner = z.owner ∧
        (z.state = .copy → y.working = true)) ∧
    (here → exec (.cptest g q a b) s = .next (s.setExec k
      (e.setQ q (if covered then BitVec.allOnes 64 else 0)).advance)) ∧
    (here → e.met = false → covered = true → exec (.cpwait g a b) s = .next (s.setExec k e.advance)) ∧
    (here → e.met = false → covered = false → e.mq = [] → ∃ u f, exec (.cpwait g a b) s = .next u ∧
      u.getExec k = some f ∧ f.wait = .chunks i mask ∧ f.pc = e.pc ∧ f.g = e.g) ∧
    (mine → (∀ w ∈ s.mem.copyOut, ¬(w.cell = k / 256 ∧ w.tmpl = t.toNat)) → sets (.cpcan g t) { num := x.num }) ∧
    (mine → ∃ u, exec (.cpcan g t) s = .next u ∧ u.getExec k = some e.advance ∧
      u.getTmpl (k / 256) t.toNat = { num := x.num } ∧ u.ctxs = s.ctxs ∧
      (∀ n, n ≠ t.toNat → u.getTmpl (k / 256) n = s.getTmpl (k / 256) n) ∧
      ∀ f w, x.firing = some f → w ∈ u.mem.copyOut → ¬(w.cell = k / 256 ∧ w.tmpl = t.toNat ∧ w.num = f.num)) ∧
    (¬mine → exec (.cpcan g t) s = .next (s.setExec k e.advance)) ∧
    (mask = 0 → sets (.cpchain g t t' b) { x with chain := none }) ∧
    (mask ≠ 0 → sets (.cpchain g t t' b)
      { x with chain := some ⟨t', mask, e.pc, e.iter, (e.ctx, e.appo)⟩ }) ∧
    (∀ (f : Firing) (n : Nat) (bs : List Byte), x.firing = some f → mine → t = s.arg.tmpl → n = s.arg.id →
      k / 256 = s.arg.cell.val → s.tmplOwner (k / 256) x = some (k, e) → f.first ≤ n → n ≤ f.last → n < 64 →
      f.landed.getLsbD n = false → f.stalled = [] → field f.dst 63 60 = 0 → s.arg.bad = false → s.arg.idx = 0 →
      s.arg.val = 0 → Tbl.get [] f.got n = [] → s.chunkOut (k / 256) t.toNat f.num n = [] →
      s.epJoined e.ctx (k / 256) f.src f.first n = true →
      s.readChunk (k / 256) e f n = .bytes bs → bs.length = 512 →
      (∀ j, j < 8 → (s.getTmpl (k / 256) j).chain = none) →
      let j := field f.dst 7 0
      let base := 512 * (((s.getCell (k / 256)).getTile j).base + n)
      (field f.src 63 60 = 0 → n < ((s.getCell (k / 256)).getTile (field f.src 7 0)).count →
        bs = (s.getCell (k / 256)).scratch.readBytes
        (512 * (((s.getCell (k / 256)).getTile (field f.src 7 0)).base + n)) 512) ∧
      ∃ u, exec .copyChunkLand s = .next u ∧ (u.getCell (k / 256)).scratch.readBytes base 512 = bs ∧
        ((u.getCell (k / 256)).getTile j).bitmap =
          ((s.getCell (k / 256)).getTile j).bitmap ||| BitVec.ofNat 64 (2 ^ n) ∧
        (∃ f', (u.getTmpl (k / 256) t.toNat).firing = some f' ∧ f'.landed = f.landed ||| BitVec.ofNat 64 (2 ^ n)) ∧
        (∀ y, y < base ∨ base + 512 ≤ y →
          (u.getCell (k / 256)).scratch.read y = (s.getCell (k / 256)).scratch.read y) ∧ u.mem = s.mem) ∧
    (∀ (f : Firing), x.firing = some f → mine → t = s.arg.tmpl → k / 256 = s.arg.cell.val →
      s.tmplOwner (k / 256) x = some (k, e) → (∀ n, f.first ≤ n → n ≤ f.last → n < 64 → f.landed.getLsbD n = true) →
      f.first ≤ f.last → f.last < 64 → f.unacked = [] → x.pending = [] →
      (∀ j, j < 8 → (s.getTmpl (k / 256) j).chain = none) → e.cpEnds.toNat + 1 < 2 ^ 32 →
      ∃ u, exec .copyFiringEnd s = .next u ∧ (u.getTmpl (k / 256) t.toNat).firing = none ∧
        u.getExec k = some { e with cpEnds := e.cpEnds + 1, events := e.events ||| 1 })

/-! ### The tree -/

/-- A span collective joins with its vector and its register, whatever matrix work is queued, and waits in its
instruction until every member has joined; then, over bridges that carry traffic (R384), each member's register takes
what the collective delivers: TBCAST the vector of rank gB, TRED at rank gB and TALL everywhere the combination of all,
TSCAN that of the ranks up to its own; the word completes. The combination of i32 under ADD is the sum modulo 2^32.
TMCAST and TROW send to members that have not halted, and TRECV takes the oldest message (R166 to R172). -/
def Obligations.Collectives : Prop :=
  ∀ (g : Guard) (op : RedOp) (ty : Ty) (chk : Bool) (d a : VReg) (b : GReg) (s : State) (k : Nat) (e : Exec) (r : Redex),
    Issues g s k e → s.getRedex e.ctx e.appo = some r →
    let w := r.last + 1 - r.first
    let vec := e.getV a
    let joins (i : Instr) (gb : Word) : Prop := e.met = false → gb.toNat < w → r.halts = [] →
      s.findColl e.ctx e.appo e.spans false = none →
      ∃ u f, exec i s = .next u ∧ u.getExec k = some f ∧ f.wait = .collective false e.spans ∧ f.spans = e.spans + 1 ∧
        f.pc = e.pc ∧ f.v = e.v ∧ f.mq = e.mq ∧ f.status = e.status ∧ u.mem = s.mem ∧
        u.findColl e.ctx e.appo e.spans false =
          some { appo := e.appo, count := e.spans, mmag := false
                 joins := [{ rank := e.rank, word := i, vec := vec, gb := gb }] }
    let ends (i : Instr) : Prop := e.met = true → exec i s = .next (s.setExec k { e.advance with met := false })
    let num (v : Vec) (j : Nat) : BitVec 32 := lane v j
    (joins (.tbcast g ty d a b) (e.getG b)) ∧ (ends (.tbcast g ty d a b)) ∧
    (joins (.tred g op ty chk d a b) (e.getG b)) ∧ (ends (.tred g op ty chk d a b)) ∧
    (joins (.tscan g op ty d a) 0) ∧ (ends (.tscan g op ty d a)) ∧
    (joins (.tall g op ty d a) 0) ∧ (ends (.tall g op ty d a)) ∧
    (e.met = false → w ≤ (e.getG b).toNat → exec (.tbcast g ty d a b) s = .next (s.raise k e 0x14) ∧
      exec (.tred g op ty chk d a b) s = .next (s.raise k e 0x14)) ∧
    (∀ (x : Coll) (j : Join) (n : Nat) (f : Exec), Tbl.sorted s.execs = true →
      s.findColl s.arg.ctx s.arg.id s.arg.idx false = some x → s.getRedex s.arg.ctx s.arg.id = some r →
      x.joins.length = w → (s.getCtx s.arg.ctx).state ≠ .evicting → s.arg.val = 0 → s.arg.bad = false →
      s.spanJoined r = true →
      (x.joins.map Join.rank).Nodup → (∀ j ∈ x.joins, (s.memberOf s.arg.ctx x.appo j.rank).isSome = true) →
      j ∈ x.joins → s.memberOf s.arg.ctx x.appo j.rank = some (n, f) →
      ∃ u f', exec .collectiveComplete s = .next u ∧ u.getExec n = some f' ∧ f'.met = true ∧ f'.g = f.g ∧ f'.pc = f.pc ∧
        (∀ g' t' d' a' b' z, j.word = .tbcast g' t' d' a' b' → x.joins.find? (fun y => y.rank == j.gb.toNat) = some z →
          f'.getV d' = z.vec) ∧
        (∀ g' o t' c' d' a' b', j.word = .tred g' o t' c' d' a' b' →
          f'.v = if j.rank = j.gb.toNat then vset f.v d'.toNat (treeComb o t' (joinVecs r.first x.joins (w - 1)))
            else f.v) ∧
        (∀ g' o t' d' a', j.word = .tscan g' o t' d' a' →
          f'.getV d' = treeComb o t' (joinVecs r.first x.joins j.rank)) ∧
        (∀ g' o t' d' a', j.word = .tall g' o t' d' a' →
          f'.getV d' = treeComb o t' (joinVecs r.first x.joins (w - 1))) ∧
        ∀ y ∈ (u.getCtx s.arg.ctx).colls, y ≠ x) ∧
    (∀ (l : List (Nat × Vec)) (j : Nat), (∀ p ∈ l, p.1 < 4096) → j < 64 →
      num (treeComb .add .i32 l) j = l.foldl (fun z p => z + num p.2 j) 0) ∧
    (∀ (dst : Nat), e.met = false → (e.getG b).toNat = dst → dst < w → (s.memberOf e.ctx e.appo dst).isSome = true →
      ∃ u, exec (.trow g a b) s = .next u ∧
        u.getExec k = some { e with wait := .sending [s.nextId], met := false } ∧
        (u.getCtx e.ctx).msgs = (s.getCtx e.ctx).msgs ++ [⟨s.nextId, e.appo, dst, ⟨e.rank, vec⟩⟩] ∧ u.mem = s.mem) ∧
    (ends (.trow g a b) ∨ w ≤ (e.getG b).toNat) ∧
    (ends (.tmcast g a b) ∨ ∃ j, j < 64 ∧ (e.getG b).getLsbD j = true ∧ w ≤ j) ∧
    (∀ (dst : Nat), e.met = false → e.getG b = BitVec.ofNat 64 (2 ^ dst) → dst < 64 → dst < w →
      ((s.memberOf e.ctx e.appo dst).isSome = false → exec (.tmcast g a b) s = .next (s.setExec k e.advance)) ∧
      ((s.memberOf e.ctx e.appo dst).isSome = true →
        ∃ u, exec (.tmcast g a b) s = .next u ∧ (u.getCtx e.ctx).msgs =
          (s.getCtx e.ctx).msgs ++ [⟨s.nextId, e.appo, dst, ⟨e.rank, vec⟩⟩])) ∧
    (∀ m l, e.recv = m :: l → exec (.trecv g d) s =
      .next (s.setExec k ({ e with recv := l, v := vset e.v d.toNat m.vec }).advance)) ∧
    (e.recv = [] → e.mq = [] → ∃ u f, exec (.trecv g d) s = .next u ∧ u.getExec k = some f ∧ f.wait = .message ∧
      f.pc = e.pc) ∧
    (∀ (m : MsgFlight) (n : Nat) (f : Exec), (s.getCtx s.arg.ctx).msgs = [m] → m.id = s.arg.id →
      s.memberOf s.arg.ctx m.appo m.dst = some (n, f) → (s.getCtx s.arg.ctx).state ≠ .evicting → f.recv.length < 8 →
      s.arg.bad = false → s.joined (s.rankGal s.arg.ctx m.appo m.msg.sender) (n / 256 / 512) = true →
      ∃ u, exec .messageArrive s = .next u ∧ (u.getCtx s.arg.ctx).msgs = [] ∧
        u.getExec n = some { f with recv := f.recv ++ [m.msg], events := f.events ||| 8 })

/-! ### Symbols -/

/-- SYMLD, SYMAN and SYMCNT read the member's local slots, the symbols of its redex in its own cell in pocket order;
EMIT, EMITT and EMITR append to what the member has emitted, in its own context, or fault STRUCT, SCRATCH, XCTX or
OWNER; RESV declares the length once (R137 to R139). -/
def Obligations.SymbolWords : Prop :=
  ∀ (g : Guard) (d a b : GReg) (s : State) (k : Nat) (e : Exec) (r : Redex), Issues g s k e →
    s.getRedex e.ctx e.appo = some r →
    let slots := (s.getCtx e.ctx).pockets.filter fun p => p.1 / 16 = k / 256 && e.appo ≤ p.1 && p.1 ≤ r.appc
    let i := (e.getG a).toNat
    let n := (e.getG b).toNat
    let out := Tbl.get [] r.out e.rank
    let w : Word := if field (e.getG a) 63 60 = 0 then e.getG a
      else (e.getG a &&& 0xF3FFFFFFFFFFFFFF) ||| (BitVec.ofNat 64 e.ctx.val <<< 58)
    let tile := (s.getCell (k / 256)).getTile (i % 256)
    let emits (j : Instr) (ws : List Word) : Prop := ∃ u f, exec j s = .next u ∧ u.getExec k = some e.advance ∧
      u.getRedex e.ctx e.appo = some f ∧ Tbl.get [] f.out e.rank = out ++ ws ∧ f.state = r.state ∧ f.held = r.held ∧
      (∀ m, m ≠ e.rank → Tbl.get [] f.out m = Tbl.get [] r.out m) ∧ u.mem = s.mem ∧
      (u.getCtx e.ctx).pockets = (s.getCtx e.ctx).pockets
    let room (m : Nat) : Prop := out.length + m ≤ 16384 ∧ (out.length % 64 ≠ 0 ∧ out.length % 64 + m ≤ 64)
    (i < slots.length → exec (.symld g d a) s =
      .next (s.setExec k (e.setG d ((slots.map Prod.snd).getD i 0)).advance)) ∧
    (slots.length ≤ i → exec (.symld g d a) s = .next (s.setExec k (e.setG d 0).advance) ∧
      exec (.syman g d a) s = .next (s.setExec k (e.setG d 0xFFFFFFFF).advance)) ∧
    (∀ p, slots[i]? = some p → exec (.syman g d a) s = .next (s.setExec k (e.setG d (Tbl.get 0 r.ann p.1)).advance)) ∧
    (exec (.symcnt g d) s = .next (s.setExec k (e.setG d (BitVec.ofNat 64 slots.length)).advance)) ∧
    (field w 63 60 ≠ 0 → field w 63 60 ≠ 0xE → wellFormedSym w = true → room 1 → emits (.emit g a) [w]) ∧
    (field w 63 60 = 0 ∨ field w 63 60 = 0xE ∨ wellFormedSym w = false →
      exec (.emit g a) s = .next (s.raise k e 0x18)) ∧
    (field w 63 60 ≠ 0 → field w 63 60 ≠ 0xE → wellFormedSym w = true → out.length = 16384 →
      exec (.emit g a) s = .next (s.raise k e 0x18)) ∧
    (∀ ch, field w 63 60 ≠ 0 → field w 63 60 ≠ 0xE → wellFormedSym w = true → out.length % 64 = 0 →
      out.length < 16384 → (s.getCell (k / 256)).topChunks 1 = some ch → emits (.emit g a) [w]) ∧
    (tile.ctx = e.ctx → tile.state = .priv ∨ tile.state = .shared → room 1 → emits (.emitt g a)
      [BitVec.ofNat 64 (3 * 2 ^ 60 + e.ctx.val * 2 ^ 58 +
        (tile.fmt.code.toNat * 2 ^ 53 + k / 256 * 2 ^ 32 + i % 256) % 2 ^ 58)]) ∧
    (field w 63 60 ≠ 0 → field w 63 60 ≠ 0xE → wellFormedSym w = true → out.length % 64 = 0 → out.length < 16384 →
      (s.getCell (k / 256)).topChunks 1 = none → exec (.emit g a) s = .next (s.raise k e 0x12)) ∧
    (tile.state = .free ∨ tile.state = .pendfree → exec (.emitt g a) s = .next (s.raise k e 0x12)) ∧
    (tile.state ≠ .free → tile.state ≠ .pendfree → tile.ctx ≠ e.ctx → exec (.emitt g a) s = .next (s.raise k e 0x14)) ∧
    (tile.ctx = e.ctx → tile.state = .priv ∨ tile.state = .shared → out.length % 64 = 0 → out.length < 16384 →
      (s.getCell (k / 256)).topChunks 1 = none → exec (.emitt g a) s = .next (s.raise k e 0x12)) ∧
    (tile.ctx = e.ctx → tile.state = .matrix → exec (.emitt g a) s = .next (s.raise k e 0x17)) ∧
    (i + n ≤ slots.length → room n → emits (.emitr g a b) (((slots.map Prod.snd).drop i).take n)) ∧
    (slots.length < i + n → exec (.emitr g a b) s = .next (s.raise k e 0x18)) ∧
    (1 ≤ i → i ≤ 0xFFFFFFFF → r.resv = none → ∃ u, exec (.resv g a) s = .next u ∧ u.getExec k = some e.advance ∧
      u.getRedex e.ctx e.appo = some { r with resv := some (BitVec.ofNat 32 i) }) ∧
    (∀ l, r.resv = some l → 1 ≤ i → i ≤ 0xFFFFFFFF → exec (.resv g a) s =
      .next (if l.toNat = i then s.setExec k e.advance else s.raise k e 0x18)) ∧
    (i = 0 ∨ 0xFFFFFFFF < i → exec (.resv g a) s = .next (s.raise k e 0x18))

/-! ### Routing -/

/-- ROUTE opens the lowest free reassembly entry with the rows of its tile's header, and each choice of a row is to
leave, one row in each cycle: for the station bound to its number then, or as a DROP where the number is unbound. RATWT
and RATRD deliver a complete entry, and park on an open one; a handle of another fails. A row that reaches a station
over bridges that carry traffic, in the order of its cycle, enters its inbox or is answered DROP; SRECV takes it into a
tile after the cycle in which it has arrived, and SRET returns it weighted. A return that its entry misses is taken as
its choice; a timeout, after the returns of its cycle, drops those missing; and an entry that misses none is completed
with the sums of its rows (R329, R333 to R343, R384, R386). A row beyond the chunks of its tile is zeros (R430). The
places of the fields of a ticket are the model's (DESIGN CHOICE, log 25). -/
def Obligations.Routing : Prop :=
  ∀ (g : Guard) (d a b : GReg) (vb : VReg) (s : State) (k : Nat) (e : Exec), Issues g s k e →
    let cell := k / 256
    let x := e.getG a
    let t := (s.getCell cell).getTile (x.toNat % 256)
    let h : Word := BitVec.ofNat 64 (leNat ((s.getCell cell).scratch.readBytes (512 * t.base) 8))
    let rows := field h 14 8
    let station (i c : Nat) : Nat := if c = 0 then (lane (e.getV vb) i).toNat % 256 else (lane (e.getV vb) i).toNat / 256 % 256
    let ent := field x 4 0
    let r := s.getRat cell ent
    let mine : Prop := r.owner = e.appo ∧ r.ctx = e.ctx ∧ r.tag.toNat = field x 31 16
    let counts : Word := BitVec.ofNat 64
      (r.timeout.toNat * 2 ^ 47 + min 127 r.drops * 2 ^ 40 + (r.final.filter fun p => !p.1).length * 2 ^ 32)
    let counted : Exec := { e with ratst := (e.ratst &&& 0xFF00000000000000) ||| counts }
    let waits (i : Instr) (w : WaitOn) : Prop := e.mq = [] → ∃ u f, exec i s = .next u ∧ u.getExec k = some f ∧
      f.wait = w ∧ f.pc = e.pc ∧ f.g = e.g
    let writable (y : Tile) : Prop := y.ctx = e.ctx ∧ y.state = .priv ∧ y.owner = some e.appo
    let goes (n i c : Nat) (f : Fmt) : Word := mkTicket cell (s.getCell cell).rseq n i c
      (BitVec.ofNat 16 ((lane (e.getV (vb + 1)) i).toNat / 2 ^ (16 * c))) f
    -- ROUTE
    (∀ (f : Fmt) (n : Nat) (ch : List Nat), t.ctx = e.ctx → t.state = .route → headerBad h = false →
      fmtOfCode (field h 4 0) = some f → f = .f32 ∨ f = .bf16 ∨ f = .gf8 →
      (∀ i c, i < rows → c < 2 → station i c < 64 ∨ station i c = 255) → (∃ i c, i < rows ∧ c < 2 ∧ station i c ≠ 255) →
      s.trailing cell [(512 * t.base, 8)] = false → n < 32 → (s.getRat cell n).state = .free → (∀ j, j < n →
        (s.getRat cell j).state ≠ .free) →
      (s.getCell cell).topChunks 32 = some ch →
      ∃ u, exec (.route g d a vb) s = .next u ∧
        u.getExec k = some ({ e with tags := (s.getCell cell).rseq :: e.tags }.setG d
          (BitVec.ofNat 64 ((s.getCell cell).rseq.toNat * 2 ^ 16 + n))).advance ∧
        (u.getCell cell).rseq = (s.getCell cell).rseq + 1 ∧ u.mem = s.mem ∧
        (let y := u.getRat cell n
         y.state = .opened ∧ y.owner = e.appo ∧ y.ctx = e.ctx ∧ y.rows = rows ∧ y.tag = (s.getCell cell).rseq ∧
           y.pass = x.getLsbD 8 ∧ y.tmo = field x 47 16 ∧ y.issued = s.clk ∧ y.drops = 0 ∧
           ∀ i c, i < rows → c < 2 → y.choice i c = if station i c = 255 then .unrouted else .missing) ∧
        ∀ i c, i < rows → c < 2 → station i c ≠ 255 →
          let before := ((List.range (2 * i + c)).filter fun q => station (q / 2) (q % 2) != 255).length
          ∃ y ∈ (u.getCtx e.ctx).rowsIn, y.ticket = goes n i c f ∧ y.station = station i c ∧ y.bound = none ∧
            y.due = s.clk + BitVec.ofNat 64 before ∧ y.src = 512 * t.base + 512 + 64 * elemBytes f * i) ∧
    (∀ (c : CtxId) (y : RowFlight) (f : Fmt),
      let o := field y.ticket 63 53
      let z := s.getRat o (field y.ticket 36 32)
      let u := s.departRow c y
      z.state = .opened → z.ctx = c → z.tag.toNat = field y.ticket 52 37 → y.vec = none →
      fmtOfCode (field y.ticket 8 4) = some f →
      let tl := (s.getCell o).getTile y.tile
      s.rowTrails o tl y.src (elemBytes f) = false →
      (Tbl.find (s.getCtx c).stations y.station = none → ∃ q, (u.getCtx c).rets = (s.getCtx c).rets ++ [q] ∧
        q.ticket = y.ticket ∧ q.vec = none ∧ (u.getCtx c).rowsIn = (s.getCtx c).rowsIn.filter fun x => x.id != y.id) ∧
      ∀ st, Tbl.find (s.getCtx c).stations y.station = some st → ∃ v : Vec,
        (u.getCtx c).rowsIn = (s.getCtx c).rowsIn.map (fun x =>
          if x.id = y.id then { x with bound := some st.id, dst := st.cell, vec := some v } else x) ∧
        ∀ j, j < 64 → lane v j = if y.src + 64 * elemBytes f ≤ 512 * (tl.base + tl.count) then
          BitVec.ofNat 32 (leNat ((s.getCell o).scratch.readBytes (y.src + elemBytes f * j) (elemBytes f))) else 0) ∧
    (∀ f, t.ctx = e.ctx → t.state = .route → headerBad h = false → fmtOfCode (field h 4 0) = some f →
      f = .f32 ∨ f = .bf16 ∨ f = .gf8 → (∀ i c, i < rows → c < 2 → station i c < 64 ∨ station i c = 255) →
      s.trailing cell [(512 * t.base, 8)] = false →
      (∀ j, j < 32 → (s.getRat cell j).state ≠ .free) → waits (.route g d a vb) .ratFree) ∧
    (∀ f i c, t.ctx = e.ctx → t.state = .route → headerBad h = false → fmtOfCode (field h 4 0) = some f →
      f = .f32 ∨ f = .bf16 ∨ f = .gf8 → i < rows → c < 2 → 64 ≤ station i c → station i c ≠ 255 →
      s.trailing cell [(512 * t.base, 8)] = false →
      exec (.route g d a vb) s = .next (s.raise k e 0x10)) ∧
    (t.ctx = e.ctx → t.state = .route → headerBad h = true → s.trailing cell [(512 * t.base, 8)] = false →
      exec (.route g d a vb) s = .next (s.raise k e 2)) ∧
    (t.ctx = e.ctx → t.state = .priv → exec (.route g d a vb) s = .next (s.raise k e 0x17)) ∧
    -- RATWT and RATRD
    (mine → r.state = .complete → exec (.ratwt g a) s = .next (s.setExec k counted.advance)) ∧
    (mine → r.state = .opened → waits (.ratwt g a) (.rat ent)) ∧
    (¬mine ∨ r.state = .free → exec (.ratwt g a) s = .next (s.raise k e 0x10) ∧
      exec (.ratrd g a b) s = .next (s.raise k e 0x10)) ∧
    (let w := (s.getCell cell).getTile ((e.getG b).toNat % 256)
     mine → writable w → w.fmt = .f32 →
      (r.state = .opened → waits (.ratrd g a b) (.rat ent)) ∧
      (r.state = .complete → ∃ u, exec (.ratrd g a b) s = .next u ∧ u.getExec k = some counted.advance ∧
        u.getRat cell ent = {} ∧ (∀ j, j ≠ ent → u.getRat cell j = s.getRat cell j) ∧
        leNat ((u.getCell cell).scratch.readBytes (512 * w.base) 8) =
          (4 * 2 ^ 40 + r.cols * 2 ^ 16 + r.rows * 2 ^ 8) % 2 ^ 64 ∧
        (∀ i j, i < 64 → j < 64 → leNat ((u.getCell cell).scratch.readBytes (512 * w.base + 512 + 256 * i + 4 * j) 4) =
          (lane (r.final.getD i (false, zeroVec)).2 j).toNat) ∧
        (∀ i, i < 64 → ((u.getCell cell).scratch.read (512 * w.base + 448 + i)).toNat =
          (if (r.final.getD i (false, zeroVec)).1 then 128 else 0) + i) ∧
        ∀ y, y < 512 * w.base ∨ 512 * (w.base + 33) ≤ y →
          (u.getCell cell).scratch.read y = (s.getCell cell).scratch.read y)) ∧
    -- SRECV and SRET
    (s.stationOf e.ctx e.appo = none → exec (.srecv g d a) s = .next (s.raise k e 0x10) ∧
      exec (.sret g a b) s = .next (s.raise k e 0x10) ∧ exec (.scapSet g d a) s = .next (s.raise k e 0x10) ∧
      (x.getLsbD 8 = true → exec (.scap g d a) s = .next (s.raise k e 0x10))) ∧
    (∀ (n : Nat) (st : Station), s.stationOf e.ctx e.appo = some (n, st) → Tbl.find (s.getCtx e.ctx).stations n = some st →
      (let p := field x 21 16
       field x 30 24 = 1 → p < 64 → writable t → (∀ q, st.lastRow = some q → q.1 ≠ s.clk) →
        (∀ y ys, st.rows = y :: ys → fmtOfCode (field y.ticket 8 4) = some t.fmt → Tbl.find e.tickets p = none →
          ∃ u, exec (.srecv g d a) s = .next u ∧
            u.getExec k = some ({ e with tickets := Tbl.set e.tickets p y.ticket }.setG d 1).advance ∧
            Tbl.find (u.getCtx e.ctx).stations n = some { st with rows := ys } ∧ u.mem = s.mem ∧
            (∀ j, j < 64 → leNat ((u.getCell cell).scratch.readBytes
              (512 * t.base + 512 + 64 * elemBytes t.fmt * p + elemBytes t.fmt * j) (elemBytes t.fmt)) =
                (lane y.vec j).toNat % 2 ^ (8 * elemBytes t.fmt)) ∧
            ∀ z, z < 512 * t.base + 512 + 64 * elemBytes t.fmt * p ∨
              512 * t.base + 512 + 64 * elemBytes t.fmt * (p + 1) ≤ z →
                (u.getCell cell).scratch.read z = (s.getCell cell).scratch.read z) ∧
        (st.rows = [] → st.state = .closed ∨ st.quiescent = true → ∃ u, exec (.srecv g d a) s = .next u ∧
          u.getExec k = some (e.setG d 0).advance ∧ u.mem = s.mem) ∧
        (st.rows = [] → st.state ≠ .closed → st.quiescent = false → waits (.srecv g d a) .inbox)) ∧
      ((∃ q, st.lastRow = some q ∧ q.1 = s.clk) → 1 ≤ field x 30 24 → field x 21 16 + field x 30 24 ≤ 64 → writable t →
        exec (.srecv g d a) s = .next s) ∧
      (let m := field (e.getG b) 14 8
       let p := field (e.getG b) 5 0
       1 ≤ m → p + m ≤ 64 → t.ctx = e.ctx → t.fmt = .f32 → (t.state = .priv ∧ t.owner = some e.appo) ∨ t.state = .shared →
        ∃ u, exec (.sret g a b) s = .next u ∧
          u.getExec k = some { e with tickets := e.tickets.filter fun q => !(p ≤ q.1 && q.1 < p + m) }.advance ∧
          u.cells = s.cells ∧ u.mem = s.mem ∧
          ∀ q tk, p ≤ q → q < p + m → Tbl.find e.tickets q = some tk → ∃ y ∈ (u.getCtx e.ctx).rets, y.ticket = tk ∧
            y.src = cell ∧ ∃ v, y.vec = some v ∧ ∀ j, j < 64 →
              lane v j = f32MulRne (BitVec.ofNat 32 (field tk 24 9 * 2 ^ 16))
              (BitVec.ofNat 32 (leNat ((s.getCell cell).scratch.readBytes (512 * t.base + 512 + 256 * q + 4 * j) 4)))) ∧
      (x.getLsbD 8 = true → exec (.scap g d a) s = .next (s.setExec k (e.setG d (scapWord s e.ctx n)).advance)) ∧
      (∀ o, s.operator e.op = some o → field x 15 0 ≤ o.stcap → ∃ u, exec (.scapSet g d a) s = .next u ∧
        u.getExec k = some (e.setG d (scapWord s e.ctx n)).advance ∧ u.mem = s.mem ∧
        Tbl.find (u.getCtx e.ctx).stations n = some { st with
          cap := field x 15 0
          state := if field x 15 0 = 0 then .closed else if st.state = .closed then .opened else st.state })) ∧
    (x.getLsbD 8 = false → exec (.scap g d a) s =
      .next (s.setExec k (e.setG d (scapWord s e.ctx (field x 5 0))).advance)) ∧
    (∀ n st, n < 64 → Tbl.find (s.getCtx e.ctx).stations n = some st → st.rows.length ≤ st.cap → st.cap ≤ 4096 →
      let w := scapWord s e.ctx n
      field w 15 0 = st.cap - st.rows.length ∧ field w 31 16 = st.rows.length ∧ field w 47 32 = st.cap ∧
        field w 49 48 = (if st.state = .closed then 2 else 1) ∧ field w 55 50 = n) ∧
    -- rows and returns arrive
    (∀ (y : RowFlight) (st : Station) (v : Vec),
      (s.getCtx s.arg.ctx).rowsIn.find? (fun z => z.id == s.arg.id) = some y → y.vec = some v → s.arg.bad = false →
      (s.getCtx s.arg.ctx).state ≠ .evicting → Tbl.find (s.getCtx s.arg.ctx).stations y.station = some st →
      y.bound = some st.id → y.dst = st.cell → s.joined (field y.ticket 63 53 / 512) (st.cell / 512) = true →
      s.rowHeld s.arg.ctx y (st.cell / 512) = false →
      let place := ((field y.ticket 63 53 * 65536 + field y.ticket 52 37) * 64 + field y.ticket 31 26) * 2
        + field y.ticket 25 25
      let inOrder : Prop := ∀ q, st.lastRow = some q → q.1 = s.clk → q.2 < place
      (¬inOrder → exec .stationRowArrive s = .next s) ∧
      (inOrder → st.state ≠ .closed → st.rows.length < st.cap → ∃ u, exec .stationRowArrive s = .next u ∧
        Tbl.find (u.getCtx s.arg.ctx).stations y.station =
          some { st with rows := st.rows ++ [⟨y.ticket, v⟩], lastRow := some (s.clk, place) } ∧
        (Tbl.sorted s.execs = true → ∀ n f, s.getExec n = some f → f.ctx = s.arg.ctx → f.appo = st.appo →
          u.getExec n = some { f with events := f.events ||| 0x10 })) ∧
      (inOrder → st.state = .closed ∨ st.cap ≤ st.rows.length → ∃ u z, exec .stationRowArrive s = .next u ∧
        (u.getCtx s.arg.ctx).rets = (s.getCtx s.arg.ctx).rets ++ [z] ∧ z.ticket = y.ticket ∧ z.vec = none ∧
        z.src = st.cell ∧ u.execs = s.execs)) ∧
    (∀ (y : RowFlight) (v : Vec),
      (s.getCtx s.arg.ctx).rowsIn.find? (fun z => z.id == s.arg.id) = some y → y.vec = some v →
      (∀ st, Tbl.find (s.getCtx s.arg.ctx).stations y.station = some st → y.bound ≠ some st.id) →
      s.joined (field y.ticket 63 53 / 512) (y.dst / 512) = true → s.rowHeld s.arg.ctx y (y.dst / 512) = false →
      ∃ u z, exec .stationRowArrive s = .next u ∧
        (u.getCtx s.arg.ctx).rets = (s.getCtx s.arg.ctx).rets ++ [z] ∧ z.ticket = y.ticket ∧ z.vec = none ∧
        z.src = y.dst ∧ u.execs = s.execs) ∧
    (∀ (y : RetFlight), (s.getCtx s.arg.ctx).rets.find? (fun z => z.id == s.arg.id) = some y →
      (s.getCtx s.arg.ctx).state ≠ .evicting → s.arg.bad = false →
      let o := field y.ticket 63 53
      let z := s.getRat o (field y.ticket 36 32)
      s.joined (y.src / 512) (o / 512) = true → s.retHeld s.arg.ctx y = false →
      ¬(z.tmo ≠ 0 ∧ z.issued.toNat + z.tmo < s.clk.toNat) →
      z.state = .opened → z.ctx = s.arg.ctx → z.tag.toNat = field y.ticket 52 37 →
      z.choice (field y.ticket 31 26) (field y.ticket 25 25) = .missing →
      ∃ u, exec .routeReturn s = .next u ∧
        (u.getCtx s.arg.ctx).rets = (s.getCtx s.arg.ctx).rets.filter (fun q => q.id != y.id) ∧
        (let w := u.getRat o (field y.ticket 36 32)
         w.choice (field y.ticket 31 26) (field y.ticket 25 25) =
             (match y.vec with | some v => .row v | none => .dropped) ∧
           w.drops = z.drops + (if y.vec = none then 1 else 0) ∧ w.state = .opened ∧
           w.missing + 1 = z.missing)) ∧
    (let o := s.arg.cell.val
     let z := s.getRat o s.arg.id
     (z.issued.toNat + z.tmo = s.clk.toNat → exec .ratTimeout s = .next s) ∧
     (z.state = .opened → z.tmo ≠ 0 → z.issued.toNat + z.tmo < s.clk.toNat → z.missing ≠ 0 →
      ∃ u, exec .ratTimeout s = .next u ∧ u.execs = s.execs ∧
        (let w := u.getRat o s.arg.id
         w.state = .opened ∧ w.timeout = true ∧ w.missing = 0 ∧ w.drops = z.drops + z.missing ∧ w.tag = z.tag))) ∧
    -- an entry that misses nothing
    (∀ o i, (s.getRat o i).state = .opened → (s.getRat o i).missing = 0 → s.passTrails o (s.getRat o i) = false →
      (s.completeRats.getRat o i).state = .complete) ∧
    (∀ (o i : Nat) (z : Machine.Rat),
      let u := s.completeRat o i z
      (u.getRat o i).state = .complete ∧ (u.getRat o i).tag = z.tag ∧ (u.getRat o i).drops = z.drops ∧
      (∀ row, row < z.rows →
        let back (c : Nat) : Option Vec := match z.choice row c with
          | .row v => some v
          | _ => none
        let out := (u.getRat o i).final.getD row (false, zeroVec)
        (back 0 = none → back 1 = none → out.1 = false ∧ (z.pass = false → out.2 = zeroVec)) ∧
        (back 0 ≠ none ∨ back 1 ≠ none → out.1 = true ∧ ∀ j, j < 64 → lane out.2 j =
          (let one (x : Lane) (c : Nat) : Lane := match back c with
            | some v => f32AddRne x (lane v j)
            | none => x
           one (one 0 0) 1))) ∧
      ∀ n f, s.execs.find? (fun p => p.1 / 256 = o && p.2.ctx = z.ctx && p.2.appo == z.owner) = some (n, f) →
        u.getExec n = some { f with events := f.events ||| 4 })

/-! ### Barriers and ranges -/

/-- BARJ of a member that has not arrived takes the generation's number, sets its record's IN, counts the arrival and
the mask, and the last arrival at a block without bound ranges ends the generation, clearing ARRIVED, MASK and every
IN; a member that has arrived parks. Arrivals of one cycle come in ascending order of the member, and what a unit reads
or writes back of a reserved bit is zero (R7). BARW completes on a generation that is over and parks otherwise; BARQ is
a load of a record or a word. Arrival and release flits do the same for a fabric barrier, and an arrival whose page is
missing opens an entry of the fault queue and waits (DEDUCED, log 26) (R346 to R356); the words of their payloads stand
in the model's order (DESIGN CHOICE, log 22). -/
def Obligations.Barriers : Prop :=
  ∀ (g : Guard) (d a b : GReg) (s : State) (k : Nat) (e : Exec) (p : Trans), Issues g s k e → s.opNR e.op = true →
    MemoryInv s → (e.getG a).toNat % 64 = 0 →
    let pa := Pte.addr p.pte + (e.getG a).toNat % p.size
    let w (i : Nat) : Word := s.barWord pa i
    let reach : Prop := s.joined (k / 256 / 512) (homeSlice s pa / 256) = true
    let block (lo hi most : Nat) : Prop := (w 0).getLsbD 63 = true ∧ lo ≤ field (w 0) 62 61 ∧ field (w 0) 62 61 ≤ hi ∧
      1 ≤ field (w 0) 44 32 ∧ field (w 0) 44 32 ≤ most
    let m := (e.getG b).toNat
    let own (i : Nat) : Nat := pa + 64 + 8 * i
    let mine : Word := s.recWord (own m)
    let gen : BitVec 32 := (w 1).setWidth 32
    let used := s.tlbUse (k / 256) p
    let quiet : Prop := s.openAccs k = [] ∧ s.firingsOut k e .fabric = false
    let waits (i : Instr) (on : WaitOn) : Prop := e.mq = [] → ∃ u f, exec i s = .next u ∧ u.getExec k = some f ∧
      f.wait = on ∧ f.pc = e.pc ∧ f.g = e.g ∧ u.mem = s.mem
    let ended (t u : State) (at' n : Nat) : Prop :=
      (u.unitWord at' 1).setWidth 32 = (t.unitWord at' 1).setWidth 32 + (1 : BitVec 32) ∧
      field (u.unitWord at' 1) 44 32 = 0 ∧ u.unitWord at' 3 = 0 ∧
      ∀ i, i < n → (u.loadWord (at' + 64 + 8 * i)).getLsbD 24 = false
    (Mapped s k e (e.getG a) .system true p → reach → quiet → block 0 1 64 → m < field (w 0) 44 32 →
      s.arrivedAbove pa m = false →
      (mine.getLsbD 24 = false → field (w 1) 44 32 + 1 < field (w 0) 44 32 →
        ∃ u, exec (.barj g d a b) s = .next u ∧ u.getExec k = some (e.setG d (gen.setWidth 64)).advance ∧
          field (u.unitWord pa 1) 44 32 = field (w 1) 44 32 + 1 ∧ (u.unitWord pa 1).setWidth 32 = gen ∧
          u.loadWord (own m) = mine ||| 0x1000000 ∧ u.unitWord pa 3 = w 3 ||| (1 <<< m) ∧
          u.unitWord pa 2 = (if field (w 1) 44 32 = 0 then s.clk else w 2) ∧ u.unitWord pa 0 = s.unitWord pa 0 ∧
          u.ctxs = s.ctxs ∧
          (pa + 576 ≤ 2 ^ 40 → ∀ y, y < 2 ^ 40 → y < pa + 8 ∨ pa + 32 ≤ y → y < own m ∨ own m + 8 ≤ y →
            u.loadByte y = s.loadByte y)) ∧
      (mine.getLsbD 24 = false → field (w 1) 44 32 + 1 = field (w 0) 44 32 → field (w 0) 62 61 = 0 →
        field (w 4) 47 0 = 0 →
        ∃ u, exec (.barj g d a b) s = .next u ∧ u.getExec k = some (e.setG d (gen.setWidth 64)).advance ∧
          ended s u pa (field (w 0) 44 32) ∧
          field (u.loadWord (own m)) 23 0 =
            min ((if field (w 1) 44 32 = 0 then 0 else (s.clk - w 2).toNat)) 0xFFFFFF) ∧
      (mine.getLsbD 24 = true → waits (.barj g d a b) (.barrier pa gen true))) ∧
    (Mapped s k e (e.getG a) .system true p → reach → quiet → block 0 1 64 → m < field (w 0) 44 32 →
      s.arrivedAbove pa m = true → exec (.barj g d a b) s = .next used) ∧
    (Mapped s k e (e.getG a) .system true p → reach → quiet → block 0 1 64 → field (w 0) 44 32 ≤ m →
      exec (.barj g d a b) s = .next (used.raise k e 0x14)) ∧
    (Mapped s k e (e.getG a) .system true p → reach → quiet → ¬block 0 1 64 →
      exec (.barj g d a b) s = .next (used.raise k e 0x10)) ∧
    (e.met = true → exec (.barw g a b) s = .next (s.setExec k { e.advance with met := false })) ∧
    (Mapped s k e (e.getG a) .system false p → reach → e.met = false → s.openAccs k = [] → block 0 1 64 →
      let n := (gen - (e.getG b).setWidth 32).toNat
      (1 ≤ n → n < 2 ^ 31 → exec (.barw g a b) s = .next (used.setExec k e.advance)) ∧
      (n = 0 ∨ 2 ^ 31 ≤ n → waits (.barw g a b) (.barrier pa ((e.getG b).setWidth 32) false))) ∧
    (Mapped s k e (e.getG a) .system false p → reach → block 0 1 64 ∨ block 2 2 4096 →
      let x := e.getG b
      x.getLsbD 63 = true ∨ field x 12 0 < field (w 0) 44 32 →
      ∃ u y, exec (.barq g d a b) s = .next u ∧ u.getExec k = some e.advance ∧ u.mem.accs = s.mem.accs ++ [y] ∧
        y.pa = (if x.getLsbD 63 then pa + 8 * field x 2 0 else own (field x 12 0)) ∧ y.kind = .load ∧ y.wide = true ∧
        y.dest = some d ∧ y.keep = (if x.getLsbD 63 then State.barMask (field x 2 0) else 0xFFFFFFFF01FFFFFF) ∧
        y.cell = k / 256 ∧ y.entry = k % 256 ∧ y.accepted = none ∧ u.mem.dirty = s.mem.dirty) ∧
    (∀ (f : FlitWords) (at' : Nat) (dir : Bool), s.fabReady Flit.tArrive s.arrivalReady = some f →
      s.access (targetCtx f) (targetVa f) .system true = .at at' dir →
      let h := s.barWord at' 0
      let h1 := s.barWord at' 1
      let n := (Flit.pay f 0).toNat % 4096
      h.getLsbD 63 = true → field h 62 61 = 2 → 1 ≤ field h 44 32 → field h 44 32 ≤ 4096 → n < field h 44 32 →
      (s.loadWord (at' + 64 + 8 * n)).getLsbD 24 = false → s.arrivedAbove at' n = false →
      (field h1 44 32 + 1 < field h 44 32 → ∃ u, exec .barrierArrivalFlit s = .next u ∧
        field (u.unitWord at' 1) 44 32 = field h1 44 32 + 1 ∧ (u.unitWord at' 1).setWidth 32 = h1.setWidth 32 ∧
        (u.loadWord (at' + 64 + 8 * n)).getLsbD 24 = true ∧ u.execs = s.execs) ∧
      (field h1 44 32 + 1 = field h 44 32 → field (s.unitWord at' 4) 47 0 = 0 →
        ∃ u, exec .barrierArrivalFlit s = .next u ∧ ended s u at' (field h 44 32))) ∧
    (∀ (f : FlitWords), s.fabReady Flit.tArrive s.arrivalReady = some f →
      s.access (targetCtx f) (targetVa f) .system true = .missing → ∃ u q, exec .barrierArrivalFlit s = .next u ∧
        u.mem = s.mem ∧ f ∈ u.fab.inbox ∧ u.flitStalled f = true ∧ q ∈ (u.getCtx (targetCtx f)).fq ∧
        q.region = targetVa f / 2 ^ 16) ∧
    (∀ (f : FlitWords) (j : Nat) (c : CtxId),
      s.fabReady Flit.tRelease (fun f => s.portJoined f (releaseBlock f)) = some f →
      let at' := (Flit.pay f 0).toNat % 2 ^ 40 / 64 * 64
      let h := s.barWord at' 0
      let h1 := s.barWord at' 1
      h.getLsbD 63 = true → field h 62 61 = 1 → 1 ≤ field h 44 32 → field h 44 32 ≤ 64 → field h1 44 32 = field h 44 32 →
      h1.setWidth 32 = (Flit.pay f 1).setWidth 32 → Tbl.find s.mem.lastArr (at' / 64) = some (j, c) →
      field (s.unitWord at' 4) 47 0 = 0 → ∃ u, exec .barrierReleaseFlit s = .next u ∧ ended s u at' (field h 44 32))

/-- GRAB takes the next items of a range in the guided size, or none of an empty one; STEAL moves the upper part of a
stealable range to the thief, or nothing, and waits with the thief in TRANSFER for a victim in TRANSFER; RNGSET writes a
range and RNGQ reads what is left. GRAB of a range in TRANSFER waits. GRAB and RNGQ of a proxy send the request to the
range's part, whose unit serves a GRAB as its own, and a reply completes the word that waits for it (R359 to R365); the
words of the messages stand in the model's order (DESIGN CHOICE, log 22). -/
def Obligations.Ranges : Prop :=
  ∀ (g : Guard) (d a b c : GReg) (s : State) (k : Nat) (e : Exec) (p : Trans), Issues g s k e → s.opNR e.op = true →
    MemoryInv s → (e.getG a).toNat % 64 = 0 → s.openAccs k = [] →
    let pa := Pte.addr p.pte + (e.getG a).toNat % p.size
    let w (i : Nat) : Word := s.rngWord pa i
    let reach : Prop := s.joined (k / 256 / 512) (homeSlice s pa / 256) = true
    let fit (x : Word) : Prop := x.getLsbD 63 = true ∧ field x 47 32 ≠ 0 ∧ field x 23 16 ≠ 0 ∧ field x 12 0 ≠ 0
    let pair (hi lo : Nat) : Word := BitVec.ofNat 64 (hi * 2 ^ 32 + lo)
    let used := s.tlbUse (k / 256) p
    let hi (x : Word) : Nat := field x 63 32
    let next (x : Word) : Nat := field x 31 0
    let up (n q : Nat) : Nat := (n + q - 1) / q
    let size (w0 w1 : Word) : Nat := min (max (field w0 47 32)
      (up (16 * (hi w1 - next w1)) (field w0 23 16 * field w0 12 0))) (hi w1 - next w1)
    let half (w0 w1 : Word) : Nat := next w1 + field w0 47 32 * up (up (hi w1 - next w1) 2) (field w0 47 32)
    let asks (i : Instr) (real : Word) (op : Nat) : Prop := ∃ u f x, exec i s = .next u ∧ u.getExec k = some f ∧
      f.wait = .reply s.nextId ∧ f.pc = e.pc ∧ f.g = e.g ∧ u.fab.asks = s.fab.asks ++ [x] ∧ x.id = s.nextId ∧
      x.exec = some k ∧ x.dst = real.extractLsb' 42 18 ∧
      ∃ y ∈ u.fab.sent, y.dst = x.dst ∧ Flit.type y.words = 6 ∧ Flit.pay y.words 0 = BitVec.ofNat 64 op ∧ y.ask = some x.id
    (e.met = true → ∀ v, e.reply = some (false, v) →
      exec (.grab g d a) s =
        .next (s.setExec k { ({ e with reply := none }.setG d v).advance with met := false }) ∧
      exec (.steal g d a) s =
        .next (s.setExec k { ({ e with reply := none }.setG d v).advance with met := false }) ∧
      exec (.rngq g d a) s =
        .next (s.setExec k { ({ e with reply := none }.setG d v).advance with met := false }) ∧
      exec (.rngset g a b c) s = .next (s.setExec k { ({ e with reply := none } : Exec).advance with met := false })) ∧
    (e.met = false → Mapped s k e (e.getG a) .system true p → reach → (w 0).getLsbD 60 = false → (w 0).getLsbD 61 = false →
      fit (w 0) →
      (hi (w 1) ≤ next (w 1) → exec (.grab g d a) s = .next (used.setExec k (e.setG d 0).advance)) ∧
      (next (w 1) < hi (w 1) → ∃ u, exec (.grab g d a) s = .next u ∧
        u.getExec k = some (e.setG d (pair (next (w 1) + size (w 0) (w 1)) (next (w 1)))).advance ∧
        u.unitWord pa 1 = pair (hi (w 1)) (next (w 1) + size (w 0) (w 1)) ∧ u.unitWord pa 0 = s.unitWord pa 0 ∧
        u.unitWord pa 2 = s.unitWord pa 2 ∧ field (u.unitWord pa 3) 31 0 = min (field (w 3) 31 0 + 1) (2 ^ 32 - 1) ∧
        field (u.unitWord pa 3) 63 32 = field (w 3) 63 32 ∧ u.ctxs = s.ctxs)) ∧
    (e.met = false → Mapped s k e (e.getG a) .system true p → reach → (w 0).getLsbD 60 = false → (w 0).getLsbD 61 = false →
      ¬fit (w 0) → exec (.grab g d a) s = .next (used.raise k e 0x10)) ∧
    (e.met = false → Mapped s k e (e.getG a) .system true p → reach → (w 0).getLsbD 60 = false → (w 0).getLsbD 61 = true →
      exec (.grab g d a) s = .next used) ∧
    (e.met = false → Mapped s k e (e.getG a) .system true p → reach → (w 0).getLsbD 60 = true →
      asks (.grab g d a) (w 4) 0) ∧
    (∀ q : Trans, e.met = false → Mapped s k e (e.getG a) .system true p → (e.getG d).toNat % 64 = 0 →
      Mapped used k e (e.getG d) .system true q →
      let tp := Pte.addr q.pte + (e.getG d).toNat % q.size
      let t (i : Nat) : Word := s.rngWord tp i
      reach → s.joined (k / 256 / 512) (homeSlice s tp / 256) = true → e.getG d ≠ e.getG a → (pa + 64 ≤ tp ∨
        tp + 64 ≤ pa) → pa + 64 ≤ 2 ^ 40 → tp + 64 ≤ 2 ^ 40 →
      (w 0).getLsbD 60 = false → fit (w 0) →
      (t 0).getLsbD 60 = false → (t 0).getLsbD 61 = false → fit (t 0) →
      (next (t 1) ≠ hi (t 1) → ∃ u, exec (.steal g d a) s = .next u ∧ u.getExec k = some (e.setG d 0).advance ∧
        u.mem = s.mem) ∧
      (next (t 1) = hi (t 1) → (w 0).getLsbD 61 = true → ∃ u f, exec (.steal g d a) s = .next u ∧
        u.getExec k = some f ∧ f.wait = .reply s.nextId ∧ (u.rngWord tp 0).getLsbD 61 = true ∧
        ∀ i, i < 8 → u.unitWord pa i = s.unitWord pa i) ∧
      (next (t 1) = hi (t 1) → (w 0).getLsbD 61 = false → (w 0).getLsbD 62 = false ∨
        hi (w 1) - next (w 1) < 2 * field (w 0) 47 32 →
        ∃ u, exec (.steal g d a) s = .next u ∧ u.getExec k = some (e.setG d 0).advance ∧
          (∀ i, i < 8 → u.unitWord pa i = s.unitWord pa i) ∧ u.unitWord tp 0 = t 0 ∧
          ∀ i, 1 ≤ i → i < 8 → u.unitWord tp i = s.unitWord tp i) ∧
      (next (t 1) = hi (t 1) → (w 0).getLsbD 61 = false → (w 0).getLsbD 62 = true →
        2 * field (w 0) 47 32 ≤ hi (w 1) - next (w 1) →
        ∃ u, exec (.steal g d a) s = .next u ∧
          u.getExec k = some (e.setG d (pair (hi (w 1)) (half (w 0) (w 1)))).advance ∧
          u.unitWord pa 1 = pair (half (w 0) (w 1)) (next (w 1)) ∧
          u.unitWord tp 1 = pair (hi (w 1)) (half (w 0) (w 1)) ∧ next (u.unitWord tp 2) = half (w 0) (w 1) ∧
          u.unitWord tp 0 = t 0 ∧ u.unitWord pa 0 = s.unitWord pa 0 ∧
          field (u.unitWord pa 3) 47 32 = min (field (w 3) 47 32 + 1) 0xFFFF)) ∧
    (e.met = false → Mapped s k e (e.getG a) .system true p → reach → (w 0).getLsbD 60 = false → (w 0).getLsbD 61 = false →
      let y := e.getG c
      (field y 12 0 = 0 → ∃ u, exec (.rngset g a b c) s = .next u ∧ u.getExec k = some e.advance ∧
        u.unitWord pa 0 = w 0 &&& 0x7FFFFFFFFFFFFFFF ∧ ∀ i, 1 ≤ i → i < 8 → u.unitWord pa i = s.unitWord pa i) ∧
      (1 ≤ field y 12 0 → field y 12 0 ≤ 4096 → field y 47 32 ≠ 0 → field y 23 16 ≠ 0 →
        next (e.getG b) ≤ hi (e.getG b) → ∃ u, exec (.rngset g a b c) s = .next u ∧ u.getExec k = some e.advance ∧
          u.unitWord pa 1 = e.getG b ∧ next (u.unitWord pa 2) = next (e.getG b) ∧ u.unitWord pa 3 = 0 ∧
          u.unitWord pa 0 = BitVec.ofNat 64 (2 ^ 63 + field y 47 32 * 2 ^ 32 + field y 23 16 * 2 ^ 16 + field y 12 0))) ∧
    (e.met = false → Mapped s k e (e.getG a) .system true p → reach →
      let y := e.getG c
      field y 12 0 ≠ 0 → hi (e.getG b) < next (e.getG b) ∨ field y 47 32 = 0 ∨ field y 23 16 = 0 ∨ 4096 < field y 12 0 →
      exec (.rngset g a b c) s = .next (used.raise k e 0x10)) ∧
    (e.met = false → Mapped s k e (e.getG a) .system false p → reach →
      ((w 0).getLsbD 60 = false → exec (.rngq g d a) s =
        .next (used.setExec k (e.setG d (if (w 0).getLsbD 63 then w 1 else 0)).advance)) ∧
      ((w 0).getLsbD 60 = true → asks (.rngq g d a) (w 4) 3)) ∧
    (∀ (f : FlitWords) (at' : Nat) (dir : Bool), s.fabReady Flit.tRangeReq s.requestReady = some f →
      s.access (targetCtx f) (targetVa f) .system true = .at at' dir → Flit.pay f 0 = 0 →
      let h0 := s.rngWord at' 0
      let h1 := s.rngWord at' 1
      fit h0 → h0.getLsbD 61 = false → next h1 < hi h1 → ∃ u, exec .rangeRequest s = .next u ∧
        u.unitWord at' 1 = pair (hi h1) (next h1 + size h0 h1) ∧ u.unitWord at' 0 = s.unitWord at' 0 ∧ u.execs = s.execs) ∧
    (∀ (f : FlitWords) (x : Ask) (n : Nat) (y : Exec), s.arg.bad = false →
      s.fabReady Flit.tRangeRep s.replyReady = some f →
      s.fab.asks.find? (fun z => z.id == (Flit.pay f 0).toNat) = some x → x.thief = none → x.asker = none →
      x.exec = some n → s.getExec n = some y → y.wait = .reply x.id → ∃ u, exec .rangeReply s = .next u ∧
        u.getExec n = some { y with met := true, reply := some (Flit.pay f 1 != 0, Flit.pay f 2) } ∧
        u.fab.asks = s.fab.asks.filter (fun z => z.id != x.id))

/-! ### The host's commands -/

/-- A write of a command to a free command register of a READY device, in a state and with arguments that the command
takes, sets BUSY and does at once what the command does at once; START, RELEASE, LOAD and RESTORE in another state,
START with another argument and a code that is not listed are pending with 0x01 or 0x02 and do nothing, and a command
that finds BUSY only sets OVR. An urgent HOLD suspends what stands at an instruction boundary, and asks what stands
inside a word to stop behind it (R106); a WAKE during EVICTING is a pending event (R381). The end of a command clears
BUSY and writes its status: a LOAD or RESTORE leaves the context HELD or in the state that it found, or FREE after a
memory error; a RETIRE FREE; an EVICT EVICTED (R98, R100, R101, R104 to R106, R111, R113, R115, R326, R379, R381). That
HOLD makes the context HELD as it is accepted (DEDUCED, log 31), that START, RELEASE, SETPRI and WAKE act as they are
accepted, and READBACK and RETIRE change nothing before their end (DEDUCED, log 33), that 0x01 is found before 0x02
(DEDUCED, log 34), and that a checkpoint only asked for makes a CKPT set SKIP (DEDUCED, log 35) are the model's
readings. -/
def Obligations.ContextCommands : Prop :=
  ∀ (s : State),
    let k := s.arg.ctx
    let c := s.getCtx k
    let r := c.regs
    let at' := c.state
    let n := r.arg0.toNat
    let does (i : Instr) (code : Byte) (st : Byte) (after : State → Prop) : Prop := ∃ u, exec i s = .next u ∧
      (u.getCtx k).regs.busy = true ∧ (u.getCtx k).regs.code = code ∧ (u.getCtx k).pendStatus = st ∧
      (u.getCtx k).cmd0 = r.arg0 ∧ (u.getCtx k).found = at' ∧ after u
    let same (u : State) : Prop := (u.getCtx k).state = at' ∧ u.execs = s.execs ∧ u.mem = s.mem ∧ u.cells = s.cells
    let becomes (st : CtxState) (u : State) : Prop := (u.getCtx k).state = st
    let image : Prop := n % 512 = 0 ∧ (r.arg1 = 1 ∨ n < 2 ^ 40)
    let ends (st : Byte) (u : State) : Prop := (u.getCtx k).regs.busy = false ∧ (u.getCtx k).regs.status = st
    (r.busy = false → s.dev.state = .ready →
      (at' = .free ∨ at' = .evicted → image → r.arg1.toNat ≤ 1 → does .load 1 0 (becomes .loading)) ∧
      (at' = .held → 1 ≤ n → n < 16 → s.cellFailed = false → does .start 2 0 fun u => becomes .running u ∧
        (u.getCtx k).regs.bp = r.arg0.setWidth 4 ∧ (u.getCtx k).request = true ∧ u.execs = s.execs) ∧
      (at' = .running → n = 0 → does .holdSoft 3 0 fun u => becomes .held u ∧ u.execs = s.execs) ∧
      (at' = .running → n = 1 → s.inPass k = false → does .holdUrgent 3 0 fun u => becomes .held u ∧
        (Tbl.sorted s.execs = true → ∀ m f, s.getExec m = some f → f.ctx = k → f.status = .live →
          (f.wait = .engines → u.getExec m = some f) ∧
          (f.wait ≠ .engines → f.insideWord = true → u.getExec m = some { f with stopAsked := true }) ∧
          (f.wait ≠ .engines → f.insideWord = false →
            ∃ f', u.getExec m = some f' ∧ f'.status = .suspended ∧ f'.pc = f.pc ∧ f'.g = f.g))) ∧
      (at' = .held ∨ at' = .trapped → n < 2 → s.cellFailed = false → does .release 4 0 fun u => becomes .running u ∧
        (u.getCtx k).traps = [] ∧ (u.getCtx k).trapOvf = false ∧ (u.getCtx k).request = true ∧
        (Tbl.sorted c.redexes = true → ∀ a, (s.getRedex k a = none → u.getRedex k a = none) ∧
          ∀ x, s.getRedex k a = some x →
            (x.state ≠ .loading → u.getRedex k a = some (State.releaseFate (n == 1) x)) ∧
            (x.state = .loading → ∃ y, u.getRedex k a = some y ∧ y.state = .innermost))) ∧
      (at' ≠ .free → at' ≠ .evicted → 1 ≤ n → n < 16 → does .setpri 5 0 fun u => same u ∧
        (u.getCtx k).regs.bp = r.arg0.setWidth 4) ∧
      (at' = .running → n = 0 → does .setpri 5 0 fun u => becomes .held u ∧ (u.getCtx k).regs.bp = r.bp) ∧
      (at' = .running ∨ at' = .held ∨ at' = .trapped ∨ at' = .done → n < 16 →
        (c.drain = none → c.ckptAsked = none → does .ckpt 6 0 fun u => same u ∧
          (u.getCtx k).ckptAsked = some (r.arg0.setWidth 4)) ∧
        (c.drain ≠ none ∨ c.ckptAsked ≠ none → does .ckpt 6 0 fun u => same u ∧ (u.getCtx k).regs.ckSkip = true ∧
          (u.getCtx k).ckptAsked = c.ckptAsked)) ∧
      (at' = .running ∨ at' = .held ∨ at' = .trapped ∨ at' = .done → image → r.arg1.toNat ≤ 2 →
        (r.arg1.toNat = 2 → r.arg2.toNat < 2 ^ 18) → does .evict 7 0 (becomes .evicting)) ∧
      (at' = .free ∨ at' = .evicted → image → r.arg1.toNat ≤ 2 → (r.arg1.toNat = 2 → r.arg2.toNat < 2 ^ 18) →
        does .restore 8 0 (becomes .restoring)) ∧
      (∀ q, n < 2 ^ 32 → c.fq.find? (fun x => x.seq == some (r.arg0.setWidth 32)) = some q →
        (at' = .evicting → does .wake 9 0 fun u => becomes at' u ∧ (u.getCtx k).fq = c.fq ∧ u.execs = s.execs ∧
          (u.getCtx k).events = c.events ++ [BitVec.ofNat 64 (4 * 2 ^ 60 + q.cell * 2 ^ 48 + n)]) ∧
        (at' ≠ .evicting → does .wake 9 0 fun u => q ∉ (u.getCtx k).fq ∧ (u.getCtx k).request = true ∧ becomes at' u ∧
          (Tbl.sorted s.execs = true → ∀ m f va w, s.getExec m = some f → f.ctx = k → f.wait = .page va w →
            va.toNat / 2 ^ 16 = q.region → ∃ f', u.getExec m = some f' ∧ f'.wait = .nothing ∧
              (f.status = .parked → f'.status = .ready)))) ∧
      (n < 2 ^ 32 → (∀ q ∈ c.fq, q.seq ≠ some (r.arg0.setWidth 32)) → does .wake 9 2 same) ∧
      (n < 2 ^ 48 → does .readback 0xA 0 same) ∧
      (at' = .held ∨ at' = .trapped ∨ at' = .done ∨ at' = .evicted → does .retire 0xB 0 same) ∧
      (at' ≠ .held → does .start 2 1 same) ∧
      (at' ≠ .held → at' ≠ .trapped → does .release 4 1 same) ∧
      (at' = .held → n = 0 ∨ 16 ≤ n → does .start 2 2 same) ∧
      (at' ≠ .free → at' ≠ .evicted → does .load 1 1 same ∧ does .restore 8 1 same) ∧
      (at' = .held → 1 ≤ n → n < 16 → s.cellFailed = true → does .start 2 6 same) ∧
      (let code : Byte := s.arg.val.setWidth 8
       code = 0 ∨ 0xB < code.toNat → does .cmdUnlisted code 2 same)) ∧
    (r.busy = true → ∀ i ∈ ([.load, .start, .release, .setpri, .ckpt, .evict, .restore, .wake, .readback, .retire] :
      List Instr), exec i s = .next (s.modRegs k fun x => { x with ovr := true })) ∧
    (r.busy = true → (r.arg0.getLsbD 0 = false → exec .holdSoft s = .next (s.modRegs k fun x => { x with ovr := true })) ∧
      (r.arg0.getLsbD 0 = true → exec .holdUrgent s = .next (s.modRegs k fun x => { x with ovr := true })) ∧
      (let code := (s.arg.val.setWidth 8 : Byte).toNat
       code = 0 ∨ 0xB < code → exec .cmdUnlisted s = .next (s.modRegs k fun x => { x with ovr := true }))) ∧
    (r.busy = true → c.pendStatus ≠ 0 → ∃ u, exec .cmdComplete s = .next u ∧ ends c.pendStatus u ∧ same u) ∧
    (r.busy = true → c.pendStatus = 0 →
      (r.code = 2 ∨ r.code = 4 ∨ r.code = 6 ∨ r.code = 9 ∨ (r.code = 5 ∧ c.cmd0 ≠ 0) →
        ∃ u, exec .cmdComplete s = .next u ∧ ends 0 u ∧ same u) ∧
      (r.code = 0xB → s.inPass k = false → (∀ x ∈ s.mem.copyOut, x.ctx ≠ k) → ∃ u, exec .cmdComplete s = .next u ∧
        ends 0 u ∧ becomes .free u ∧
        (u.getCtx k).pockets = [] ∧ (u.getCtx k).redexes = [] ∧ ∀ p ∈ u.execs, p.2.ctx ≠ k) ∧
      (r.code = 0xA → ∃ u, exec .cmdComplete s = .next u ∧ same u ∧
        (∀ w, s.readWindow k (field c.cmd0 7 0) (field c.cmd0 47 8) = some w → ends 0 u ∧ (u.getCtx k).window = w) ∧
        (s.readWindow k (field c.cmd0 7 0) (field c.cmd0 47 8) = none → ends 2 u)) ∧
      (r.code = 1 ∨ r.code = 8 → s.arg.bad = true ∨ s.cellFailed = true →
        ∃ u, exec .cmdComplete s = .next u ∧ ends 6 u ∧ becomes .free u) ∧
      (r.code = 1 → s.arg.bad = false → s.cellFailed = false →
        ∃ u st, exec .cmdComplete s = .next u ∧ ends st u ∧ becomes (if st = 0 then .held else c.found) u) ∧
      (r.code = 8 → s.arg.bad = false → s.cellFailed = false →
        ∃ u st, exec .cmdComplete s = .next u ∧ ends st u ∧ (becomes .held u ∨ becomes c.found u)) ∧
      (r.code = 7 → c.drain = none → s.evictReady k = true → s.arg.bad = false → field c.cmd1 1 0 ≠ 2 →
        ∃ u, exec .cmdComplete s = .next u ∧ ends 0 u ∧
          becomes .evicted u ∧ ∀ p ∈ u.execs, p.2.ctx ≠ k) ∧
      (r.code = 3 → s.heldStill k = true → ∃ u, exec .holdComplete s = .next u ∧ ends 0 u ∧ same u ∧
        (u.getCtx k).still = true) ∧
      (r.code = 3 → s.heldStill k = false → exec .holdComplete s = .next s)) ∧
    (r.busy = false → at' = .held → s.heldStill k = true →
      ∃ u, exec .holdComplete s = .next u ∧ same u ∧ (u.getCtx k).still = true)

/-- FWLOAD, the other device commands and their ends, the firmware's checks, part reset, the self-test, a cell failure,
and the power cap and its window (R9, R96, R97, R251, R411 to R415, R422 to R424). That a part reset keeps the presence
bits and the host's memory, and writes the slices' lines back, is the model's reading (DEDUCED, log 42), and so are when
the self-test ends (DEDUCED, log 43) and that OPREG, FLUSH, HEAPWR, ATTEST and TELCLR leave memory and contexts as they
were until their end, at which they act (DEDUCED, log 41). -/
def Obligations.DeviceCommands : Prop :=
  ∀ (s : State),
    let d := s.dev
    let status (st : Byte) (u : State) : Prop := u.dev.busy = false ∧ u.dev.status = st
    let fw := d.fw
    let locked (reason : Byte) : Prop := ∃ u, exec .fwVerify s = .next u ∧ u.dev.state = .locked ∧ u.dev.reason = reason ∧
      u.dev.pendStatus = 3 ∧ u.ctxs = s.ctxs
    let reads : Bool := Config.firmwareHeaderOk fw
    (d.busy = false → d.state = .locked → d.reason ≠ 8 → ∃ u, exec .fwload s = .next u ∧ u.dev.state = .loading ∧
      u.dev.reason = 0 ∧ u.dev.busy = true ∧ u.dev.code = 1) ∧
    (d.busy = false → d.state ≠ .locked → ∃ u, exec .fwload s = .next u ∧ u.dev.state = d.state ∧ u.dev.pendStatus = 1) ∧
    (d.busy = false → d.state = .locked → d.reason = 8 → ∃ u, exec .fwload s = .next u ∧ u.dev.state = .locked ∧
      u.dev.pendStatus = 3 ∧ u.dev.reason = 8) ∧
    (d.busy = false → d.state = .ready → ∀ p ∈ ([(.opreg, 2), (.flush, 3), (.heapwr, 4), (.attest, 5), (.telclr, 6)] :
      List (Instr × Byte)), ∃ u, exec p.1 s = .next u ∧ u.dev.busy = true ∧ u.dev.code = p.2 ∧ u.dev.cmd0 = d.arg0 ∧
        u.dev.cmd1 = d.arg1 ∧ u.dev.cmd2 = d.arg2 ∧ u.mem = s.mem ∧ u.ctxs = s.ctxs) ∧
    (d.busy = true ∨ d.state ≠ .ready → ∀ i ∈ ([.opreg, .flush, .heapwr, .attest, .telclr] : List Instr),
      exec i s = .next { s with dev := { d with ovr := true } }) ∧
    (let code : Byte := s.arg.val.setWidth 8
     d.busy = false → d.state = .ready → code = 0 ∨ 6 < code.toNat → ∃ u, exec .dcmdUnlisted s = .next u ∧
      u.dev.busy = true ∧ u.dev.code = code ∧ u.dev.pendStatus = 2) ∧
    (d.state = .loading → s.arg.bad = true → locked 7) ∧
    (d.state = .loading → s.arg.bad = false → ∃ u, exec .fwVerify s = .next u ∧ u.dev.state = .verifying ∧
      u.dev.fw = s.mem.host.readBytes d.cmd0.toNat d.cmd1.toNat) ∧
    (d.state = .verifying →
      (fw.length < 4096 ∨ reads = false → locked 5) ∧
      (4096 ≤ fw.length → reads = true →
        (Config.firmwareRsaOk fw = false → Config.firmwareHashOk fw = true → locked 2) ∧
        (Config.firmwareRsaOk fw = true → Config.firmwareHashOk fw = false → locked 3) ∧
        (Config.firmwareRsaOk fw = false → Config.firmwareHashOk fw = false → locked 4) ∧
        (Config.firmwareRsaOk fw = true → Config.firmwareHashOk fw = true → Config.firmwareDigestOk fw = true →
          ((Config.firmwareSvn fw).toNat < Config.fusedSvn.toNat → locked 6) ∧
          (Config.fusedSvn.toNat ≤ (Config.firmwareSvn fw).toNat → ∃ u, exec .fwVerify s = .next u ∧
            u.dev.state = .ready ∧ u.dev.svn = Config.firmwareSvn fw ∧ u.ctxs = s.ctxs)))) ∧
    (d.busy = true →
      (d.code = 6 → ∃ u, exec .dcmdComplete s = .next u ∧ status 0 u ∧ ∀ i, vget 0 u.dev.telem i = 0) ∧
      (d.code = 3 → ∃ u, exec .dcmdComplete s = .next u ∧ status 0 u ∧ u.execs = s.execs ∧
        (∀ l ∈ u.mem.dirty, ¬(l.1 % 2 ^ 33 * 128 / 2 ^ 38 = field d.cmd0 1 0 ∧
          l.1 % 2 ^ 33 * 128 / 2 ^ 30 % 256 = field d.cmd0 9 2)) ∧
        ∀ key bs, s.mem.dirty = [(key, bs)] → bs.length = 128 →
          key % 2 ^ 33 * 128 / 2 ^ 38 = field d.cmd0 1 0 → key % 2 ^ 33 * 128 / 2 ^ 30 % 256 = field d.cmd0 9 2 →
          u.mem.dirty = [] ∧ u.mem.hbm.readBytes (key % 2 ^ 33 * 128) 128 = bs) ∧
      (d.code = 4 → MemoryInv s → d.cmd0.toNat < 4 → d.cmd1.toNat < 2 ^ 48 → d.cmd1.toNat % 8 = 0 →
        (∀ pa dir, s.access (Fin.ofNat 4 d.cmd0.toNat) d.cmd1.toNat .heap true = .at pa dir →
          (s.present pa = false → ∃ u, exec .dcmdComplete s = .next u ∧ status 0 u ∧ u.present pa = true ∧
            u.loadWord (pa / 8 * 8) = d.cmd2 ∧ u.execs = s.execs) ∧
          (s.present pa = true → ∃ u, exec .dcmdComplete s = .next u ∧ status 9 u ∧ u.mem = s.mem)) ∧
        (s.access (Fin.ofNat 4 d.cmd0.toNat) d.cmd1.toNat .heap true = .missing →
          ∃ u, exec .dcmdComplete s = .next u ∧ status 2 u ∧ u.mem = s.mem)) ∧
      (d.code = 2 → let o := s.readOffer d.cmd0.toNat d.cmd2.toNat
        (∀ st w l, s.opregFaults o (field d.cmd1 3 0) = (st, w) :: l → ∃ u, exec .dcmdComplete s = .next u ∧
          status (BitVec.ofNat 8 st) u ∧ u.dev.ops = d.ops ∧ u.ctxs = s.ctxs) ∧
        (s.opregFaults o (field d.cmd1 3 0) = [] → ∃ u, exec .dcmdComplete s = .next u ∧ status 0 u ∧
          Tbl.find u.dev.ops (field o.hdr0 15 0) = some ⟨o.hdr0, o.hdr1, (o.words.drop 2).take (field o.hdr1 11 0),
            o.words.drop (2 + field o.hdr1 11 0)⟩ ∧
          ∀ k : CtxId, (field d.cmd1 3 0).testBit k.val = true →
            BitVec.ofNat 16 (field o.hdr0 15 0) ∈ (u.getCtx k).ops)) ∧
      (d.code = 5 → s.arg.bad = false → ∃ u, exec .dcmdComplete s = .next u ∧ status 0 u ∧ u.execs = s.execs ∧
        ∀ y, y < d.cmd0.toNat ∨ d.cmd0.toNat + 8192 ≤ y → u.mem.host.read y = s.mem.host.read y)) ∧
    (∃ u, exec .partReset s = .next u ∧ u.dev.state = .reset ∧ u.execs = [] ∧ u.cells = [] ∧ u.pass = none ∧
      u.dev.ops = [] ∧
      u.fab.fabid = 0 ∧ u.mem.host = s.mem.host ∧ u.mem.dirty = [] ∧ u.mem.present = s.mem.present ∧
      (∀ k, (u.getCtx k).state = .free) ∧ ∀ i, vget 0 u.dev.telem i = 0) ∧
    (d.state = .reset → s.arg.bad = true → ∃ u, exec .selfTestDone s = .next u ∧ u.dev.state = .locked ∧
      u.dev.reason = 8) ∧
    (d.state = .reset → s.arg.bad = false →
      ((∀ l, l < 4 → (s.getLink l).st ≠ .down ∧ (s.getLink l).st ≠ .training) →
        ∃ u, exec .selfTestDone s = .next u ∧ u.dev.state = .locked ∧ u.dev.reason = 1) ∧
      (∀ l, l < 4 → (s.getLink l).st = .down ∨ (s.getLink l).st = .training → exec .selfTestDone s = .next s)) ∧
    (∃ u, exec .cellFailure s = .next u ∧ (u.getCell s.arg.cell.val).failed = true ∧
      (∀ k, (s.getCtx k).state = .running ∨ (s.getCtx k).state = .held ∨ (s.getCtx k).state = .done →
        (u.getCtx k).state = .trapped ∧ ((s.getCtx k).traps.length < 16 → ∃ t, (u.getCtx k).traps =
          State.insertTrap t (s.getCtx k).traps ∧ t.cause = 0x21 ∧ t.cls = .machine ∧ t.time = s.clk)) ∧
      ∀ k, (s.getCtx k).state = .free → u.getCtx k = s.getCtx k) ∧
    (let g := s.getGal s.arg.gal.val
     let new : BitVec 16 := s.arg.val.setWidth 16
     let power := (Config.packagePower s.clk.toNat).toNat
     let sets : Prop := ∃ u, exec .powerCapAdjust s = .next u ∧ (u.getGal s.arg.gal.val).power = new ∧ u.cells = s.cells
     (d.pwrlim.toNat < power → new ≠ 0 → g.power = 0 ∨ new < g.power → sets) ∧
     (power < d.pwrlim.toNat → g.power ≠ 0 → new = 0 ∨ g.power < new → sets) ∧
     (g.win ≠ s.clk.toNat / 1024 → ∃ u, exec .limiterWindow s = .next u ∧
      (let z := u.getGal s.arg.gal.val
       z.win = s.clk.toNat / 1024 ∧ z.count = 0 ∧ z.glim = g.glim ∧
        (g.glim ≠ 0 → g.power ≠ 0 → z.capNow.toNat = min g.glim.toNat g.power.toNat) ∧
        (g.glim = 0 → z.capNow = g.power) ∧ (g.power = 0 → z.capNow = g.glim)) ∧
      u.cells = s.cells ∧ (u.getGal s.arg.gal.val).waiting = g.waiting))

/-- Host writes of registers take the fields that the register has, in the states in which it can be written, and one of
TMASK governs the faults of later cycles; a status read clears OVR; TLBINV is done once every access made before it is
accepted, and with scope 3 drops every translation of its context and of no other, those of held words included; lines
that a window entry homes elsewhere are gone (R315), and K is stored as written, above 8 too (DESIGN CHOICE, log 44); a
GLIM holds from the next window (R424); a write of a reduction group that is set is discarded; a pending fault entry is posted to a ring that has room (R99, R104,
R108, R144, R209, R313, R315, R376 to R380, R393, R409, R413, R420 to R422). -/
def Obligations.HostRegisters : Prop :=
  ∀ (s : State),
    let k := s.arg.ctx
    let c := s.getCtx k
    let r := c.regs
    let v := s.arg.val
    let d := s.dev
    let opn : Prop := c.state ≠ .running ∧ c.state ≠ .loading ∧ c.state ≠ .restoring ∧ c.state ≠ .evicting
    let sets (i : Instr) (f : CtxRegs) : Prop := ∃ u, exec i s = .next u ∧ (u.getCtx k).regs = f ∧ u.execs = s.execs ∧
      u.mem = s.mem ∧ (u.getCtx k).state = c.state
    (c.state ≠ .free → c.state ≠ .evicted → field v 3 0 ≠ 0 →
      sets .priWrite { r with bp := BitVec.ofNat 4 (field v 3 0), urg := v.getLsbD 16 }) ∧
    (c.state = .running → field v 3 0 = 0 → ∃ u, exec .priWrite s = .next u ∧ (u.getCtx k).state = .held ∧
      (u.getCtx k).regs = { r with urg := v.getLsbD 16 }) ∧
    (sets .tmaskWrite { r with
      tmask := BitVec.ofNat 5 (field v 4 0), tmaskOld := s.tmaskNow k, tmaskAt := some s.clk }) ∧
    (∀ u, exec .tmaskWrite s = .next u → u.tmaskNow k = s.tmaskNow k ∧
      ∀ n, n ≠ s.clk → ({ u with clk := n } : State).tmaskNow k = BitVec.ofNat 5 (field v 4 0)) ∧
    (opn → sets .tidycfgWrite { r with
      rth := BitVec.ofNat 12 (max 64 (field v 27 16)), spread := BitVec.ofNat 4 (field v 7 4) }) ∧
    (¬opn → exec .tidycfgWrite s = .next s) ∧
    (sets .dbgcfgWrite { r with bken := v.getLsbD 0, bkenOld := s.bkenNow k, bkenAt := some s.clk }) ∧
    (r.tlbBusy = false → sets .tlbinvWrite { r with tlbinv := v &&& 0x0000FFFFFFFF0003, tlbBusy := true }) ∧
    (r.tlbBusy = true → (∀ a ∈ s.mem.accs, a.ctx = k → a.accepted ≠ none) → (∀ x ∈ s.mem.copyOut, x.ctx ≠ k) →
      ∃ u, exec .tlbinvDone s = .next u ∧
      (let again (j : Nat) : Option Nat := match s.access k (8 * j) .heap true with
        | .at pa _ => some pa
        | _ => none
       field r.tlbinv 1 0 = 3 → ∀ a q, s.getRedex k a = some q → ∃ q', u.getRedex k a = some q' ∧
        ∀ j h, Tbl.find q.held j = some h → h.pa ≠ none → Tbl.find q'.held j = some { h with pa := again j }) ∧
      (u.getCtx k).regs = { r with tlbBusy := false } ∧
      (∀ j t, t ∈ (u.getCell j).tlb → t ∈ (s.getCell j).tlb) ∧
      (field r.tlbinv 1 0 = 3 → (∀ g, g < 4 → ∀ t ∈ (u.getGal g).tlb, t.ctx ≠ k) ∧
        (Tbl.sorted s.cells = true → ∀ j, ∀ t ∈ (u.getCell j).tlb, t.ctx ≠ k)) ∧
      (Tbl.sorted s.cells = true → ∀ j, ∀ t ∈ (s.getCell j).tlb, t.ctx ≠ k → t ∈ (u.getCell j).tlb) ∧
      ∀ g t, g < 4 → t ∈ (s.getGal g).tlb → t.ctx ≠ k → t ∈ (u.getGal g).tlb) ∧
    (sets .fqconsWrite { r with fqCons := BitVec.ofNat 64 (field v 7 0) }) ∧
    (∀ q, c.fq.find? (fun x => x.seq.isNone) = some q → (field r.fqProd 7 0 + 1) % 256 ≠ field r.fqCons 7 0 →
      ∃ u q', exec .fqPost s = .next u ∧ q' ∈ (u.getCtx k).fq ∧ q'.region = q.region ∧ q'.seq = some (c.fqSeq + 1) ∧
        (u.getCtx k).fqSeq = c.fqSeq + 1 ∧ field (u.getCtx k).regs.fqProd 7 0 = (field r.fqProd 7 0 + 1) % 256 ∧
        field (u.getCtx k).regs.fqProd 63 32 = (c.fqSeq + 1).toNat ∧
        (let at' := field r.fqBase 63 12 * 4096 + 16 * field r.fqProd 7 0
         leNat (u.mem.host.readBytes at' 8) =
           (c.fqWrap.toNat * 2 ^ 63 + q.space.toNat * 2 ^ 56 + q.kind.toNat * 2 ^ 48 + q.region * 2 ^ 16) % 2 ^ 64 ∧
         leNat (u.mem.host.readBytes (at' + 8) 8) =
           ((c.fqSeq + 1).toNat * 2 ^ 32 + q.count * 2 ^ 16 + q.cell) % 2 ^ 64 ∧
         ∀ y, y < at' ∨ at' + 16 ≤ y → u.mem.host.read y = s.mem.host.read y)) ∧
    ((∀ l, 4 ≤ l → l < 20 → (s.getLink l).usable = false) → ∃ u, exec .fabidWrite s = .next u ∧
      u.fab.fabid = v.setWidth 18 ∧ u.ctxs = s.ctxs) ∧
    (∀ l, 4 ≤ l → l < 20 → (s.getLink l).usable = true → exec .fabidWrite s = .next s) ∧
    (∃ u, exec .glimWrite s = .next u ∧
      let g := s.getGal s.arg.gal.val
      let z := u.getGal s.arg.gal.val
      z.glim = v.setWidth 16 ∧ z.power = g.power ∧ z.window = g.window ∧ z.waiting = g.waiting ∧
        (g.win = s.clk.toNat / 1024 → z.capNow = g.capNow ∧ z.count = g.count) ∧
        (g.win ≠ s.clk.toNat / 1024 → z.win = s.clk.toNat / 1024 ∧ z.count = 0 ∧ (g.power = 0 → z.capNow = g.glim))) ∧
    (∃ u, exec .sliceWindowWrite s = .next u ∧
      ∀ i, Tbl.get (8, 0) (u.getGal s.arg.gal.val).window i =
        if i = s.arg.idx % 256 then (field v 19 16, field v 7 0) else Tbl.get (8, 0) (s.getGal s.arg.gal.val).window i) ∧
    (∀ u, exec .sliceWindowWrite s = .next u → ∀ l ∈ u.mem.dirty, lineKey u (l.1 % 2 ^ 33 * 128) = l.1) ∧
    (let i := s.arg.idx % 64
     let g := Tbl.get (0, 0) s.fab.groups i
     (g.1.getLsbD 63 = true → exec .reductionGroupWrite s = .next s) ∧
     (g.1.getLsbD 63 = false → s.arg.id % 4 = 0 → ∃ u, exec .reductionGroupWrite s = .next u ∧
      Tbl.get (0, 0) u.fab.groups i = (v &&& 0x8FFFFF7FFFFFFFFF, g.2)) ∧
     (g.1.getLsbD 63 = false → s.arg.id % 4 = 1 → ∃ u, exec .reductionGroupWrite s = .next u ∧
      Tbl.get (0, 0) u.fab.groups i = (g.1, v &&& 0xFFFF1F00FFFF8FF7))) ∧
    (∃ u, exec .pwrlimWrite s = .next u ∧ u.dev.pwrlim.toNat = min 3000 (max 100 (field v 31 16)) ∧ u.ctxs = s.ctxs) ∧
    (∀ p ∈ ([(0x1008, { d with arg0 := v }), (0x1010, { d with arg1 := v }), (0x1018, { d with arg2 := v }),
        (0x1020, { d with arg3 := v })] : List (Nat × Device)), s.arg.id = p.1 →
      exec .regWrite s = .next { s with dev := p.2 }) ∧
    (∀ i, i < 10 → s.arg.id = 0x40800 + 8 * i → ∃ u, exec .regWrite s = .next u ∧ vget 0 u.dev.thresh i = v ∧
      u.dev.telem = d.telem) ∧
    (∀ (j : CtxId) (off : Nat), s.arg.id = 0x10000 + 0x400 * j.val + off →
      let x := s.getCtx j
      let y := x.regs
      let gets (f : CtxRegs) : Prop := ∃ u, exec .regWrite s = .next u ∧ u.getCtx j = { x with regs := f } ∧
        ∀ i, i ≠ j → u.getCtx i = s.getCtx i
      let free : Prop := x.state ≠ .running ∧ x.state ≠ .loading ∧ x.state ≠ .restoring ∧ x.state ≠ .evicting
      (off = 0x08 → gets { y with arg0 := v }) ∧ (off = 0x10 → gets { y with arg1 := v }) ∧
      (off = 0x18 → gets { y with arg2 := v }) ∧ (off = 0x88 → gets { y with fqBase := v &&& 0xFFFFFFFFFFFFF000 }) ∧
      (off = 0x50 → free → gets { y with sumpBase := v &&& 0x0000FFFFFFFFFE00 }) ∧
      (off = 0x58 → free → gets { y with sumpLim := v }) ∧
      (off = 0x68 → free → gets { y with ptroot := v &&& 0x00FF00FFFFFFF000 }) ∧
      (off = 0x50 ∨ off = 0x58 ∨ off = 0x68 → ¬free → exec .regWrite s = .next s)) ∧
    (s.arg.id = 0x1028 → exec .statusRead s = .next
      { s with lastRead := s.barReg 0x1028, dev := { d with ovr := false } }) ∧
    (∀ j : CtxId, s.arg.id = 0x10020 + 0x400 * j.val → ∃ u, exec .statusRead s = .next u ∧
      u.lastRead = cmdstWord (s.getCtx j).regs ∧ (u.getCtx j).regs = { (s.getCtx j).regs with ovr := false })

/-! ### Passes -/

/-- The free tree begins a pass of the running context whose request stands with the greatest priority, then the
longest wait, then the lower number; no pass begins and no phase runs while a bridge is DOWN or in TRAINING. A phase
whose root results disagree only runs again, and the third time traps the context with SDC. COMMIT collects the redexes
that were HALTED as the pass began, puts a halted redex's symbols into its slots and replaces a WAIT whose word has
come; TIDY keeps the symbols and their order, and lays out nothing where a cell finds an error in a flit of the row;
MARK records the innermost applications, and ends a context that has none; LAUNCH halts a redex that holds a BOT with
it, and queues the members of one whose code its cells hold. A free cell takes the entry that the order names; one
whose live execution is to go suspends it at its instruction boundary, unless its HALT has issued; and a checkpoint's
chunk goes to host memory, or ends the checkpoint with ERR where it has no room or no target, of which the latter is the
model's choice (DESIGN CHOICE, log 68; R12, R73, R74, R102, R103, R105, R106,
R115 to R118, R122 to R127, R136, R145, R368, R388, R389). -/
def Obligations.Passes : Prop :=
  (∀ (s : State),
    let asks (k : CtxId) : Prop := (s.getCtx k).state = .running ∧ s.requestStands k = true
    let ep (k : CtxId) : Nat := min 15 ((s.getCtx k).regs.bp.toNat + (s.getCtx k).regs.waited.toNat / 64)
    let w (k : CtxId) : Nat := (s.getCtx k).regs.waited.toNat
    let up : Prop := ∀ l, l < 4 → (s.getLink l).st ≠ .down ∧ (s.getLink l).st ≠ .training
    (∀ k, s.nextServed = some k ↔ asks k ∧ ∀ j, asks j → j ≠ k →
      ep j < ep k ∨ (ep j = ep k ∧ (w j < w k ∨ (w j = w k ∧ k < j)))) ∧
    (∀ k, s.pass = none → s.nextServed = some k → up →
      let halted := ((s.getCtx k).redexes.filter fun (x : RedexAt) => x.2.state = .halted).map Prod.fst
      ∃ u, exec .passArbitration s = .next u ∧ u.pass = some { ctx := k, phase := .commit, halted := halted } ∧
        (u.getCtx k).request = false ∧ (u.getCtx k).passes = (s.getCtx k).passes + 1 ∧
        (u.getCtx k).regs.waited = 0 ∧ (u.getCtx k).rthNow = (s.getCtx k).regs.rth ∧
        (u.getCtx k).spreadNow = (s.getCtx k).regs.spread ∧ (u.getCtx k).sumpLimNow = (s.getCtx k).regs.sumpLim ∧
        (∀ j, j ≠ k → s.requestStands j = true → (u.getCtx j).regs.waited.toNat = min 0xFFFF (w j + 1)) ∧
        (∀ j, j ≠ k → s.requestStands j = false → u.getCtx j = s.getCtx j) ∧ u.mem = s.mem ∧ u.execs = s.execs) ∧
    (¬up → ∀ i ∈ ([.passArbitration, .commit, .tidy, .mark, .launch] : List Instr), exec i s = .next s) ∧
    (∀ k, s.pass = some k → exec .passArbitration s = .next s)) ∧
  (∀ (s : State) (p : Pass), s.pass = some p → (∀ l, l < 4 → (s.getLink l).st ≠ .down ∧ (s.getLink l).st ≠ .training) →
    let k := p.ctx
    let c := s.getCtx k
    let on (i : Instr) (ph next : Phase) (after : State → Prop) : Prop := p.phase = ph → s.arg.bad = false →
      ∃ u q, exec i s = .next u ∧ u.pass = some q ∧ q.ctx = k ∧ q.phase = next ∧ q.repeats = 0 ∧ after u
    let row := c.pockets
    let words : Prop := Tbl.sorted row = true ∧ ∀ x : Nat × Word, x ∈ row → x.1 < 32768 ∧ field x.2 63 60 ≠ 0xE
    (∀ (i : Instr) (ph : Phase), (i, ph) ∈ ([(.commit, .commit), (.tidy, .tidy), (.mark, .mark)] : List (Instr × Phase)) →
      p.phase = ph → s.arg.bad = true →
      (p.repeats < 2 → ∃ u, exec i s = .next u ∧
        u.pass = some { p with repeats := p.repeats + 1, allRepeats := p.allRepeats + 1 } ∧ u.ctxs = s.ctxs ∧
        u.execs = s.execs ∧ u.mem = s.mem) ∧
      (2 ≤ p.repeats → c.state = .running → c.traps.length < 16 → ∃ u t, exec i s = .next u ∧ u.pass = none ∧
        (u.getCtx k).state = .trapped ∧ (u.getCtx k).traps = State.insertTrap t c.traps ∧ t.time = s.clk ∧
          t.cause = 0x20 ∧ t.cls = .machine ∧
        (u.getCtx k).pockets = row)) ∧
    on .commit .commit .tidy (fun u => ∀ a r, a ∈ p.halted → u.getRedex k a = some r → r.state ≠ .halted) ∧
    (Tbl.sorted c.redexes = true → on .commit .commit .tidy fun u => ∀ a r, a ∉ p.halted → s.getRedex k a = some r →
      r.state = .halted → ∃ f, u.getRedex k a = some f ∧ f.state = .halted ∧ f.out = r.out) ∧
    (∀ (a : Nat) (r : Redex), c.redexes = [(a, r)] → a ∈ p.halted → r.state = .halted → r.held = [] →
      r.granted = 0 → r.chunks = [] →
      c.ckptAsked = none → r.op ≠ 0x50 → a < 32768 → Tbl.sorted row = true →
      (∀ x : Nat × Word, x ∈ row → field x.2 63 60 ≠ 0xC) →
      let slots := row.filter fun x => a ≤ x.1 && x.1 ≤ r.appc
      let out := r.out.flatMap fun x => x.2
      out.length ≤ r.len → out.length ≤ slots.length → on .commit .commit .tidy fun u => (u.getCtx k).redexes = [] ∧
        (∀ (i : Nat) (x : Nat × Word), slots[i]? = some x → Tbl.find (u.getCtx k).pockets x.1 = out[i]?) ∧
        ∀ x, x < a ∨ r.appc < x → Tbl.find (u.getCtx k).pockets x = Tbl.find row x) ∧
    (∀ (pos pa : Nat) (dir : Bool) (x y : Word), c.redexes = [] → Tbl.sorted row = true → Tbl.find row pos = some x →
      field x 63 60 = 0xC → c.waitStall = [] → s.access k (field x 47 0) .heap false = .at pa dir →
      s.present pa = true → s.loadWord (pa / 8 * 8) = y → isAtom y = true → wellFormedSym y = true →
      on .commit .commit .tidy fun u => Tbl.find (u.getCtx k).pockets pos = some (if field y 59 58 = k.val then y
        else BitVec.ofNat 64 (0xD * 2 ^ 60 + k.val * 2 ^ 58 + 0x14))) ∧
    (s.arg.idx ≠ 0 → p.phase = .tidy → ∃ u, exec .tidy s = .next u ∧ (u.getCtx k).pockets = row) ∧
    (words → s.arg.idx = 0 → c.redexes = [] → c.unplaced = [] → row.length ≤ capacity c.spreadNow.toNat (0, 32768) →
      on .tidy .tidy .mark fun u => (u.getCtx k).pockets.map Prod.snd = row.map Prod.snd) ∧
    (words → c.redexes = [] → on .mark .mark .launch fun u => ∀ x ∈ State.innermost (State.rowItems c), ∃ r,
      u.getRedex k x.1 = some r ∧ r.state = .innermost ∧ r.appc = x.2 ∧ r.first = x.1 / 16 ∧ r.last = x.2 / 16) ∧
    (words → c.redexes = [] → c.unplaced = [] → c.state = .running → (∀ x : Nat × Word, x ∈ row → field x.2 63 60 ≠ 5) →
      on .mark .mark .launch fun u => (u.getCtx k).state = .done ∧ (u.getCtx k).pockets = row) ∧
    (c.redexes = [] → p.phase = .launch → c.state = .running → ∃ u, exec .launch s = .next u ∧ u.pass = none ∧
      u.ctxs = s.ctxs ∧ u.execs = s.execs) ∧
    (∀ (a : Nat) (r : Redex), c.redexes = [(a, r)] → r.state = .innermost → p.phase = .launch → c.state = .running →
      let ws := (Row.between row a r.appc).map Prod.snd
      (∀ x ∈ ws, field x 63 60 ≠ 0xC) →
      (∀ b, ws.find? (fun x => field x 63 60 == 0xD) = some b → ∃ u, exec .launch s = .next u ∧ u.pass = none ∧
        u.getRedex k a = some { r with state := .halted, out := [(0, [b])], serial := none, cause := 0 } ∧
        u.execs = s.execs) ∧
      (∀ (o : State.Plan), (∀ x ∈ ws, field x 63 60 ≠ 0xD) → s.planOf k ws = .ok o → o.cap = none →
        s.heldBack k r o = none →
        s.members k a = [] → (∀ x ∈ s.execs, x.2.newCode = false) →
        (∀ i, i < r.last + 1 - r.first → (Tbl.find (s.getCell (r.first + i)).cache o.op.toNat).isSome = true) →
        let serial := r.serial.getD c.launches
        ∃ u f, exec .launch s = .next u ∧ u.pass = none ∧ u.getRedex k a = some f ∧ f.state = .running ∧ f.op = o.op ∧
          f.serial = some serial ∧ (u.getCtx k).pockets = row ∧
          ((u.getCtx k).launches = if r.serial = none then c.launches + 1 else c.launches) ∧
          ∀ i, i < r.last + 1 - r.first → ∃ n e, u.getExec n = some e ∧ s.getExec n = none ∧ n / 256 = r.first + i ∧
            e.rank = i ∧ e.ctx = k ∧ e.appo = a ∧ e.op = o.op ∧ e.status = .queued ∧ e.pc = 0 ∧
            e.rand = randLaunch (r.first + i) serial))) ∧
  (∀ (s : State) (n : Nat) (e : Exec),
    let c := s.arg.cell.val
    (s.liveOf c = none → (s.getCell c).failed = false → s.pick c = some (n, e) → ∃ u, exec .launchQueuePick s = .next u ∧
      (let wait := if e.wait = .yielded then WaitOn.nothing else e.wait
       u.getExec n = some { e with status := .live, frame := [], area := none, saved := false, wait := wait }) ∧
      (∀ m, m ≠ n → u.getExec m = s.getExec m) ∧ u.ctxs = s.ctxs) ∧
    (s.liveOf c = none → s.pick c = none → exec .launchQueuePick s = .next s) ∧
    (s.liveOf c = some (n, e) → (s.getCtx e.ctx).state = .trapped ∨ s.preempts c e = true →
      ∃ u f, exec .urgentPreempt s = .next u ∧ u.getExec n = some f ∧ (∀ m, m ≠ n → u.getExec m = s.getExec m) ∧
        (e.wait = .engines → u = s) ∧
        (e.wait ≠ .engines → e.insideWord = true → f = { e with stopAsked := true }) ∧
        (e.wait ≠ .engines → e.insideWord = false → f.status = .suspended ∧ f.stopAsked = false ∧ f.pc = e.pc ∧ f.g = e.g ∧
          f.v = e.v)) ∧
    (s.liveOf c = some (n, e) → (s.getCtx e.ctx).state ≠ .trapped → s.preempts c e = false →
      exec .urgentPreempt s = .next s)) ∧
  (∀ (s : State) (d : Drain),
    let k := s.arg.ctx
    let c := s.arg.id
    (s.getCtx k).drain = some d → d.evict = false →
    (c < d.chunks.length → d.written.contains c = false → (∀ m ∈ s.fab.sent, m.ctx ≠ k) →
      (d.room ≤ c ∨ d.target = 3 ∨ s.arg.bad = true → ∃ u, exec .ckptChunkDrained s = .next u ∧
        (u.getCtx k).drain = none ∧ (u.getCtx k).regs.ckErr = true ∧
        (u.getCtx k).regs.ckSeq = (s.getCtx k).regs.ckSeq) ∧
      (c < d.room → s.arg.bad = false → d.target = 1 → 1 ≤ c → (d.chunks.getD c []).length = 64 →
        d.addr + 512 * c + 512 ≤ 2 ^ 64 → ∃ u d', exec .ckptChunkDrained s = .next u ∧
          (u.getCtx k).drain = some d' ∧ d'.written = c :: d.written ∧ d'.chunks = d.chunks ∧
          wordsOfBytes 64 (u.mem.host.readBytes (d.addr + 512 * c) 512) = d.chunks.getD c [])) ∧
    ((∀ i, i < d.chunks.length → d.written.contains i = true) → d.target ≠ 2 → ∃ u, exec .ckptDrainDone s = .next u ∧
      (u.getCtx k).drain = none ∧ (u.getCtx k).regs.ckErr = false ∧
      (u.getCtx k).regs.ckSeq = (s.getCtx k).regs.ckSeq + 1) ∧
    ((∃ i, i < d.chunks.length ∧ d.written.contains i = false) → exec .ckptDrainDone s = .next s))

/-! ### Links and the fabric -/

/-- LCTL enables, disables and retrains a link; training ends by the lanes that work, by their loss it begins again,
and it fails after 2^24 cc. A receiver takes the flit that it expects once and acknowledges it with an idle flit where
no other traffic does, drops one with a bad CRC or a gap with a NAK, one for each gap, and a sender resends from the
number that a NAK names; an idle flit that carries the expected number ends a retry in which nothing was lost. One NAK
for a gap, the recovery of RETRYING and the number of an idle flit are the model's readings (DEDUCED, log 46). Lines,
reducing lines and image parts take effect at their home slices, a plain line word by word; a plain line whose page is
missing opens an entry of the fault queue and waits, unacknowledged (DEDUCED, log 26); an acknowledgement retires its
message, and a message is lost that no link carries for 2^24 cc, or that a part in between loses
(DEDUCED, log 26), as is a flit of another part; an image chunk that is lost ends its checkpoint (DEDUCED, log 59); a
reduction group sends its parent one line for the heads of its children's
queues, or tells the target and the sources of its failure (R58, R117, R286, R382 to R396). The words of a payload
stand in the model's order (DESIGN CHOICE, log 22). -/
def Obligations.LinksFabric : Prop :=
  (∀ (s : State),
    let l := s.arg.link.val
    let x := s.getLink l
    let v := s.arg.val
    let f := s.arg.words
    let full := if l < 4 then 64 else 4
    let least := if l < 4 then 32 else 2
    let late : Prop := 2 ^ 24 ≤ s.clk.toNat - x.began.toNat
    let goes (i : Instr) (after : State → Link → Prop) : Prop := ∃ u, exec i s = .next u ∧ after u (u.getLink l)
    let still : Prop := (∀ m ∈ s.fab.sent, m.link ≠ none ∨ m.queued = true ∨ m.dst = s.fab.fabid) ∧ s.fab.transit = []
    let acked (u : State) : Prop := ∃ a, u.fab.sentOut = s.fab.sentOut ++ [(l, a)] ∧ Flit.type a = 0 ∧ Flit.ackv a = true ∧
      Flit.nak a = false ∧ Flit.ack a = x.rxSeq.toNat
    (v.getLsbD 1 = false → v.getLsbD 0 = true →
      (x.st ≠ .down → goes .linkEnable fun u y => y = { x with en := true, rf := 4 ≤ l && v.getLsbD 2 } ∧ u.dev = s.dev) ∧
      (x.st = .down → goes .linkEnable fun _ y => y.st = .training ∧ y.began = s.clk ∧ y.en = true)) ∧
    (v.getLsbD 1 = false → v.getLsbD 0 = false → x.st ≠ .down → goes .linkEnable fun _ y => y.st = .down ∧ y.en = false ∧
      y.lanes = 0 ∧ y.downs.toNat = min 255 (x.downs.toNat + 1)) ∧
    (v.getLsbD 1 = true → v.getLsbD 0 = true → goes .linkRetrain fun _ y => y.st = .training ∧ y.began = s.clk ∧
      y.lanes = 0 ∧ y.retry = x.retry ∧ y.rxSeq = x.rxSeq) ∧
    (v = 0 → goes .lstatClear fun u y => y = { x with crce := 0, rtry := 0 } ∧ u.dev = s.dev ∧ u.fab = s.fab) ∧
    (v ≠ 0 → exec .lstatClear s = .next s) ∧
    (x.st = .training → x.en = true → ¬late →
      (full ≤ s.arg.idx → goes .linkTrainingDone fun _ y => y.st = .up ∧ y.lanes.toNat = full) ∧
      (least ≤ s.arg.idx → s.arg.idx < full → goes .linkTrainingDone fun _ y =>
        y.st = .degraded ∧ y.lanes.toNat = s.arg.idx) ∧
      (s.arg.idx < least → goes .linkTrainingDone fun _ y => y.st = .down)) ∧
    (x.st = .training → late → goes .linkTrainingTimeout fun _ y => y.st = .down) ∧
    (¬(x.st = .training ∧ late) → exec .linkTrainingTimeout s = .next s) ∧
    (x.usable = true → s.arg.idx < x.lanes.toNat → goes .laneLoss fun _ y => y.st = .training ∧ y.began = s.clk) ∧
    (x.usable = true →
      (s.arg.bad = true → goes .flitReceive fun u y => y.crce.toNat = min 0xFFFF (x.crce.toNat + 1) ∧ y.rxSeq = x.rxSeq ∧
        u.fab.inbox = s.fab.inbox ∧ (x.st ≠ .retrying ∨ x.fails < 7 → y.st = .retrying) ∧
        (x.st = .retrying → 7 ≤ x.fails → y.st = .training) ∧
        ∃ n, u.fab.sentOut = s.fab.sentOut ++ [(l, n)] ∧ Flit.nak n = true ∧ Flit.type n = 0) ∧
      (s.arg.bad = false → Flit.ackv f = false → Flit.type f ≠ 0 →
        let t := State.unstamp f
        let n : BitVec 16 := BitVec.ofNat 16 (Flit.seq f)
        (n = x.rxSeq → 4 ≤ l → Flit.type f < 10 → s.rfTakes (l - 4) t = none → Flit.dst f = s.fab.fabid.toNat →
          (Flit.msg f ∉ Tbl.get [] s.fab.seen (Flit.flow f)) → goes .flitReceive fun u y =>
            y.rxSeq = x.rxSeq + 1 ∧ (x.resent = none → y.fails = 0 ∧ y.st ≠ .retrying) ∧ u.fab.inbox = s.fab.inbox ++ [t] ∧
            (x.st ≠ .retrying → acked u)) ∧
        (n = x.rxSeq → l < 4 → goes .flitReceive fun u y => y.rxSeq = x.rxSeq + 1 ∧ u.fab.inbox = s.fab.inbox ∧
          (x.st ≠ .retrying → acked u ∧ u.fab.sent = s.fab.sent)) ∧
        (n ≠ x.rxSeq → (x.rxSeq - n).toNat < 2 ^ 15 → exec .flitReceive s = .next s) ∧
        (n ≠ x.rxSeq → 2 ^ 15 ≤ (x.rxSeq - n).toNat →
          (x.nakSent = false → goes .flitReceive fun u y => y.rxSeq = x.rxSeq ∧ y.nakSent = (y.st != .training) ∧
            u.fab.inbox = s.fab.inbox ∧ ∃ m, u.fab.sentOut = s.fab.sentOut ++ [(l, m)] ∧ Flit.nak m = true) ∧
          (x.nakSent = true → exec .flitReceive s = .next s))) ∧
      (s.arg.bad = false → Flit.ackv f = true → Flit.nak f = false → Flit.type f = 0 → x.waiting = [] → still →
        (BitVec.ofNat 16 (Flit.seq f) : BitVec 16) = x.rxSeq →
        let a := BitVec.ofNat 16 (Flit.ack f)
        goes .flitReceive fun u y =>
          y.retry = x.retry.filter (fun p => p.1 ≠ a ∧ (p.1 - a).toNat < 2 ^ 15) ∧ y.rxSeq = x.rxSeq ∧ u.fab = s.fab ∧
          (x.resent = some a → y.resent = none ∧ y.st ≠ .retrying) ∧
          (x.resent = none → x.nakSent = true → y.nakSent = false ∧ y.st ≠ .retrying)) ∧
      (s.arg.bad = false → Flit.ackv f = false → Flit.type f = 0 →
        let n : BitVec 16 := BitVec.ofNat 16 (Flit.seq f)
        (n ≠ x.rxSeq → (n - x.rxSeq).toNat < 2 ^ 15 → x.nakSent = false → goes .flitReceive fun u y =>
          y.rxSeq = x.rxSeq ∧ u.fab.inbox = s.fab.inbox ∧ ∃ m, u.fab.sentOut = s.fab.sentOut ++ [(l, m)] ∧
            Flit.nak m = true) ∧
        (n ≠ x.rxSeq → 2 ^ 15 ≤ (n - x.rxSeq).toNat ∨ x.nakSent = true → exec .flitReceive s = .next s)) ∧
      (∀ n, x.nak = some n →
        let again := x.retry.filter fun p => !(p.1 != n && (n - p.1).toNat < 2 ^ 15)
        goes .linkNakResend fun u y => y.nak = none ∧ (x.st ≠ .retrying → l < 4 ∨ again ≠ [] → y.st = .retrying) ∧
          (again ≠ [] → u.fab.sentOut = s.fab.sentOut ++ again.map (fun p =>
            (l, Flit.stamp p.2 p.1.toNat (x.rxSeq - 1).toNat x.nakSent))) ∧
          (again = [] → still → ∃ m, u.fab.sentOut = s.fab.sentOut ++ [(l, m)] ∧ Flit.nak m = x.nakSent ∧
            Flit.type m = 0) ∧
          (again = [] → 4 ≤ l → x.nakSent = false → x.resent = none → y.st ≠ .retrying)))) ∧
  (∀ (s : State) (f : FlitWords), MemoryInv s →
    let now := State.linesNow s.lineReady [] s.fab.inbox
    let picked : Prop := now[s.arg.idx % now.length]? = some f
    let lines (i : Instr) (taken : Prop) : Prop := ∀ pa dir, taken → s.flitLine f = .at pa dir →
      pa + 128 ≤ 2 ^ 40 → field (Flit.pay f 0) 2 0 = 0 → s.arg.val = 0 → (∀ p ∈ s.fab.partly, p.1 ≠ f) →
      ∃ u, exec i s = .next u ∧
        (∀ j, j < 16 → u.loadWord (pa + 8 * j) = Flit.pay f (1 + j)) ∧
        (∀ y, y < 2 ^ 40 → y < pa ∨ pa + 128 ≤ y → u.loadByte y = s.loadByte y) ∧ u.execs = s.execs
    (s.fabNext 1 s.lineReady = some f → f ∈ now) ∧
    lines .lineWrite picked ∧ lines .reducingLine (s.fabNext 2 s.lineReady = some f) ∧
    (∀ pa dir j, picked → s.flitLine f = .at pa dir → pa % 8 = 0 → pa + 128 ≤ 2 ^ 40 → j < 16 →
      s.arg.val = BitVec.ofNat 64 (2 ^ j) → (∀ p ∈ s.fab.partly, p.1 ≠ f) → ∃ u, exec .lineWrite s = .next u ∧
        u.loadWord (pa + 8 * j) = Flit.pay f (1 + j) ∧ u.fab.inbox = s.fab.inbox ∧
        ∀ y, y < 2 ^ 40 → y < pa + 8 * j ∨ pa + 8 * j + 8 ≤ y → u.loadByte y = s.loadByte y) ∧
    (picked → s.flitLine f = .missing → ∃ u q, exec .lineWrite s = .next u ∧ u.mem = s.mem ∧
      f ∈ u.fab.inbox ∧ u.flitStalled f = true ∧ q ∈ (u.getCtx (targetCtx f)).fq ∧
      q.region = (512 * Flit.tgtChunk f + 128 * Flit.tgtLine f) / 2 ^ 16) ∧
    (∀ pa dir, s.fabNext 2 s.lineReady = some f → s.flitLine f = .at pa dir → pa + 128 ≤ 2 ^ 40 →
      field (Flit.pay f 0) 2 0 = 1 →
      field (Flit.pay f 0) 7 4 = 3 → ∃ u, exec .reducingLine s = .next u ∧
        ∀ j, j < 16 → (u.loadWord (pa + 8 * j)).extractLsb' 0 32 =
          (s.loadWord (pa + 8 * j)).extractLsb' 0 32 + (Flit.pay f (1 + j)).extractLsb' 0 32) ∧
    (s.fabNext 8 (fun f => s.portJoined f (State.imageAddr f)) = some f → ∃ u, exec .imageChunk s = .next u ∧
      ∀ j, j < 16 → u.loadWord ((Flit.w f 2).toNat * 128 % 2 ^ 40 + 8 * j) = Flit.pay f j)) ∧
  (∀ (s : State) (f : FlitWords) (m : FabMsg),
    let still : Prop := (∀ x ∈ s.fab.sent, x.link ≠ none ∨ x.queued = true ∨ x.dst = s.fab.fabid) ∧ s.fab.transit = []
    let gone (dst : Nat) (since : Word) : Prop := s.routable dst = false ∧ 2 ^ 24 ≤ s.clk.toNat - since.toNat
    (s.fabReady 3 s.ackReady = some f → m.acks = [] → Flit.type m.words ≠ 8 → still →
      (s.fabDone f).sentMsg (if Flit.pay f 2 = 0 then Flit.src f else (Flit.pay f 2).toNat - 1) (Flit.pay f 0).toNat
        (Flit.pay f 1).toNat = some m →
      ∃ u, exec .e2eAck s = .next u ∧ u.fab.sent = s.fab.sent.filter (fun x => x != m) ∧
        u.fab.inbox = s.fab.inbox.erase f ∧
        (m.firing = 0 → u.cells = s.cells) ∧
        ∀ x, m.firing ≠ 0 → m.tmpl < 8 → (s.getTmpl m.cell m.tmpl).firing = some x → x.num = m.firing →
          ∃ y, (u.getTmpl m.cell m.tmpl).firing = some y ∧ y.unacked = x.unacked.filter (fun z => z != m.part)) ∧
    (s.arg.bad = false → s.fab.sent = [] → ∃ u, exec .flowLoss s = .next u ∧ u.fab.sent = [] ∧
      ∀ x, x ∈ u.fab.transit ↔ x ∈ s.fab.transit ∧ ¬gone (Flit.dst x.2) x.1) ∧
    (s.fab.sent = [m] → s.fab.transit = [] → m.acks = [] →
      (s.arg.bad = false ∧ m.queued = false ∧ m.dst ≠ s.fab.fabid ∧ gone m.dst.toNat m.since) ∨
        (s.arg.bad = true ∧ m.link ≠ none ∧ m.dst.toNat = s.arg.idx ∧ m.vc = s.arg.val.toNat ∧ m.num = s.arg.id) →
      (Flit.type m.words = 4 ∨ Flit.type m.words = 5 → exec .flowLoss s =
        .next { s with fab := { s.fab with sent := [] } }) ∧
      (∀ d, Flit.type m.words = 8 → (s.getCtx m.ctx).drain = some d → d.evict = false → ∃ u, exec .flowLoss s = .next u ∧
        u.fab.sent = [] ∧ (u.getCtx m.ctx).drain = none ∧ (u.getCtx m.ctx).regs.ckErr = true) ∧
      (∀ a n e, Flit.type m.words = 6 → m.ask = some a.id → s.fab.asks.find? (fun x => x.id == a.id) = some a →
        a.thief = none → a.asker = none → a.exec = some n → s.getExec n = some e → e.wait = .reply a.id →
        ∃ u, exec .flowLoss s = .next u ∧ u.fab.sent = [] ∧
          u.getExec n = some { e with met := true, reply := some (false, 0) })) ∧
    (∀ (x : Firing) (n : Nat) (e : Exec), s.fabReady 9 s.ackReady = some f →
      let t := (s.fabDone f).fabAck f none
      t.sentMsg ((Flit.pay f 2).toNat - 1) (Flit.pay f 0).toNat (Flit.pay f 1).toNat = some m → Flit.pay f 2 ≠ 0 →
      let cause : Cause := if Flit.pay f 3 = 0 then 0x20 else 0x21
      m.acks = [] → (s.getTmpl m.cell m.tmpl).firing = some x → x.num = m.firing →
      s.tmplOwner m.cell (s.getTmpl m.cell m.tmpl) = some (n, e) → exec .reductionFailure s =
        .next ((t.dropMsg m).faultRedex e.ctx e.appo cause .machine ⟨n / 256, x.pc, x.iter, none⟩).sendWaiting) ∧
    (∀ fs, let i := s.arg.idx % 64
      let g := Tbl.get (0, 0) s.fab.groups i
      s.rfHeads i s.arg.id (State.rfChildren g) = some (f :: fs) →
      (∀ p ∈ (State.rfChildren g).zip (f :: fs), s.rfJoined g p.1 p.2 = true) →
      (3 ≤ s.arg.val.toNat → ∃ u, exec .rfCombine s = .next u ∧ u.mem = s.mem ∧ u.execs = s.execs ∧
        ∀ d ∈ Flit.dst f :: (f :: fs).map Flit.src, ∃ y ∈ u.fab.sent, y.dst = BitVec.ofNat 18 d ∧ Flit.type y.words = 9) ∧
      (s.arg.val.toNat < 3 → ∃ u y, exec .rfCombine s = .next u ∧ y ∈ u.fab.sent ∧ y.dst = BitVec.ofNat 18 (Flit.dst f) ∧
        Flit.type y.words = 2 ∧ y.acks = (f :: fs).map (fun z => (Flit.src z, Flit.vc z, Flit.msg z)) ∧
        Flit.pay y.words 0 = Flit.pay f 0 ∧ u.mem = s.mem ∧ u.execs = s.execs ∧
        (fs = [] → ∀ j, j < 16 → Flit.pay y.words (1 + j) = Flit.pay f (1 + j)))))

end
end

