-- ==== Sys2Proof/Laws/Encoding.lean ====
section
/-! SUPPORT. The fields of an instruction word: packing and unpacking them, and reading back what each layout of X holds
(R80, R84). -/

namespace Sys2Proof.Laws

open Sys2Proof

/-- The bits of a word are its fields in the order of R80. -/
theorem unpack_pack (f : Fields) : Fields.unpack f.pack = f := by
  obtain ⟨maj, ge, gs, gq, d, a, b, c, fn, x⟩ := f
  simp only [Fields.unpack, Fields.pack, Fields.mk.injEq]
  refine ⟨?_, ?_, ?_, ?_, ?_, ?_, ?_, ?_, ?_, ?_⟩ <;>
  · ext i hi
    rw [BitVec.getElem_extractLsb']
    change BitVec.getLsbD (w := 6 + 1 + 1 + 4 + 6 + 6 + 6 + 6 + 4 + 24) _ _ = _
    simp only [BitVec.getLsbD_append]
    repeat (first | rw [if_pos (by omega)] | rw [if_neg (by omega)])
    rw [← BitVec.getLsbD_eq_getElem]
    congr 1
    omega

@[simp] theorem guard_mk (g : Guard) (maj d a b c : BitVec 6) (fn : BitVec 4) (x : BitVec 24) :
    Fields.guard ⟨maj, (Fields.ofGuard g).1, (Fields.ofGuard g).2.1, (Fields.ofGuard g).2.2, d, a, b, c, fn, x⟩ = g := by
  cases g <;> simp [Fields.guard, Fields.ofGuard]

/-! ### Codes -/

@[simp] theorem ty_ofCode_code (t : Ty) : Ty.ofCode t.code = some t := by cases t <;> rfl

@[simp] theorem fmt_ofCode_code (t : Fmt) : Fmt.ofCode t.code = some t := by cases t <;> rfl

@[simp] theorem rm_ofCode_code (t : Rm) : Rm.ofCode t.code = some t := by cases t <;> rfl

@[simp] theorem acc_ofCode_code (t : Acc) : Acc.ofCode t.code = some t := by cases t <;> rfl

@[simp] theorem engine_ofCode_code (t : Engine) : Engine.ofCode t.code = some t := by cases t <;> rfl

@[simp] theorem redOp_ofCode_code (t : RedOp) : RedOp.ofCode t.code = some t := by cases t <;> rfl

@[simp] theorem iCond_ofFn_fn (t : ICond) : ICond.ofFn t.fn = some t := by cases t <;> rfl

@[simp] theorem fCond_ofFn_fn (t : FCond) : FCond.ofFn t.fn = some t := by cases t <;> rfl

@[simp] theorem vCond_ofFn_fn (t : VCond) : VCond.ofFn t.fn = some t := by cases t <;> rfl

@[simp] theorem redOp_ofFn_fn (t : RedOp) : RedOp.ofFn t.fn = some t := by cases t <;> rfl

@[simp] theorem ldSize_ofFn_fn (t : LdSize) : LdSize.ofFn t.fn = some t := by cases t <;> rfl

@[simp] theorem stSize_ofFn_fn (t : StSize) : StSize.ofFn t.fn = some t := by cases t <;> rfl

@[simp] theorem ordCode_ofCode_code (t : OrdCode) : OrdCode.ofCode t.code = t := by cases t <;> rfl

@[simp] theorem scope_ofCode_code (t : Scope) : Scope.ofCode t.code = t := by cases t <;> rfl


/-! ### Layouts of X -/

@[simp] theorem xR3_ty {maj ge gs gq d a b c fn} (ty : Ty) (rm : Rm) (sat : Bool) :
    Fields.xTy ⟨maj, ge, gs, gq, d, a, b, c, fn, xR3 ty rm sat⟩ = ty.code := by
  simp only [Fields.xTy, xR3]
  ext i hi
  rw [BitVec.getElem_extractLsb']
  change BitVec.getLsbD (w := 5 + 3 + 1 + 15) _ _ = _
  simp only [BitVec.getLsbD_append]
  repeat (first | rw [if_pos (by omega)] | rw [if_neg (by omega)])
  rw [← BitVec.getLsbD_eq_getElem]
  congr 1 <;> omega

@[simp] theorem xR3_rm {maj ge gs gq d a b c fn} (ty : Ty) (rm : Rm) (sat : Bool) :
    Fields.xRm ⟨maj, ge, gs, gq, d, a, b, c, fn, xR3 ty rm sat⟩ = rm.code := by
  simp only [Fields.xRm, xR3]
  ext i hi
  rw [BitVec.getElem_extractLsb']
  change BitVec.getLsbD (w := 5 + 3 + 1 + 15) _ _ = _
  simp only [BitVec.getLsbD_append]
  repeat (first | rw [if_pos (by omega)] | rw [if_neg (by omega)])
  rw [← BitVec.getLsbD_eq_getElem]
  congr 1 <;> omega

@[simp] theorem xR3_sat {maj ge gs gq d a b c fn} (ty : Ty) (rm : Rm) (sat : Bool) :
    Fields.xSat ⟨maj, ge, gs, gq, d, a, b, c, fn, xR3 ty rm sat⟩ = sat := by
  simp only [Fields.xSat, xR3]
  change BitVec.getLsbD (w := 5 + 3 + 1 + 15) _ _ = _
  simp only [BitVec.getLsbD_append]
  cases sat <;> rfl

@[simp] theorem xCvt_ty {maj ge gs gq d a b c fn} (ty dty : Ty) (rm : Rm) (sat : Bool) :
    Fields.xTy ⟨maj, ge, gs, gq, d, a, b, c, fn, xCvt ty dty rm sat⟩ = ty.code := by
  simp only [Fields.xTy, xCvt]
  ext i hi
  rw [BitVec.getElem_extractLsb']
  change BitVec.getLsbD (w := 5 + 5 + 3 + 1 + 10) _ _ = _
  simp only [BitVec.getLsbD_append]
  repeat (first | rw [if_pos (by omega)] | rw [if_neg (by omega)])
  rw [← BitVec.getLsbD_eq_getElem]
  congr 1 <;> omega

@[simp] theorem xCvt_dty {maj ge gs gq d a b c fn} (ty dty : Ty) (rm : Rm) (sat : Bool) :
    Fields.xDty ⟨maj, ge, gs, gq, d, a, b, c, fn, xCvt ty dty rm sat⟩ = dty.code := by
  simp only [Fields.xDty, xCvt]
  ext i hi
  rw [BitVec.getElem_extractLsb']
  change BitVec.getLsbD (w := 5 + 5 + 3 + 1 + 10) _ _ = _
  simp only [BitVec.getLsbD_append]
  repeat (first | rw [if_pos (by omega)] | rw [if_neg (by omega)])
  rw [← BitVec.getLsbD_eq_getElem]
  congr 1 <;> omega

@[simp] theorem xCvt_rm {maj ge gs gq d a b c fn} (ty dty : Ty) (rm : Rm) (sat : Bool) :
    Fields.xCvtRm ⟨maj, ge, gs, gq, d, a, b, c, fn, xCvt ty dty rm sat⟩ = rm.code := by
  simp only [Fields.xCvtRm, xCvt]
  ext i hi
  rw [BitVec.getElem_extractLsb']
  change BitVec.getLsbD (w := 5 + 5 + 3 + 1 + 10) _ _ = _
  simp only [BitVec.getLsbD_append]
  repeat (first | rw [if_pos (by omega)] | rw [if_neg (by omega)])
  rw [← BitVec.getLsbD_eq_getElem]
  congr 1 <;> omega

@[simp] theorem xCvt_sat {maj ge gs gq d a b c fn} (ty dty : Ty) (rm : Rm) (sat : Bool) :
    Fields.xCvtSat ⟨maj, ge, gs, gq, d, a, b, c, fn, xCvt ty dty rm sat⟩ = sat := by
  simp only [Fields.xCvtSat, xCvt]
  change BitVec.getLsbD (w := 5 + 5 + 3 + 1 + 10) _ _ = _
  simp only [BitVec.getLsbD_append]
  cases sat <;> rfl

theorem xMem_sc_bits (o : OrdCode) (sc : Scope) (scale : BitVec 2) (off : BitVec 16) : (xMem o sc scale off).extractLsb' 20 2 = sc.code := by
  simp only [xMem]
  ext i hi
  rw [BitVec.getElem_extractLsb']
  change BitVec.getLsbD (w := 2 + 2 + 2 + 2 + 16) _ _ = _
  simp only [BitVec.getLsbD_append]
  repeat (first | rw [if_pos (by omega)] | rw [if_neg (by omega)])
  rw [← BitVec.getLsbD_eq_getElem]
  congr 1 <;> omega

theorem xMem_o_bits (o : OrdCode) (sc : Scope) (scale : BitVec 2) (off : BitVec 16) : (xMem o sc scale off).extractLsb' 18 2 = o.code := by
  simp only [xMem]
  ext i hi
  rw [BitVec.getElem_extractLsb']
  change BitVec.getLsbD (w := 2 + 2 + 2 + 2 + 16) _ _ = _
  simp only [BitVec.getLsbD_append]
  repeat (first | rw [if_pos (by omega)] | rw [if_neg (by omega)])
  rw [← BitVec.getLsbD_eq_getElem]
  congr 1 <;> omega

theorem xMem_scale (o : OrdCode) (sc : Scope) (scale : BitVec 2) (off : BitVec 16) : (xMem o sc scale off).extractLsb' 16 2 = scale := by
  simp only [xMem]
  ext i hi
  rw [BitVec.getElem_extractLsb']
  change BitVec.getLsbD (w := 2 + 2 + 2 + 2 + 16) _ _ = _
  simp only [BitVec.getLsbD_append]
  repeat (first | rw [if_pos (by omega)] | rw [if_neg (by omega)])
  rw [← BitVec.getLsbD_eq_getElem]
  congr 1 <;> omega

theorem xMem_off (o : OrdCode) (sc : Scope) (scale : BitVec 2) (off : BitVec 16) : (xMem o sc scale off).extractLsb' 0 16 = off := by
  simp only [xMem]
  ext i hi
  rw [BitVec.getElem_extractLsb']
  change BitVec.getLsbD (w := 2 + 2 + 2 + 2 + 16) _ _ = _
  simp only [BitVec.getLsbD_append]
  repeat (first | rw [if_pos (by omega)] | rw [if_neg (by omega)])
  rw [← BitVec.getLsbD_eq_getElem]
  congr 1 <;> omega

@[simp] theorem xMem_scope {maj ge gs gq d a b c fn} (o : OrdCode) (sc : Scope) (scale : BitVec 2) (off : BitVec 16) :
    Fields.xScope ⟨maj, ge, gs, gq, d, a, b, c, fn, xMem o sc scale off⟩ = sc := by
  simp [Fields.xScope, xMem_sc_bits]

@[simp] theorem xMem_ord {maj ge gs gq d a b c fn} (o : OrdCode) (sc : Scope) (scale : BitVec 2) (off : BitVec 16) :
    Fields.xOrd ⟨maj, ge, gs, gq, d, a, b, c, fn, xMem o sc scale off⟩ = o := by
  simp [Fields.xOrd, xMem_o_bits]

@[simp] theorem xMem_mem {maj ge gs gq d a b c fn} (o : OrdCode) (sc : Scope) (scale : BitVec 2) (off : BitVec 16) :
    Fields.mem ⟨maj, ge, gs, gq, d, a, b, c, fn, xMem o sc scale off⟩ = ⟨a, b, scale, off⟩ := by
  simp [Fields.mem, xMem_scale, xMem_off]

@[simp] theorem xMem_vmem {maj ge gs gq d a b c fn} (o : OrdCode) (sc : Scope) (scale : BitVec 2) (off : BitVec 16) :
    Fields.vmem ⟨maj, ge, gs, gq, d, a, b, c, fn, xMem o sc scale off⟩ = ⟨a, b.setWidth 5, scale, off⟩ := by
  simp [Fields.vmem, Fields.bV, xMem_scale, xMem_off]

@[simp] theorem xFmt_fmt {maj ge gs gq d a b c fn} (f : Fmt) :
    Fields.xTy ⟨maj, ge, gs, gq, d, a, b, c, fn, xFmt f⟩ = f.code := by
  simp only [Fields.xTy, xFmt]
  ext i hi
  rw [BitVec.getElem_extractLsb']
  change BitVec.getLsbD (w := 5 + 19) _ _ = _
  simp only [BitVec.getLsbD_append]
  repeat (first | rw [if_pos (by omega)] | rw [if_neg (by omega)])
  rw [← BitVec.getLsbD_eq_getElem]
  congr 1 <;> omega

@[simp] theorem xTree_ty {maj ge gs gq d a b c fn} (ty : Ty) (op : RedOp) (chk : Bool) :
    Fields.xTy ⟨maj, ge, gs, gq, d, a, b, c, fn, xTree ty op chk⟩ = ty.code := by
  simp only [Fields.xTy, xTree]
  ext i hi
  rw [BitVec.getElem_extractLsb']
  change BitVec.getLsbD (w := 5 + 3 + 15 + 1) _ _ = _
  simp only [BitVec.getLsbD_append]
  repeat (first | rw [if_pos (by omega)] | rw [if_neg (by omega)])
  rw [← BitVec.getLsbD_eq_getElem]
  congr 1 <;> omega

@[simp] theorem xTree_op {maj ge gs gq d a b c fn} (ty : Ty) (op : RedOp) (chk : Bool) :
    Fields.xOp ⟨maj, ge, gs, gq, d, a, b, c, fn, xTree ty op chk⟩ = op.code := by
  simp only [Fields.xOp, xTree]
  ext i hi
  rw [BitVec.getElem_extractLsb']
  change BitVec.getLsbD (w := 5 + 3 + 15 + 1) _ _ = _
  simp only [BitVec.getLsbD_append]
  repeat (first | rw [if_pos (by omega)] | rw [if_neg (by omega)])
  rw [← BitVec.getLsbD_eq_getElem]
  congr 1 <;> omega

@[simp] theorem xTree_chk {maj ge gs gq d a b c fn} (ty : Ty) (op : RedOp) (chk : Bool) :
    Fields.xBit0 ⟨maj, ge, gs, gq, d, a, b, c, fn, xTree ty op chk⟩ = chk := by
  simp only [Fields.xBit0, xTree]
  change BitVec.getLsbD (w := 5 + 3 + 15 + 1) _ _ = _
  simp only [BitVec.getLsbD_append]
  cases chk <;> rfl

@[simp] theorem xTk_t {maj ge gs gq d a b c fn} (t k : TmplId) :
    Fields.xT ⟨maj, ge, gs, gq, d, a, b, c, fn, xTk t k⟩ = t := by
  simp only [Fields.xT, xTk]
  ext i hi
  rw [BitVec.getElem_extractLsb']
  change BitVec.getLsbD (w := 18 + 3 + 3) _ _ = _
  simp only [BitVec.getLsbD_append]
  repeat (first | rw [if_pos (by omega)] | rw [if_neg (by omega)])
  rw [← BitVec.getLsbD_eq_getElem]
  congr 1 <;> omega

@[simp] theorem xTk_k {maj ge gs gq d a b c fn} (t k : TmplId) :
    Fields.xK ⟨maj, ge, gs, gq, d, a, b, c, fn, xTk t k⟩ = k := by
  simp only [Fields.xK, xTk]
  ext i hi
  rw [BitVec.getElem_extractLsb']
  change BitVec.getLsbD (w := 18 + 3 + 3) _ _ = _
  simp only [BitVec.getLsbD_append]
  repeat (first | rw [if_pos (by omega)] | rw [if_neg (by omega)])
  rw [← BitVec.getLsbD_eq_getElem]
  congr 1 <;> omega

@[simp] theorem xEng_eng {maj ge gs gq d a b c fn} (e : Engine) :
    Fields.x2 ⟨maj, ge, gs, gq, d, a, b, c, fn, xEng e⟩ = e.code := by
  simp only [Fields.x2, xEng]
  ext i hi
  rw [BitVec.getElem_extractLsb']
  change BitVec.getLsbD (w := 22 + 2) _ _ = _
  simp only [BitVec.getLsbD_append]
  repeat (first | rw [if_pos (by omega)] | rw [if_neg (by omega)])
  rw [← BitVec.getLsbD_eq_getElem]
  congr 1 <;> omega

@[simp] theorem xScopeLow_sc {maj ge gs gq d a b c fn} (s : Scope) :
    Fields.xScopeLow ⟨maj, ge, gs, gq, d, a, b, c, fn, Sys2Proof.xScopeLow s⟩ = s := by
  cases s <;> rfl

@[simp] theorem xBits3_0 {maj ge gs gq d a b c fn} (b0 b1 b2 : Bool) :
    Fields.xBit0 ⟨maj, ge, gs, gq, d, a, b, c, fn, xBits3 b0 b1 b2⟩ = b0 := by
  simp only [Fields.xBit0, xBits3]
  change BitVec.getLsbD (w := 21 + 1 + 1 + 1) _ _ = _
  simp only [BitVec.getLsbD_append]
  cases b0 <;> rfl

@[simp] theorem xBits3_1 {maj ge gs gq d a b c fn} (b0 b1 b2 : Bool) :
    Fields.xBit1 ⟨maj, ge, gs, gq, d, a, b, c, fn, xBits3 b0 b1 b2⟩ = b1 := by
  simp only [Fields.xBit1, xBits3]
  change BitVec.getLsbD (w := 21 + 1 + 1 + 1) _ _ = _
  simp only [BitVec.getLsbD_append]
  cases b1 <;> rfl

@[simp] theorem xBits3_2 {maj ge gs gq d a b c fn} (b0 b1 b2 : Bool) :
    Fields.xBit2 ⟨maj, ge, gs, gq, d, a, b, c, fn, xBits3 b0 b1 b2⟩ = b2 := by
  simp only [Fields.xBit2, xBits3]
  change BitVec.getLsbD (w := 21 + 1 + 1 + 1) _ _ = _
  simp only [BitVec.getLsbD_append]
  cases b2 <;> rfl

@[simp] theorem xLow6_n {maj ge gs gq d a b c fn} (n : BitVec 6) :
    Fields.x6 ⟨maj, ge, gs, gq, d, a, b, c, fn, xLow6 n⟩ = n := by
  simp only [Fields.x6, xLow6]
  ext i hi
  rw [BitVec.getElem_extractLsb', BitVec.getLsbD_setWidth, ← BitVec.getLsbD_eq_getElem, Nat.zero_add,
    decide_eq_true (by omega), Bool.true_and]

@[simp] theorem xLow7_n {maj ge gs gq d a b c fn} (n : BitVec 7) :
    Fields.x7 ⟨maj, ge, gs, gq, d, a, b, c, fn, xLow7 n⟩ = n := by
  simp only [Fields.x7, xLow7]
  ext i hi
  rw [BitVec.getElem_extractLsb', BitVec.getLsbD_setWidth, ← BitVec.getLsbD_eq_getElem, Nat.zero_add,
    decide_eq_true (by omega), Bool.true_and]

@[simp] theorem xLow11_n {maj ge gs gq d a b c fn} (n : BitVec 11) :
    Fields.x11 ⟨maj, ge, gs, gq, d, a, b, c, fn, xLow11 n⟩ = n := by
  simp only [Fields.x11, xLow11]
  ext i hi
  rw [BitVec.getElem_extractLsb', BitVec.getLsbD_setWidth, ← BitVec.getLsbD_eq_getElem, Nat.zero_add,
    decide_eq_true (by omega), Bool.true_and]

@[simp] theorem xLow12_n {maj ge gs gq d a b c fn} (n : BitVec 12) :
    Fields.x12 ⟨maj, ge, gs, gq, d, a, b, c, fn, xLow12 n⟩ = n := by
  simp only [Fields.x12, xLow12]
  ext i hi
  rw [BitVec.getElem_extractLsb', BitVec.getLsbD_setWidth, ← BitVec.getLsbD_eq_getElem, Nat.zero_add,
    decide_eq_true (by omega), Bool.true_and]

@[simp] theorem xLow16_n {maj ge gs gq d a b c fn} (n : BitVec 16) :
    Fields.x16 ⟨maj, ge, gs, gq, d, a, b, c, fn, xLow16 n⟩ = n := by
  simp only [Fields.x16, xLow16]
  ext i hi
  rw [BitVec.getElem_extractLsb', BitVec.getLsbD_setWidth, ← BitVec.getLsbD_eq_getElem, Nat.zero_add,
    decide_eq_true (by omega), Bool.true_and]

@[simp] theorem xMma_fa {maj ge gs gq d a b c fn} (m : MmaForm) (sa sb : Bool) (pl : BitVec 3) :
    Fields.xTy ⟨maj, ge, gs, gq, d, a, b, c, fn, xMma m sa sb pl⟩ = m.fa.code := by
  simp only [Fields.xTy, xMma]
  ext i hi
  rw [BitVec.getElem_extractLsb']
  change BitVec.getLsbD (w := 5 + 5 + 2 + 1 + 1 + 1 + 3 + 6) _ _ = _
  simp only [BitVec.getLsbD_append]
  repeat (first | rw [if_pos (by omega)] | rw [if_neg (by omega)])
  rw [← BitVec.getLsbD_eq_getElem]
  congr 1 <;> omega

@[simp] theorem xMma_fb {maj ge gs gq d a b c fn} (m : MmaForm) (sa sb : Bool) (pl : BitVec 3) :
    Fields.xDty ⟨maj, ge, gs, gq, d, a, b, c, fn, xMma m sa sb pl⟩ = m.fb.code := by
  simp only [Fields.xDty, xMma]
  ext i hi
  rw [BitVec.getElem_extractLsb']
  change BitVec.getLsbD (w := 5 + 5 + 2 + 1 + 1 + 1 + 3 + 6) _ _ = _
  simp only [BitVec.getLsbD_append]
  repeat (first | rw [if_pos (by omega)] | rw [if_neg (by omega)])
  rw [← BitVec.getLsbD_eq_getElem]
  congr 1 <;> omega

@[simp] theorem xMma_acc (m : MmaForm) (sa sb : Bool) (pl : BitVec 3) : BitVec.extractLsb' 12 2 (xMma m sa sb pl) = m.acc.code := by
  simp only [xMma]
  ext i hi
  rw [BitVec.getElem_extractLsb']
  change BitVec.getLsbD (w := 5 + 5 + 2 + 1 + 1 + 1 + 3 + 6) _ _ = _
  simp only [BitVec.getLsbD_append]
  repeat (first | rw [if_pos (by omega)] | rw [if_neg (by omega)])
  rw [← BitVec.getLsbD_eq_getElem]
  congr 1 <;> omega

@[simp] theorem xMma_k {maj ge gs gq d a b c fn} (m : MmaForm) (sa sb : Bool) (pl : BitVec 3) :
    Fields.x6 ⟨maj, ge, gs, gq, d, a, b, c, fn, xMma m sa sb pl⟩ = m.k1 := by
  simp only [Fields.x6, xMma]
  ext i hi
  rw [BitVec.getElem_extractLsb']
  change BitVec.getLsbD (w := 5 + 5 + 2 + 1 + 1 + 1 + 3 + 6) _ _ = _
  simp only [BitVec.getLsbD_append]
  repeat (first | rw [if_pos (by omega)] | rw [if_neg (by omega)])
  rw [← BitVec.getLsbD_eq_getElem]
  congr 1 <;> omega

@[simp] theorem xMma_sa {maj ge gs gq d a b c fn} (m : MmaForm) (sa sb : Bool) (pl : BitVec 3) :
    Fields.xSrcA ⟨maj, ge, gs, gq, d, a, b, c, fn, xMma m sa sb pl⟩ = sa := by
  simp only [Fields.xSrcA, xMma]
  change BitVec.getLsbD (w := 5 + 5 + 2 + 1 + 1 + 1 + 3 + 6) _ _ = _
  simp only [BitVec.getLsbD_append]
  cases sa <;> rfl

@[simp] theorem xMma_sb {maj ge gs gq d a b c fn} (m : MmaForm) (sa sb : Bool) (pl : BitVec 3) :
    Fields.xSrcB ⟨maj, ge, gs, gq, d, a, b, c, fn, xMma m sa sb pl⟩ = sb := by
  simp only [Fields.xSrcB, xMma]
  change BitVec.getLsbD (w := 5 + 5 + 2 + 1 + 1 + 1 + 3 + 6) _ _ = _
  simp only [BitVec.getLsbD_append]
  cases sb <;> rfl

@[simp] theorem xMma_chk {maj ge gs gq d a b c fn} (m : MmaForm) (sa sb : Bool) (pl : BitVec 3) :
    Fields.xMmaChk ⟨maj, ge, gs, gq, d, a, b, c, fn, xMma m sa sb pl⟩ = m.chk := by
  simp only [Fields.xMmaChk, xMma]
  change BitVec.getLsbD (w := 5 + 5 + 2 + 1 + 1 + 1 + 3 + 6) _ _ = _
  simp only [BitVec.getLsbD_append]
  cases h : m.chk <;> rfl

@[simp] theorem xMma_pl {maj ge gs gq d a b c fn} (m : MmaForm) (sa sb : Bool) (pl : BitVec 3) :
    Fields.xPlanes ⟨maj, ge, gs, gq, d, a, b, c, fn, xMma m sa sb pl⟩ = pl := by
  simp only [Fields.xPlanes, xMma]
  ext i hi
  rw [BitVec.getElem_extractLsb']
  change BitVec.getLsbD (w := 5 + 5 + 2 + 1 + 1 + 1 + 3 + 6) _ _ = _
  simp only [BitVec.getLsbD_append]
  repeat (first | rw [if_pos (by omega)] | rw [if_neg (by omega)])
  rw [← BitVec.getLsbD_eq_getElem]
  congr 1 <;> omega

@[simp] theorem xMmag_fa {maj ge gs gq d a b c fn} (m : MmaForm) (mb : BitVec 2) (nb : BitVec 3) :
    Fields.xTy ⟨maj, ge, gs, gq, d, a, b, c, fn, xMmag m mb nb⟩ = m.fa.code := by
  simp only [Fields.xTy, xMmag]
  ext i hi
  rw [BitVec.getElem_extractLsb']
  change BitVec.getLsbD (w := 5 + 5 + 2 + 2 + 3 + 1 + 6) _ _ = _
  simp only [BitVec.getLsbD_append]
  repeat (first | rw [if_pos (by omega)] | rw [if_neg (by omega)])
  rw [← BitVec.getLsbD_eq_getElem]
  congr 1 <;> omega

@[simp] theorem xMmag_fb {maj ge gs gq d a b c fn} (m : MmaForm) (mb : BitVec 2) (nb : BitVec 3) :
    Fields.xDty ⟨maj, ge, gs, gq, d, a, b, c, fn, xMmag m mb nb⟩ = m.fb.code := by
  simp only [Fields.xDty, xMmag]
  ext i hi
  rw [BitVec.getElem_extractLsb']
  change BitVec.getLsbD (w := 5 + 5 + 2 + 2 + 3 + 1 + 6) _ _ = _
  simp only [BitVec.getLsbD_append]
  repeat (first | rw [if_pos (by omega)] | rw [if_neg (by omega)])
  rw [← BitVec.getLsbD_eq_getElem]
  congr 1 <;> omega

@[simp] theorem xMmag_acc (m : MmaForm) (mb : BitVec 2) (nb : BitVec 3) : BitVec.extractLsb' 12 2 (xMmag m mb nb) = m.acc.code := by
  simp only [xMmag]
  ext i hi
  rw [BitVec.getElem_extractLsb']
  change BitVec.getLsbD (w := 5 + 5 + 2 + 2 + 3 + 1 + 6) _ _ = _
  simp only [BitVec.getLsbD_append]
  repeat (first | rw [if_pos (by omega)] | rw [if_neg (by omega)])
  rw [← BitVec.getLsbD_eq_getElem]
  congr 1 <;> omega

@[simp] theorem xMmag_k {maj ge gs gq d a b c fn} (m : MmaForm) (mb : BitVec 2) (nb : BitVec 3) :
    Fields.x6 ⟨maj, ge, gs, gq, d, a, b, c, fn, xMmag m mb nb⟩ = m.k1 := by
  simp only [Fields.x6, xMmag]
  ext i hi
  rw [BitVec.getElem_extractLsb']
  change BitVec.getLsbD (w := 5 + 5 + 2 + 2 + 3 + 1 + 6) _ _ = _
  simp only [BitVec.getLsbD_append]
  repeat (first | rw [if_pos (by omega)] | rw [if_neg (by omega)])
  rw [← BitVec.getLsbD_eq_getElem]
  congr 1 <;> omega

@[simp] theorem xMmag_mb {maj ge gs gq d a b c fn} (m : MmaForm) (mb : BitVec 2) (nb : BitVec 3) :
    Fields.xMb ⟨maj, ge, gs, gq, d, a, b, c, fn, xMmag m mb nb⟩ = mb := by
  simp only [Fields.xMb, xMmag]
  ext i hi
  rw [BitVec.getElem_extractLsb']
  change BitVec.getLsbD (w := 5 + 5 + 2 + 2 + 3 + 1 + 6) _ _ = _
  simp only [BitVec.getLsbD_append]
  repeat (first | rw [if_pos (by omega)] | rw [if_neg (by omega)])
  rw [← BitVec.getLsbD_eq_getElem]
  congr 1 <;> omega

@[simp] theorem xMmag_nb {maj ge gs gq d a b c fn} (m : MmaForm) (mb : BitVec 2) (nb : BitVec 3) :
    Fields.xNb ⟨maj, ge, gs, gq, d, a, b, c, fn, xMmag m mb nb⟩ = nb := by
  simp only [Fields.xNb, xMmag]
  ext i hi
  rw [BitVec.getElem_extractLsb']
  change BitVec.getLsbD (w := 5 + 5 + 2 + 2 + 3 + 1 + 6) _ _ = _
  simp only [BitVec.getLsbD_append]
  repeat (first | rw [if_pos (by omega)] | rw [if_neg (by omega)])
  rw [← BitVec.getLsbD_eq_getElem]
  congr 1 <;> omega

@[simp] theorem xMmag_chk {maj ge gs gq d a b c fn} (m : MmaForm) (mb : BitVec 2) (nb : BitVec 3) :
    Fields.xMmagChk ⟨maj, ge, gs, gq, d, a, b, c, fn, xMmag m mb nb⟩ = m.chk := by
  simp only [Fields.xMmagChk, xMmag]
  change BitVec.getLsbD (w := 5 + 5 + 2 + 2 + 3 + 1 + 6) _ _ = _
  simp only [BitVec.getLsbD_append]
  cases h : m.chk <;> rfl

@[simp] theorem mmaForm_xMma {maj ge gs gq d a b c fn} (m : MmaForm) (sa sb : Bool) (pl : BitVec 3) :
    Fields.mmaForm ⟨maj, ge, gs, gq, d, a, b, c, fn, xMma m sa sb pl⟩ m.chk = some m := by
  simp [Fields.mmaForm]

@[simp] theorem mmaForm_xMmag {maj ge gs gq d a b c fn} (m : MmaForm) (mb : BitVec 2) (nb : BitVec 3) :
    Fields.mmaForm ⟨maj, ge, gs, gq, d, a, b, c, fn, xMmag m mb nb⟩ m.chk = some m := by
  simp [Fields.mmaForm]

@[simp] theorem mmaSrc_field (f : Fields) (s : MmaSrc) : f.mmaSrc s.isGroup s.field = s := by
  cases s <;> simp [Fields.mmaSrc, MmaSrc.isGroup, MmaSrc.field]

/-! ### Fields of the formats with an immediate -/

@[simp] theorem ri_maj (maj : BitVec 6) (fn g d a imm) : (Fields.ri maj fn g d a imm).maj = maj := rfl

@[simp] theorem ri_fn (maj : BitVec 6) (fn g d a imm) : (Fields.ri maj fn g d a imm).fn = fn := rfl

@[simp] theorem ri_d (maj : BitVec 6) (fn g d a imm) : (Fields.ri maj fn g d a imm).d = d := rfl

@[simp] theorem ri_a (maj : BitVec 6) (fn g d a imm) : (Fields.ri maj fn g d a imm).a = a := rfl

@[simp] theorem ri_guard (maj : BitVec 6) (fn g d a imm) : (Fields.ri maj fn g d a imm).guard = g := guard_mk g ..

@[simp] theorem li_maj (maj : BitVec 6) (g d imm) : (Fields.li maj g d imm).maj = maj := rfl

@[simp] theorem li_d (maj : BitVec 6) (g d imm) : (Fields.li maj g d imm).d = d := rfl

@[simp] theorem li_guard (maj : BitVec 6) (g d imm) : (Fields.li maj g d imm).guard = g := guard_mk g ..

@[simp] theorem loopi_maj (maj : BitVec 6) (fn g d n len) : (Fields.loopi maj fn g d n len).maj = maj := rfl

@[simp] theorem loopi_fn (maj : BitVec 6) (fn g d n len) : (Fields.loopi maj fn g d n len).fn = fn := rfl

@[simp] theorem loopi_d (maj : BitVec 6) (fn g d n len) : (Fields.loopi maj fn g d n len).d = d := rfl

@[simp] theorem loopi_guard (maj : BitVec 6) (fn g d n len) : (Fields.loopi maj fn g d n len).guard = g := guard_mk g ..

@[simp] theorem loopi_x11 (maj : BitVec 6) (fn g d n len) : (Fields.loopi maj fn g d n len).x11 = len := xLow11_n len

/-! ### Immediates -/

@[simp] theorem imm36_ri (maj : BitVec 6) (fn : BitVec 4) (g : Guard) (d a : BitVec 6) (imm : BitVec 36) :
    (Fields.ri maj fn g d a imm).imm36 = imm := by
  simp only [Fields.imm36, Fields.ri]
  apply BitVec.eq_of_getLsbD_eq
  intro i hi
  change BitVec.getLsbD (w := 6 + 6 + 24) _ _ = _
  simp only [BitVec.getLsbD_append, BitVec.getLsbD_extractLsb']
  repeat' split
  all_goals
    rw [Bool.and_eq_right_iff_imp.mpr (by intro _; simp; omega)]
    congr 1
    omega

@[simp] theorem imm46_li (maj : BitVec 6) (g : Guard) (d : BitVec 6) (imm : BitVec 46) :
    (Fields.li maj g d imm).imm46 = imm := by
  simp only [Fields.imm46, Fields.li]
  apply BitVec.eq_of_getLsbD_eq
  intro i hi
  change BitVec.getLsbD (w := 6 + 6 + 6 + 4 + 24) _ _ = _
  simp only [BitVec.getLsbD_append, BitVec.getLsbD_extractLsb']
  repeat' split
  all_goals
    rw [Bool.and_eq_right_iff_imp.mpr (by intro _; simp; omega)]
    congr 1
    omega

@[simp] theorem loopCount_loopi (maj : BitVec 6) (fn : BitVec 4) (g : Guard) (d : BitVec 6) (n : BitVec 16)
    (len : BitVec 11) : (Fields.loopi maj fn g d n len).loopCount = n := by
  simp only [Fields.loopCount, Fields.loopi]
  apply BitVec.eq_of_getLsbD_eq
  intro i hi
  change BitVec.getLsbD (w := 4 + 6 + 6) _ _ = _
  simp only [BitVec.getLsbD_append, BitVec.getLsbD_extractLsb', BitVec.getLsbD_setWidth]
  repeat' split
  all_goals
    try simp only [← Bool.and_assoc]
    rw [Bool.and_eq_right_iff_imp.mpr (by intro _; simp; omega)]
    congr 1
    omega

/-! ### Decoding what was encoded -/

theorem outside_full (r : RegRef) : r.outside .full = false := by
  cases r with
  | g r => exact Bool.and_eq_false_iff.mpr (.inl (decide_eq_false (by have := r.isLt; change ¬ 64 ≤ _; omega)))
  | q r => exact decide_eq_false (by have := r.isLt; change ¬ 16 ≤ _; omega)
  | v r => exact decide_eq_false (by have := r.isLt; change ¬ 32 ≤ _; omega)
  | _ => rfl

theorem guard_outside_full (g : Guard) : g.outside .full = false := by
  cases g with
  | always => rfl
  | ifTrue r => exact decide_eq_false (by have := r.isLt; change ¬ 16 ≤ _; omega)
  | ifFalse r => exact decide_eq_false (by have := r.isLt; change ¬ 16 ≤ _; omega)

/-- An operator without `.regs` declares every register (R89). -/
theorem declared_full (i : Instr) : i.declared .full = true := by
  simp [Instr.declared, outside_full, guard_outside_full]

/-- A well-formed instruction decodes from a word that has its opcode and operand fields. -/
theorem decode_of_shape {i : Instr} {f : Fields} (hf : i.fields = some f) (hs : decodeShape f.pack = some i)
    (hw : i.wf = true) (w : Word) (h : encode i = some w) : decodeWord .full w = .ok i := by
  simp only [encode, hf, Option.map_some, Option.some.injEq] at h
  subst h
  simp only [Instr.wf, Bool.and_eq_true] at hw
  simp [decodeWord, hs, encode, hf, hw.1.1, hw.1.2, hw.2, declared_full]

end Sys2Proof.Laws
end

