-- ==== Sys2Proof/Laws/Fabric.lean ====
section
/-! SUPPORT. What the operations on the flits that stand at a part can do: where a flit came in is kept and forgotten,
a flit that meets a missing page waits, and none of it touches memory, the cells or the executions. -/

namespace Sys2Proof.Laws

open Sys2Proof Machine

@[simp] theorem setPort_mem (s : State) (f : FlitWords) (g : Option Nat) : (s.setPort f g).mem = s.mem := rfl
@[simp] theorem setPort_ctxs (s : State) (f : FlitWords) (g : Option Nat) : (s.setPort f g).ctxs = s.ctxs := rfl
@[simp] theorem setPort_cells (s : State) (f : FlitWords) (g : Option Nat) : (s.setPort f g).cells = s.cells := rfl
@[simp] theorem setPort_execs (s : State) (f : FlitWords) (g : Option Nat) : (s.setPort f g).execs = s.execs := rfl

@[simp] theorem setPartly_mem (s : State) (f : FlitWords) (m : Option Word) : (s.setPartly f m).mem = s.mem := rfl
@[simp] theorem setPartly_execs (s : State) (f : FlitWords) (m : Option Word) : (s.setPartly f m).execs = s.execs := rfl

@[simp] theorem fabDone_mem (s : State) (f : FlitWords) : (s.fabDone f).mem = s.mem := rfl
@[simp] theorem fabDone_inbox (s : State) (f : FlitWords) : (s.fabDone f).fab.inbox = s.fab.inbox.erase f := rfl
@[simp] theorem fabDone_execs (s : State) (f : FlitWords) : (s.fabDone f).execs = s.execs := rfl

@[simp] theorem stallFlit_mem (s : State) (f : FlitWords) (k : CtxId) (va : Nat) (kind : BitVec 5) :
    (s.stallFlit f k va kind).mem = s.mem := rfl
@[simp] theorem stallFlit_inbox (s : State) (f : FlitWords) (k : CtxId) (va : Nat) (kind : BitVec 5) :
    (s.stallFlit f k va kind).fab.inbox = s.fab.inbox := rfl
@[simp] theorem stallFlit_execs (s : State) (f : FlitWords) (k : CtxId) (va : Nat) (kind : BitVec 5) :
    (s.stallFlit f k va kind).execs = s.execs := rfl

/-- A flit that meets a missing page waits from then on (R375). -/
@[simp] theorem stallFlit_stalled (s : State) (f : FlitWords) (k : CtxId) (va : Nat) (kind : BitVec 5) :
    (s.stallFlit f k va kind).flitStalled f = true := by
  show (s.fab.stalled ++ [(f, k, va / 2 ^ 16)]).any (fun x => x.1 == f) = true
  simp

/-- The gallery by which a flit came is the one kept last, and no other flit's changes (R382). -/
theorem portOf_setPort (s : State) (f x : FlitWords) (g : Option Nat) :
    (s.setPort f g).portOf x = if x = f then g else s.portOf x := by
  have off : (s.fab.ports.filter fun p => p.1 != f).find? (fun p => p.1 == x) =
      if x = f then none else s.fab.ports.find? fun p => p.1 == x := by
    induction s.fab.ports with
    | nil => simp
    | cons p l ih =>
      by_cases hp : p.1 = f <;> by_cases hx : x = f
      · simp_all
      · have : (p.1 == x) = false := by simpa [hp] using fun h => hx h.symm
        simp_all
      · simp_all
      · by_cases hq : p.1 = x <;> simp_all
  cases g with
  | none => simp only [State.portOf, State.setPort, off]; split <;> rfl
  | some g =>
    simp only [State.portOf, State.setPort, List.find?_append, off]
    by_cases hx : x = f
    · simp [hx]
    · have : (f == x) = false := by simpa using fun h => hx h.symm
      simp [hx, this]

/-- A message that this part has had is not taken again (R393). -/
theorem deliver_again (s : State) (f : FlitWords) (g : Option Nat)
    (h : Flit.msg f ∈ Tbl.get [] s.fab.seen (Flit.flow f)) : s.deliver f g = s := by
  simp [State.deliver, h]

/-- Taking a message in changes no memory, no cell and no execution. -/
theorem deliver_store (s : State) (f : FlitWords) (g : Option Nat) :
    (s.deliver f g).mem = s.mem ∧ (s.deliver f g).cells = s.cells ∧ (s.deliver f g).execs = s.execs := by
  simp only [State.deliver]
  split <;> exact ⟨rfl, rfl, rfl⟩

end Sys2Proof.Laws
end

