-- ==== Sys2Proof/Laws/State.lean ====
section
/-! SUPPORT. What each update of the state and of an execution leaves in every field: one lemma per field and update, each
true by definition. -/

namespace Sys2Proof.Laws

open Sys2Proof Machine

/-! ### The whole state -/

@[simp] theorem setCtx_clk (s : State) (k : CtxId) (c : Ctx) : (s.setCtx k c).clk = s.clk := rfl
@[simp] theorem setCtx_dev (s : State) (k : CtxId) (c : Ctx) : (s.setCtx k c).dev = s.dev := rfl
@[simp] theorem setCtx_gals (s : State) (k : CtxId) (c : Ctx) : (s.setCtx k c).gals = s.gals := rfl
@[simp] theorem setCtx_mem (s : State) (k : CtxId) (c : Ctx) : (s.setCtx k c).mem = s.mem := rfl
@[simp] theorem setCtx_links (s : State) (k : CtxId) (c : Ctx) : (s.setCtx k c).links = s.links := rfl
@[simp] theorem setCtx_fab (s : State) (k : CtxId) (c : Ctx) : (s.setCtx k c).fab = s.fab := rfl
@[simp] theorem setCtx_pass (s : State) (k : CtxId) (c : Ctx) : (s.setCtx k c).pass = s.pass := rfl
@[simp] theorem setCtx_ctxs (s : State) (k : CtxId) (c : Ctx) : (s.setCtx k c).ctxs = vset s.ctxs k.val c := rfl
@[simp] theorem setCtx_cells (s : State) (k : CtxId) (c : Ctx) : (s.setCtx k c).cells = s.cells := rfl
@[simp] theorem setCtx_execs (s : State) (k : CtxId) (c : Ctx) : (s.setCtx k c).execs = s.execs := rfl
@[simp] theorem setCtx_agenda (s : State) (k : CtxId) (c : Ctx) : (s.setCtx k c).agenda = s.agenda := rfl
@[simp] theorem setCtx_turns (s : State) (k : CtxId) (c : Ctx) : (s.setCtx k c).turns = s.turns := rfl
@[simp] theorem setCtx_arg (s : State) (k : CtxId) (c : Ctx) : (s.setCtx k c).arg = s.arg := rfl
@[simp] theorem setCtx_cur (s : State) (k : CtxId) (c : Ctx) : (s.setCtx k c).cur = s.cur := rfl
@[simp] theorem setCtx_nextId (s : State) (k : CtxId) (c : Ctx) : (s.setCtx k c).nextId = s.nextId := rfl
@[simp] theorem setCtx_lastRead (s : State) (k : CtxId) (c : Ctx) : (s.setCtx k c).lastRead = s.lastRead := rfl

@[simp] theorem modCtx_clk (s : State) (k : CtxId) (f : Ctx → Ctx) : (s.modCtx k f).clk = s.clk := rfl
@[simp] theorem modCtx_dev (s : State) (k : CtxId) (f : Ctx → Ctx) : (s.modCtx k f).dev = s.dev := rfl
@[simp] theorem modCtx_gals (s : State) (k : CtxId) (f : Ctx → Ctx) : (s.modCtx k f).gals = s.gals := rfl
@[simp] theorem modCtx_mem (s : State) (k : CtxId) (f : Ctx → Ctx) : (s.modCtx k f).mem = s.mem := rfl
@[simp] theorem modCtx_links (s : State) (k : CtxId) (f : Ctx → Ctx) : (s.modCtx k f).links = s.links := rfl
@[simp] theorem modCtx_fab (s : State) (k : CtxId) (f : Ctx → Ctx) : (s.modCtx k f).fab = s.fab := rfl
@[simp] theorem modCtx_pass (s : State) (k : CtxId) (f : Ctx → Ctx) : (s.modCtx k f).pass = s.pass := rfl
@[simp] theorem modCtx_ctxs (s : State) (k : CtxId) (f : Ctx → Ctx) : (s.modCtx k f).ctxs = vset s.ctxs k.val (f (s.getCtx k)) := rfl
@[simp] theorem modCtx_cells (s : State) (k : CtxId) (f : Ctx → Ctx) : (s.modCtx k f).cells = s.cells := rfl
@[simp] theorem modCtx_execs (s : State) (k : CtxId) (f : Ctx → Ctx) : (s.modCtx k f).execs = s.execs := rfl
@[simp] theorem modCtx_agenda (s : State) (k : CtxId) (f : Ctx → Ctx) : (s.modCtx k f).agenda = s.agenda := rfl
@[simp] theorem modCtx_turns (s : State) (k : CtxId) (f : Ctx → Ctx) : (s.modCtx k f).turns = s.turns := rfl
@[simp] theorem modCtx_arg (s : State) (k : CtxId) (f : Ctx → Ctx) : (s.modCtx k f).arg = s.arg := rfl
@[simp] theorem modCtx_cur (s : State) (k : CtxId) (f : Ctx → Ctx) : (s.modCtx k f).cur = s.cur := rfl
@[simp] theorem modCtx_nextId (s : State) (k : CtxId) (f : Ctx → Ctx) : (s.modCtx k f).nextId = s.nextId := rfl
@[simp] theorem modCtx_lastRead (s : State) (k : CtxId) (f : Ctx → Ctx) : (s.modCtx k f).lastRead = s.lastRead := rfl

@[simp] theorem modRegs_clk (s : State) (k : CtxId) (f : CtxRegs → CtxRegs) : (s.modRegs k f).clk = s.clk := rfl
@[simp] theorem modRegs_dev (s : State) (k : CtxId) (f : CtxRegs → CtxRegs) : (s.modRegs k f).dev = s.dev := rfl
@[simp] theorem modRegs_gals (s : State) (k : CtxId) (f : CtxRegs → CtxRegs) : (s.modRegs k f).gals = s.gals := rfl
@[simp] theorem modRegs_mem (s : State) (k : CtxId) (f : CtxRegs → CtxRegs) : (s.modRegs k f).mem = s.mem := rfl
@[simp] theorem modRegs_links (s : State) (k : CtxId) (f : CtxRegs → CtxRegs) : (s.modRegs k f).links = s.links := rfl
@[simp] theorem modRegs_fab (s : State) (k : CtxId) (f : CtxRegs → CtxRegs) : (s.modRegs k f).fab = s.fab := rfl
@[simp] theorem modRegs_pass (s : State) (k : CtxId) (f : CtxRegs → CtxRegs) : (s.modRegs k f).pass = s.pass := rfl
@[simp] theorem modRegs_ctxs (s : State) (k : CtxId) (f : CtxRegs → CtxRegs) : (s.modRegs k f).ctxs = vset s.ctxs k.val { s.getCtx k with regs := f (s.getCtx k).regs } := rfl
@[simp] theorem modRegs_cells (s : State) (k : CtxId) (f : CtxRegs → CtxRegs) : (s.modRegs k f).cells = s.cells := rfl
@[simp] theorem modRegs_execs (s : State) (k : CtxId) (f : CtxRegs → CtxRegs) : (s.modRegs k f).execs = s.execs := rfl
@[simp] theorem modRegs_agenda (s : State) (k : CtxId) (f : CtxRegs → CtxRegs) : (s.modRegs k f).agenda = s.agenda := rfl
@[simp] theorem modRegs_turns (s : State) (k : CtxId) (f : CtxRegs → CtxRegs) : (s.modRegs k f).turns = s.turns := rfl
@[simp] theorem modRegs_arg (s : State) (k : CtxId) (f : CtxRegs → CtxRegs) : (s.modRegs k f).arg = s.arg := rfl
@[simp] theorem modRegs_cur (s : State) (k : CtxId) (f : CtxRegs → CtxRegs) : (s.modRegs k f).cur = s.cur := rfl
@[simp] theorem modRegs_nextId (s : State) (k : CtxId) (f : CtxRegs → CtxRegs) : (s.modRegs k f).nextId = s.nextId := rfl
@[simp] theorem modRegs_lastRead (s : State) (k : CtxId) (f : CtxRegs → CtxRegs) : (s.modRegs k f).lastRead = s.lastRead := rfl

@[simp] theorem setCell_clk (s : State) (c : Nat) (x : Cell) : (s.setCell c x).clk = s.clk := rfl
@[simp] theorem setCell_dev (s : State) (c : Nat) (x : Cell) : (s.setCell c x).dev = s.dev := rfl
@[simp] theorem setCell_gals (s : State) (c : Nat) (x : Cell) : (s.setCell c x).gals = s.gals := rfl
@[simp] theorem setCell_mem (s : State) (c : Nat) (x : Cell) : (s.setCell c x).mem = s.mem := rfl
@[simp] theorem setCell_links (s : State) (c : Nat) (x : Cell) : (s.setCell c x).links = s.links := rfl
@[simp] theorem setCell_fab (s : State) (c : Nat) (x : Cell) : (s.setCell c x).fab = s.fab := rfl
@[simp] theorem setCell_pass (s : State) (c : Nat) (x : Cell) : (s.setCell c x).pass = s.pass := rfl
@[simp] theorem setCell_ctxs (s : State) (c : Nat) (x : Cell) : (s.setCell c x).ctxs = s.ctxs := rfl
@[simp] theorem setCell_cells (s : State) (c : Nat) (x : Cell) : (s.setCell c x).cells = Tbl.put {} s.cells c x := rfl
@[simp] theorem setCell_execs (s : State) (c : Nat) (x : Cell) : (s.setCell c x).execs = s.execs := rfl
@[simp] theorem setCell_agenda (s : State) (c : Nat) (x : Cell) : (s.setCell c x).agenda = s.agenda := rfl
@[simp] theorem setCell_turns (s : State) (c : Nat) (x : Cell) : (s.setCell c x).turns = s.turns := rfl
@[simp] theorem setCell_arg (s : State) (c : Nat) (x : Cell) : (s.setCell c x).arg = s.arg := rfl
@[simp] theorem setCell_cur (s : State) (c : Nat) (x : Cell) : (s.setCell c x).cur = s.cur := rfl
@[simp] theorem setCell_nextId (s : State) (c : Nat) (x : Cell) : (s.setCell c x).nextId = s.nextId := rfl
@[simp] theorem setCell_lastRead (s : State) (c : Nat) (x : Cell) : (s.setCell c x).lastRead = s.lastRead := rfl

@[simp] theorem modCell_clk (s : State) (c : Nat) (f : Cell → Cell) : (s.modCell c f).clk = s.clk := rfl
@[simp] theorem modCell_dev (s : State) (c : Nat) (f : Cell → Cell) : (s.modCell c f).dev = s.dev := rfl
@[simp] theorem modCell_gals (s : State) (c : Nat) (f : Cell → Cell) : (s.modCell c f).gals = s.gals := rfl
@[simp] theorem modCell_mem (s : State) (c : Nat) (f : Cell → Cell) : (s.modCell c f).mem = s.mem := rfl
@[simp] theorem modCell_links (s : State) (c : Nat) (f : Cell → Cell) : (s.modCell c f).links = s.links := rfl
@[simp] theorem modCell_fab (s : State) (c : Nat) (f : Cell → Cell) : (s.modCell c f).fab = s.fab := rfl
@[simp] theorem modCell_pass (s : State) (c : Nat) (f : Cell → Cell) : (s.modCell c f).pass = s.pass := rfl
@[simp] theorem modCell_ctxs (s : State) (c : Nat) (f : Cell → Cell) : (s.modCell c f).ctxs = s.ctxs := rfl
@[simp] theorem modCell_cells (s : State) (c : Nat) (f : Cell → Cell) : (s.modCell c f).cells = Tbl.put {} s.cells c (f (s.getCell c)) := rfl
@[simp] theorem modCell_execs (s : State) (c : Nat) (f : Cell → Cell) : (s.modCell c f).execs = s.execs := rfl
@[simp] theorem modCell_agenda (s : State) (c : Nat) (f : Cell → Cell) : (s.modCell c f).agenda = s.agenda := rfl
@[simp] theorem modCell_turns (s : State) (c : Nat) (f : Cell → Cell) : (s.modCell c f).turns = s.turns := rfl
@[simp] theorem modCell_arg (s : State) (c : Nat) (f : Cell → Cell) : (s.modCell c f).arg = s.arg := rfl
@[simp] theorem modCell_cur (s : State) (c : Nat) (f : Cell → Cell) : (s.modCell c f).cur = s.cur := rfl
@[simp] theorem modCell_nextId (s : State) (c : Nat) (f : Cell → Cell) : (s.modCell c f).nextId = s.nextId := rfl
@[simp] theorem modCell_lastRead (s : State) (c : Nat) (f : Cell → Cell) : (s.modCell c f).lastRead = s.lastRead := rfl

@[simp] theorem modGal_clk (s : State) (g : Nat) (f : Gallery → Gallery) : (s.modGal g f).clk = s.clk := rfl
@[simp] theorem modGal_dev (s : State) (g : Nat) (f : Gallery → Gallery) : (s.modGal g f).dev = s.dev := rfl
@[simp] theorem modGal_gals (s : State) (g : Nat) (f : Gallery → Gallery) : (s.modGal g f).gals = vset s.gals g (f (s.getGal g)) := rfl
@[simp] theorem modGal_mem (s : State) (g : Nat) (f : Gallery → Gallery) : (s.modGal g f).mem = s.mem := rfl
@[simp] theorem modGal_links (s : State) (g : Nat) (f : Gallery → Gallery) : (s.modGal g f).links = s.links := rfl
@[simp] theorem modGal_fab (s : State) (g : Nat) (f : Gallery → Gallery) : (s.modGal g f).fab = s.fab := rfl
@[simp] theorem modGal_pass (s : State) (g : Nat) (f : Gallery → Gallery) : (s.modGal g f).pass = s.pass := rfl
@[simp] theorem modGal_ctxs (s : State) (g : Nat) (f : Gallery → Gallery) : (s.modGal g f).ctxs = s.ctxs := rfl
@[simp] theorem modGal_cells (s : State) (g : Nat) (f : Gallery → Gallery) : (s.modGal g f).cells = s.cells := rfl
@[simp] theorem modGal_execs (s : State) (g : Nat) (f : Gallery → Gallery) : (s.modGal g f).execs = s.execs := rfl
@[simp] theorem modGal_agenda (s : State) (g : Nat) (f : Gallery → Gallery) : (s.modGal g f).agenda = s.agenda := rfl
@[simp] theorem modGal_turns (s : State) (g : Nat) (f : Gallery → Gallery) : (s.modGal g f).turns = s.turns := rfl
@[simp] theorem modGal_arg (s : State) (g : Nat) (f : Gallery → Gallery) : (s.modGal g f).arg = s.arg := rfl
@[simp] theorem modGal_cur (s : State) (g : Nat) (f : Gallery → Gallery) : (s.modGal g f).cur = s.cur := rfl
@[simp] theorem modGal_nextId (s : State) (g : Nat) (f : Gallery → Gallery) : (s.modGal g f).nextId = s.nextId := rfl
@[simp] theorem modGal_lastRead (s : State) (g : Nat) (f : Gallery → Gallery) : (s.modGal g f).lastRead = s.lastRead := rfl

@[simp] theorem modLink_clk (s : State) (l : Nat) (f : Link → Link) : (s.modLink l f).clk = s.clk := rfl
@[simp] theorem modLink_dev (s : State) (l : Nat) (f : Link → Link) : (s.modLink l f).dev = s.dev := rfl
@[simp] theorem modLink_gals (s : State) (l : Nat) (f : Link → Link) : (s.modLink l f).gals = s.gals := rfl
@[simp] theorem modLink_mem (s : State) (l : Nat) (f : Link → Link) : (s.modLink l f).mem = s.mem := rfl
@[simp] theorem modLink_links (s : State) (l : Nat) (f : Link → Link) : (s.modLink l f).links = vset s.links l (f (s.getLink l)) := rfl
@[simp] theorem modLink_fab (s : State) (l : Nat) (f : Link → Link) : (s.modLink l f).fab = s.fab := rfl
@[simp] theorem modLink_pass (s : State) (l : Nat) (f : Link → Link) : (s.modLink l f).pass = s.pass := rfl
@[simp] theorem modLink_ctxs (s : State) (l : Nat) (f : Link → Link) : (s.modLink l f).ctxs = s.ctxs := rfl
@[simp] theorem modLink_cells (s : State) (l : Nat) (f : Link → Link) : (s.modLink l f).cells = s.cells := rfl
@[simp] theorem modLink_execs (s : State) (l : Nat) (f : Link → Link) : (s.modLink l f).execs = s.execs := rfl
@[simp] theorem modLink_agenda (s : State) (l : Nat) (f : Link → Link) : (s.modLink l f).agenda = s.agenda := rfl
@[simp] theorem modLink_turns (s : State) (l : Nat) (f : Link → Link) : (s.modLink l f).turns = s.turns := rfl
@[simp] theorem modLink_arg (s : State) (l : Nat) (f : Link → Link) : (s.modLink l f).arg = s.arg := rfl
@[simp] theorem modLink_cur (s : State) (l : Nat) (f : Link → Link) : (s.modLink l f).cur = s.cur := rfl
@[simp] theorem modLink_nextId (s : State) (l : Nat) (f : Link → Link) : (s.modLink l f).nextId = s.nextId := rfl
@[simp] theorem modLink_lastRead (s : State) (l : Nat) (f : Link → Link) : (s.modLink l f).lastRead = s.lastRead := rfl

@[simp] theorem setExec_clk (s : State) (k : Nat) (e : Exec) : (s.setExec k e).clk = s.clk := rfl
@[simp] theorem setExec_dev (s : State) (k : Nat) (e : Exec) : (s.setExec k e).dev = s.dev := rfl
@[simp] theorem setExec_gals (s : State) (k : Nat) (e : Exec) : (s.setExec k e).gals = s.gals := rfl
@[simp] theorem setExec_mem (s : State) (k : Nat) (e : Exec) : (s.setExec k e).mem = s.mem := rfl
@[simp] theorem setExec_links (s : State) (k : Nat) (e : Exec) : (s.setExec k e).links = s.links := rfl
@[simp] theorem setExec_fab (s : State) (k : Nat) (e : Exec) : (s.setExec k e).fab = s.fab := rfl
@[simp] theorem setExec_pass (s : State) (k : Nat) (e : Exec) : (s.setExec k e).pass = s.pass := rfl
@[simp] theorem setExec_ctxs (s : State) (k : Nat) (e : Exec) : (s.setExec k e).ctxs = s.ctxs := rfl
@[simp] theorem setExec_cells (s : State) (k : Nat) (e : Exec) : (s.setExec k e).cells = s.cells := rfl
@[simp] theorem setExec_execs (s : State) (k : Nat) (e : Exec) : (s.setExec k e).execs = Tbl.set s.execs k e := rfl
@[simp] theorem setExec_agenda (s : State) (k : Nat) (e : Exec) : (s.setExec k e).agenda = s.agenda := rfl
@[simp] theorem setExec_turns (s : State) (k : Nat) (e : Exec) : (s.setExec k e).turns = s.turns := rfl
@[simp] theorem setExec_arg (s : State) (k : Nat) (e : Exec) : (s.setExec k e).arg = s.arg := rfl
@[simp] theorem setExec_cur (s : State) (k : Nat) (e : Exec) : (s.setExec k e).cur = s.cur := rfl
@[simp] theorem setExec_nextId (s : State) (k : Nat) (e : Exec) : (s.setExec k e).nextId = s.nextId := rfl
@[simp] theorem setExec_lastRead (s : State) (k : Nat) (e : Exec) : (s.setExec k e).lastRead = s.lastRead := rfl

@[simp] theorem dropExec_clk (s : State) (k : Nat) : (s.dropExec k).clk = s.clk := rfl
@[simp] theorem dropExec_dev (s : State) (k : Nat) : (s.dropExec k).dev = s.dev := rfl
@[simp] theorem dropExec_gals (s : State) (k : Nat) : (s.dropExec k).gals = s.gals := rfl
@[simp] theorem dropExec_mem (s : State) (k : Nat) : (s.dropExec k).mem = s.mem := rfl
@[simp] theorem dropExec_links (s : State) (k : Nat) : (s.dropExec k).links = s.links := rfl
@[simp] theorem dropExec_fab (s : State) (k : Nat) : (s.dropExec k).fab = s.fab := rfl
@[simp] theorem dropExec_pass (s : State) (k : Nat) : (s.dropExec k).pass = s.pass := rfl
@[simp] theorem dropExec_ctxs (s : State) (k : Nat) : (s.dropExec k).ctxs = s.ctxs := rfl
@[simp] theorem dropExec_cells (s : State) (k : Nat) : (s.dropExec k).cells = s.cells := rfl
@[simp] theorem dropExec_execs (s : State) (k : Nat) : (s.dropExec k).execs = Tbl.erase s.execs k := rfl
@[simp] theorem dropExec_agenda (s : State) (k : Nat) : (s.dropExec k).agenda = s.agenda := rfl
@[simp] theorem dropExec_turns (s : State) (k : Nat) : (s.dropExec k).turns = s.turns := rfl
@[simp] theorem dropExec_arg (s : State) (k : Nat) : (s.dropExec k).arg = s.arg := rfl
@[simp] theorem dropExec_cur (s : State) (k : Nat) : (s.dropExec k).cur = s.cur := rfl
@[simp] theorem dropExec_nextId (s : State) (k : Nat) : (s.dropExec k).nextId = s.nextId := rfl
@[simp] theorem dropExec_lastRead (s : State) (k : Nat) : (s.dropExec k).lastRead = s.lastRead := rfl

@[simp] theorem fresh_clk (s : State) : (s.fresh).clk = s.clk := rfl
@[simp] theorem fresh_dev (s : State) : (s.fresh).dev = s.dev := rfl
@[simp] theorem fresh_gals (s : State) : (s.fresh).gals = s.gals := rfl
@[simp] theorem fresh_mem (s : State) : (s.fresh).mem = s.mem := rfl
@[simp] theorem fresh_links (s : State) : (s.fresh).links = s.links := rfl
@[simp] theorem fresh_fab (s : State) : (s.fresh).fab = s.fab := rfl
@[simp] theorem fresh_pass (s : State) : (s.fresh).pass = s.pass := rfl
@[simp] theorem fresh_ctxs (s : State) : (s.fresh).ctxs = s.ctxs := rfl
@[simp] theorem fresh_cells (s : State) : (s.fresh).cells = s.cells := rfl
@[simp] theorem fresh_execs (s : State) : (s.fresh).execs = s.execs := rfl
@[simp] theorem fresh_agenda (s : State) : (s.fresh).agenda = s.agenda := rfl
@[simp] theorem fresh_turns (s : State) : (s.fresh).turns = s.turns := rfl
@[simp] theorem fresh_arg (s : State) : (s.fresh).arg = s.arg := rfl
@[simp] theorem fresh_cur (s : State) : (s.fresh).cur = s.cur := rfl
@[simp] theorem fresh_nextId (s : State) : (s.fresh).nextId = s.nextId + 1 := rfl
@[simp] theorem fresh_lastRead (s : State) : (s.fresh).lastRead = s.lastRead := rfl

@[simp] theorem request_clk (s : State) (k : CtxId) : (s.request k).clk = s.clk := rfl
@[simp] theorem request_dev (s : State) (k : CtxId) : (s.request k).dev = s.dev := rfl
@[simp] theorem request_gals (s : State) (k : CtxId) : (s.request k).gals = s.gals := rfl
@[simp] theorem request_mem (s : State) (k : CtxId) : (s.request k).mem = s.mem := rfl
@[simp] theorem request_links (s : State) (k : CtxId) : (s.request k).links = s.links := rfl
@[simp] theorem request_fab (s : State) (k : CtxId) : (s.request k).fab = s.fab := rfl
@[simp] theorem request_pass (s : State) (k : CtxId) : (s.request k).pass = s.pass := rfl
@[simp] theorem request_ctxs (s : State) (k : CtxId) : (s.request k).ctxs = vset s.ctxs k.val { s.getCtx k with request := true } := rfl
@[simp] theorem request_cells (s : State) (k : CtxId) : (s.request k).cells = s.cells := rfl
@[simp] theorem request_execs (s : State) (k : CtxId) : (s.request k).execs = s.execs := rfl
@[simp] theorem request_agenda (s : State) (k : CtxId) : (s.request k).agenda = s.agenda := rfl
@[simp] theorem request_turns (s : State) (k : CtxId) : (s.request k).turns = s.turns := rfl
@[simp] theorem request_arg (s : State) (k : CtxId) : (s.request k).arg = s.arg := rfl
@[simp] theorem request_cur (s : State) (k : CtxId) : (s.request k).cur = s.cur := rfl
@[simp] theorem request_nextId (s : State) (k : CtxId) : (s.request k).nextId = s.nextId := rfl
@[simp] theorem request_lastRead (s : State) (k : CtxId) : (s.request k).lastRead = s.lastRead := rfl

@[simp] theorem setRedex_clk (s : State) (k : CtxId) (appo : Nat) (r : Redex) : (s.setRedex k appo r).clk = s.clk := rfl
@[simp] theorem setRedex_dev (s : State) (k : CtxId) (appo : Nat) (r : Redex) : (s.setRedex k appo r).dev = s.dev := rfl
@[simp] theorem setRedex_gals (s : State) (k : CtxId) (appo : Nat) (r : Redex) : (s.setRedex k appo r).gals = s.gals := rfl
@[simp] theorem setRedex_mem (s : State) (k : CtxId) (appo : Nat) (r : Redex) : (s.setRedex k appo r).mem = s.mem := rfl
@[simp] theorem setRedex_links (s : State) (k : CtxId) (appo : Nat) (r : Redex) : (s.setRedex k appo r).links = s.links := rfl
@[simp] theorem setRedex_fab (s : State) (k : CtxId) (appo : Nat) (r : Redex) : (s.setRedex k appo r).fab = s.fab := rfl
@[simp] theorem setRedex_pass (s : State) (k : CtxId) (appo : Nat) (r : Redex) : (s.setRedex k appo r).pass = s.pass := rfl
@[simp] theorem setRedex_ctxs (s : State) (k : CtxId) (appo : Nat) (r : Redex) : (s.setRedex k appo r).ctxs = vset s.ctxs k.val { s.getCtx k with redexes := Tbl.set (s.getCtx k).redexes appo r } := rfl
@[simp] theorem setRedex_cells (s : State) (k : CtxId) (appo : Nat) (r : Redex) : (s.setRedex k appo r).cells = s.cells := rfl
@[simp] theorem setRedex_execs (s : State) (k : CtxId) (appo : Nat) (r : Redex) : (s.setRedex k appo r).execs = s.execs := rfl
@[simp] theorem setRedex_agenda (s : State) (k : CtxId) (appo : Nat) (r : Redex) : (s.setRedex k appo r).agenda = s.agenda := rfl
@[simp] theorem setRedex_turns (s : State) (k : CtxId) (appo : Nat) (r : Redex) : (s.setRedex k appo r).turns = s.turns := rfl
@[simp] theorem setRedex_arg (s : State) (k : CtxId) (appo : Nat) (r : Redex) : (s.setRedex k appo r).arg = s.arg := rfl
@[simp] theorem setRedex_cur (s : State) (k : CtxId) (appo : Nat) (r : Redex) : (s.setRedex k appo r).cur = s.cur := rfl
@[simp] theorem setRedex_nextId (s : State) (k : CtxId) (appo : Nat) (r : Redex) : (s.setRedex k appo r).nextId = s.nextId := rfl
@[simp] theorem setRedex_lastRead (s : State) (k : CtxId) (appo : Nat) (r : Redex) : (s.setRedex k appo r).lastRead = s.lastRead := rfl

theorem modRedex_eq (s : State) (k : CtxId) (appo : Nat) (f : Redex → Redex) :
    s.modRedex k appo f = match s.getRedex k appo with
      | some r => s.setRedex k appo (f r)
      | none => s := rfl

@[simp] theorem modRedex_clk (s : State) (k : CtxId) (appo : Nat) (f : Redex → Redex) : (s.modRedex k appo f).clk = s.clk := by
  unfold State.modRedex; split <;> rfl
@[simp] theorem modRedex_dev (s : State) (k : CtxId) (appo : Nat) (f : Redex → Redex) : (s.modRedex k appo f).dev = s.dev := by
  unfold State.modRedex; split <;> rfl
@[simp] theorem modRedex_gals (s : State) (k : CtxId) (appo : Nat) (f : Redex → Redex) : (s.modRedex k appo f).gals = s.gals := by
  unfold State.modRedex; split <;> rfl
@[simp] theorem modRedex_mem (s : State) (k : CtxId) (appo : Nat) (f : Redex → Redex) : (s.modRedex k appo f).mem = s.mem := by
  unfold State.modRedex; split <;> rfl
@[simp] theorem modRedex_links (s : State) (k : CtxId) (appo : Nat) (f : Redex → Redex) : (s.modRedex k appo f).links = s.links := by
  unfold State.modRedex; split <;> rfl
@[simp] theorem modRedex_fab (s : State) (k : CtxId) (appo : Nat) (f : Redex → Redex) : (s.modRedex k appo f).fab = s.fab := by
  unfold State.modRedex; split <;> rfl
@[simp] theorem modRedex_pass (s : State) (k : CtxId) (appo : Nat) (f : Redex → Redex) : (s.modRedex k appo f).pass = s.pass := by
  unfold State.modRedex; split <;> rfl
@[simp] theorem modRedex_cells (s : State) (k : CtxId) (appo : Nat) (f : Redex → Redex) : (s.modRedex k appo f).cells = s.cells := by
  unfold State.modRedex; split <;> rfl
@[simp] theorem modRedex_execs (s : State) (k : CtxId) (appo : Nat) (f : Redex → Redex) : (s.modRedex k appo f).execs = s.execs := by
  unfold State.modRedex; split <;> rfl
@[simp] theorem modRedex_agenda (s : State) (k : CtxId) (appo : Nat) (f : Redex → Redex) : (s.modRedex k appo f).agenda = s.agenda := by
  unfold State.modRedex; split <;> rfl
@[simp] theorem modRedex_turns (s : State) (k : CtxId) (appo : Nat) (f : Redex → Redex) : (s.modRedex k appo f).turns = s.turns := by
  unfold State.modRedex; split <;> rfl
@[simp] theorem modRedex_arg (s : State) (k : CtxId) (appo : Nat) (f : Redex → Redex) : (s.modRedex k appo f).arg = s.arg := by
  unfold State.modRedex; split <;> rfl
@[simp] theorem modRedex_cur (s : State) (k : CtxId) (appo : Nat) (f : Redex → Redex) : (s.modRedex k appo f).cur = s.cur := by
  unfold State.modRedex; split <;> rfl
@[simp] theorem modRedex_nextId (s : State) (k : CtxId) (appo : Nat) (f : Redex → Redex) : (s.modRedex k appo f).nextId = s.nextId := by
  unfold State.modRedex; split <;> rfl
@[simp] theorem modRedex_lastRead (s : State) (k : CtxId) (appo : Nat) (f : Redex → Redex) : (s.modRedex k appo f).lastRead = s.lastRead := by
  unfold State.modRedex; split <;> rfl

/-! ### A member execution -/

@[simp] theorem setQ_ctx (e : Exec) (r : QReg) (x : BitVec 64) : (e.setQ r x).ctx = e.ctx := rfl
@[simp] theorem setQ_appo (e : Exec) (r : QReg) (x : BitVec 64) : (e.setQ r x).appo = e.appo := rfl
@[simp] theorem setQ_rank (e : Exec) (r : QReg) (x : BitVec 64) : (e.setQ r x).rank = e.rank := rfl
@[simp] theorem setQ_op (e : Exec) (r : QReg) (x : BitVec 64) : (e.setQ r x).op = e.op := rfl
@[simp] theorem setQ_status (e : Exec) (r : QReg) (x : BitVec 64) : (e.setQ r x).status = e.status := rfl
@[simp] theorem setQ_wait (e : Exec) (r : QReg) (x : BitVec 64) : (e.setQ r x).wait = e.wait := rfl
@[simp] theorem setQ_met (e : Exec) (r : QReg) (x : BitVec 64) : (e.setQ r x).met = e.met := rfl
@[simp] theorem setQ_age (e : Exec) (r : QReg) (x : BitVec 64) : (e.setQ r x).age = e.age := rfl
@[simp] theorem setQ_pc (e : Exec) (r : QReg) (x : BitVec 64) : (e.setQ r x).pc = e.pc := rfl
@[simp] theorem setQ_g (e : Exec) (r : QReg) (x : BitVec 64) : (e.setQ r x).g = e.g := rfl
@[simp] theorem setQ_q (e : Exec) (r : QReg) (x : BitVec 64) : (e.setQ r x).q = vset e.q r.toNat x := rfl
@[simp] theorem setQ_v (e : Exec) (r : QReg) (x : BitVec 64) : (e.setQ r x).v = e.v := rfl
@[simp] theorem setQ_a (e : Exec) (r : QReg) (x : BitVec 64) : (e.setQ r x).a = e.a := rfl
@[simp] theorem setQ_aUsed (e : Exec) (r : QReg) (x : BitVec 64) : (e.setQ r x).aUsed = e.aUsed := rfl
@[simp] theorem setQ_cnt (e : Exec) (r : QReg) (x : BitVec 64) : (e.setQ r x).cnt = e.cnt := rfl
@[simp] theorem setQ_loops (e : Exec) (r : QReg) (x : BitVec 64) : (e.setQ r x).loops = e.loops := rfl
@[simp] theorem setQ_perm (e : Exec) (r : QReg) (x : BitVec 64) : (e.setQ r x).perm = e.perm := rfl
@[simp] theorem setQ_fpcsr (e : Exec) (r : QReg) (x : BitVec 64) : (e.setQ r x).fpcsr = e.fpcsr := rfl
@[simp] theorem setQ_rand (e : Exec) (r : QReg) (x : BitVec 64) : (e.setQ r x).rand = e.rand := rfl
@[simp] theorem setQ_mstat (e : Exec) (r : QReg) (x : BitVec 64) : (e.setQ r x).mstat = e.mstat := rfl
@[simp] theorem setQ_fprog (e : Exec) (r : QReg) (x : BitVec 64) : (e.setQ r x).fprog = e.fprog := rfl
@[simp] theorem setQ_fstat (e : Exec) (r : QReg) (x : BitVec 64) : (e.setQ r x).fstat = e.fstat := rfl
@[simp] theorem setQ_grow (e : Exec) (r : QReg) (x : BitVec 64) : (e.setQ r x).grow = e.grow := rfl
@[simp] theorem setQ_events (e : Exec) (r : QReg) (x : BitVec 64) : (e.setQ r x).events = e.events := rfl
@[simp] theorem setQ_spans (e : Exec) (r : QReg) (x : BitVec 64) : (e.setQ r x).spans = e.spans := rfl
@[simp] theorem setQ_mmags (e : Exec) (r : QReg) (x : BitVec 64) : (e.setQ r x).mmags = e.mmags := rfl
@[simp] theorem setQ_recv (e : Exec) (r : QReg) (x : BitVec 64) : (e.setQ r x).recv = e.recv := rfl
@[simp] theorem setQ_tickets (e : Exec) (r : QReg) (x : BitVec 64) : (e.setQ r x).tickets = e.tickets := rfl
@[simp] theorem setQ_tags (e : Exec) (r : QReg) (x : BitVec 64) : (e.setQ r x).tags = e.tags := rfl
@[simp] theorem setQ_ratst (e : Exec) (r : QReg) (x : BitVec 64) : (e.setQ r x).ratst = e.ratst := rfl
@[simp] theorem setQ_cpEnds (e : Exec) (r : QReg) (x : BitVec 64) : (e.setQ r x).cpEnds = e.cpEnds := rfl
@[simp] theorem setQ_mq (e : Exec) (r : QReg) (x : BitVec 64) : (e.setQ r x).mq = e.mq := rfl
@[simp] theorem setQ_fence (e : Exec) (r : QReg) (x : BitVec 64) : (e.setQ r x).fence = e.fence := rfl
@[simp] theorem setQ_reply (e : Exec) (r : QReg) (x : BitVec 64) : (e.setQ r x).reply = e.reply := rfl
@[simp] theorem setQ_arena (e : Exec) (r : QReg) (x : BitVec 64) : (e.setQ r x).arena = e.arena := rfl
@[simp] theorem setQ_frame (e : Exec) (r : QReg) (x : BitVec 64) : (e.setQ r x).frame = e.frame := rfl
@[simp] theorem setQ_area (e : Exec) (r : QReg) (x : BitVec 64) : (e.setQ r x).area = e.area := rfl
@[simp] theorem setQ_saved (e : Exec) (r : QReg) (x : BitVec 64) : (e.setQ r x).saved = e.saved := rfl
@[simp] theorem setQ_newCode (e : Exec) (r : QReg) (x : BitVec 64) : (e.setQ r x).newCode = e.newCode := rfl
@[simp] theorem setQ_stopAsked (e : Exec) (r : QReg) (x : BitVec 64) : (e.setQ r x).stopAsked = e.stopAsked := rfl
@[simp] theorem setQ_blocks (e : Exec) (r : QReg) (x : BitVec 64) : (e.setQ r x).blocks = e.blocks := rfl
@[simp] theorem setQ_strays (e : Exec) (r : QReg) (x : BitVec 64) : (e.setQ r x).strays = e.strays := rfl

@[simp] theorem setV_ctx (e : Exec) (r : VReg) (x : Vec) : (e.setV r x).ctx = e.ctx := rfl
@[simp] theorem setV_appo (e : Exec) (r : VReg) (x : Vec) : (e.setV r x).appo = e.appo := rfl
@[simp] theorem setV_rank (e : Exec) (r : VReg) (x : Vec) : (e.setV r x).rank = e.rank := rfl
@[simp] theorem setV_op (e : Exec) (r : VReg) (x : Vec) : (e.setV r x).op = e.op := rfl
@[simp] theorem setV_status (e : Exec) (r : VReg) (x : Vec) : (e.setV r x).status = e.status := rfl
@[simp] theorem setV_wait (e : Exec) (r : VReg) (x : Vec) : (e.setV r x).wait = e.wait := rfl
@[simp] theorem setV_met (e : Exec) (r : VReg) (x : Vec) : (e.setV r x).met = e.met := rfl
@[simp] theorem setV_age (e : Exec) (r : VReg) (x : Vec) : (e.setV r x).age = e.age := rfl
@[simp] theorem setV_pc (e : Exec) (r : VReg) (x : Vec) : (e.setV r x).pc = e.pc := rfl
@[simp] theorem setV_g (e : Exec) (r : VReg) (x : Vec) : (e.setV r x).g = e.g := rfl
@[simp] theorem setV_q (e : Exec) (r : VReg) (x : Vec) : (e.setV r x).q = e.q := rfl
@[simp] theorem setV_v (e : Exec) (r : VReg) (x : Vec) : (e.setV r x).v = vset e.v r.toNat x := rfl
@[simp] theorem setV_a (e : Exec) (r : VReg) (x : Vec) : (e.setV r x).a = e.a := rfl
@[simp] theorem setV_aUsed (e : Exec) (r : VReg) (x : Vec) : (e.setV r x).aUsed = e.aUsed := rfl
@[simp] theorem setV_cnt (e : Exec) (r : VReg) (x : Vec) : (e.setV r x).cnt = e.cnt := rfl
@[simp] theorem setV_loops (e : Exec) (r : VReg) (x : Vec) : (e.setV r x).loops = e.loops := rfl
@[simp] theorem setV_perm (e : Exec) (r : VReg) (x : Vec) : (e.setV r x).perm = e.perm := rfl
@[simp] theorem setV_fpcsr (e : Exec) (r : VReg) (x : Vec) : (e.setV r x).fpcsr = e.fpcsr := rfl
@[simp] theorem setV_rand (e : Exec) (r : VReg) (x : Vec) : (e.setV r x).rand = e.rand := rfl
@[simp] theorem setV_mstat (e : Exec) (r : VReg) (x : Vec) : (e.setV r x).mstat = e.mstat := rfl
@[simp] theorem setV_fprog (e : Exec) (r : VReg) (x : Vec) : (e.setV r x).fprog = e.fprog := rfl
@[simp] theorem setV_fstat (e : Exec) (r : VReg) (x : Vec) : (e.setV r x).fstat = e.fstat := rfl
@[simp] theorem setV_grow (e : Exec) (r : VReg) (x : Vec) : (e.setV r x).grow = e.grow := rfl
@[simp] theorem setV_events (e : Exec) (r : VReg) (x : Vec) : (e.setV r x).events = e.events := rfl
@[simp] theorem setV_spans (e : Exec) (r : VReg) (x : Vec) : (e.setV r x).spans = e.spans := rfl
@[simp] theorem setV_mmags (e : Exec) (r : VReg) (x : Vec) : (e.setV r x).mmags = e.mmags := rfl
@[simp] theorem setV_recv (e : Exec) (r : VReg) (x : Vec) : (e.setV r x).recv = e.recv := rfl
@[simp] theorem setV_tickets (e : Exec) (r : VReg) (x : Vec) : (e.setV r x).tickets = e.tickets := rfl
@[simp] theorem setV_tags (e : Exec) (r : VReg) (x : Vec) : (e.setV r x).tags = e.tags := rfl
@[simp] theorem setV_ratst (e : Exec) (r : VReg) (x : Vec) : (e.setV r x).ratst = e.ratst := rfl
@[simp] theorem setV_cpEnds (e : Exec) (r : VReg) (x : Vec) : (e.setV r x).cpEnds = e.cpEnds := rfl
@[simp] theorem setV_mq (e : Exec) (r : VReg) (x : Vec) : (e.setV r x).mq = e.mq := rfl
@[simp] theorem setV_fence (e : Exec) (r : VReg) (x : Vec) : (e.setV r x).fence = e.fence := rfl
@[simp] theorem setV_reply (e : Exec) (r : VReg) (x : Vec) : (e.setV r x).reply = e.reply := rfl
@[simp] theorem setV_arena (e : Exec) (r : VReg) (x : Vec) : (e.setV r x).arena = e.arena := rfl
@[simp] theorem setV_frame (e : Exec) (r : VReg) (x : Vec) : (e.setV r x).frame = e.frame := rfl
@[simp] theorem setV_area (e : Exec) (r : VReg) (x : Vec) : (e.setV r x).area = e.area := rfl
@[simp] theorem setV_saved (e : Exec) (r : VReg) (x : Vec) : (e.setV r x).saved = e.saved := rfl
@[simp] theorem setV_newCode (e : Exec) (r : VReg) (x : Vec) : (e.setV r x).newCode = e.newCode := rfl
@[simp] theorem setV_stopAsked (e : Exec) (r : VReg) (x : Vec) : (e.setV r x).stopAsked = e.stopAsked := rfl
@[simp] theorem setV_blocks (e : Exec) (r : VReg) (x : Vec) : (e.setV r x).blocks = e.blocks := rfl
@[simp] theorem setV_strays (e : Exec) (r : VReg) (x : Vec) : (e.setV r x).strays = e.strays := rfl

@[simp] theorem setA_ctx (e : Exec) (r : AReg) (x : Mat) : (e.setA r x).ctx = e.ctx := rfl
@[simp] theorem setA_appo (e : Exec) (r : AReg) (x : Mat) : (e.setA r x).appo = e.appo := rfl
@[simp] theorem setA_rank (e : Exec) (r : AReg) (x : Mat) : (e.setA r x).rank = e.rank := rfl
@[simp] theorem setA_op (e : Exec) (r : AReg) (x : Mat) : (e.setA r x).op = e.op := rfl
@[simp] theorem setA_status (e : Exec) (r : AReg) (x : Mat) : (e.setA r x).status = e.status := rfl
@[simp] theorem setA_wait (e : Exec) (r : AReg) (x : Mat) : (e.setA r x).wait = e.wait := rfl
@[simp] theorem setA_met (e : Exec) (r : AReg) (x : Mat) : (e.setA r x).met = e.met := rfl
@[simp] theorem setA_age (e : Exec) (r : AReg) (x : Mat) : (e.setA r x).age = e.age := rfl
@[simp] theorem setA_pc (e : Exec) (r : AReg) (x : Mat) : (e.setA r x).pc = e.pc := rfl
@[simp] theorem setA_g (e : Exec) (r : AReg) (x : Mat) : (e.setA r x).g = e.g := rfl
@[simp] theorem setA_q (e : Exec) (r : AReg) (x : Mat) : (e.setA r x).q = e.q := rfl
@[simp] theorem setA_v (e : Exec) (r : AReg) (x : Mat) : (e.setA r x).v = e.v := rfl
@[simp] theorem setA_a (e : Exec) (r : AReg) (x : Mat) : (e.setA r x).a = vset e.a r.toNat x := rfl
@[simp] theorem setA_aUsed (e : Exec) (r : AReg) (x : Mat) : (e.setA r x).aUsed = e.aUsed ||| (1 <<< r.toNat) := rfl
@[simp] theorem setA_cnt (e : Exec) (r : AReg) (x : Mat) : (e.setA r x).cnt = e.cnt := rfl
@[simp] theorem setA_loops (e : Exec) (r : AReg) (x : Mat) : (e.setA r x).loops = e.loops := rfl
@[simp] theorem setA_perm (e : Exec) (r : AReg) (x : Mat) : (e.setA r x).perm = e.perm := rfl
@[simp] theorem setA_fpcsr (e : Exec) (r : AReg) (x : Mat) : (e.setA r x).fpcsr = e.fpcsr := rfl
@[simp] theorem setA_rand (e : Exec) (r : AReg) (x : Mat) : (e.setA r x).rand = e.rand := rfl
@[simp] theorem setA_mstat (e : Exec) (r : AReg) (x : Mat) : (e.setA r x).mstat = e.mstat := rfl
@[simp] theorem setA_fprog (e : Exec) (r : AReg) (x : Mat) : (e.setA r x).fprog = e.fprog := rfl
@[simp] theorem setA_fstat (e : Exec) (r : AReg) (x : Mat) : (e.setA r x).fstat = e.fstat := rfl
@[simp] theorem setA_grow (e : Exec) (r : AReg) (x : Mat) : (e.setA r x).grow = e.grow := rfl
@[simp] theorem setA_events (e : Exec) (r : AReg) (x : Mat) : (e.setA r x).events = e.events := rfl
@[simp] theorem setA_spans (e : Exec) (r : AReg) (x : Mat) : (e.setA r x).spans = e.spans := rfl
@[simp] theorem setA_mmags (e : Exec) (r : AReg) (x : Mat) : (e.setA r x).mmags = e.mmags := rfl
@[simp] theorem setA_recv (e : Exec) (r : AReg) (x : Mat) : (e.setA r x).recv = e.recv := rfl
@[simp] theorem setA_tickets (e : Exec) (r : AReg) (x : Mat) : (e.setA r x).tickets = e.tickets := rfl
@[simp] theorem setA_tags (e : Exec) (r : AReg) (x : Mat) : (e.setA r x).tags = e.tags := rfl
@[simp] theorem setA_ratst (e : Exec) (r : AReg) (x : Mat) : (e.setA r x).ratst = e.ratst := rfl
@[simp] theorem setA_cpEnds (e : Exec) (r : AReg) (x : Mat) : (e.setA r x).cpEnds = e.cpEnds := rfl
@[simp] theorem setA_mq (e : Exec) (r : AReg) (x : Mat) : (e.setA r x).mq = e.mq := rfl
@[simp] theorem setA_fence (e : Exec) (r : AReg) (x : Mat) : (e.setA r x).fence = e.fence := rfl
@[simp] theorem setA_reply (e : Exec) (r : AReg) (x : Mat) : (e.setA r x).reply = e.reply := rfl
@[simp] theorem setA_arena (e : Exec) (r : AReg) (x : Mat) : (e.setA r x).arena = e.arena := rfl
@[simp] theorem setA_frame (e : Exec) (r : AReg) (x : Mat) : (e.setA r x).frame = e.frame := rfl
@[simp] theorem setA_area (e : Exec) (r : AReg) (x : Mat) : (e.setA r x).area = e.area := rfl
@[simp] theorem setA_saved (e : Exec) (r : AReg) (x : Mat) : (e.setA r x).saved = e.saved := rfl
@[simp] theorem setA_newCode (e : Exec) (r : AReg) (x : Mat) : (e.setA r x).newCode = e.newCode := rfl
@[simp] theorem setA_stopAsked (e : Exec) (r : AReg) (x : Mat) : (e.setA r x).stopAsked = e.stopAsked := rfl
@[simp] theorem setA_blocks (e : Exec) (r : AReg) (x : Mat) : (e.setA r x).blocks = e.blocks := rfl
@[simp] theorem setA_strays (e : Exec) (r : AReg) (x : Mat) : (e.setA r x).strays = e.strays := rfl

@[simp] theorem setCnt_ctx (e : Exec) (r : CReg) (x : BitVec 16) : (e.setCnt r x).ctx = e.ctx := rfl
@[simp] theorem setCnt_appo (e : Exec) (r : CReg) (x : BitVec 16) : (e.setCnt r x).appo = e.appo := rfl
@[simp] theorem setCnt_rank (e : Exec) (r : CReg) (x : BitVec 16) : (e.setCnt r x).rank = e.rank := rfl
@[simp] theorem setCnt_op (e : Exec) (r : CReg) (x : BitVec 16) : (e.setCnt r x).op = e.op := rfl
@[simp] theorem setCnt_status (e : Exec) (r : CReg) (x : BitVec 16) : (e.setCnt r x).status = e.status := rfl
@[simp] theorem setCnt_wait (e : Exec) (r : CReg) (x : BitVec 16) : (e.setCnt r x).wait = e.wait := rfl
@[simp] theorem setCnt_met (e : Exec) (r : CReg) (x : BitVec 16) : (e.setCnt r x).met = e.met := rfl
@[simp] theorem setCnt_age (e : Exec) (r : CReg) (x : BitVec 16) : (e.setCnt r x).age = e.age := rfl
@[simp] theorem setCnt_pc (e : Exec) (r : CReg) (x : BitVec 16) : (e.setCnt r x).pc = e.pc := rfl
@[simp] theorem setCnt_g (e : Exec) (r : CReg) (x : BitVec 16) : (e.setCnt r x).g = e.g := rfl
@[simp] theorem setCnt_q (e : Exec) (r : CReg) (x : BitVec 16) : (e.setCnt r x).q = e.q := rfl
@[simp] theorem setCnt_v (e : Exec) (r : CReg) (x : BitVec 16) : (e.setCnt r x).v = e.v := rfl
@[simp] theorem setCnt_a (e : Exec) (r : CReg) (x : BitVec 16) : (e.setCnt r x).a = e.a := rfl
@[simp] theorem setCnt_aUsed (e : Exec) (r : CReg) (x : BitVec 16) : (e.setCnt r x).aUsed = e.aUsed := rfl
@[simp] theorem setCnt_cnt (e : Exec) (r : CReg) (x : BitVec 16) : (e.setCnt r x).cnt = vset e.cnt r.toNat x := rfl
@[simp] theorem setCnt_loops (e : Exec) (r : CReg) (x : BitVec 16) : (e.setCnt r x).loops = e.loops := rfl
@[simp] theorem setCnt_perm (e : Exec) (r : CReg) (x : BitVec 16) : (e.setCnt r x).perm = e.perm := rfl
@[simp] theorem setCnt_fpcsr (e : Exec) (r : CReg) (x : BitVec 16) : (e.setCnt r x).fpcsr = e.fpcsr := rfl
@[simp] theorem setCnt_rand (e : Exec) (r : CReg) (x : BitVec 16) : (e.setCnt r x).rand = e.rand := rfl
@[simp] theorem setCnt_mstat (e : Exec) (r : CReg) (x : BitVec 16) : (e.setCnt r x).mstat = e.mstat := rfl
@[simp] theorem setCnt_fprog (e : Exec) (r : CReg) (x : BitVec 16) : (e.setCnt r x).fprog = e.fprog := rfl
@[simp] theorem setCnt_fstat (e : Exec) (r : CReg) (x : BitVec 16) : (e.setCnt r x).fstat = e.fstat := rfl
@[simp] theorem setCnt_grow (e : Exec) (r : CReg) (x : BitVec 16) : (e.setCnt r x).grow = e.grow := rfl
@[simp] theorem setCnt_events (e : Exec) (r : CReg) (x : BitVec 16) : (e.setCnt r x).events = e.events := rfl
@[simp] theorem setCnt_spans (e : Exec) (r : CReg) (x : BitVec 16) : (e.setCnt r x).spans = e.spans := rfl
@[simp] theorem setCnt_mmags (e : Exec) (r : CReg) (x : BitVec 16) : (e.setCnt r x).mmags = e.mmags := rfl
@[simp] theorem setCnt_recv (e : Exec) (r : CReg) (x : BitVec 16) : (e.setCnt r x).recv = e.recv := rfl
@[simp] theorem setCnt_tickets (e : Exec) (r : CReg) (x : BitVec 16) : (e.setCnt r x).tickets = e.tickets := rfl
@[simp] theorem setCnt_tags (e : Exec) (r : CReg) (x : BitVec 16) : (e.setCnt r x).tags = e.tags := rfl
@[simp] theorem setCnt_ratst (e : Exec) (r : CReg) (x : BitVec 16) : (e.setCnt r x).ratst = e.ratst := rfl
@[simp] theorem setCnt_cpEnds (e : Exec) (r : CReg) (x : BitVec 16) : (e.setCnt r x).cpEnds = e.cpEnds := rfl
@[simp] theorem setCnt_mq (e : Exec) (r : CReg) (x : BitVec 16) : (e.setCnt r x).mq = e.mq := rfl
@[simp] theorem setCnt_fence (e : Exec) (r : CReg) (x : BitVec 16) : (e.setCnt r x).fence = e.fence := rfl
@[simp] theorem setCnt_reply (e : Exec) (r : CReg) (x : BitVec 16) : (e.setCnt r x).reply = e.reply := rfl
@[simp] theorem setCnt_arena (e : Exec) (r : CReg) (x : BitVec 16) : (e.setCnt r x).arena = e.arena := rfl
@[simp] theorem setCnt_frame (e : Exec) (r : CReg) (x : BitVec 16) : (e.setCnt r x).frame = e.frame := rfl
@[simp] theorem setCnt_area (e : Exec) (r : CReg) (x : BitVec 16) : (e.setCnt r x).area = e.area := rfl
@[simp] theorem setCnt_saved (e : Exec) (r : CReg) (x : BitVec 16) : (e.setCnt r x).saved = e.saved := rfl
@[simp] theorem setCnt_newCode (e : Exec) (r : CReg) (x : BitVec 16) : (e.setCnt r x).newCode = e.newCode := rfl
@[simp] theorem setCnt_stopAsked (e : Exec) (r : CReg) (x : BitVec 16) : (e.setCnt r x).stopAsked = e.stopAsked := rfl
@[simp] theorem setCnt_blocks (e : Exec) (r : CReg) (x : BitVec 16) : (e.setCnt r x).blocks = e.blocks := rfl
@[simp] theorem setCnt_strays (e : Exec) (r : CReg) (x : BitVec 16) : (e.setCnt r x).strays = e.strays := rfl

@[simp] theorem setLoop_ctx (e : Exec) (r : CReg) (x : LoopState) : (e.setLoop r x).ctx = e.ctx := rfl
@[simp] theorem setLoop_appo (e : Exec) (r : CReg) (x : LoopState) : (e.setLoop r x).appo = e.appo := rfl
@[simp] theorem setLoop_rank (e : Exec) (r : CReg) (x : LoopState) : (e.setLoop r x).rank = e.rank := rfl
@[simp] theorem setLoop_op (e : Exec) (r : CReg) (x : LoopState) : (e.setLoop r x).op = e.op := rfl
@[simp] theorem setLoop_status (e : Exec) (r : CReg) (x : LoopState) : (e.setLoop r x).status = e.status := rfl
@[simp] theorem setLoop_wait (e : Exec) (r : CReg) (x : LoopState) : (e.setLoop r x).wait = e.wait := rfl
@[simp] theorem setLoop_met (e : Exec) (r : CReg) (x : LoopState) : (e.setLoop r x).met = e.met := rfl
@[simp] theorem setLoop_age (e : Exec) (r : CReg) (x : LoopState) : (e.setLoop r x).age = e.age := rfl
@[simp] theorem setLoop_pc (e : Exec) (r : CReg) (x : LoopState) : (e.setLoop r x).pc = e.pc := rfl
@[simp] theorem setLoop_g (e : Exec) (r : CReg) (x : LoopState) : (e.setLoop r x).g = e.g := rfl
@[simp] theorem setLoop_q (e : Exec) (r : CReg) (x : LoopState) : (e.setLoop r x).q = e.q := rfl
@[simp] theorem setLoop_v (e : Exec) (r : CReg) (x : LoopState) : (e.setLoop r x).v = e.v := rfl
@[simp] theorem setLoop_a (e : Exec) (r : CReg) (x : LoopState) : (e.setLoop r x).a = e.a := rfl
@[simp] theorem setLoop_aUsed (e : Exec) (r : CReg) (x : LoopState) : (e.setLoop r x).aUsed = e.aUsed := rfl
@[simp] theorem setLoop_cnt (e : Exec) (r : CReg) (x : LoopState) : (e.setLoop r x).cnt = e.cnt := rfl
@[simp] theorem setLoop_loops (e : Exec) (r : CReg) (x : LoopState) : (e.setLoop r x).loops = vset e.loops r.toNat x := rfl
@[simp] theorem setLoop_perm (e : Exec) (r : CReg) (x : LoopState) : (e.setLoop r x).perm = e.perm := rfl
@[simp] theorem setLoop_fpcsr (e : Exec) (r : CReg) (x : LoopState) : (e.setLoop r x).fpcsr = e.fpcsr := rfl
@[simp] theorem setLoop_rand (e : Exec) (r : CReg) (x : LoopState) : (e.setLoop r x).rand = e.rand := rfl
@[simp] theorem setLoop_mstat (e : Exec) (r : CReg) (x : LoopState) : (e.setLoop r x).mstat = e.mstat := rfl
@[simp] theorem setLoop_fprog (e : Exec) (r : CReg) (x : LoopState) : (e.setLoop r x).fprog = e.fprog := rfl
@[simp] theorem setLoop_fstat (e : Exec) (r : CReg) (x : LoopState) : (e.setLoop r x).fstat = e.fstat := rfl
@[simp] theorem setLoop_grow (e : Exec) (r : CReg) (x : LoopState) : (e.setLoop r x).grow = e.grow := rfl
@[simp] theorem setLoop_events (e : Exec) (r : CReg) (x : LoopState) : (e.setLoop r x).events = e.events := rfl
@[simp] theorem setLoop_spans (e : Exec) (r : CReg) (x : LoopState) : (e.setLoop r x).spans = e.spans := rfl
@[simp] theorem setLoop_mmags (e : Exec) (r : CReg) (x : LoopState) : (e.setLoop r x).mmags = e.mmags := rfl
@[simp] theorem setLoop_recv (e : Exec) (r : CReg) (x : LoopState) : (e.setLoop r x).recv = e.recv := rfl
@[simp] theorem setLoop_tickets (e : Exec) (r : CReg) (x : LoopState) : (e.setLoop r x).tickets = e.tickets := rfl
@[simp] theorem setLoop_tags (e : Exec) (r : CReg) (x : LoopState) : (e.setLoop r x).tags = e.tags := rfl
@[simp] theorem setLoop_ratst (e : Exec) (r : CReg) (x : LoopState) : (e.setLoop r x).ratst = e.ratst := rfl
@[simp] theorem setLoop_cpEnds (e : Exec) (r : CReg) (x : LoopState) : (e.setLoop r x).cpEnds = e.cpEnds := rfl
@[simp] theorem setLoop_mq (e : Exec) (r : CReg) (x : LoopState) : (e.setLoop r x).mq = e.mq := rfl
@[simp] theorem setLoop_fence (e : Exec) (r : CReg) (x : LoopState) : (e.setLoop r x).fence = e.fence := rfl
@[simp] theorem setLoop_reply (e : Exec) (r : CReg) (x : LoopState) : (e.setLoop r x).reply = e.reply := rfl
@[simp] theorem setLoop_arena (e : Exec) (r : CReg) (x : LoopState) : (e.setLoop r x).arena = e.arena := rfl
@[simp] theorem setLoop_frame (e : Exec) (r : CReg) (x : LoopState) : (e.setLoop r x).frame = e.frame := rfl
@[simp] theorem setLoop_area (e : Exec) (r : CReg) (x : LoopState) : (e.setLoop r x).area = e.area := rfl
@[simp] theorem setLoop_saved (e : Exec) (r : CReg) (x : LoopState) : (e.setLoop r x).saved = e.saved := rfl
@[simp] theorem setLoop_newCode (e : Exec) (r : CReg) (x : LoopState) : (e.setLoop r x).newCode = e.newCode := rfl
@[simp] theorem setLoop_stopAsked (e : Exec) (r : CReg) (x : LoopState) : (e.setLoop r x).stopAsked = e.stopAsked := rfl
@[simp] theorem setLoop_blocks (e : Exec) (r : CReg) (x : LoopState) : (e.setLoop r x).blocks = e.blocks := rfl
@[simp] theorem setLoop_strays (e : Exec) (r : CReg) (x : LoopState) : (e.setLoop r x).strays = e.strays := rfl

@[simp] theorem raiseF_ctx (e : Exec) (x : FFlags) : (e.raiseF x).ctx = e.ctx := rfl
@[simp] theorem raiseF_appo (e : Exec) (x : FFlags) : (e.raiseF x).appo = e.appo := rfl
@[simp] theorem raiseF_rank (e : Exec) (x : FFlags) : (e.raiseF x).rank = e.rank := rfl
@[simp] theorem raiseF_op (e : Exec) (x : FFlags) : (e.raiseF x).op = e.op := rfl
@[simp] theorem raiseF_status (e : Exec) (x : FFlags) : (e.raiseF x).status = e.status := rfl
@[simp] theorem raiseF_wait (e : Exec) (x : FFlags) : (e.raiseF x).wait = e.wait := rfl
@[simp] theorem raiseF_met (e : Exec) (x : FFlags) : (e.raiseF x).met = e.met := rfl
@[simp] theorem raiseF_age (e : Exec) (x : FFlags) : (e.raiseF x).age = e.age := rfl
@[simp] theorem raiseF_pc (e : Exec) (x : FFlags) : (e.raiseF x).pc = e.pc := rfl
@[simp] theorem raiseF_g (e : Exec) (x : FFlags) : (e.raiseF x).g = e.g := rfl
@[simp] theorem raiseF_q (e : Exec) (x : FFlags) : (e.raiseF x).q = e.q := rfl
@[simp] theorem raiseF_v (e : Exec) (x : FFlags) : (e.raiseF x).v = e.v := rfl
@[simp] theorem raiseF_a (e : Exec) (x : FFlags) : (e.raiseF x).a = e.a := rfl
@[simp] theorem raiseF_aUsed (e : Exec) (x : FFlags) : (e.raiseF x).aUsed = e.aUsed := rfl
@[simp] theorem raiseF_cnt (e : Exec) (x : FFlags) : (e.raiseF x).cnt = e.cnt := rfl
@[simp] theorem raiseF_loops (e : Exec) (x : FFlags) : (e.raiseF x).loops = e.loops := rfl
@[simp] theorem raiseF_perm (e : Exec) (x : FFlags) : (e.raiseF x).perm = e.perm := rfl
@[simp] theorem raiseF_fpcsr (e : Exec) (x : FFlags) : (e.raiseF x).fpcsr = fpcsrRaise e.fpcsr x := rfl
@[simp] theorem raiseF_rand (e : Exec) (x : FFlags) : (e.raiseF x).rand = e.rand := rfl
@[simp] theorem raiseF_mstat (e : Exec) (x : FFlags) : (e.raiseF x).mstat = e.mstat := rfl
@[simp] theorem raiseF_fprog (e : Exec) (x : FFlags) : (e.raiseF x).fprog = e.fprog := rfl
@[simp] theorem raiseF_fstat (e : Exec) (x : FFlags) : (e.raiseF x).fstat = e.fstat := rfl
@[simp] theorem raiseF_grow (e : Exec) (x : FFlags) : (e.raiseF x).grow = e.grow := rfl
@[simp] theorem raiseF_events (e : Exec) (x : FFlags) : (e.raiseF x).events = e.events := rfl
@[simp] theorem raiseF_spans (e : Exec) (x : FFlags) : (e.raiseF x).spans = e.spans := rfl
@[simp] theorem raiseF_mmags (e : Exec) (x : FFlags) : (e.raiseF x).mmags = e.mmags := rfl
@[simp] theorem raiseF_recv (e : Exec) (x : FFlags) : (e.raiseF x).recv = e.recv := rfl
@[simp] theorem raiseF_tickets (e : Exec) (x : FFlags) : (e.raiseF x).tickets = e.tickets := rfl
@[simp] theorem raiseF_tags (e : Exec) (x : FFlags) : (e.raiseF x).tags = e.tags := rfl
@[simp] theorem raiseF_ratst (e : Exec) (x : FFlags) : (e.raiseF x).ratst = e.ratst := rfl
@[simp] theorem raiseF_cpEnds (e : Exec) (x : FFlags) : (e.raiseF x).cpEnds = e.cpEnds := rfl
@[simp] theorem raiseF_mq (e : Exec) (x : FFlags) : (e.raiseF x).mq = e.mq := rfl
@[simp] theorem raiseF_fence (e : Exec) (x : FFlags) : (e.raiseF x).fence = e.fence := rfl
@[simp] theorem raiseF_reply (e : Exec) (x : FFlags) : (e.raiseF x).reply = e.reply := rfl
@[simp] theorem raiseF_arena (e : Exec) (x : FFlags) : (e.raiseF x).arena = e.arena := rfl
@[simp] theorem raiseF_frame (e : Exec) (x : FFlags) : (e.raiseF x).frame = e.frame := rfl
@[simp] theorem raiseF_area (e : Exec) (x : FFlags) : (e.raiseF x).area = e.area := rfl
@[simp] theorem raiseF_saved (e : Exec) (x : FFlags) : (e.raiseF x).saved = e.saved := rfl
@[simp] theorem raiseF_newCode (e : Exec) (x : FFlags) : (e.raiseF x).newCode = e.newCode := rfl
@[simp] theorem raiseF_stopAsked (e : Exec) (x : FFlags) : (e.raiseF x).stopAsked = e.stopAsked := rfl
@[simp] theorem raiseF_blocks (e : Exec) (x : FFlags) : (e.raiseF x).blocks = e.blocks := rfl
@[simp] theorem raiseF_strays (e : Exec) (x : FFlags) : (e.raiseF x).strays = e.strays := rfl

@[simp] theorem jumpTo_ctx (e : Exec) (w : Word) : (e.jumpTo w).ctx = e.ctx := rfl
@[simp] theorem jumpTo_appo (e : Exec) (w : Word) : (e.jumpTo w).appo = e.appo := rfl
@[simp] theorem jumpTo_rank (e : Exec) (w : Word) : (e.jumpTo w).rank = e.rank := rfl
@[simp] theorem jumpTo_op (e : Exec) (w : Word) : (e.jumpTo w).op = e.op := rfl
@[simp] theorem jumpTo_status (e : Exec) (w : Word) : (e.jumpTo w).status = e.status := rfl
@[simp] theorem jumpTo_wait (e : Exec) (w : Word) : (e.jumpTo w).wait = e.wait := rfl
@[simp] theorem jumpTo_met (e : Exec) (w : Word) : (e.jumpTo w).met = e.met := rfl
@[simp] theorem jumpTo_age (e : Exec) (w : Word) : (e.jumpTo w).age = e.age := rfl
@[simp] theorem jumpTo_pc (e : Exec) (w : Word) : (e.jumpTo w).pc = w := rfl
@[simp] theorem jumpTo_g (e : Exec) (w : Word) : (e.jumpTo w).g = e.g := rfl
@[simp] theorem jumpTo_q (e : Exec) (w : Word) : (e.jumpTo w).q = e.q := rfl
@[simp] theorem jumpTo_v (e : Exec) (w : Word) : (e.jumpTo w).v = e.v := rfl
@[simp] theorem jumpTo_a (e : Exec) (w : Word) : (e.jumpTo w).a = e.a := rfl
@[simp] theorem jumpTo_aUsed (e : Exec) (w : Word) : (e.jumpTo w).aUsed = e.aUsed := rfl
@[simp] theorem jumpTo_cnt (e : Exec) (w : Word) : (e.jumpTo w).cnt = e.cnt := rfl
@[simp] theorem jumpTo_loops (e : Exec) (w : Word) : (e.jumpTo w).loops = e.loops := rfl
@[simp] theorem jumpTo_perm (e : Exec) (w : Word) : (e.jumpTo w).perm = e.perm := rfl
@[simp] theorem jumpTo_fpcsr (e : Exec) (w : Word) : (e.jumpTo w).fpcsr = e.fpcsr := rfl
@[simp] theorem jumpTo_rand (e : Exec) (w : Word) : (e.jumpTo w).rand = e.rand := rfl
@[simp] theorem jumpTo_mstat (e : Exec) (w : Word) : (e.jumpTo w).mstat = e.mstat := rfl
@[simp] theorem jumpTo_fprog (e : Exec) (w : Word) : (e.jumpTo w).fprog = e.fprog := rfl
@[simp] theorem jumpTo_fstat (e : Exec) (w : Word) : (e.jumpTo w).fstat = e.fstat := rfl
@[simp] theorem jumpTo_grow (e : Exec) (w : Word) : (e.jumpTo w).grow = e.grow := rfl
@[simp] theorem jumpTo_events (e : Exec) (w : Word) : (e.jumpTo w).events = e.events := rfl
@[simp] theorem jumpTo_spans (e : Exec) (w : Word) : (e.jumpTo w).spans = e.spans := rfl
@[simp] theorem jumpTo_mmags (e : Exec) (w : Word) : (e.jumpTo w).mmags = e.mmags := rfl
@[simp] theorem jumpTo_recv (e : Exec) (w : Word) : (e.jumpTo w).recv = e.recv := rfl
@[simp] theorem jumpTo_tickets (e : Exec) (w : Word) : (e.jumpTo w).tickets = e.tickets := rfl
@[simp] theorem jumpTo_tags (e : Exec) (w : Word) : (e.jumpTo w).tags = e.tags := rfl
@[simp] theorem jumpTo_ratst (e : Exec) (w : Word) : (e.jumpTo w).ratst = e.ratst := rfl
@[simp] theorem jumpTo_cpEnds (e : Exec) (w : Word) : (e.jumpTo w).cpEnds = e.cpEnds := rfl
@[simp] theorem jumpTo_mq (e : Exec) (w : Word) : (e.jumpTo w).mq = e.mq := rfl
@[simp] theorem jumpTo_fence (e : Exec) (w : Word) : (e.jumpTo w).fence = e.fence := rfl
@[simp] theorem jumpTo_reply (e : Exec) (w : Word) : (e.jumpTo w).reply = e.reply := rfl
@[simp] theorem jumpTo_arena (e : Exec) (w : Word) : (e.jumpTo w).arena = e.arena := rfl
@[simp] theorem jumpTo_frame (e : Exec) (w : Word) : (e.jumpTo w).frame = e.frame := rfl
@[simp] theorem jumpTo_area (e : Exec) (w : Word) : (e.jumpTo w).area = e.area := rfl
@[simp] theorem jumpTo_saved (e : Exec) (w : Word) : (e.jumpTo w).saved = e.saved := rfl
@[simp] theorem jumpTo_newCode (e : Exec) (w : Word) : (e.jumpTo w).newCode = e.newCode := rfl
@[simp] theorem jumpTo_stopAsked (e : Exec) (w : Word) : (e.jumpTo w).stopAsked = e.stopAsked := rfl
@[simp] theorem jumpTo_blocks (e : Exec) (w : Word) : (e.jumpTo w).blocks = e.blocks := rfl
@[simp] theorem jumpTo_strays (e : Exec) (w : Word) : (e.jumpTo w).strays = e.strays := rfl

@[simp] theorem setG_ctx (e : Exec) (r : GReg) (x : Word) : (e.setG r x).ctx = e.ctx := by
  unfold Exec.setG; split <;> rfl
@[simp] theorem setG_appo (e : Exec) (r : GReg) (x : Word) : (e.setG r x).appo = e.appo := by
  unfold Exec.setG; split <;> rfl
@[simp] theorem setG_rank (e : Exec) (r : GReg) (x : Word) : (e.setG r x).rank = e.rank := by
  unfold Exec.setG; split <;> rfl
@[simp] theorem setG_op (e : Exec) (r : GReg) (x : Word) : (e.setG r x).op = e.op := by
  unfold Exec.setG; split <;> rfl
@[simp] theorem setG_status (e : Exec) (r : GReg) (x : Word) : (e.setG r x).status = e.status := by
  unfold Exec.setG; split <;> rfl
@[simp] theorem setG_wait (e : Exec) (r : GReg) (x : Word) : (e.setG r x).wait = e.wait := by
  unfold Exec.setG; split <;> rfl
@[simp] theorem setG_met (e : Exec) (r : GReg) (x : Word) : (e.setG r x).met = e.met := by
  unfold Exec.setG; split <;> rfl
@[simp] theorem setG_age (e : Exec) (r : GReg) (x : Word) : (e.setG r x).age = e.age := by
  unfold Exec.setG; split <;> rfl
@[simp] theorem setG_pc (e : Exec) (r : GReg) (x : Word) : (e.setG r x).pc = e.pc := by
  unfold Exec.setG; split <;> rfl
@[simp] theorem setG_q (e : Exec) (r : GReg) (x : Word) : (e.setG r x).q = e.q := by
  unfold Exec.setG; split <;> rfl
@[simp] theorem setG_v (e : Exec) (r : GReg) (x : Word) : (e.setG r x).v = e.v := by
  unfold Exec.setG; split <;> rfl
@[simp] theorem setG_a (e : Exec) (r : GReg) (x : Word) : (e.setG r x).a = e.a := by
  unfold Exec.setG; split <;> rfl
@[simp] theorem setG_aUsed (e : Exec) (r : GReg) (x : Word) : (e.setG r x).aUsed = e.aUsed := by
  unfold Exec.setG; split <;> rfl
@[simp] theorem setG_cnt (e : Exec) (r : GReg) (x : Word) : (e.setG r x).cnt = e.cnt := by
  unfold Exec.setG; split <;> rfl
@[simp] theorem setG_loops (e : Exec) (r : GReg) (x : Word) : (e.setG r x).loops = e.loops := by
  unfold Exec.setG; split <;> rfl
@[simp] theorem setG_perm (e : Exec) (r : GReg) (x : Word) : (e.setG r x).perm = e.perm := by
  unfold Exec.setG; split <;> rfl
@[simp] theorem setG_fpcsr (e : Exec) (r : GReg) (x : Word) : (e.setG r x).fpcsr = e.fpcsr := by
  unfold Exec.setG; split <;> rfl
@[simp] theorem setG_rand (e : Exec) (r : GReg) (x : Word) : (e.setG r x).rand = e.rand := by
  unfold Exec.setG; split <;> rfl
@[simp] theorem setG_mstat (e : Exec) (r : GReg) (x : Word) : (e.setG r x).mstat = e.mstat := by
  unfold Exec.setG; split <;> rfl
@[simp] theorem setG_fprog (e : Exec) (r : GReg) (x : Word) : (e.setG r x).fprog = e.fprog := by
  unfold Exec.setG; split <;> rfl
@[simp] theorem setG_fstat (e : Exec) (r : GReg) (x : Word) : (e.setG r x).fstat = e.fstat := by
  unfold Exec.setG; split <;> rfl
@[simp] theorem setG_grow (e : Exec) (r : GReg) (x : Word) : (e.setG r x).grow = e.grow := by
  unfold Exec.setG; split <;> rfl
@[simp] theorem setG_events (e : Exec) (r : GReg) (x : Word) : (e.setG r x).events = e.events := by
  unfold Exec.setG; split <;> rfl
@[simp] theorem setG_spans (e : Exec) (r : GReg) (x : Word) : (e.setG r x).spans = e.spans := by
  unfold Exec.setG; split <;> rfl
@[simp] theorem setG_mmags (e : Exec) (r : GReg) (x : Word) : (e.setG r x).mmags = e.mmags := by
  unfold Exec.setG; split <;> rfl
@[simp] theorem setG_recv (e : Exec) (r : GReg) (x : Word) : (e.setG r x).recv = e.recv := by
  unfold Exec.setG; split <;> rfl
@[simp] theorem setG_tickets (e : Exec) (r : GReg) (x : Word) : (e.setG r x).tickets = e.tickets := by
  unfold Exec.setG; split <;> rfl
@[simp] theorem setG_tags (e : Exec) (r : GReg) (x : Word) : (e.setG r x).tags = e.tags := by
  unfold Exec.setG; split <;> rfl
@[simp] theorem setG_ratst (e : Exec) (r : GReg) (x : Word) : (e.setG r x).ratst = e.ratst := by
  unfold Exec.setG; split <;> rfl
@[simp] theorem setG_cpEnds (e : Exec) (r : GReg) (x : Word) : (e.setG r x).cpEnds = e.cpEnds := by
  unfold Exec.setG; split <;> rfl
@[simp] theorem setG_mq (e : Exec) (r : GReg) (x : Word) : (e.setG r x).mq = e.mq := by
  unfold Exec.setG; split <;> rfl
@[simp] theorem setG_fence (e : Exec) (r : GReg) (x : Word) : (e.setG r x).fence = e.fence := by
  unfold Exec.setG; split <;> rfl
@[simp] theorem setG_reply (e : Exec) (r : GReg) (x : Word) : (e.setG r x).reply = e.reply := by
  unfold Exec.setG; split <;> rfl
@[simp] theorem setG_arena (e : Exec) (r : GReg) (x : Word) : (e.setG r x).arena = e.arena := by
  unfold Exec.setG; split <;> rfl
@[simp] theorem setG_frame (e : Exec) (r : GReg) (x : Word) : (e.setG r x).frame = e.frame := by
  unfold Exec.setG; split <;> rfl
@[simp] theorem setG_area (e : Exec) (r : GReg) (x : Word) : (e.setG r x).area = e.area := by
  unfold Exec.setG; split <;> rfl
@[simp] theorem setG_saved (e : Exec) (r : GReg) (x : Word) : (e.setG r x).saved = e.saved := by
  unfold Exec.setG; split <;> rfl
@[simp] theorem setG_newCode (e : Exec) (r : GReg) (x : Word) : (e.setG r x).newCode = e.newCode := by
  unfold Exec.setG; split <;> rfl
@[simp] theorem setG_stopAsked (e : Exec) (r : GReg) (x : Word) : (e.setG r x).stopAsked = e.stopAsked := by
  unfold Exec.setG; split <;> rfl
@[simp] theorem setG_blocks (e : Exec) (r : GReg) (x : Word) : (e.setG r x).blocks = e.blocks := by
  unfold Exec.setG; split <;> rfl
@[simp] theorem setG_strays (e : Exec) (r : GReg) (x : Word) : (e.setG r x).strays = e.strays := by
  unfold Exec.setG; split <;> rfl

/-- The end check of a loop changes the PC, the counters and the loops' states alone (R205). -/
theorem loopEnd_regs (w : Word) (cs : List CReg) (e : Exec) :
    e.loopEnd w cs =
      { e with pc := (e.loopEnd w cs).pc, cnt := (e.loopEnd w cs).cnt, loops := (e.loopEnd w cs).loops } := by
  induction cs generalizing e with
  | nil => rfl
  | cons c cs ih =>
    by_cases h : (e.getCnt c).toNat + 1 < (e.getLoop c).count.toNat
    · have h' : e.loopEnd w (c :: cs) = { e.setCnt c (e.getCnt c + 1) with pc := (e.getLoop c).start } := by
        simp [Exec.loopEnd, h]
      rw [h']; rfl
    · have h' : e.loopEnd w (c :: cs) =
          ((e.setCnt c (e.getLoop c).count).setLoop c { e.getLoop c with active := false }).loopEnd w cs := by
        simp [Exec.loopEnd, h]
      rw [h', ih]; rfl

/-- The advance changes the PC, the counters and the loops' states alone (R81, R205). -/
theorem advance_regs (e : Exec) :
    e.advance = { e with pc := e.advance.pc, cnt := e.advance.cnt, loops := e.advance.loops } :=
  loopEnd_regs ..

@[simp] theorem advance_ctx (e : Exec) : e.advance.ctx = e.ctx := by rw [advance_regs]
@[simp] theorem advance_appo (e : Exec) : e.advance.appo = e.appo := by rw [advance_regs]
@[simp] theorem advance_rank (e : Exec) : e.advance.rank = e.rank := by rw [advance_regs]
@[simp] theorem advance_op (e : Exec) : e.advance.op = e.op := by rw [advance_regs]
@[simp] theorem advance_status (e : Exec) : e.advance.status = e.status := by rw [advance_regs]
@[simp] theorem advance_wait (e : Exec) : e.advance.wait = e.wait := by rw [advance_regs]
@[simp] theorem advance_met (e : Exec) : e.advance.met = e.met := by rw [advance_regs]
@[simp] theorem advance_age (e : Exec) : e.advance.age = e.age := by rw [advance_regs]
@[simp] theorem advance_g (e : Exec) : e.advance.g = e.g := by rw [advance_regs]
@[simp] theorem advance_q (e : Exec) : e.advance.q = e.q := by rw [advance_regs]
@[simp] theorem advance_v (e : Exec) : e.advance.v = e.v := by rw [advance_regs]
@[simp] theorem advance_a (e : Exec) : e.advance.a = e.a := by rw [advance_regs]
@[simp] theorem advance_aUsed (e : Exec) : e.advance.aUsed = e.aUsed := by rw [advance_regs]
@[simp] theorem advance_perm (e : Exec) : e.advance.perm = e.perm := by rw [advance_regs]
@[simp] theorem advance_fpcsr (e : Exec) : e.advance.fpcsr = e.fpcsr := by rw [advance_regs]
@[simp] theorem advance_rand (e : Exec) : e.advance.rand = e.rand := by rw [advance_regs]
@[simp] theorem advance_mstat (e : Exec) : e.advance.mstat = e.mstat := by rw [advance_regs]
@[simp] theorem advance_fprog (e : Exec) : e.advance.fprog = e.fprog := by rw [advance_regs]
@[simp] theorem advance_fstat (e : Exec) : e.advance.fstat = e.fstat := by rw [advance_regs]
@[simp] theorem advance_grow (e : Exec) : e.advance.grow = e.grow := by rw [advance_regs]
@[simp] theorem advance_events (e : Exec) : e.advance.events = e.events := by rw [advance_regs]
@[simp] theorem advance_spans (e : Exec) : e.advance.spans = e.spans := by rw [advance_regs]
@[simp] theorem advance_mmags (e : Exec) : e.advance.mmags = e.mmags := by rw [advance_regs]
@[simp] theorem advance_recv (e : Exec) : e.advance.recv = e.recv := by rw [advance_regs]
@[simp] theorem advance_tickets (e : Exec) : e.advance.tickets = e.tickets := by rw [advance_regs]
@[simp] theorem advance_tags (e : Exec) : e.advance.tags = e.tags := by rw [advance_regs]
@[simp] theorem advance_ratst (e : Exec) : e.advance.ratst = e.ratst := by rw [advance_regs]
@[simp] theorem advance_cpEnds (e : Exec) : e.advance.cpEnds = e.cpEnds := by rw [advance_regs]
@[simp] theorem advance_mq (e : Exec) : e.advance.mq = e.mq := by rw [advance_regs]
@[simp] theorem advance_fence (e : Exec) : e.advance.fence = e.fence := by rw [advance_regs]
@[simp] theorem advance_reply (e : Exec) : e.advance.reply = e.reply := by rw [advance_regs]
@[simp] theorem advance_arena (e : Exec) : e.advance.arena = e.arena := by rw [advance_regs]
@[simp] theorem advance_frame (e : Exec) : e.advance.frame = e.frame := by rw [advance_regs]
@[simp] theorem advance_area (e : Exec) : e.advance.area = e.area := by rw [advance_regs]
@[simp] theorem advance_saved (e : Exec) : e.advance.saved = e.saved := by rw [advance_regs]
@[simp] theorem advance_newCode (e : Exec) : e.advance.newCode = e.newCode := by rw [advance_regs]
@[simp] theorem advance_stopAsked (e : Exec) : e.advance.stopAsked = e.stopAsked := by rw [advance_regs]
@[simp] theorem advance_blocks (e : Exec) : e.advance.blocks = e.blocks := by rw [advance_regs]
@[simp] theorem advance_strays (e : Exec) : e.advance.strays = e.strays := by rw [advance_regs]

end Sys2Proof.Laws
end

