-- ==== Sys2Proof/Laws/Tables.lean ====
section
/-! SUPPORT. Sparse tables, memory and fixed-length tables: reads after writes, and the canonical form that every write
keeps. -/

namespace Sys2Proof.Laws

open Sys2Proof Machine

/-! ### Fixed-length tables -/

@[simp] theorem vget_tabulate {α : Type} (d : α) (n : Nat) (f : Nat → α) (i : Nat) (h : i < n) :
    vget d (tabulate n f) i = f i := by
  simp [vget, tabulate, h]

theorem vget_vset {α : Type} {n : Nat} (d : α) (v : Vector α n) (i j : Nat) (x : α) (h : i < n) :
    vget d (vset v i x) j = if j = i then x else vget d v j := by
  by_cases hj : j = i
  · subst hj; simp [vget, vset, h]
  · simp [vget, vset, List.getElem?_set_ne (Ne.symm hj), hj]

@[simp] theorem vget_vset_self {α : Type} {n : Nat} (d : α) (v : Vector α n) (i : Nat) (x : α) (h : i < n) :
    vget d (vset v i x) i = x := by rw [vget_vset d v i i x h, if_pos rfl]

theorem vget_vset_ne {α : Type} {n : Nat} (d : α) (v : Vector α n) (i j : Nat) (x : α) (h : j ≠ i) :
    vget d (vset v i x) j = vget d v j := by
  simp [vget, vset, List.getElem?_set_ne (Ne.symm h)]

/-! ### Sparse tables -/

section
variable {α : Type}

theorem tbl_find_set (t : Tbl α) (k j : Nat) (x : α) :
    Tbl.find (Tbl.set t k x) j = if j = k then some x else Tbl.find t j := by
  induction t with
  | nil => simp [Tbl.set, Tbl.find, eq_comm]
  | cons p t ih =>
    obtain ⟨i, y⟩ := p
    simp only [Tbl.set]
    split
    · simp only [Tbl.find]; by_cases h : k = j <;> simp [h, eq_comm]
    · split
      · rename_i h; subst h; simp only [Tbl.find]; by_cases h : k = j <;> simp [h, eq_comm]
      · simp only [Tbl.find, ih]; split <;> split <;> simp_all

theorem tbl_find_erase (t : Tbl α) (k j : Nat) :
    Tbl.find (Tbl.erase t k) j = if j = k then none else Tbl.find t j := by
  induction t with
  | nil => simp [Tbl.erase, Tbl.find]
  | cons p t ih =>
    obtain ⟨i, y⟩ := p
    simp only [Tbl.erase]
    split
    · rename_i h; subst h; rw [ih]; by_cases hj : j = i <;> simp [hj, Tbl.find]
      intro h; exact absurd h.symm hj
    · simp only [Tbl.find, ih]; split <;> split <;> simp_all

theorem tbl_get_eq (d : α) (t : Tbl α) (k : Nat) : Tbl.get d t k = (Tbl.find t k).getD d := by
  induction t with
  | nil => rfl
  | cons p t ih => obtain ⟨i, y⟩ := p; simp only [Tbl.get, Tbl.find]; split <;> simp [ih]

theorem tbl_get_set (d : α) (t : Tbl α) (k j : Nat) (x : α) :
    Tbl.get d (Tbl.set t k x) j = if j = k then x else Tbl.get d t j := by
  simp only [tbl_get_eq, tbl_find_set]; split <;> rfl

theorem tbl_get_erase (d : α) (t : Tbl α) (k j : Nat) :
    Tbl.get d (Tbl.erase t k) j = if j = k then d else Tbl.get d t j := by
  simp only [tbl_get_eq, tbl_find_erase]; split <;> rfl

theorem tbl_get_put [DecidableEq α] (d : α) (t : Tbl α) (k j : Nat) (x : α) :
    Tbl.get d (Tbl.put d t k x) j = if j = k then x else Tbl.get d t j := by
  unfold Tbl.put
  split
  · rename_i h; rw [tbl_get_erase, h]
  · exact tbl_get_set ..

/-- The keys rise strictly, as a property of the list of entries. -/
theorem tbl_sorted_iff (t : Tbl α) : Tbl.sorted t = true ↔ t.Pairwise fun a b => a.1 < b.1 := by
  induction t with
  | nil => simp [Tbl.sorted]
  | cons p t ih =>
    cases t with
    | nil => simp [Tbl.sorted]
    | cons q t =>
      obtain ⟨i, x⟩ := p
      obtain ⟨j, y⟩ := q
      simp only [Tbl.sorted, Bool.and_eq_true, decide_eq_true_eq, ih, List.pairwise_cons, List.mem_cons,
        forall_eq_or_imp]
      constructor
      · rintro ⟨h, h1, h2⟩; exact ⟨⟨h, fun a ha => Nat.lt_trans h (h1 a ha)⟩, h1, h2⟩
      · rintro ⟨⟨h, _⟩, h1, h2⟩; exact ⟨h, h1, h2⟩

theorem tbl_set_mem {t : Tbl α} {k : Nat} {x : α} {p : Nat × α} (h : p ∈ Tbl.set t k x) :
    p = (k, x) ∨ p ∈ t := by
  induction t with
  | nil => simpa [Tbl.set] using h
  | cons q t ih =>
    obtain ⟨i, y⟩ := q
    simp only [Tbl.set] at h
    split at h
    · simpa using h
    · split at h
      · simp only [List.mem_cons] at h ⊢; tauto
      · simp only [List.mem_cons] at h ⊢; rcases h with h | h
        · tauto
        · rcases ih h with h | h <;> tauto

theorem tbl_erase_sublist (t : Tbl α) (k : Nat) : List.Sublist (Tbl.erase t k) t := by
  induction t with
  | nil => exact .slnil
  | cons p t ih =>
    obtain ⟨i, y⟩ := p
    simp only [Tbl.erase]
    split
    · exact ih.cons _
    · exact ih.cons_cons _

/-- A set keeps the keys rising. -/
theorem tbl_sorted_set (t : Tbl α) (k : Nat) (x : α) (h : Tbl.sorted t = true) : Tbl.sorted (Tbl.set t k x) = true := by
  rw [tbl_sorted_iff] at *
  induction t with
  | nil => simp [Tbl.set]
  | cons p t ih =>
    obtain ⟨i, y⟩ := p
    rw [List.pairwise_cons] at h
    simp only [Tbl.set]
    split
    · rename_i hk
      simp only [List.pairwise_cons, List.mem_cons, forall_eq_or_imp]
      exact ⟨⟨hk, fun a ha => Nat.lt_trans hk (h.1 a ha)⟩, h⟩
    · split
      · rename_i hk; subst hk; exact List.pairwise_cons.mpr h
      · refine List.pairwise_cons.mpr ⟨fun a ha => ?_, ih h.2⟩
        rcases tbl_set_mem ha with rfl | ha
        · simp only; omega
        · exact h.1 a ha

/-- An erase keeps the keys rising. -/
theorem tbl_sorted_erase (t : Tbl α) (k : Nat) (h : Tbl.sorted t = true) : Tbl.sorted (Tbl.erase t k) = true := by
  rw [tbl_sorted_iff] at *
  exact h.sublist (tbl_erase_sublist t k)

theorem tbl_sorted_put [DecidableEq α] (d : α) (t : Tbl α) (k : Nat) (x : α) (h : Tbl.sorted t = true) :
    Tbl.sorted (Tbl.put d t k x) = true := by
  unfold Tbl.put
  split
  · exact tbl_sorted_erase t k h
  · exact tbl_sorted_set t k x h

end

/-! ### Memory -/

theorem listed_bounds (bs : List Byte) (a : Nat) : ∀ c ∈ Memory.listed a bs, a ≤ c.1 ∧ c.1 < a + bs.length := by
  induction bs generalizing a with
  | nil => simp [Memory.listed]
  | cons b bs ih =>
    intro c hc
    simp only [Memory.listed] at hc
    simp only [List.length_cons]
    split at hc
    · have := ih (a + 1) c hc; omega
    · simp only [List.mem_cons] at hc
      rcases hc with rfl | hc
      · simp
      · have := ih (a + 1) c hc; omega

theorem listed_pairwise (bs : List Byte) (a : Nat) : (Memory.listed a bs).Pairwise fun x y => x.1 < y.1 := by
  induction bs generalizing a with
  | nil => simp [Memory.listed]
  | cons b bs ih =>
    simp only [Memory.listed]
    split
    · exact ih _
    · refine List.pairwise_cons.mpr ⟨fun c hc => ?_, ih _⟩
      have := listed_bounds bs (a + 1) c hc
      simp only; omega

theorem listed_canonical (bs : List Byte) (a : Nat) : ∀ c ∈ Memory.listed a bs, c.2 ≠ Memory.unlisted := by
  induction bs generalizing a with
  | nil => simp [Memory.listed]
  | cons b bs ih =>
    intro c hc
    simp only [Memory.listed] at hc
    split at hc
    · exact ih _ c hc
    · simp only [List.mem_cons] at hc
      rcases hc with rfl | hc
      · assumption
      · exact ih _ c hc

/-- Memory.wf as a property of the list of entries. -/
theorem memory_wf_iff (m : Memory) :
    m.wf = true ↔ (m.Pairwise fun a b => a.1 < b.1) ∧ ∀ c ∈ m, c.2 ≠ Memory.unlisted := by
  simp [Memory.wf, tbl_sorted_iff]

/-- Memory with nothing listed is in canonical form. -/
theorem memory_wf_nil : Memory.wf [] = true := rfl

/-- A write keeps the canonical form. -/
theorem memory_wf_write (m : Memory) (a : Nat) (bs : List Byte) (h : m.wf = true) : (m.write a bs).wf = true := by
  rw [memory_wf_iff] at *
  obtain ⟨h1, h2⟩ := h
  simp only [Memory.write, List.pairwise_append, List.mem_append, List.mem_filter, decide_eq_true_eq]
  refine ⟨⟨⟨h1.filter _, listed_pairwise bs a, ?_⟩, h1.filter _, ?_⟩, ?_⟩
  · intro x hx y hy; have := listed_bounds bs a y hy; omega
  · rintro x (hx | hx) y hy
    · omega
    · have := listed_bounds bs a x hx; omega
  · rintro c ((hc | hc) | hc)
    · exact h2 c hc.1
    · exact listed_canonical bs a c hc
    · exact h2 c hc.1

theorem memory_read_nil (a : Nat) : Memory.read [] a = Memory.unlisted := rfl

theorem get_append {α : Type} (d : α) (s t : Tbl α) (k : Nat) :
    Tbl.get d (s ++ t) k = if (s.any fun p => p.1 == k) then Tbl.get d s k else Tbl.get d t k := by
  induction s with
  | nil => simp
  | cons p s ih =>
    obtain ⟨i, y⟩ := p
    simp only [List.cons_append, Tbl.get, ih, List.any_cons]
    by_cases h : i = k
    · simp [h]
    · have : (i == k) = false := by simpa using h
      simp only [h, if_false, this, Bool.false_or]

theorem get_filter {α : Type} (d : α) (f : Nat → Bool) (t : Tbl α) (k : Nat) (h : f k = true) :
    Tbl.get d (t.filter fun p => f p.1) k = Tbl.get d t k := by
  induction t with
  | nil => rfl
  | cons p t ih =>
    obtain ⟨i, y⟩ := p
    by_cases hi : f i = true
    · simp only [List.filter_cons, hi, if_true, Tbl.get, ih]
    · have : i ≠ k := fun e => hi (e ▸ h)
      simp [List.filter_cons, hi, Tbl.get, this, ih]

theorem get_none {α : Type} (d : α) (t : Tbl α) (k : Nat) (h : (t.any fun p => p.1 == k) = false) :
    Tbl.get d t k = d := by
  induction t with
  | nil => rfl
  | cons p t ih =>
    obtain ⟨i, y⟩ := p
    simp only [List.any_cons, Bool.or_eq_false_iff, beq_eq_false_iff_ne] at h
    simp [Tbl.get, h.1, ih h.2]

theorem get_listed (bs : List Byte) (a k : Nat) :
    Tbl.get Memory.unlisted (Memory.listed a bs) k =
      if a ≤ k ∧ k < a + bs.length then bs.getD (k - a) Memory.unlisted else Memory.unlisted := by
  induction bs generalizing a with
  | nil => simp only [Memory.listed, Tbl.get]; split <;> simp
  | cons b bs ih =>
    simp only [Memory.listed, List.length_cons]
    by_cases hk : k = a
    · subst hk
      have e : Tbl.get Memory.unlisted (Memory.listed (k + 1) bs) k = Memory.unlisted := by
        rw [ih]; rw [if_neg (by omega)]
      split
      · rename_i hb; rw [e]; simp [hb]
      · simp [Tbl.get]
    · have e : Tbl.get Memory.unlisted (Memory.listed (a + 1) bs) k =
          if a ≤ k ∧ k < a + (bs.length + 1) then (b :: bs).getD (k - a) Memory.unlisted else Memory.unlisted := by
        rw [ih]
        by_cases h : a ≤ k ∧ k < a + (bs.length + 1)
        · rw [if_pos h, if_pos (by omega), show k - a = (k - (a + 1)) + 1 by omega]; simp
        · rw [if_neg h, if_neg (by omega)]
      split
      · exact e
      · simp only [Tbl.get]; rw [if_neg (fun h => hk h.symm)]; exact e

/-- A byte read after a write: the byte written, and elsewhere what stood there before. -/
theorem memory_read_write (m : Memory) (a : Nat) (bs : List Byte) (k : Nat) :
    (m.write a bs).read k = if a ≤ k ∧ k < a + bs.length then bs.getD (k - a) 0 else m.read k := by
  simp only [Memory.write, Memory.read]
  by_cases h : a ≤ k ∧ k < a + bs.length
  · rw [if_pos h, get_append]
    have e1 : (m.filter fun c => decide (c.1 < a)).any (fun p => p.1 == k) = false := by
      simp only [List.any_eq_false, List.mem_filter, decide_eq_true_eq, beq_iff_eq]
      rintro c ⟨_, hc⟩; omega
    have e2 : (m.filter fun c => decide (a + bs.length ≤ c.1)).any (fun p => p.1 == k) = false := by
      simp only [List.any_eq_false, List.mem_filter, decide_eq_true_eq, beq_iff_eq]
      rintro c ⟨_, hc⟩; omega
    have e3 := get_listed bs a k
    rw [if_pos h] at e3
    rw [List.any_append, e1, Bool.false_or]
    by_cases hl : (Memory.listed a bs).any (fun p => p.1 == k) = true
    · rw [if_pos hl, get_append, e1]; exact e3
    · rw [if_neg hl, get_none _ _ _ e2, ← get_none Memory.unlisted _ k (Bool.eq_false_of_not_eq_true hl)]; exact e3
  · rw [if_neg h, get_append]
    have hl : (Memory.listed a bs).any (fun p => p.1 == k) = false := by
      simp only [List.any_eq_false, beq_iff_eq]
      intro c hc he
      have := listed_bounds bs a c hc
      omega
    rw [List.any_append, hl, Bool.or_false]
    by_cases hk : k < a
    · have e := get_filter Memory.unlisted (fun i => decide (i < a)) m k (by simpa using hk)
      by_cases h1 : (m.filter fun c => decide (c.1 < a)).any (fun p => p.1 == k) = true
      · rw [if_pos h1, get_append, if_pos h1]; exact e
      · rw [if_neg h1]
        have e2 : (m.filter fun c => decide (a + bs.length ≤ c.1)).any (fun p => p.1 == k) = false := by
          simp only [List.any_eq_false, List.mem_filter, decide_eq_true_eq, beq_iff_eq]
          rintro c ⟨_, hc⟩; omega
        rw [get_none _ _ _ e2, ← e, get_none _ _ _ (Bool.eq_false_of_not_eq_true h1)]
    · have e1 : (m.filter fun c => decide (c.1 < a)).any (fun p => p.1 == k) = false := by
        simp only [List.any_eq_false, List.mem_filter, decide_eq_true_eq, beq_iff_eq]
        rintro c ⟨_, hc⟩; omega
      rw [e1]
      simpa using get_filter Memory.unlisted (fun i => decide (a + bs.length ≤ i)) m k (by simp; omega)

end Sys2Proof.Laws
end

