-- ==== Sys2Proof/Laws/Ops.lean ====
section
/-! SUPPORT. What each shared operation of Ops and Member can do: how a word issues, what an accessor reads after an update,
and what taking a fault, discarding, parking and the rest leave of memory, of the contexts' states and of the executions. -/

namespace Sys2Proof.Laws

open Sys2Proof Machine

/-! ### Issue (R82) -/

theorem issue_on {g : Guard} {s : State} {k : Nat} {e : Exec} (body : Nat → Exec → State) (h : s.live = some (k, e))
    (hg : e.guardOn g = true) : issue g s body = .next (body k e) := by simp [issue, h, hg]

theorem issue_off {g : Guard} {s : State} {k : Nat} {e : Exec} (body : Nat → Exec → State) (h : s.live = some (k, e))
    (hg : e.guardOn g = false) : issue g s body = .next (s.setExec k e.advance) := by simp [issue, h, hg]

theorem issue_eq {g : Guard} {s : State} {k : Nat} {e : Exec} (body : Nat → Exec → State) (h : s.live = some (k, e)) :
    issue g s body = .next (if e.guardOn g then body k e else s.setExec k e.advance) := by
  simp only [issue, h]; split <;> simp_all

theorem issueLanes_eq {s : State} {k : Nat} {e : Exec} (body : Nat → Exec → State) (h : s.live = some (k, e)) :
    issueLanes s body = .next (body k e) := by simp [issueLanes, h]

theorem scalar_on {g : Guard} {s : State} {k : Nat} {e : Exec} (f : Exec → Exec) (h : s.live = some (k, e))
    (hg : e.guardOn g = true) : scalar g s f = .next (s.setExec k (f e).advance) := issue_on _ h hg

theorem scalar_off {g : Guard} {s : State} {k : Nat} {e : Exec} (f : Exec → Exec) (h : s.live = some (k, e))
    (hg : e.guardOn g = false) : scalar g s f = .next (s.setExec k e.advance) := issue_off _ h hg

theorem lanewise_eq {s : State} {k : Nat} {e : Exec} (f : Exec → Exec) (h : s.live = some (k, e)) :
    lanewise s f = .next (s.setExec k (f e).advance) := issueLanes_eq _ h

/-- Everything that an issued word can do: its body, or the advance alone; without a live execution, the one fault. -/
theorem issue_cases {g : Guard} {s t : State} {body : Nat → Exec → State} (h : issue g s body = .next t) :
    ∃ k e, s.live = some (k, e) ∧
      ((e.guardOn g = true ∧ t = body k e) ∨ (e.guardOn g = false ∧ t = s.setExec k e.advance)) := by
  unfold issue at h
  cases hl : s.live with
  | none => simp [hl] at h
  | some p =>
    obtain ⟨k, e⟩ := p
    simp only [hl] at h
    cases hg : e.guardOn g <;> simp [hg] at h <;> exact ⟨k, e, rfl, by simp [hg, h]⟩

/-- The live execution of a cell is one of its entries. -/
theorem liveOf_mem {s : State} {c k : Nat} {e : Exec} (h : s.liveOf c = some (k, e)) :
    (k, e) ∈ s.execs ∧ k / 256 = c ∧ e.status = .live := by
  have h1 := List.mem_of_find?_eq_some h
  have h2 := List.find?_some h
  simp only [Bool.and_eq_true, decide_eq_true_eq, beq_iff_eq] at h2
  exact ⟨h1, h2⟩

/-! ### Reads after updates -/

@[simp] theorem getCtx_setCtx (s : State) (k : CtxId) (c : Ctx) : (s.setCtx k c).getCtx k = c := by
  simp [State.getCtx, State.setCtx, vget_vset_self]

theorem getCtx_setCtx_ne (s : State) (k j : CtxId) (c : Ctx) (h : j ≠ k) : (s.setCtx k c).getCtx j = s.getCtx j := by
  simp only [State.getCtx, State.setCtx]
  exact vget_vset_ne _ _ _ _ _ fun e => h (Fin.ext e)

@[simp] theorem getCtx_modCtx (s : State) (k : CtxId) (f : Ctx → Ctx) : (s.modCtx k f).getCtx k = f (s.getCtx k) :=
  getCtx_setCtx ..

theorem getCtx_modCtx_ne (s : State) (k j : CtxId) (f : Ctx → Ctx) (h : j ≠ k) :
    (s.modCtx k f).getCtx j = s.getCtx j := getCtx_setCtx_ne _ _ _ _ h

theorem getCell_setCell (s : State) (c j : Nat) (x : Cell) :
    (s.setCell c x).getCell j = if j = c then x else s.getCell j := tbl_get_put _ _ _ _ _

theorem getCell_modCell (s : State) (c j : Nat) (f : Cell → Cell) :
    (s.modCell c f).getCell j = if j = c then f (s.getCell c) else s.getCell j := getCell_setCell ..

@[simp] theorem getCell_modCell_self (s : State) (c : Nat) (f : Cell → Cell) :
    (s.modCell c f).getCell c = f (s.getCell c) := by simp [getCell_modCell]

theorem getExec_setExec (s : State) (k j : Nat) (e : Exec) :
    (s.setExec k e).getExec j = if j = k then some e else s.getExec j := tbl_find_set ..

@[simp] theorem getExec_setExec_self (s : State) (k : Nat) (e : Exec) : (s.setExec k e).getExec k = some e := by
  simp [getExec_setExec]

theorem getExec_dropExec (s : State) (k j : Nat) :
    (s.dropExec k).getExec j = if j = k then none else s.getExec j := tbl_find_erase ..

theorem getRedex_setRedex (s : State) (k : CtxId) (a b : Nat) (r : Redex) :
    (s.setRedex k a r).getRedex k b = if b = a then some r else s.getRedex k b := by
  simp [State.getRedex, State.setRedex, tbl_find_set]

theorem getRedex_modRedex (s : State) (k : CtxId) (a : Nat) (f : Redex → Redex) :
    (s.modRedex k a f).getRedex k a = (s.getRedex k a).map f := by
  cases h : s.getRedex k a with
  | none => simp [State.modRedex, h]
  | some r => simp [State.modRedex, h, getRedex_setRedex]

theorem getTile_setTile (c : Cell) (i j : Nat) (t : Tile) :
    (c.setTile i t).getTile j = if j = i then t else c.getTile j := tbl_get_put _ _ _ _ _

/-! ### Folds -/

/-- What every step of a fold keeps, the fold keeps. -/
theorem foldl_keeps {α σ : Type} (p : σ → Prop) (f : σ → α → σ) (l : List α) (h : ∀ s x, p s → p (f s x)) (s : σ)
    (hs : p s) : p (l.foldl f s) := by
  induction l generalizing s with
  | nil => exact hs
  | cons x l ih => exact ih _ (h s x hs)

/-! ### Memory that is left as it was -/

/-- From s to t, HBM, the lines of the home slices, host memory and presence are as they were. -/
def SameStore (s t : State) : Prop :=
  t.mem.hbm = s.mem.hbm ∧ t.mem.dirty = s.mem.dirty ∧ t.mem.host = s.mem.host ∧ t.mem.present = s.mem.present

theorem SameStore.refl (s : State) : SameStore s s := ⟨rfl, rfl, rfl, rfl⟩

theorem SameStore.trans {s t u : State} (h : SameStore s t) (k : SameStore t u) : SameStore s u :=
  ⟨k.1.trans h.1, k.2.1.trans h.2.1, k.2.2.1.trans h.2.2.1, k.2.2.2.trans h.2.2.2⟩

theorem SameStore.of_mem {s t : State} (h : t.mem = s.mem) : SameStore s t := by simp [SameStore, h]

theorem SameStore.foldl {α : Type} (f : State → α → State) (l : List α) (h : ∀ s x, SameStore s (f s x)) (s : State) :
    SameStore s (l.foldl f s) :=
  foldl_keeps (SameStore s) f l (fun _ x ht => ht.trans (h _ x)) s (.refl s)

/-- The same, with mem whole. -/
theorem mem_foldl {α : Type} (f : State → α → State) (l : List α) (h : ∀ s x, (f s x).mem = s.mem) (s : State) :
    (l.foldl f s).mem = s.mem :=
  foldl_keeps (fun t => t.mem = s.mem) f l (fun t x ht => (h t x).trans ht) s rfl

@[simp] theorem signal_mem (s : State) (v : Nat) : (s.signal v).mem = s.mem := by unfold State.signal; split <;> rfl
@[simp] theorem signal_ctxs (s : State) (v : Nat) : (s.signal v).ctxs = s.ctxs := by unfold State.signal; split <;> rfl
@[simp] theorem signal_cells (s : State) (v : Nat) : (s.signal v).cells = s.cells := by unfold State.signal; split <;> rfl
@[simp] theorem signal_execs (s : State) (v : Nat) : (s.signal v).execs = s.execs := by unfold State.signal; split <;> rfl
@[simp] theorem signal_clk (s : State) (v : Nat) : (s.signal v).clk = s.clk := by unfold State.signal; split <;> rfl
@[simp] theorem signal_getCtx (s : State) (v : Nat) (k : CtxId) : (s.signal v).getCtx k = s.getCtx k := by
  simp [State.getCtx]
@[simp] theorem signal_getExec (s : State) (v k : Nat) : (s.signal v).getExec k = s.getExec k := by simp [State.getExec]

@[simp] theorem count_mem (s : State) (i n : Nat) : (s.count i n).mem = s.mem := by
  simp only [State.count]; split <;> simp
@[simp] theorem count_ctxs (s : State) (i n : Nat) : (s.count i n).ctxs = s.ctxs := by
  simp only [State.count]; split <;> simp
@[simp] theorem count_cells (s : State) (i n : Nat) : (s.count i n).cells = s.cells := by
  simp only [State.count]; split <;> simp
@[simp] theorem count_execs (s : State) (i n : Nat) : (s.count i n).execs = s.execs := by
  simp only [State.count]; split <;> simp

@[simp] theorem writeTrap_mem (s : State) (k : CtxId) (t : TrapRec) : (s.writeTrap k t).mem = s.mem := rfl
@[simp] theorem writeTrap_execs (s : State) (k : CtxId) (t : TrapRec) : (s.writeTrap k t).execs = s.execs := rfl
@[simp] theorem writeTrap_cells (s : State) (k : CtxId) (t : TrapRec) : (s.writeTrap k t).cells = s.cells := rfl

/-- A record that takes its place leaves the others in theirs (R110). -/
theorem insertTrap_perm (t : TrapRec) (l : List TrapRec) : (State.insertTrap t l).Perm (t :: l) := by
  induction l with
  | nil => exact .refl _
  | cons r rs ih =>
    unfold State.insertTrap
    split
    · exact .refl _
    · exact (List.Perm.cons r ih).trans (.swap t r rs)

@[simp] theorem insertTrap_length (t : TrapRec) (l : List TrapRec) : (State.insertTrap t l).length = l.length + 1 :=
  (insertTrap_perm t l).length_eq

/-- Every bridge carries traffic: none is DOWN or in TRAINING (R384). -/
theorem bridgesUp_iff (s : State) :
    s.bridgesUp = true ↔ ∀ l, l < 4 → (s.getLink l).st ≠ .down ∧ (s.getLink l).st ≠ .training := by
  simp only [State.bridgesUp, State.bridgeUp, Bool.and_eq_true, bne_iff_ne]
  constructor
  · rintro ⟨⟨⟨h0, h1⟩, h2⟩, h3⟩ l hl
    interval_cases l <;> assumption
  · intro h
    exact ⟨⟨⟨h 0 (by decide), h 1 (by decide)⟩, h 2 (by decide)⟩, h 3 (by decide)⟩

/-- Every gallery reaches every other over bridges that all carry traffic (R382, R384). -/
theorem joined_of_bridgesUp {s : State} (h : s.bridgesUp = true) (a b : Nat) : s.joined a b = true := by
  have h' (i : Nat) : s.bridgeUp (i % 4) = true := by
    have hi := Nat.mod_lt i (show 0 < 4 by decide)
    simp only [State.bridgesUp, Bool.and_eq_true] at h
    interval_cases i % 4
    · exact h.1.1.1
    · exact h.1.1.2
    · exact h.1.2
    · exact h.2
  simp only [State.joined, h', Bool.and_self, Bool.or_self, ite_self]

/-- What a suspension does, by where the execution stands (R106, R136). -/
theorem suspend_cases (s : State) (k : Nat) (e : Exec) :
    (e.wait = .engines ∧ s.suspend k e = s) ∨
    (e.wait ≠ .engines ∧ e.insideWord = true ∧ s.suspend k e = s.setExec k { e with stopAsked := true }) ∨
    (e.wait ≠ .engines ∧ e.insideWord = false ∧ s.suspend k e = s.suspendNow k e) := by
  unfold State.suspend
  by_cases h : e.wait = .engines
  · simp [h]
  · cases hi : e.insideWord <;> simp [h]

@[simp] theorem trap_mem (s : State) (k : CtxId) (t : TrapRec) : (s.trap k t).mem = s.mem := by
  simp only [State.trap]; split <;> simp
@[simp] theorem trap_execs (s : State) (k : CtxId) (t : TrapRec) : (s.trap k t).execs = s.execs := by
  simp only [State.trap]; split <;> simp
@[simp] theorem trap_cells (s : State) (k : CtxId) (t : TrapRec) : (s.trap k t).cells = s.cells := by
  simp only [State.trap]; split <;> simp

/-- What a trap does to its context: the state, the record or the overflow bit, and nothing else. -/
theorem trap_ctx (s : State) (k : CtxId) (t : TrapRec) :
    (s.trap k t).getCtx k =
      { s.getCtx k with
        state := if (s.getCtx k).state = .evicting then .evicting else .trapped
        traps := (State.insertTrap { t with time := s.clk } (s.getCtx k).traps).take 16
        trapOvf := (s.getCtx k).trapOvf ||
          16 < (State.insertTrap { t with time := s.clk } (s.getCtx k).traps).length } := by
  simp only [State.trap, State.writeTrap]
  split <;> simp only [getCtx_modCtx, signal_getCtx, signal_clk]

@[simp] theorem sendRet_mem (s : State) (k : CtxId) (c : Nat) (t : Word) (v : Option Vec) :
    (s.sendRet k c t v).mem = s.mem := rfl
@[simp] theorem sendRet_execs (s : State) (k : CtxId) (c : Nat) (t : Word) (v : Option Vec) :
    (s.sendRet k c t v).execs = s.execs := rfl
@[simp] theorem sendRet_cells (s : State) (k : CtxId) (c : Nat) (t : Word) (v : Option Vec) :
    (s.sendRet k c t v).cells = s.cells := rfl

@[simp] theorem endRead_mem (s : State) (c : Nat) (f : Firing) : (s.endRead c f).mem = s.mem := by
  simp only [State.endRead]; split <;> rfl
@[simp] theorem endRead_execs (s : State) (c : Nat) (f : Firing) : (s.endRead c f).execs = s.execs := by
  simp only [State.endRead]; split <;> rfl

@[simp] theorem releaseHold_mem (s : State) (k : Nat) (e : Exec) : (s.releaseHold k e).mem = s.mem := by
  simp only [State.releaseHold, modCell_mem]
  apply mem_foldl
  intro s t
  split
  · split <;> simp
  · rfl

@[simp] theorem dropTickets_mem (s : State) (k : Nat) (e : Exec) : (s.dropTickets k e).mem = s.mem := by
  unfold State.dropTickets
  apply mem_foldl
  intros; rfl

@[simp] theorem freeRats_mem (s : State) (k : Nat) (e : Exec) : (s.freeRats k e).mem = s.mem := rfl

@[simp] theorem endStation_mem (s : State) (k : CtxId) (i : Nat) (st : Station) : (s.endStation k i st).mem = s.mem := by
  simp only [State.endStation, modCtx_mem, modCell_mem]
  apply mem_foldl
  intros; rfl

@[simp] theorem endStations_mem (s : State) (k : CtxId) (a : Nat) : (s.endStations k a).mem = s.mem := by
  simp only [State.endStations]
  apply mem_foldl
  intro s p
  split <;> simp

@[simp] theorem freeSymChunks_mem (s : State) (l : List (Nat × Nat)) : (s.freeSymChunks l).mem = s.mem := by
  unfold State.freeSymChunks
  apply mem_foldl
  intros; rfl

theorem orphanAccs_store (s : State) (k : Nat) : SameStore s (s.orphanAccs k) := ⟨rfl, rfl, rfl, rfl⟩

@[simp] theorem unhold_mem (s : State) (c : Nat) : (s.unhold c).mem = s.mem := rfl
@[simp] theorem unhold_ctxs (s : State) (c : Nat) : (s.unhold c).ctxs = s.ctxs := rfl
@[simp] theorem unhold_execs (s : State) (c : Nat) : (s.unhold c).execs = s.execs := rfl

@[simp] theorem freeOwned_mem (s : State) (k : CtxId) (a : Nat) (r : Redex) : (s.freeOwned k a r).mem = s.mem := by
  unfold State.freeOwned
  apply mem_foldl
  intros; simp

theorem dropMember_store (s : State) (k : Nat) (e : Exec) : SameStore s (s.dropMember k e) := by
  simp only [State.dropMember, State.orphanAccs, SameStore]
  split <;> simp

/-- A discard writes no memory (R134). -/
theorem discard_store (s : State) (k : CtxId) (a : Nat) : SameStore s (s.discard k a) := by
  have h := SameStore.foldl (fun s (p : Nat × Exec) => s.dropMember p.1 p.2) (s.members k a)
    (fun s p => dropMember_store s p.1 p.2) s
  simp only [State.discard]
  refine h.trans (.of_mem ?_)
  simp only [modCtx_mem, endStations_mem]
  split <;> simp

theorem modRedex_store (s : State) (k : CtxId) (a : Nat) (f : Redex → Redex) : SameStore s (s.modRedex k a f) :=
  .of_mem (by simp)

/-- A discard and what it becomes, BOT, replay or trap, write no memory (R134, R135). -/
theorem faultTrap_store (s : State) (k : CtxId) (a : Nat) (r : Redex) (c : Cause) (cl : Machine.Class) (w : State.Report) :
    SameStore s (s.faultTrap k a r c cl w) :=
  (discard_store s k a).trans (.of_mem (by simp [State.faultTrap]))

theorem faultBot_store (s : State) (k : CtxId) (a : Nat) (c : Cause) : SameStore s (s.faultBot k a c) :=
  (discard_store s k a).trans (.of_mem (by simp [State.faultBot]))

theorem replay_store (s : State) (k : CtxId) (a : Nat) : SameStore s (s.replay k a) :=
  (discard_store s k a).trans (.of_mem (by simp [State.replay]))

theorem faultRedex_store (s : State) (k : CtxId) (a : Nat) (c : Cause) (cl : Machine.Class) (w : State.Report) :
    SameStore s (s.faultRedex k a c cl w) := by
  unfold State.faultRedex
  split
  · exact .refl s
  · split
    · exact faultBot_store ..
    · exact faultTrap_store ..

/-- A fault of an instruction writes no memory (R29, R135). -/
theorem raise_store (s : State) (k : Nat) (e : Exec) (c : Cause) (a : Option Word) : SameStore s (s.raise k e c a) :=
  faultRedex_store ..

theorem raiseSDC_store (s : State) (i : Nat) (k : CtxId) (a : Nat) (w : State.Report) : SameStore s (s.raiseSDC i k a w) := by
  simp only [State.raiseSDC]
  have hc : SameStore s (s.count i 1) := .of_mem (by simp)
  split
  · exact hc
  · split
    · exact hc.trans ((replay_store ..).trans (modRedex_store ..))
    · exact hc.trans (faultTrap_store ..)

/-- RELEASE writes no memory (R111). -/
theorem releaseCtx_store (s : State) (k : CtxId) (b : Bool) : SameStore s (s.releaseCtx k b) := by
  unfold State.releaseCtx
  exact SameStore.trans (t := s.dropRecs k) ⟨rfl, rfl, rfl, rfl⟩ (.of_mem (modCtx_mem ..))

/-! ### Suspension and parking -/

@[simp] theorem suspendNow_mem (s : State) (k : Nat) (e : Exec) : (s.suspendNow k e).mem = s.mem := by
  simp only [State.suspendNow]; split <;> simp

@[simp] theorem suspendNow_ctxs (s : State) (k : Nat) (e : Exec) : (s.suspendNow k e).ctxs = s.ctxs := by
  simp only [State.suspendNow]; split <;> simp

@[simp] theorem suspend_mem (s : State) (k : Nat) (e : Exec) : (s.suspend k e).mem = s.mem := by
  unfold State.suspend; split
  · rfl
  · split <;> simp

@[simp] theorem suspend_ctxs (s : State) (k : Nat) (e : Exec) : (s.suspend k e).ctxs = s.ctxs := by
  unfold State.suspend; split
  · rfl
  · split <;> simp

/-- A suspension changes its execution alone, which keeps its registers (R106). -/
theorem suspendNow_execs (s : State) (k j : Nat) (e : Exec) :
    (s.suspendNow k e).getExec j = if j = k then
      some { e with status := .suspended, area := (s.unhold (k / 256)).freeArea (k / 256), saved := true, stopAsked := false
                    age := s.clk.toNat } else s.getExec j := by
  simp only [State.suspendNow]
  split <;> simp [State.getExec, tbl_find_set, State.unhold, State.modGal, State.modCell, *]

@[simp] theorem suspendAll_mem (s : State) (k : CtxId) : (s.suspendAll k).mem = s.mem := by
  unfold State.suspendAll
  apply mem_foldl
  intros; exact suspend_mem ..

@[simp] theorem park_mem (s : State) (k : Nat) (e : Exec) (w : WaitOn) : (s.park k e w).mem = s.mem := by
  simp only [State.park]; split
  · rfl
  · split <;> rfl

@[simp] theorem park_ctxs (s : State) (k : Nat) (e : Exec) (w : WaitOn) : (s.park k e w).ctxs = s.ctxs := by
  simp only [State.park]; split
  · rfl
  · split <;> rfl

/-- Parking changes its execution alone, which then waits and keeps its registers (R131). -/
theorem park_execs (s : State) (k : Nat) (e : Exec) (w : WaitOn) :
    ∃ st l a b, ∀ j, (s.park k e w).getExec j = if j = k then
      some { e with status := st, wait := w, met := false, frame := l, area := a, stopAsked := b } else s.getExec j := by
  simp only [State.park]
  split
  · rename_i l _; exact ⟨.parked, l, e.area, false, fun j => by simp [State.getExec, tbl_find_set]⟩
  · split
    · rename_i a _; exact ⟨.parked, e.frame, some a, false, fun j => by simp [State.getExec, tbl_find_set]⟩
    · exact ⟨e.status, e.frame, e.area, e.stopAsked, fun j => by simp [State.getExec, tbl_find_set]⟩

@[simp] theorem parkIdle_mem (s : State) (k : Nat) (e : Exec) (w : WaitOn) : (s.parkIdle k e w).mem = s.mem := by
  unfold State.parkIdle; split <;> simp

theorem parkIdle_eq (s : State) (k : Nat) (e : Exec) (w : WaitOn) (h : e.mq = []) : s.parkIdle k e w = s.park k e w := by
  simp [State.parkIdle, h]

@[simp] theorem stall_mem (s : State) (k : Nat) (e : Exec) (w : WaitOn) : (s.stall k e w).mem = s.mem := rfl
@[simp] theorem finishWait_mem (s : State) (k : Nat) (e : Exec) : (s.finishWait k e).mem = s.mem := rfl
@[simp] theorem unpark_mem (s : State) (k : Nat) (e : Exec) : (s.unpark k e).mem = s.mem := rfl

@[simp] theorem wakeOne_mem (s : State) (k : Nat) (e : Exec) : (s.wakeOne k e).mem = s.mem := by
  unfold State.wakeOne
  split
  · split <;> rfl
  · split
    · dsimp only; split <;> rfl
    · rfl

@[simp] theorem wake_mem (s : State) : s.wake.mem = s.mem := by
  unfold State.wake
  apply mem_foldl
  intros; exact wakeOne_mem ..

@[simp] theorem raiseEvent_mem (s : State) (c : Nat) (k : CtxId) (a b : Nat) : (s.raiseEvent c k a b).mem = s.mem := by
  unfold State.raiseEvent; split <;> rfl

theorem lastHalt_store (s : State) (e : Exec) (r : Redex) (w : State.Report) : SameStore s (s.lastHalt e r w) := by
  simp only [State.lastHalt]
  split <;> split
  · exact .of_mem (by simp)
  · exact faultRedex_store ..
  · exact .of_mem (by simp)
  · exact faultRedex_store ..

/-- HALT writes no memory: held words wait for the commit (R121, R133). -/
theorem haltMember_store (s : State) (k : Nat) (e : Exec) : SameStore s (s.haltMember k e) := by
  simp only [State.haltMember]
  have h : SameStore s (((((s.releaseHold k e).freeRats k e).dropTickets k e).orphanAccs k).dropExec k) := by
    simp [SameStore, State.orphanAccs, State.dropExec]
  split
  · exact h.trans (.of_mem (by simp))
  · split
    · exact h.trans (SameStore.trans (.of_mem (by simp [State.setRedex])) (lastHalt_store ..))
    · exact h.trans (.of_mem (by simp [State.setRedex]))

end Sys2Proof.Laws
end

