-- ==== Sys2Proof/Laws/PerInstr.lean ====
section
/-! SUPPORT. One lemma per row of the opcode table: a well-formed instruction decodes from its word (R80 to R87). -/

namespace Sys2Proof.Laws.RoundTrip

open Sys2Proof

set_option Elab.async false
set_option linter.unusedSimpArgs false

/-- The word of a well-formed instruction decodes to it. -/
def Statement (i : Instr) : Prop := i.wf = true → ∀ w, encode i = some w → decodeWord .full w = .ok i

theorem of_shape {i : Instr} {f : Fields} (hf : i.fields = some f) (hs : decodeShape f.pack = some i) : Statement i :=
  fun hw w h => decode_of_shape hf hs hw w h

/-- A row that is no cell instruction has no word. -/
theorem of_none {i : Instr} (hf : i.fields = none) : Statement i := by
  intro _ w h; simp [encode, hf] at h

theorem nop g : Statement (.nop g) := by
  refine of_shape rfl ?_
  simp [decodeShape, unpack_pack, Fields.base, decSys]

theorem halt g : Statement (.halt g) := by
  refine of_shape rfl ?_
  simp [decodeShape, unpack_pack, Fields.base, decSys]

theorem yield g : Statement (.yield g) := by
  refine of_shape rfl ?_
  simp [decodeShape, unpack_pack, Fields.base, decSys]

theorem trap g code : Statement (.trap g code) := by
  refine of_shape rfl ?_
  simp [decodeShape, unpack_pack, Fields.base, decSys]

theorem bkpt g : Statement (.bkpt g) := by
  refine of_shape rfl ?_
  simp [decodeShape, unpack_pack, Fields.base, decSys]

theorem abort g code : Statement (.abort g code) := by
  refine of_shape rfl ?_
  simp [decodeShape, unpack_pack, Fields.base, decSys]

theorem waitev g mask : Statement (.waitev g mask) := by
  refine of_shape rfl ?_
  simp [decodeShape, unpack_pack, Fields.base, decSys]

theorem add g ty sat d a b : Statement (.add g ty sat d a b) := by
  refine of_shape rfl ?_
  simp [decodeShape, unpack_pack, Fields.base, decInta]

theorem sub g ty sat d a b : Statement (.sub g ty sat d a b) := by
  refine of_shape rfl ?_
  simp [decodeShape, unpack_pack, Fields.base, decInta]

theorem and g ty d a b : Statement (.and g ty d a b) := by
  refine of_shape rfl ?_
  simp [decodeShape, unpack_pack, Fields.base, decInta]

theorem or g ty d a b : Statement (.or g ty d a b) := by
  refine of_shape rfl ?_
  simp [decodeShape, unpack_pack, Fields.base, decInta]

theorem xor g ty d a b : Statement (.xor g ty d a b) := by
  refine of_shape rfl ?_
  simp [decodeShape, unpack_pack, Fields.base, decInta]

theorem andn g ty d a b : Statement (.andn g ty d a b) := by
  refine of_shape rfl ?_
  simp [decodeShape, unpack_pack, Fields.base, decInta]

theorem shl g ty d a b : Statement (.shl g ty d a b) := by
  refine of_shape rfl ?_
  simp [decodeShape, unpack_pack, Fields.base, decInta]

theorem shr g ty d a b : Statement (.shr g ty d a b) := by
  refine of_shape rfl ?_
  simp [decodeShape, unpack_pack, Fields.base, decInta]

theorem sra g ty d a b : Statement (.sra g ty d a b) := by
  refine of_shape rfl ?_
  simp [decodeShape, unpack_pack, Fields.base, decInta]

theorem rot g ty d a b : Statement (.rot g ty d a b) := by
  refine of_shape rfl ?_
  simp [decodeShape, unpack_pack, Fields.base, decInta]

theorem min g ty d a b : Statement (.min g ty d a b) := by
  refine of_shape rfl ?_
  simp [decodeShape, unpack_pack, Fields.base, decInta]

theorem max g ty d a b : Statement (.max g ty d a b) := by
  refine of_shape rfl ?_
  simp [decodeShape, unpack_pack, Fields.base, decInta]

theorem minu g ty d a b : Statement (.minu g ty d a b) := by
  refine of_shape rfl ?_
  simp [decodeShape, unpack_pack, Fields.base, decInta]

theorem maxu g ty d a b : Statement (.maxu g ty d a b) := by
  refine of_shape rfl ?_
  simp [decodeShape, unpack_pack, Fields.base, decInta]

theorem sel g d a b c : Statement (.sel g d a b c) := by
  refine of_shape rfl ?_
  simp [decodeShape, unpack_pack, Fields.base, decInta, Fields.cQ, Fields.cV, r6]

theorem mul g ty sat d a b : Statement (.mul g ty sat d a b) := by
  refine of_shape rfl ?_
  simp [decodeShape, unpack_pack, Fields.base, decIntb]

theorem mulh g ty d a b : Statement (.mulh g ty d a b) := by
  refine of_shape rfl ?_
  simp [decodeShape, unpack_pack, Fields.base, decIntb]

theorem mulhu g ty d a b : Statement (.mulhu g ty d a b) := by
  refine of_shape rfl ?_
  simp [decodeShape, unpack_pack, Fields.base, decIntb]

theorem div g ty d a b : Statement (.div g ty d a b) := by
  refine of_shape rfl ?_
  simp [decodeShape, unpack_pack, Fields.base, decIntb]

theorem divu g ty d a b : Statement (.divu g ty d a b) := by
  refine of_shape rfl ?_
  simp [decodeShape, unpack_pack, Fields.base, decIntb]

theorem rem g ty d a b : Statement (.rem g ty d a b) := by
  refine of_shape rfl ?_
  simp [decodeShape, unpack_pack, Fields.base, decIntb]

theorem remu g ty d a b : Statement (.remu g ty d a b) := by
  refine of_shape rfl ?_
  simp [decodeShape, unpack_pack, Fields.base, decIntb]

theorem madd g ty sat d a b c : Statement (.madd g ty sat d a b c) := by
  refine of_shape rfl ?_
  simp [decodeShape, unpack_pack, Fields.base, decIntb]

theorem clz g ty d a : Statement (.clz g ty d a) := by
  refine of_shape rfl ?_
  simp [decodeShape, unpack_pack, Fields.base, decIntb]

theorem popc g ty d a : Statement (.popc g ty d a) := by
  refine of_shape rfl ?_
  simp [decodeShape, unpack_pack, Fields.base, decIntb]

theorem bfx g ty d a b c : Statement (.bfx g ty d a b c) := by
  refine of_shape rfl ?_
  simp [decodeShape, unpack_pack, Fields.base, decIntb]

theorem bfi g ty d a b c : Statement (.bfi g ty d a b c) := by
  refine of_shape rfl ?_
  simp [decodeShape, unpack_pack, Fields.base, decIntb]

theorem sext g ty d a b : Statement (.sext g ty d a b) := by
  refine of_shape rfl ?_
  simp [decodeShape, unpack_pack, Fields.base, decIntb]

theorem cmp g cond ty d a b : Statement (.cmp g cond ty d a b) := by
  refine of_shape rfl ?_
  simp [decodeShape, unpack_pack, Fields.base, decCmp, Fields.dQ, Fields.dV, Fields.dC, Fields.dA, r6]

theorem addi g d a imm : Statement (.addi g d a imm) := by
  refine of_shape rfl ?_
  simp [decodeShape, unpack_pack, decAddi, Fields.dQ, Fields.dC, r6]

theorem andi g d a imm : Statement (.andi g d a imm) := by
  refine of_shape rfl ?_
  simp [decodeShape, unpack_pack, decAndi, Fields.dQ, Fields.dC, r6]

theorem ori g d a imm : Statement (.ori g d a imm) := by
  refine of_shape rfl ?_
  simp [decodeShape, unpack_pack, decOri, Fields.dQ, Fields.dC, r6]

theorem xori g d a imm : Statement (.xori g d a imm) := by
  refine of_shape rfl ?_
  simp [decodeShape, unpack_pack, decXori, Fields.dQ, Fields.dC, r6]

theorem shli g d a imm : Statement (.shli g d a imm) := by
  refine of_shape rfl ?_
  simp [decodeShape, unpack_pack, decShi, Fields.dQ, Fields.dC, r6]

theorem shri g d a imm : Statement (.shri g d a imm) := by
  refine of_shape rfl ?_
  simp [decodeShape, unpack_pack, decShi, Fields.dQ, Fields.dC, r6]

theorem srai g d a imm : Statement (.srai g d a imm) := by
  refine of_shape rfl ?_
  simp [decodeShape, unpack_pack, decShi, Fields.dQ, Fields.dC, r6]

theorem roti g d a imm : Statement (.roti g d a imm) := by
  refine of_shape rfl ?_
  simp [decodeShape, unpack_pack, decShi, Fields.dQ, Fields.dC, r6]

theorem cmpi g cond d a imm : Statement (.cmpi g cond d a imm) := by
  refine of_shape rfl ?_
  simp [decodeShape, unpack_pack, decCmpi, Fields.dQ, Fields.dC, r6]

theorem li g d imm : Statement (.li g d imm) := by
  refine of_shape rfl ?_
  simp [decodeShape, unpack_pack, decLi, Fields.dQ, Fields.dC, r6]

theorem lih g d imm : Statement (.lih g d imm) := by
  refine of_shape rfl ?_
  simp [decodeShape, unpack_pack, decLih, Fields.dQ, Fields.dC, r6]

theorem br g off : Statement (.br g off) := by
  refine of_shape rfl ?_
  simp [decodeShape, unpack_pack, decBr, Fields.dQ, Fields.dC, r6]

theorem jmp g a : Statement (.jmp g a) := by
  refine of_shape rfl ?_
  simp [decodeShape, unpack_pack, Fields.base, decJmp]

theorem ret g : Statement (.ret g) := by
  refine of_shape rfl ?_
  simp [decodeShape, unpack_pack, Fields.base, decJmp]

theorem call g off : Statement (.call g off) := by
  refine of_shape rfl ?_
  simp [decodeShape, unpack_pack, decCall, Fields.dQ, Fields.dC, r6]

theorem loop g d a len : Statement (.loop g d a len) := by
  refine of_shape rfl ?_
  simp [decodeShape, unpack_pack, Fields.base, decLoop, Fields.dQ, Fields.dV, Fields.dC, Fields.dA, r6]

theorem loopi g d count len : Statement (.loopi g d count len) := by
  refine of_shape rfl ?_
  simp [decodeShape, unpack_pack, decLoop, Fields.dQ, Fields.dC, r6]

theorem breakLoop g d : Statement (.breakLoop g d) := by
  refine of_shape rfl ?_
  simp [decodeShape, unpack_pack, Fields.base, decLoop, Fields.dQ, Fields.dV, Fields.dC, Fields.dA, r6]

theorem pand g d a b : Statement (.pand g d a b) := by
  refine of_shape rfl ?_
  simp [decodeShape, unpack_pack, Fields.base, decPred, Fields.dQ, Fields.dV, Fields.dC, Fields.dA, Fields.aQ, Fields.aV, Fields.aA, Fields.bQ, Fields.bV, Fields.bA, r6]

theorem por g d a b : Statement (.por g d a b) := by
  refine of_shape rfl ?_
  simp [decodeShape, unpack_pack, Fields.base, decPred, Fields.dQ, Fields.dV, Fields.dC, Fields.dA, Fields.aQ, Fields.aV, Fields.aA, Fields.bQ, Fields.bV, Fields.bA, r6]

theorem pxor g d a b : Statement (.pxor g d a b) := by
  refine of_shape rfl ?_
  simp [decodeShape, unpack_pack, Fields.base, decPred, Fields.dQ, Fields.dV, Fields.dC, Fields.dA, Fields.aQ, Fields.aV, Fields.aA, Fields.bQ, Fields.bV, Fields.bA, r6]

theorem pandn g d a b : Statement (.pandn g d a b) := by
  refine of_shape rfl ?_
  simp [decodeShape, unpack_pack, Fields.base, decPred, Fields.dQ, Fields.dV, Fields.dC, Fields.dA, Fields.aQ, Fields.aV, Fields.aA, Fields.bQ, Fields.bV, Fields.bA, r6]

theorem pnot g d a : Statement (.pnot g d a) := by
  refine of_shape rfl ?_
  simp [decodeShape, unpack_pack, Fields.base, decPred, Fields.dQ, Fields.dV, Fields.dC, Fields.dA, Fields.aQ, Fields.aV, Fields.aA, r6]

theorem pset g d n : Statement (.pset g d n) := by
  refine of_shape rfl ?_
  simp [decodeShape, unpack_pack, Fields.base, decPred, Fields.dQ, Fields.dV, Fields.dC, Fields.dA, r6]

theorem pmov g d a : Statement (.pmov g d a) := by
  refine of_shape rfl ?_
  simp [decodeShape, unpack_pack, Fields.base, decPred, Fields.dQ, Fields.dV, Fields.dC, Fields.dA, Fields.aQ, Fields.aV, Fields.aA, r6]

theorem pcnt g d a : Statement (.pcnt g d a) := by
  refine of_shape rfl ?_
  simp [decodeShape, unpack_pack, Fields.base, decPred, Fields.aQ, Fields.aV, Fields.aA, r6]

theorem pfirst g d a : Statement (.pfirst g d a) := by
  refine of_shape rfl ?_
  simp [decodeShape, unpack_pack, Fields.base, decPred, Fields.aQ, Fields.aV, Fields.aA, r6]

theorem pld g d a : Statement (.pld g d a) := by
  refine of_shape rfl ?_
  simp [decodeShape, unpack_pack, Fields.base, decPred, Fields.dQ, Fields.dV, Fields.dC, Fields.dA, r6]

theorem pst g d a : Statement (.pst g d a) := by
  refine of_shape rfl ?_
  simp [decodeShape, unpack_pack, Fields.base, decPred, Fields.aQ, Fields.aV, Fields.aA, r6]

theorem fadd g rm d a b : Statement (.fadd g rm d a b) := by
  refine of_shape rfl ?_
  simp [decodeShape, unpack_pack, Fields.base, decFps]

theorem fsub g rm d a b : Statement (.fsub g rm d a b) := by
  refine of_shape rfl ?_
  simp [decodeShape, unpack_pack, Fields.base, decFps]

theorem fmul g rm d a b : Statement (.fmul g rm d a b) := by
  refine of_shape rfl ?_
  simp [decodeShape, unpack_pack, Fields.base, decFps]

theorem ffma g rm d a b c : Statement (.ffma g rm d a b c) := by
  refine of_shape rfl ?_
  simp [decodeShape, unpack_pack, Fields.base, decFps]

theorem fdiv g rm d a b : Statement (.fdiv g rm d a b) := by
  refine of_shape rfl ?_
  simp [decodeShape, unpack_pack, Fields.base, decFps]

theorem fsqrt g rm d a : Statement (.fsqrt g rm d a) := by
  refine of_shape rfl ?_
  simp [decodeShape, unpack_pack, Fields.base, decFps]

theorem fmin g rm d a b : Statement (.fmin g rm d a b) := by
  refine of_shape rfl ?_
  simp [decodeShape, unpack_pack, Fields.base, decFps]

theorem fmax g rm d a b : Statement (.fmax g rm d a b) := by
  refine of_shape rfl ?_
  simp [decodeShape, unpack_pack, Fields.base, decFps]

theorem fabs g rm d a : Statement (.fabs g rm d a) := by
  refine of_shape rfl ?_
  simp [decodeShape, unpack_pack, Fields.base, decFps]

theorem fneg g rm d a : Statement (.fneg g rm d a) := by
  refine of_shape rfl ?_
  simp [decodeShape, unpack_pack, Fields.base, decFps]

theorem fcvt g sty dty rm sat d a : Statement (.fcvt g sty dty rm sat d a) := by
  refine of_shape rfl ?_
  simp [decodeShape, unpack_pack, Fields.base, decFps]

theorem fclass g rm d a : Statement (.fclass g rm d a) := by
  refine of_shape rfl ?_
  simp [decodeShape, unpack_pack, Fields.base, decFps]

theorem fcmp g cond d a b : Statement (.fcmp g cond d a b) := by
  refine of_shape rfl ?_
  simp [decodeShape, unpack_pack, Fields.base, decFcmp, Fields.dQ, Fields.dV, Fields.dC, Fields.dA, r6]

theorem vadd g ty rm sat d a b : Statement (.vadd g ty rm sat d a b) := by
  refine of_shape rfl ?_
  simp [decodeShape, unpack_pack, Fields.base, decVari, Fields.dQ, Fields.dV, Fields.dC, Fields.dA, Fields.aQ, Fields.aV, Fields.aA, Fields.bQ, Fields.bV, Fields.bA, r6]

theorem vsub g ty rm sat d a b : Statement (.vsub g ty rm sat d a b) := by
  refine of_shape rfl ?_
  simp [decodeShape, unpack_pack, Fields.base, decVari, Fields.dQ, Fields.dV, Fields.dC, Fields.dA, Fields.aQ, Fields.aV, Fields.aA, Fields.bQ, Fields.bV, Fields.bA, r6]

theorem vmul g ty rm sat d a b : Statement (.vmul g ty rm sat d a b) := by
  refine of_shape rfl ?_
  simp [decodeShape, unpack_pack, Fields.base, decVari, Fields.dQ, Fields.dV, Fields.dC, Fields.dA, Fields.aQ, Fields.aV, Fields.aA, Fields.bQ, Fields.bV, Fields.bA, r6]

theorem vfma g ty rm sat d a b c : Statement (.vfma g ty rm sat d a b c) := by
  refine of_shape rfl ?_
  simp [decodeShape, unpack_pack, Fields.base, decVari, Fields.dQ, Fields.dV, Fields.dC, Fields.dA, Fields.aQ, Fields.aV, Fields.aA, Fields.bQ, Fields.bV, Fields.bA, Fields.cQ, Fields.cV, r6]

theorem vmin g ty rm d a b : Statement (.vmin g ty rm d a b) := by
  refine of_shape rfl ?_
  simp [decodeShape, unpack_pack, Fields.base, decVari, Fields.dQ, Fields.dV, Fields.dC, Fields.dA, Fields.aQ, Fields.aV, Fields.aA, Fields.bQ, Fields.bV, Fields.bA, r6]

theorem vmax g ty rm d a b : Statement (.vmax g ty rm d a b) := by
  refine of_shape rfl ?_
  simp [decodeShape, unpack_pack, Fields.base, decVari, Fields.dQ, Fields.dV, Fields.dC, Fields.dA, Fields.aQ, Fields.aV, Fields.aA, Fields.bQ, Fields.bV, Fields.bA, r6]

theorem vabs g ty rm sat d a : Statement (.vabs g ty rm sat d a) := by
  refine of_shape rfl ?_
  simp [decodeShape, unpack_pack, Fields.base, decVari, Fields.dQ, Fields.dV, Fields.dC, Fields.dA, Fields.aQ, Fields.aV, Fields.aA, r6]

theorem vneg g ty rm sat d a : Statement (.vneg g ty rm sat d a) := by
  refine of_shape rfl ?_
  simp [decodeShape, unpack_pack, Fields.base, decVari, Fields.dQ, Fields.dV, Fields.dC, Fields.dA, Fields.aQ, Fields.aV, Fields.aA, r6]

theorem vdiv g rm d a b : Statement (.vdiv g rm d a b) := by
  refine of_shape rfl ?_
  simp [decodeShape, unpack_pack, Fields.base, decVari, Fields.dQ, Fields.dV, Fields.dC, Fields.dA, Fields.aQ, Fields.aV, Fields.aA, Fields.bQ, Fields.bV, Fields.bA, r6]

theorem vsqrt g rm d a : Statement (.vsqrt g rm d a) := by
  refine of_shape rfl ?_
  simp [decodeShape, unpack_pack, Fields.base, decVari, Fields.dQ, Fields.dV, Fields.dC, Fields.dA, Fields.aQ, Fields.aV, Fields.aA, r6]

theorem vmulh g ty d a b : Statement (.vmulh g ty d a b) := by
  refine of_shape rfl ?_
  simp [decodeShape, unpack_pack, Fields.base, decVari, Fields.dQ, Fields.dV, Fields.dC, Fields.dA, Fields.aQ, Fields.aV, Fields.aA, Fields.bQ, Fields.bV, Fields.bA, r6]

theorem vand g ty d a b : Statement (.vand g ty d a b) := by
  refine of_shape rfl ?_
  simp [decodeShape, unpack_pack, Fields.base, decVlog, Fields.dQ, Fields.dV, Fields.dC, Fields.dA, Fields.aQ, Fields.aV, Fields.aA, Fields.bQ, Fields.bV, Fields.bA, r6]

theorem vor g ty d a b : Statement (.vor g ty d a b) := by
  refine of_shape rfl ?_
  simp [decodeShape, unpack_pack, Fields.base, decVlog, Fields.dQ, Fields.dV, Fields.dC, Fields.dA, Fields.aQ, Fields.aV, Fields.aA, Fields.bQ, Fields.bV, Fields.bA, r6]

theorem vxor g ty d a b : Statement (.vxor g ty d a b) := by
  refine of_shape rfl ?_
  simp [decodeShape, unpack_pack, Fields.base, decVlog, Fields.dQ, Fields.dV, Fields.dC, Fields.dA, Fields.aQ, Fields.aV, Fields.aA, Fields.bQ, Fields.bV, Fields.bA, r6]

theorem vandn g ty d a b : Statement (.vandn g ty d a b) := by
  refine of_shape rfl ?_
  simp [decodeShape, unpack_pack, Fields.base, decVlog, Fields.dQ, Fields.dV, Fields.dC, Fields.dA, Fields.aQ, Fields.aV, Fields.aA, Fields.bQ, Fields.bV, Fields.bA, r6]

theorem vshl g ty d a b : Statement (.vshl g ty d a b) := by
  refine of_shape rfl ?_
  simp [decodeShape, unpack_pack, Fields.base, decVlog, Fields.dQ, Fields.dV, Fields.dC, Fields.dA, Fields.aQ, Fields.aV, Fields.aA, Fields.bQ, Fields.bV, Fields.bA, r6]

theorem vshr g ty d a b : Statement (.vshr g ty d a b) := by
  refine of_shape rfl ?_
  simp [decodeShape, unpack_pack, Fields.base, decVlog, Fields.dQ, Fields.dV, Fields.dC, Fields.dA, Fields.aQ, Fields.aV, Fields.aA, Fields.bQ, Fields.bV, Fields.bA, r6]

theorem vsra g ty d a b : Statement (.vsra g ty d a b) := by
  refine of_shape rfl ?_
  simp [decodeShape, unpack_pack, Fields.base, decVlog, Fields.dQ, Fields.dV, Fields.dC, Fields.dA, Fields.aQ, Fields.aV, Fields.aA, Fields.bQ, Fields.bV, Fields.bA, r6]

theorem vclz g ty d a : Statement (.vclz g ty d a) := by
  refine of_shape rfl ?_
  simp [decodeShape, unpack_pack, Fields.base, decVlog, Fields.dQ, Fields.dV, Fields.dC, Fields.dA, Fields.aQ, Fields.aV, Fields.aA, r6]

theorem vpopc g ty d a : Statement (.vpopc g ty d a) := by
  refine of_shape rfl ?_
  simp [decodeShape, unpack_pack, Fields.base, decVlog, Fields.dQ, Fields.dV, Fields.dC, Fields.dA, Fields.aQ, Fields.aV, Fields.aA, r6]

theorem vrcp g rm d a : Statement (.vrcp g rm d a) := by
  refine of_shape rfl ?_
  simp [decodeShape, unpack_pack, Fields.base, decVfun, Fields.dQ, Fields.dV, Fields.dC, Fields.dA, Fields.aQ, Fields.aV, Fields.aA, r6]

theorem vrsq g rm d a : Statement (.vrsq g rm d a) := by
  refine of_shape rfl ?_
  simp [decodeShape, unpack_pack, Fields.base, decVfun, Fields.dQ, Fields.dV, Fields.dC, Fields.dA, Fields.aQ, Fields.aV, Fields.aA, r6]

theorem vexp2 g rm d a : Statement (.vexp2 g rm d a) := by
  refine of_shape rfl ?_
  simp [decodeShape, unpack_pack, Fields.base, decVfun, Fields.dQ, Fields.dV, Fields.dC, Fields.dA, Fields.aQ, Fields.aV, Fields.aA, r6]

theorem vlog2 g rm d a : Statement (.vlog2 g rm d a) := by
  refine of_shape rfl ?_
  simp [decodeShape, unpack_pack, Fields.base, decVfun, Fields.dQ, Fields.dV, Fields.dC, Fields.dA, Fields.aQ, Fields.aV, Fields.aA, r6]

theorem vtanh g rm d a : Statement (.vtanh g rm d a) := by
  refine of_shape rfl ?_
  simp [decodeShape, unpack_pack, Fields.base, decVfun, Fields.dQ, Fields.dV, Fields.dC, Fields.dA, Fields.aQ, Fields.aV, Fields.aA, r6]

theorem vcmp g cond ty d a b : Statement (.vcmp g cond ty d a b) := by
  refine of_shape rfl ?_
  simp [decodeShape, unpack_pack, Fields.base, decVcmp, Fields.dQ, Fields.dV, Fields.dC, Fields.dA, Fields.aQ, Fields.aV, Fields.aA, Fields.bQ, Fields.bV, Fields.bA, r6]

theorem vsel g d a b c : Statement (.vsel g d a b c) := by
  refine of_shape rfl ?_
  simp [decodeShape, unpack_pack, Fields.base, decVsel, Fields.dQ, Fields.dV, Fields.dC, Fields.dA, Fields.aQ, Fields.aV, Fields.aA, Fields.bQ, Fields.bV, Fields.bA, Fields.cQ, Fields.cV, r6]

theorem vcvt g sty dty rm sat d a c : Statement (.vcvt g sty dty rm sat d a c) := by
  refine of_shape rfl ?_
  simp [decodeShape, unpack_pack, Fields.base, decVcvt, Fields.dQ, Fields.dV, Fields.dC, Fields.dA, Fields.aQ, Fields.aV, Fields.aA, Fields.cQ, Fields.cV, r6]

theorem vperm g d a b : Statement (.vperm g d a b) := by
  refine of_shape rfl ?_
  simp [decodeShape, unpack_pack, Fields.base, decVperm, Fields.dQ, Fields.dV, Fields.dC, Fields.dA, Fields.aQ, Fields.aV, Fields.aA, Fields.bQ, Fields.bV, Fields.bA, r6]

theorem vbcast g d a : Statement (.vbcast g d a) := by
  refine of_shape rfl ?_
  simp [decodeShape, unpack_pack, Fields.base, decVperm, Fields.dQ, Fields.dV, Fields.dC, Fields.dA, r6]

theorem vbl g d a n : Statement (.vbl g d a n) := by
  refine of_shape rfl ?_
  simp [decodeShape, unpack_pack, Fields.base, decVperm, Fields.dQ, Fields.dV, Fields.dC, Fields.dA, Fields.aQ, Fields.aV, Fields.aA, r6]

theorem vins g d a n : Statement (.vins g d a n) := by
  refine of_shape rfl ?_
  simp [decodeShape, unpack_pack, Fields.base, decVperm, Fields.dQ, Fields.dV, Fields.dC, Fields.dA, r6]

theorem vext g d a n : Statement (.vext g d a n) := by
  refine of_shape rfl ?_
  simp [decodeShape, unpack_pack, Fields.base, decVperm, Fields.aQ, Fields.aV, Fields.aA, r6]

theorem vshfu g d a n : Statement (.vshfu g d a n) := by
  refine of_shape rfl ?_
  simp [decodeShape, unpack_pack, Fields.base, decVperm, Fields.dQ, Fields.dV, Fields.dC, Fields.dA, Fields.aQ, Fields.aV, Fields.aA, r6]

theorem vshfd g d a n : Statement (.vshfd g d a n) := by
  refine of_shape rfl ?_
  simp [decodeShape, unpack_pack, Fields.base, decVperm, Fields.dQ, Fields.dV, Fields.dC, Fields.dA, Fields.aQ, Fields.aV, Fields.aA, r6]

theorem vmov g d a : Statement (.vmov g d a) := by
  refine of_shape rfl ?_
  simp [decodeShape, unpack_pack, Fields.base, decVperm, Fields.dQ, Fields.dV, Fields.dC, Fields.dA, Fields.aQ, Fields.aV, Fields.aA, r6]

theorem vred g op ty d a : Statement (.vred g op ty d a) := by
  refine of_shape rfl ?_
  cases op <;> simp [RedOp.fn, RedOp.ofFn, decodeShape, unpack_pack, Fields.base, decVred, Fields.aQ, Fields.aV, Fields.aA, r6]

theorem vscan g op ty d a : Statement (.vscan g op ty d a) := by
  refine of_shape rfl ?_
  cases op <;> simp [RedOp.fn, RedOp.ofFn, decodeShape, unpack_pack, Fields.base, decVred, Fields.dQ, Fields.dV, Fields.dC, Fields.dA, Fields.aQ, Fields.aV, Fields.aA, r6]

theorem mma g form planes d a b c : Statement (.mma g form planes d a b c) := by
  refine of_shape rfl ?_
  simp [decodeShape, unpack_pack, Fields.base, decMma, Fields.dQ, Fields.dV, Fields.dC, Fields.dA, r6]

theorem mmag g form mb1 nb1 d a b c : Statement (.mmag g form mb1 nb1 d a b c) := by
  refine of_shape rfl ?_
  simp [decodeShape, unpack_pack, Fields.base, decMmag, Fields.dQ, Fields.dV, Fields.dC, Fields.dA, r6]

theorem mzero g d : Statement (.mzero g d) := by
  refine of_shape rfl ?_
  simp [decodeShape, unpack_pack, Fields.base, decMacc, Fields.dQ, Fields.dV, Fields.dC, Fields.dA, r6]

theorem mld g fmt d a c : Statement (.mld g fmt d a c) := by
  refine of_shape rfl ?_
  simp [decodeShape, unpack_pack, Fields.base, decMacc, Fields.dQ, Fields.dV, Fields.dC, Fields.dA, r6]

theorem mst g fmt d a c : Statement (.mst g fmt d a c) := by
  refine of_shape rfl ?_
  simp [decodeShape, unpack_pack, Fields.base, decMacc, Fields.dQ, Fields.dV, Fields.dC, Fields.dA, r6]

theorem mrowr g d a b : Statement (.mrowr g d a b) := by
  refine of_shape rfl ?_
  simp [decodeShape, unpack_pack, Fields.base, decMacc, Fields.dQ, Fields.dV, Fields.dC, Fields.dA, Fields.aQ, Fields.aV, Fields.aA, r6]

theorem mroww g d a b : Statement (.mroww g d a b) := by
  refine of_shape rfl ?_
  simp [decodeShape, unpack_pack, Fields.base, decMacc, Fields.dQ, Fields.dV, Fields.dC, Fields.dA, Fields.aQ, Fields.aV, Fields.aA, r6]

theorem mtran g d a : Statement (.mtran g d a) := by
  refine of_shape rfl ?_
  simp [decodeShape, unpack_pack, Fields.base, decMacc, Fields.dQ, Fields.dV, Fields.dC, Fields.dA, Fields.aQ, Fields.aV, Fields.aA, r6]

theorem mchk g d a c : Statement (.mchk g d a c) := by
  refine of_shape rfl ?_
  simp [decodeShape, unpack_pack, Fields.base, decMchk, Fields.dQ, Fields.dV, Fields.dC, Fields.dA, r6]

theorem mchkr g d a c : Statement (.mchkr g d a c) := by
  refine of_shape rfl ?_
  simp [decodeShape, unpack_pack, Fields.base, decMchk, Fields.dQ, Fields.dV, Fields.dC, Fields.dA, r6]

theorem luf g zc d a : Statement (.luf g zc d a) := by
  refine of_shape rfl ?_
  simp [decodeShape, unpack_pack, Fields.base, decFact, Fields.dQ, Fields.dV, Fields.dC, Fields.dA, r6]

theorem chol g d a : Statement (.chol g d a) := by
  refine of_shape rfl ?_
  simp [decodeShape, unpack_pack, Fields.base, decFact, Fields.dQ, Fields.dV, Fields.dC, Fields.dA, r6]

theorem qrh g d a b : Statement (.qrh g d a b) := by
  refine of_shape rfl ?_
  simp [decodeShape, unpack_pack, Fields.base, decFact, Fields.dQ, Fields.dV, Fields.dC, Fields.dA, r6]

theorem trsm g up unit right d a b : Statement (.trsm g up unit right d a b) := by
  refine of_shape rfl ?_
  simp [decodeShape, unpack_pack, Fields.base, decFact, Fields.dQ, Fields.dV, Fields.dC, Fields.dA, Fields.bQ, Fields.bV, Fields.bA, r6]

theorem qapply g t d a b : Statement (.qapply g t d a b) := by
  refine of_shape rfl ?_
  simp [decodeShape, unpack_pack, Fields.base, decFact, Fields.dQ, Fields.dV, Fields.dC, Fields.dA, Fields.bQ, Fields.bV, Fields.bA, r6]

theorem papply g d a : Statement (.papply g d a) := by
  refine of_shape rfl ?_
  simp [decodeShape, unpack_pack, Fields.base, decFact, Fields.dQ, Fields.dV, Fields.dC, Fields.dA, r6]

theorem papplyt g d a : Statement (.papplyt g d a) := by
  refine of_shape rfl ?_
  simp [decodeShape, unpack_pack, Fields.base, decFact, Fields.dQ, Fields.dV, Fields.dC, Fields.dA, r6]

theorem prid g : Statement (.prid g) := by
  refine of_shape rfl ?_
  simp [decodeShape, unpack_pack, Fields.base, decPermr]

theorem prld g a : Statement (.prld g a) := by
  refine of_shape rfl ?_
  simp [decodeShape, unpack_pack, Fields.base, decPermr]

theorem prst g a : Statement (.prst g a) := by
  refine of_shape rfl ?_
  simp [decodeShape, unpack_pack, Fields.base, decPermr]

theorem ld g sz d m : Statement (.ld g sz d m) := by
  refine of_shape rfl ?_
  simp [decodeShape, unpack_pack, Fields.base, decLd]

theorem st g sz d m : Statement (.st g sz d m) := by
  refine of_shape rfl ?_
  simp [decodeShape, unpack_pack, Fields.base, decSt]

theorem vld g d m : Statement (.vld g d m) := by
  refine of_shape rfl ?_
  simp [decodeShape, unpack_pack, Fields.base, decVmem, Fields.dQ, Fields.dV, Fields.dC, Fields.dA, r6]

theorem vlds g d m c : Statement (.vlds g d m c) := by
  refine of_shape rfl ?_
  simp [decodeShape, unpack_pack, Fields.base, decVmem, Fields.dQ, Fields.dV, Fields.dC, Fields.dA, r6]

theorem vgath g d m : Statement (.vgath g d m) := by
  refine of_shape rfl ?_
  simp [decodeShape, unpack_pack, Fields.base, decVmem, Fields.dQ, Fields.dV, Fields.dC, Fields.dA, Fields.bQ, Fields.bV, Fields.bA, r6]

theorem vst g d m : Statement (.vst g d m) := by
  refine of_shape rfl ?_
  simp [decodeShape, unpack_pack, Fields.base, decVmem, Fields.dQ, Fields.dV, Fields.dC, Fields.dA, r6]

theorem vsts g d m c : Statement (.vsts g d m c) := by
  refine of_shape rfl ?_
  simp [decodeShape, unpack_pack, Fields.base, decVmem, Fields.dQ, Fields.dV, Fields.dC, Fields.dA, r6]

theorem vscat g d m : Statement (.vscat g d m) := by
  refine of_shape rfl ?_
  simp [decodeShape, unpack_pack, Fields.base, decVmem, Fields.dQ, Fields.dV, Fields.dC, Fields.dA, Fields.bQ, Fields.bV, Fields.bA, r6]

theorem ldh g sz d m : Statement (.ldh g sz d m) := by
  refine of_shape rfl ?_
  cases sz <;> simp [WSize.ldhFn, WSize.ldsFn, WSize.stsFn, WSize.ofFn, decodeShape, unpack_pack, Fields.base, decLdh]

theorem sth g d m : Statement (.sth g d m) := by
  refine of_shape rfl ?_
  simp [decodeShape, unpack_pack, Fields.base, decSth]

theorem lds g sz ord sc d m : Statement (.lds g sz ord sc d m) := by
  refine of_shape rfl ?_
  cases sz <;> simp [WSize.ldhFn, WSize.ldsFn, WSize.stsFn, WSize.ofFn, decodeShape, unpack_pack, Fields.base, decSysm]

theorem sts g sz ord sc d m : Statement (.sts g sz ord sc d m) := by
  refine of_shape rfl ?_
  cases sz <;> simp [WSize.ldhFn, WSize.ldsFn, WSize.stsFn, WSize.ofFn, decodeShape, unpack_pack, Fields.base, decSysm]

theorem stsMask g ord sc d m c : Statement (.stsMask g ord sc d m c) := by
  refine of_shape rfl ?_
  simp [decodeShape, unpack_pack, Fields.base, decSysm]

theorem aadd g ord sc d m c : Statement (.aadd g ord sc d m c) := by
  refine of_shape rfl ?_
  simp [decodeShape, unpack_pack, Fields.base, decAtom]

theorem afadd g ord sc d m c : Statement (.afadd g ord sc d m c) := by
  refine of_shape rfl ?_
  simp [decodeShape, unpack_pack, Fields.base, decAtom]

theorem amin g ord sc d m c : Statement (.amin g ord sc d m c) := by
  refine of_shape rfl ?_
  simp [decodeShape, unpack_pack, Fields.base, decAtom]

theorem amax g ord sc d m c : Statement (.amax g ord sc d m c) := by
  refine of_shape rfl ?_
  simp [decodeShape, unpack_pack, Fields.base, decAtom]

theorem aand g ord sc d m c : Statement (.aand g ord sc d m c) := by
  refine of_shape rfl ?_
  simp [decodeShape, unpack_pack, Fields.base, decAtom]

theorem aor g ord sc d m c : Statement (.aor g ord sc d m c) := by
  refine of_shape rfl ?_
  simp [decodeShape, unpack_pack, Fields.base, decAtom]

theorem axchg g ord sc d m c : Statement (.axchg g ord sc d m c) := by
  refine of_shape rfl ?_
  simp [decodeShape, unpack_pack, Fields.base, decAtom]

theorem acas g ord sc d m c : Statement (.acas g ord sc d m c) := by
  refine of_shape rfl ?_
  simp [decodeShape, unpack_pack, Fields.base, decAtom]

theorem fenceAcq g sc : Statement (.fenceAcq g sc) := by
  refine of_shape rfl ?_
  simp [decodeShape, unpack_pack, Fields.base, decFence]

theorem fenceRel g sc : Statement (.fenceRel g sc) := by
  refine of_shape rfl ?_
  simp [decodeShape, unpack_pack, Fields.base, decFence]

theorem fenceFull g sc : Statement (.fenceFull g sc) := by
  refine of_shape rfl ?_
  simp [decodeShape, unpack_pack, Fields.base, decFence]

theorem talloc g fmt d : Statement (.talloc g fmt d) := by
  refine of_shape rfl ?_
  simp [decodeShape, unpack_pack, Fields.base, decTile]

theorem tfree g a : Statement (.tfree g a) := by
  refine of_shape rfl ?_
  simp [decodeShape, unpack_pack, Fields.base, decTile]

theorem tseal g d a : Statement (.tseal g d a) := by
  refine of_shape rfl ?_
  simp [decodeShape, unpack_pack, Fields.base, decTile]

theorem thdr g d a b : Statement (.thdr g d a b) := by
  refine of_shape rfl ?_
  simp [decodeShape, unpack_pack, Fields.base, decTile]

theorem tseth g a b c : Statement (.tseth g a b c) := by
  refine of_shape rfl ?_
  simp [decodeShape, unpack_pack, Fields.base, decTile]

theorem tpres g d a : Statement (.tpres g d a) := by
  refine of_shape rfl ?_
  simp [decodeShape, unpack_pack, Fields.base, decTile]

theorem tdesc g d a : Statement (.tdesc g d a) := by
  refine of_shape rfl ?_
  simp [decodeShape, unpack_pack, Fields.base, decTile]

theorem cparm g t a b c : Statement (.cparm g t a b c) := by
  refine of_shape rfl ?_
  simp [decodeShape, unpack_pack, Fields.base, decCopy]

theorem cpfire g t : Statement (.cpfire g t) := by
  refine of_shape rfl ?_
  simp [decodeShape, unpack_pack, Fields.base, decCopy]

theorem cptest g d a b : Statement (.cptest g d a b) := by
  refine of_shape rfl ?_
  simp [decodeShape, unpack_pack, Fields.base, decCopy, Fields.dQ, Fields.dV, Fields.dC, Fields.dA, r6]

theorem cpwait g a b : Statement (.cpwait g a b) := by
  refine of_shape rfl ?_
  simp [decodeShape, unpack_pack, Fields.base, decCopy]

theorem cpcan g t : Statement (.cpcan g t) := by
  refine of_shape rfl ?_
  simp [decodeShape, unpack_pack, Fields.base, decCopy]

theorem cpchain g t k b : Statement (.cpchain g t k b) := by
  refine of_shape rfl ?_
  simp [decodeShape, unpack_pack, Fields.base, decCopy]

theorem give g eng a : Statement (.give g eng a) := by
  refine of_shape rfl ?_
  simp [decodeShape, unpack_pack, Fields.base, decOwn]

theorem recl g eng a : Statement (.recl g eng a) := by
  refine of_shape rfl ?_
  simp [decodeShape, unpack_pack, Fields.base, decOwn]

theorem ownq g d a : Statement (.ownq g d a) := by
  refine of_shape rfl ?_
  simp [decodeShape, unpack_pack, Fields.base, decOwn]

theorem tbcast g ty d a b : Statement (.tbcast g ty d a b) := by
  refine of_shape rfl ?_
  simp [decodeShape, unpack_pack, Fields.base, decTree, Fields.dQ, Fields.dV, Fields.dC, Fields.dA, Fields.aQ, Fields.aV, Fields.aA, r6]

theorem tred g op ty chk d a b : Statement (.tred g op ty chk d a b) := by
  refine of_shape rfl ?_
  simp [decodeShape, unpack_pack, Fields.base, decTree, Fields.dQ, Fields.dV, Fields.dC, Fields.dA, Fields.aQ, Fields.aV, Fields.aA, r6]

theorem tscan g op ty d a : Statement (.tscan g op ty d a) := by
  refine of_shape rfl ?_
  simp [decodeShape, unpack_pack, Fields.base, decTree, Fields.dQ, Fields.dV, Fields.dC, Fields.dA, Fields.aQ, Fields.aV, Fields.aA, r6]

theorem tmcast g a b : Statement (.tmcast g a b) := by
  refine of_shape rfl ?_
  simp [decodeShape, unpack_pack, Fields.base, decTree, Fields.aQ, Fields.aV, Fields.aA, r6]

theorem trow g a b : Statement (.trow g a b) := by
  refine of_shape rfl ?_
  simp [decodeShape, unpack_pack, Fields.base, decTree, Fields.aQ, Fields.aV, Fields.aA, r6]

theorem trecv g d : Statement (.trecv g d) := by
  refine of_shape rfl ?_
  simp [decodeShape, unpack_pack, Fields.base, decTree, Fields.dQ, Fields.dV, Fields.dC, Fields.dA, r6]

theorem tall g op ty d a : Statement (.tall g op ty d a) := by
  refine of_shape rfl ?_
  simp [decodeShape, unpack_pack, Fields.base, decTree, Fields.dQ, Fields.dV, Fields.dC, Fields.dA, Fields.aQ, Fields.aV, Fields.aA, r6]

theorem symld g d a : Statement (.symld g d a) := by
  refine of_shape rfl ?_
  simp [decodeShape, unpack_pack, Fields.base, decSym]

theorem syman g d a : Statement (.syman g d a) := by
  refine of_shape rfl ?_
  simp [decodeShape, unpack_pack, Fields.base, decSym]

theorem symcnt g d : Statement (.symcnt g d) := by
  refine of_shape rfl ?_
  simp [decodeShape, unpack_pack, Fields.base, decSym]

theorem emit g a : Statement (.emit g a) := by
  refine of_shape rfl ?_
  simp [decodeShape, unpack_pack, Fields.base, decSym]

theorem emitt g a : Statement (.emitt g a) := by
  refine of_shape rfl ?_
  simp [decodeShape, unpack_pack, Fields.base, decSym]

theorem emitr g a b : Statement (.emitr g a b) := by
  refine of_shape rfl ?_
  simp [decodeShape, unpack_pack, Fields.base, decSym]

theorem resv g a : Statement (.resv g a) := by
  refine of_shape rfl ?_
  simp [decodeShape, unpack_pack, Fields.base, decSym]

theorem route g d a b : Statement (.route g d a b) := by
  refine of_shape rfl ?_
  simp [decodeShape, unpack_pack, Fields.base, decRoute, Fields.bQ, Fields.bV, Fields.bA, r6]

theorem ratwt g a : Statement (.ratwt g a) := by
  refine of_shape rfl ?_
  simp [decodeShape, unpack_pack, Fields.base, decRoute]

theorem ratrd g a b : Statement (.ratrd g a b) := by
  refine of_shape rfl ?_
  simp [decodeShape, unpack_pack, Fields.base, decRoute]

theorem srecv g d a : Statement (.srecv g d a) := by
  refine of_shape rfl ?_
  simp [decodeShape, unpack_pack, Fields.base, decRoute]

theorem sret g a b : Statement (.sret g a b) := by
  refine of_shape rfl ?_
  simp [decodeShape, unpack_pack, Fields.base, decRoute]

theorem scap g d a : Statement (.scap g d a) := by
  refine of_shape rfl ?_
  simp [decodeShape, unpack_pack, Fields.base, decRoute, Fields.xBit0]

theorem scapSet g d a : Statement (.scapSet g d a) := by
  refine of_shape rfl ?_
  simp [decodeShape, unpack_pack, Fields.base, decRoute, Fields.xBit0]

theorem barj g d a b : Statement (.barj g d a b) := by
  refine of_shape rfl ?_
  simp [decodeShape, unpack_pack, Fields.base, decSync]

theorem barw g a b : Statement (.barw g a b) := by
  refine of_shape rfl ?_
  simp [decodeShape, unpack_pack, Fields.base, decSync]

theorem barq g d a b : Statement (.barq g d a b) := by
  refine of_shape rfl ?_
  simp [decodeShape, unpack_pack, Fields.base, decSync]

theorem grab g d a : Statement (.grab g d a) := by
  refine of_shape rfl ?_
  simp [decodeShape, unpack_pack, Fields.base, decSync]

theorem steal g d a : Statement (.steal g d a) := by
  refine of_shape rfl ?_
  simp [decodeShape, unpack_pack, Fields.base, decSync]

theorem rngset g a b c : Statement (.rngset g a b c) := by
  refine of_shape rfl ?_
  simp [decodeShape, unpack_pack, Fields.base, decSync]

theorem rngq g d a : Statement (.rngq g d a) := by
  refine of_shape rfl ?_
  simp [decodeShape, unpack_pack, Fields.base, decSync]

theorem mfs g d sreg : Statement (.mfs g d sreg) := by
  refine of_shape rfl ?_
  simp [decodeShape, unpack_pack, Fields.base, decSreg]

theorem mts g sreg a : Statement (.mts g sreg a) := by
  refine of_shape rfl ?_
  simp [decodeShape, unpack_pack, Fields.base, decSreg]

theorem notAnInstruction cause : Statement (.notAnInstruction cause) := of_none rfl

theorem load : Statement .load := of_none rfl

theorem start : Statement .start := of_none rfl

theorem holdSoft : Statement .holdSoft := of_none rfl

theorem holdUrgent : Statement .holdUrgent := of_none rfl

theorem release : Statement .release := of_none rfl

theorem setpri : Statement .setpri := of_none rfl

theorem ckpt : Statement .ckpt := of_none rfl

theorem evict : Statement .evict := of_none rfl

theorem restore : Statement .restore := of_none rfl

theorem wake : Statement .wake := of_none rfl

theorem readback : Statement .readback := of_none rfl

theorem retire : Statement .retire := of_none rfl

theorem cmdUnlisted : Statement .cmdUnlisted := of_none rfl

theorem cmdComplete : Statement .cmdComplete := of_none rfl

theorem holdComplete : Statement .holdComplete := of_none rfl

theorem fwload : Statement .fwload := of_none rfl

theorem fwVerify : Statement .fwVerify := of_none rfl

theorem opreg : Statement .opreg := of_none rfl

theorem flush : Statement .flush := of_none rfl

theorem heapwr : Statement .heapwr := of_none rfl

theorem attest : Statement .attest := of_none rfl

theorem telclr : Statement .telclr := of_none rfl

theorem dcmdUnlisted : Statement .dcmdUnlisted := of_none rfl

theorem dcmdComplete : Statement .dcmdComplete := of_none rfl

theorem priWrite : Statement .priWrite := of_none rfl

theorem tmaskWrite : Statement .tmaskWrite := of_none rfl

theorem tidycfgWrite : Statement .tidycfgWrite := of_none rfl

theorem dbgcfgWrite : Statement .dbgcfgWrite := of_none rfl

theorem tlbinvWrite : Statement .tlbinvWrite := of_none rfl

theorem tlbinvDone : Statement .tlbinvDone := of_none rfl

theorem fqconsWrite : Statement .fqconsWrite := of_none rfl

theorem fqPost : Statement .fqPost := of_none rfl

theorem fabidWrite : Statement .fabidWrite := of_none rfl

theorem linkEnable : Statement .linkEnable := of_none rfl

theorem linkRetrain : Statement .linkRetrain := of_none rfl

theorem lstatClear : Statement .lstatClear := of_none rfl

theorem glimWrite : Statement .glimWrite := of_none rfl

theorem sliceWindowWrite : Statement .sliceWindowWrite := of_none rfl

theorem reductionGroupWrite : Statement .reductionGroupWrite := of_none rfl

theorem pwrlimWrite : Statement .pwrlimWrite := of_none rfl

theorem regWrite : Statement .regWrite := of_none rfl

theorem hostStore : Statement .hostStore := of_none rfl

theorem partReset : Statement .partReset := of_none rfl

theorem selfTestDone : Statement .selfTestDone := of_none rfl

theorem cellFailure : Statement .cellFailure := of_none rfl

theorem passArbitration : Statement .passArbitration := of_none rfl

theorem commit : Statement .commit := of_none rfl

theorem tidy : Statement .tidy := of_none rfl

theorem mark : Statement .mark := of_none rfl

theorem launch : Statement .launch := of_none rfl

theorem launchQueuePick : Statement .launchQueuePick := of_none rfl

theorem urgentPreempt : Statement .urgentPreempt := of_none rfl

theorem copyChunkLand : Statement .copyChunkLand := of_none rfl

theorem copyFiringEnd : Statement .copyFiringEnd := of_none rfl

theorem tsealReadDone : Statement .tsealReadDone := of_none rfl

theorem engineWorkEnd : Statement .engineWorkEnd := of_none rfl

theorem matrixEngineExec : Statement .matrixEngineExec := of_none rfl

theorem matrixKblock : Statement .matrixKblock := of_none rfl

theorem factStep : Statement .factStep := of_none rfl

theorem limiterWindow : Statement .limiterWindow := of_none rfl

theorem powerCapAdjust : Statement .powerCapAdjust := of_none rfl

theorem collectiveComplete : Statement .collectiveComplete := of_none rfl

theorem messageArrive : Statement .messageArrive := of_none rfl

theorem stationRowArrive : Statement .stationRowArrive := of_none rfl

theorem routeReturn : Statement .routeReturn := of_none rfl

theorem ratTimeout : Statement .ratTimeout := of_none rfl

theorem deferralRetry : Statement .deferralRetry := of_none rfl

theorem lineFill : Statement .lineFill := of_none rfl

theorem pageWalk : Statement .pageWalk := of_none rfl

theorem ckptDrainDone : Statement .ckptDrainDone := of_none rfl

theorem flitReceive : Statement .flitReceive := of_none rfl

theorem linkNakResend : Statement .linkNakResend := of_none rfl

theorem linkTrainingDone : Statement .linkTrainingDone := of_none rfl

theorem linkTrainingTimeout : Statement .linkTrainingTimeout := of_none rfl

theorem laneLoss : Statement .laneLoss := of_none rfl

theorem flowLoss : Statement .flowLoss := of_none rfl

theorem lineWrite : Statement .lineWrite := of_none rfl

theorem reducingLine : Statement .reducingLine := of_none rfl

theorem e2eAck : Statement .e2eAck := of_none rfl

theorem barrierArrivalFlit : Statement .barrierArrivalFlit := of_none rfl

theorem barrierReleaseFlit : Statement .barrierReleaseFlit := of_none rfl

theorem rangeRequest : Statement .rangeRequest := of_none rfl

theorem rangeReply : Statement .rangeReply := of_none rfl

theorem imageChunk : Statement .imageChunk := of_none rfl

theorem reductionFailure : Statement .reductionFailure := of_none rfl

theorem rfCombine : Statement .rfCombine := of_none rfl

theorem ckptChunkDrained : Statement .ckptChunkDrained := of_none rfl

theorem heapScrub : Statement .heapScrub := of_none rfl

theorem statusRead : Statement .statusRead := of_none rfl

theorem accessAccepted : Statement .accessAccepted := of_none rfl

end Sys2Proof.Laws.RoundTrip
end

