-- ==== Sys2Proof/Laws/Slices.lean ====
section
/-! SUPPORT. The memory behind the home slices: a byte written is the byte read, no other byte changes, and every write
keeps the canonical form of HBM and host memory and the 128 bytes of a line. -/

namespace Sys2Proof.Laws

open Sys2Proof Machine

/-! ### Where a line is kept -/

theorem windowOf_of_gals {s t : State} (h : t.gals = s.gals) (pa : Nat) : windowOf t pa = windowOf s pa := by
  simp [windowOf, State.getGal, h]

theorem lineKey_of_gals {s t : State} (h : t.gals = s.gals) (pa : Nat) : lineKey t pa = lineKey s pa := by
  simp [lineKey, homeSlice, windowOf_of_gals h]

/-- Bytes of one line have one key. -/
theorem lineKey_of_line {s : State} {a b : Nat} (h : a / 128 = b / 128) : lineKey s a = lineKey s b := by
  have h30 : a / 2 ^ 30 = b / 2 ^ 30 := by omega
  have h38 : a / 2 ^ 38 = b / 2 ^ 38 := by omega
  have h7 : a / 2 ^ 7 = b / 2 ^ 7 := by simpa using h
  simp only [lineKey, homeSlice, windowOf, h30, h38, h7, h]

/-- Physical addresses of different lines have different keys. -/
theorem lineKey_inj {s : State} {a b : Nat} (ha : a < 2 ^ 40) (hb : b < 2 ^ 40) (h : lineKey s a = lineKey s b) :
    a / 128 = b / 128 := by
  simp only [lineKey] at h
  generalize homeSlice s a = x at h
  generalize homeSlice s b = y at h
  omega

/-! ### Lines -/

theorem readBytes_length (m : Memory) (a n : Nat) : (m.readBytes a n).length = n := by simp [Memory.readBytes]

theorem readBytes_getD (m : Memory) (a n i : Nat) (h : i < n) : (m.readBytes a n).getD i 0 = m.read (a + i) := by
  simp [Memory.readBytes, List.getD, h]

theorem find_mem {α : Type} {t : Tbl α} {k : Nat} {x : α} (h : Tbl.find t k = some x) : (k, x) ∈ t := by
  induction t with
  | nil => simp [Tbl.find] at h
  | cons p t ih =>
    obtain ⟨i, y⟩ := p
    simp only [Tbl.find] at h
    split at h
    · rename_i hi; subst hi; simp at h; simp [h]
    · exact List.mem_cons_of_mem _ (ih h)

theorem lineBytes_length {s : State} (hs : MemoryInv s) (pa : Nat) : (s.lineBytes pa).length = 128 := by
  unfold State.lineBytes
  split
  · rename_i l h; exact hs.2.2 _ (find_mem h)
  · exact readBytes_length ..

/-- A byte read is its byte of the line. -/
theorem loadByte_eq_line (s : State) (pa : Nat) : s.loadByte pa = (s.lineBytes pa).getD (pa % 128) 0 := by
  unfold State.loadByte State.lineBytes
  split
  · rfl
  · rw [readBytes_getD _ _ _ _ (Nat.mod_lt _ (by decide))]
    congr 1; omega

/-! ### Read after write -/

theorem lineBytes_storeByte {s : State} {a : Nat} (b : Byte) {y : Nat} (ha : a < 2 ^ 40) (hy : y < 2 ^ 40) :
    (s.storeByte a b).lineBytes y = if y / 128 = a / 128 then (s.lineBytes a).set (a % 128) b else s.lineBytes y := by
  have hk : ∀ pa, lineKey (s.storeByte a b) pa = lineKey s pa := fun pa => lineKey_of_gals rfl pa
  unfold State.lineBytes
  rw [hk]
  simp only [State.storeByte, tbl_find_set]
  by_cases h : y / 128 = a / 128
  · simp [h, lineKey_of_line (s := s) h, State.lineBytes]
  · have : lineKey s y ≠ lineKey s a := fun e => h (lineKey_inj hy ha e)
    simp [h, this]

/-- A byte written is the byte read, and no other byte changes. -/
theorem loadByte_storeByte {s : State} (hs : MemoryInv s) {a : Nat} (b : Byte) {y : Nat} (ha : a < 2 ^ 40)
    (hy : y < 2 ^ 40) : (s.storeByte a b).loadByte y = if y = a then b else s.loadByte y := by
  rw [loadByte_eq_line, lineBytes_storeByte b ha hy]
  have hl := lineBytes_length hs a
  by_cases h : y / 128 = a / 128
  · by_cases e : y = a
    · subst e
      have : y % 128 < (s.lineBytes y).length := by omega
      simp [List.getD, this]
    · have hm : y % 128 ≠ a % 128 := by omega
      have hly : s.lineBytes y = s.lineBytes a := by
        have h2 : y / 128 * 128 = a / 128 * 128 := by rw [h]
        simp only [State.lineBytes, lineKey_of_line (s := s) h, h2]
      rw [if_pos h, if_neg e, loadByte_eq_line, hly]
      simp [List.getD, List.getElem?_set_ne (Ne.symm hm)]
  · have e : y ≠ a := fun e => h (by rw [e])
    rw [if_neg h, if_neg e, loadByte_eq_line]

/-- A byte written keeps the form of memory. -/
theorem storeByte_inv {s : State} (hs : MemoryInv s) (a : Nat) (b : Byte) : MemoryInv (s.storeByte a b) := by
  refine ⟨hs.1, hs.2.1, fun l hl => ?_⟩
  rcases tbl_set_mem hl with h | h
  · subst h; simp [lineBytes_length hs]
  · exact hs.2.2 l h

theorem storeBytes_inv {s : State} (hs : MemoryInv s) (bs : List Byte) (a : Nat) : MemoryInv (s.storeBytes a bs) := by
  induction bs generalizing s a with
  | nil => exact hs
  | cons b bs ih => exact ih (storeByte_inv hs a b) (a + 1)

theorem storeWord_inv {s : State} (hs : MemoryInv s) (a : Nat) (x : Word) : MemoryInv (s.storeWord a x) :=
  storeBytes_inv hs _ _

theorem storeDirect_inv {s : State} (hs : MemoryInv s) (a : Nat) (bs : List Byte) : MemoryInv (s.storeDirect a bs) := by
  have h := storeBytes_inv hs bs a
  exact ⟨memory_wf_write _ _ _ h.1, h.2.1, h.2.2⟩

theorem putHeap_inv {s : State} (hs : MemoryInv s) (a : Nat) (x : Word) : MemoryInv (s.putHeap a x) := by
  have h := storeWord_inv hs (a / 8 * 8) x
  exact ⟨h.1, h.2.1, h.2.2⟩

theorem putWord_inv {s : State} (hs : MemoryInv s) (d : Bool) (a : Nat) (x : Word) : MemoryInv (s.putWord d a x) := by
  unfold State.putWord; split
  · exact storeDirect_inv hs ..
  · exact storeWord_inv hs ..

/-- The form depends on memory alone. -/
theorem MemoryInv.of_store {s t : State} (hs : MemoryInv s) (h : SameStore s t) : MemoryInv t := by
  obtain ⟨h1, h2, h3, -⟩ := h
  simpa [MemoryInv, h1, h2, h3] using hs

/-- Bytes written are the bytes read, and no other byte changes. -/
theorem loadByte_storeBytes {s : State} (hs : MemoryInv s) (bs : List Byte) {a : Nat} (ha : a + bs.length ≤ 2 ^ 40)
    {y : Nat} (hy : y < 2 ^ 40) :
    (s.storeBytes a bs).loadByte y = if a ≤ y ∧ y < a + bs.length then bs.getD (y - a) 0 else s.loadByte y := by
  induction bs generalizing s a with
  | nil => simp [State.storeBytes]
  | cons b bs ih =>
    simp only [List.length_cons] at ha ⊢
    rw [State.storeBytes, ih (storeByte_inv hs a b) (by omega), loadByte_storeByte hs b (by omega) hy]
    by_cases h : y = a
    · subst h
      have h2 : y ≤ y ∧ y < y + (bs.length + 1) := by omega
      simp [h2]
    · by_cases h1 : a + 1 ≤ y ∧ y < a + 1 + bs.length
      · have h2 : a ≤ y ∧ y < a + (bs.length + 1) := by omega
        have h3 : y - a = (y - (a + 1)) + 1 := by omega
        rw [if_pos h1, if_pos h2, h3, List.getD_cons_succ]
      · have h2 : ¬(a ≤ y ∧ y < a + (bs.length + 1)) := by omega
        rw [if_neg h1, if_neg h2, if_neg h]

/-! ### Words -/

theorem leBytes_length (n x : Nat) : (leBytes n x).length = n := by
  induction n generalizing x with
  | zero => rfl
  | succ n ih => simp [leBytes, ih]

theorem leNat_leBytes (n x : Nat) : leNat (leBytes n x) = x % 256 ^ n := by
  induction n generalizing x with
  | zero => simp [leBytes, leNat, Nat.mod_one]
  | succ n ih =>
    have h := Nat.mod_mul (a := 256) (b := 256 ^ n) (x := x)
    rw [Nat.pow_succ, Nat.mul_comm (256 ^ n) 256, h]
    simp only [leBytes, leNat, ih]
    rfl

theorem loadBytes_getD (s : State) (a n i : Nat) (h : i < n) : (s.loadBytes a n).getD i 0 = s.loadByte (a + i) := by
  simp [State.loadBytes, List.getD, h]

/-- The bytes of a range read after a write of exactly that range. -/
theorem loadBytes_storeBytes {s : State} (hs : MemoryInv s) (bs : List Byte) {a : Nat} (ha : a + bs.length ≤ 2 ^ 40) :
    (s.storeBytes a bs).loadBytes a bs.length = bs := by
  apply List.ext_getElem?
  intro i
  by_cases h : i < bs.length
  · have := loadByte_storeBytes hs bs ha (y := a + i) (by omega)
    rw [if_pos (by omega)] at this
    simp only [State.loadBytes, List.getElem?_map, List.getElem?_range h, Option.map_some, this]
    simp [List.getD, h]
  · simp [State.loadBytes, h]

/-- A word written is the word read (R28). -/
theorem loadWord_storeWord {s : State} (hs : MemoryInv s) {a : Nat} (x : Word) (ha : a + 8 ≤ 2 ^ 40) :
    (s.storeWord a x).loadWord a = x := by
  have hl := leBytes_length 8 x.toNat
  have h := loadBytes_storeBytes hs (leBytes 8 x.toNat) (a := a) (by omega)
  rw [hl] at h
  simp only [State.loadWord, State.storeWord, h, leNat_leBytes]
  apply BitVec.eq_of_toNat_eq
  rw [BitVec.toNat_ofNat, Nat.mod_mod_of_dvd _ (by decide)]
  exact Nat.mod_eq_of_lt x.isLt

/-- A word apart from the bytes written reads as before. -/
theorem loadWord_storeBytes_apart {s : State} (hs : MemoryInv s) (bs : List Byte) {a y : Nat}
    (ha : a + bs.length ≤ 2 ^ 40) (hy : y + 8 ≤ 2 ^ 40) (h : y + 8 ≤ a ∨ a + bs.length ≤ y) :
    (s.storeBytes a bs).loadWord y = s.loadWord y := by
  have : (s.storeBytes a bs).loadBytes y 8 = s.loadBytes y 8 := by
    simp only [State.loadBytes]
    apply List.map_congr_left
    intro i hi
    have := List.mem_range.1 hi
    rw [loadByte_storeBytes hs bs ha (by omega), if_neg (by omega)]
  simp only [State.loadWord, this]

end Sys2Proof.Laws
end

