-- ==== Sys2Proof/Tests/Slice0.lean ====
section
/-! SUPPORT. The model's own tests: ill-formed instructions, words of every family, single steps, and for each statement
with hypotheses a state and operands that meet them. -/

namespace Sys2Proof.Tests

open Sys2Proof Machine

/-! ### Well-formedness -/

/-- A term that each check of R87 refuses, beside the nearest one that it takes. -/
theorem test_ill_formed :
    ([.trap .always 0x3F, .trap .always 0x100, .abort .always 0, .abort .always 0x100, .waitev .always 0,
      .add .always .f32 false 1 2 3, .and .always .bpi 1 2 3, .mulh .always .n32 1 2 3, .mulhu .always .i32 1 2 3,
      .loop .always 0 1 0, .loopi .always 0 1 0, .pset .always 0 65, .fcvt .always .i32 .n32 .rne false 1 2,
      .fcvt .always .bf16x2 .f32 .rne true 1 2, .vadd .always .g8x4 .rne false 1 2 3, .vadd .always .f32 .rne true 1 2 3,
      .vadd .always .i32 .rtz false 1 2 3, .vmin .always .i64 .rne 1 2 3, .vabs .always .n32 .rne false 1 2,
      .vand .always .f32 1 2 3, .vcmp .always .un .i32 1 2 3, .vcvt .always .f32 .f32 .rne false 1 2 3,
      .vred .always .and .f32 1 2, .mma .always ⟨.f32, .bf16, .overwrite, false, 0⟩ 0 0 (.desc 2) (.desc 4) 6,
      .mma .always ⟨.bpi4, .bpi4, .overwrite, false, 0⟩ 4 0 (.desc 2) (.desc 4) 6,
      .mma .always ⟨.f32, .f32, .overwrite, false, 0⟩ 0 0 (.group 2) (.desc 4) 6, .mld .always .bpi4 0 2 4,
      .trsm .always false false false 1 2 1, .qapply .always false 0 2 0, .lds .always .w64 .release .cell 1 ⟨2, 0, 0, 0⟩,
      .sts .always .w64 .relaxed .package 1 ⟨2, 0, 0, 0⟩, .aadd .always .relaxed .fabric 1 ⟨2, 0, 0, 0⟩ 3,
      .cpchain .always 2 2 1, .tbcast .always .i64 1 2 3, .tred .always .or .f32 false 1 2 3] : List Instr).all
        (fun i => !i.valuesOk) = true ∧
    ([.mma .always ⟨.f32, .f32, .overwrite, false, 0⟩ 0 0 (.desc 3) (.desc 4) 6,
      .mma .always ⟨.gf8, .gf8, .overwrite, false, 0⟩ 0 0 (.desc 2) (.group 18) 6,
      .mmag .always ⟨.f32, .f32, .overwrite, false, 0⟩ 0 0 0 1 2 4, .mld .always .f32 0 3 4, .qrh .always 0 1 3,
      .tdesc .always 3 1, .route .always 1 2 3] : List Instr).all (fun i => i.valuesOk && !i.groupsOk) = true ∧
    ([.mfs .always 1 0x012, .mts .always 0x000 1] : List Instr).all (fun i => i.valuesOk && !i.sregOk) = true := by decide

/-- The nearest terms that the checks take. -/
theorem test_well_formed :
    ([.trap .always 0x40, .trap .always 0xFF, .abort .always 1, .abort .always 0xFF, .waitev .always 1, .loopi .always 0 1 1,
      .pset .always 0 64, .fcvt .always .f32 .bf16x2 .rne true 1 2, .vadd .always .bf16x2 .rtz false 1 2 3,
      .vadd .always .n8x4 .rne true 1 2 3, .vmin .always .g8x4 .rne 1 2 3, .vcmp .always .un .f32 1 2 3,
      .vred .always .and .n32 1 2, .mma .always ⟨.bpi4, .i8, .overwrite, false, 0⟩ 3 0 (.desc 2) (.desc 4) 6,
      .mma .always ⟨.gf8, .gf8, .overwrite, false, 0⟩ 0 0 (.desc 2) (.group 16) 6, .mld .always .i8 0 2 4,
      .lds .always .w64 .acquire .fabric 1 ⟨2, 0, 0, 0⟩, .aadd .always .acqRel .fabric 1 ⟨2, 0, 0, 0⟩ 3,
      .mfs .always 1 0x011, .mts .always 0x00E 1] : List Instr).all Instr.wf = true := by decide

/-! ### Words of every family

The fields of a word as R80 places them, D [51:46], A [45:40], B [39:34], C [33:28], FN [27:24] and X [23:0]; the words
given whole are those that the chapters write out. -/

def word (maj fn d a b c x : Nat) : Nat :=
  maj * 2 ^ 58 + d * 2 ^ 46 + a * 2 ^ 40 + b * 2 ^ 34 + c * 2 ^ 28 + fn * 2 ^ 24 + x

def allDecode (l : List (Nat × Instr)) : Bool := l.all fun p => decodeTableWord 64 p.1 == some p.2

/-- ADD g4, g4, g2 (chapter 11), bit by bit: MAJ, GE, GS, GQ, D, A, B, C, FN, then TY, RM and SAT. -/
theorem test_decode_add : decodeTableWord 64
    0b0000010000000001000001000000100000000000010010000000000000000000 = some (.add .always .i64 false 4 4 2) := by decide

/-- The guard: GE with GS and GQ; GS or GQ without GE is reserved (R82, R87). -/
theorem test_decode_guard : allDecode [(0x0280000001000000, .nop (.ifTrue 8)), (0x03F0000001000000, .nop (.ifFalse 15))] =
      true ∧ ([0x0100000001000000, 0x0010000001000000].map (decodeTableWord 64)) = [none, none] := by decide

/-- NOP to WAITEV. -/
theorem test_decode_sys : allDecode [
    (word 0x0 1 0 0 0 0 0x0, .nop .always),
    (word 0x0 2 0 0 0 0 0x0, .halt .always),
    (word 0x0 3 0 0 0 0 0x0, .yield .always),
    (word 0x0 4 0 0 0 0 0x41, .trap .always 0x41),
    (word 0x0 5 0 0 0 0 0x0, .bkpt .always),
    (word 0x0 6 0 0 0 0 0x1, .abort .always 1),
    (word 0x0 7 0 0 0 0 0x9, .waitev .always 9)] = true := by decide

/-- ADD to SEL. -/
theorem test_decode_inta : allDecode [
    (word 0x1 0 4 5 6 0 0x488000, .add .always .i64 true 4 5 6),
    (word 0x1 1 4 5 6 0 0x80000, .sub .always .n32 false 4 5 6),
    (word 0x1 2 4 5 6 0 0x480000, .and .always .i64 4 5 6),
    (word 0x1 3 4 5 6 0 0x80000, .or .always .n32 4 5 6),
    (word 0x1 4 4 5 6 0 0x480000, .xor .always .i64 4 5 6),
    (word 0x1 5 4 5 6 0 0x80000, .andn .always .n32 4 5 6),
    (word 0x1 6 4 5 6 0 0x480000, .shl .always .i64 4 5 6),
    (word 0x1 7 4 5 6 0 0x80000, .shr .always .n32 4 5 6),
    (word 0x1 8 4 5 6 0 0x480000, .sra .always .i64 4 5 6),
    (word 0x1 9 4 5 6 0 0x80000, .rot .always .n32 4 5 6),
    (word 0x1 10 4 5 6 0 0x480000, .min .always .i64 4 5 6),
    (word 0x1 11 4 5 6 0 0x80000, .max .always .n32 4 5 6),
    (word 0x1 12 4 5 6 0 0x480000, .minu .always .i64 4 5 6),
    (word 0x1 13 4 5 6 0 0x80000, .maxu .always .n32 4 5 6),
    (word 0x1 14 4 5 6 7 0x480000, .sel .always 4 5 6 7)] = true := by decide

/-- MUL to SEXT. -/
theorem test_decode_intb : allDecode [
    (word 0x2 0 1 2 3 0 0x480000, .mul .always .i64 false 1 2 3),
    (word 0x2 1 1 2 3 0 0x0, .mulh .always .i32 1 2 3),
    (word 0x2 2 1 2 3 0 0x80000, .mulhu .always .n32 1 2 3),
    (word 0x2 3 1 2 3 0 0x480000, .div .always .i64 1 2 3),
    (word 0x2 4 1 2 3 0 0x480000, .divu .always .i64 1 2 3),
    (word 0x2 5 1 2 3 0 0x0, .rem .always .i32 1 2 3),
    (word 0x2 6 1 2 3 0 0x80000, .remu .always .n32 1 2 3),
    (word 0x2 7 1 2 3 4 0x488000, .madd .always .i64 true 1 2 3 4),
    (word 0x2 8 1 2 0 0 0x0, .clz .always .i32 1 2),
    (word 0x2 9 1 2 0 0 0x80000, .popc .always .n32 1 2),
    (word 0x2 10 1 2 3 4 0x480000, .bfx .always .i64 1 2 3 4),
    (word 0x2 11 1 2 3 4 0x0, .bfi .always .i32 1 2 3 4),
    (word 0x2 12 1 2 3 0 0x480000, .sext .always .i64 1 2 3)] = true := by decide

/-- CMP, with the first and the last condition. -/
theorem test_decode_cmp : allDecode [
    (word 0x3 0 15 2 3 0 0x480000, .cmp .always .eq .i64 15 2 3),
    (word 0x3 9 1 2 3 0 0x80000, .cmp .always .geu .n32 1 2 3)] = true := by decide

/-- ADDI to CMPI, LI and LIH: imm36 is word bits [39:28] and [23:0]. -/
theorem test_decode_immediates : allDecode [
    (0x100041FFF0FFFFFF, .addi .always 1 1 0xFFFFFFFFF),
    (0x14084207F0FFFFFF, .andi .always 33 2 0x7FFFFFFF),
    (0x18079E0000000040, .ori .always 30 30 0x40),
    (0x1C00428000000001, .xori .always 1 2 0x800000001),
    (0x2008610000000009, .shli .always 33 33 9),
    (0x2008200001000008, .shri .always 32 32 8),
    (0x200042000200003F, .srai .always 1 2 63),
    (0x2000420003000001, .roti .always 1 2 1),
    (0x2400870002000000, .cmpi .always .lt 2 7 0),
    (0x2807000200000000, .li .always 28 0x200000000),
    (0x28007FFFFFFFFFFF, .li .always 1 0x3FFFFFFFFFFF),
    (0x2C01C00100000000, .lih .always 7 0x10000000)] = true := by decide

/-- BR to BREAK. -/
theorem test_decode_control : allDecode [
    (0x3000000000000005, .br .always 5),
    (0x3400030000000000, .jmp .always 3),
    (0x3400000001000000, .ret .always),
    (0x380000FFF0FFFFFE, .call .always 0xFFFFFFFFE),
    (0x3C00030000000002, .loop .always 0 3 2),
    (0x3C00400051000002, .loopi .always 1 5 2),
    (0x3C00C00002000000, .breakLoop .always 3)] = true := by decide

/-- PAND to PST. -/
theorem test_decode_pred : allDecode [
    (word 0x10 0 1 2 3 0 0x0, .pand .always 1 2 3),
    (word 0x10 1 1 2 3 0 0x0, .por .always 1 2 3),
    (word 0x10 2 1 2 3 0 0x0, .pxor .always 1 2 3),
    (word 0x10 3 1 2 3 0 0x0, .pandn .always 1 2 3),
    (word 0x10 4 1 2 0 0 0x0, .pnot .always 1 2),
    (word 0x10 5 1 0 0 0 0x40, .pset .always 1 64),
    (word 0x10 6 1 2 0 0 0x0, .pmov .always 1 2),
    (word 0x10 7 40 2 0 0 0x0, .pcnt .always 40 2),
    (word 0x10 8 40 2 0 0 0x0, .pfirst .always 40 2),
    (word 0x10 9 1 40 0 0 0x0, .pld .always 1 40),
    (word 0x10 10 40 1 0 0 0x0, .pst .always 40 1)] = true := by decide

/-- FADD to FCLASS, with every rounding code. -/
theorem test_decode_fps : allDecode [
    (word 0x11 0 1 2 3 0 0x100000, .fadd .always .rne 1 2 3),
    (word 0x11 1 1 2 3 0 0x110000, .fsub .always .rtz 1 2 3),
    (word 0x11 2 1 2 3 0 0x120000, .fmul .always .rup 1 2 3),
    (word 0x11 3 1 2 3 4 0x130000, .ffma .always .rdn 1 2 3 4),
    (word 0x11 4 1 2 3 0 0x140000, .fdiv .always .rna 1 2 3),
    (word 0x11 5 1 2 0 0 0x170000, .fsqrt .always .dyn 1 2),
    (word 0x11 6 1 2 3 0 0x100000, .fmin .always .rne 1 2 3),
    (word 0x11 7 1 2 3 0 0x100000, .fmax .always .rne 1 2 3),
    (word 0x11 8 1 2 0 0 0x100000, .fabs .always .rne 1 2),
    (word 0x11 9 1 2 0 0 0x100000, .fneg .always .rne 1 2),
    (word 0x11 10 1 2 0 0 0x488800, .fcvt .always .i64 .f32 .rtz false 1 2),
    (word 0x11 11 1 2 0 0 0x100000, .fclass .always .rne 1 2)] = true := by decide

/-- FCMP. -/
theorem test_decode_fcmp : allDecode [
    (word 0x12 2 1 5 6 0 0x100000, .fcmp .always .lt 1 5 6),
    (word 0x12 4 1 5 6 0 0x100000, .fcmp .always .un 1 5 6)] = true := by decide

/-- VADD to VMULH. -/
theorem test_decode_vari : allDecode [
    (word 0x14 0 5 6 7 0 0x208000, .vadd .always .i16x2 .rne true 5 6 7),
    (word 0x14 1 5 6 7 0 0x100000, .vsub .always .f32 .rne false 5 6 7),
    (word 0x14 2 5 6 7 0 0x180000, .vmul .always .bf16x2 .rne false 5 6 7),
    (word 0x14 3 4 1 2 3 0x110000, .vfma .always .f32 .rtz false 4 1 2 3),
    (word 0x14 4 5 6 7 0 0x300000, .vmin .always .g8x4 .rne 5 6 7),
    (word 0x14 5 5 6 7 0 0x400000, .vmax .always .n8x4 .rne 5 6 7),
    (word 0x14 6 5 6 0 0 0x380000, .vabs .always .i8x4 .rne false 5 6),
    (word 0x14 7 5 6 0 0 0x0, .vneg .always .i32 .rne false 5 6),
    (word 0x14 8 5 6 7 0 0x100000, .vdiv .always .rne 5 6 7),
    (word 0x14 9 5 6 0 0 0x100000, .vsqrt .always .rne 5 6),
    (word 0x14 10 31 6 7 0 0x280000, .vmulh .always .n16x2 31 6 7)] = true := by decide

/-- VAND to VPOPC. -/
theorem test_decode_vlog : allDecode [
    (word 0x15 0 1 2 3 0 0x80000, .vand .always .n32 1 2 3),
    (word 0x15 1 1 2 3 0 0x80000, .vor .always .n32 1 2 3),
    (word 0x15 2 1 2 3 0 0x80000, .vxor .always .n32 1 2 3),
    (word 0x15 3 1 2 3 0 0x80000, .vandn .always .n32 1 2 3),
    (word 0x15 4 1 2 3 0 0x80000, .vshl .always .n32 1 2 3),
    (word 0x15 5 1 2 3 0 0x80000, .vshr .always .n32 1 2 3),
    (word 0x15 6 1 2 3 0 0x80000, .vsra .always .n32 1 2 3),
    (word 0x15 7 1 2 0 0 0x380000, .vclz .always .i8x4 1 2),
    (word 0x15 8 1 2 0 0 0x200000, .vpopc .always .i16x2 1 2)] = true := by decide

/-- VRCP to VTANH. -/
theorem test_decode_vfun : allDecode [
    (word 0x16 0 1 2 0 0 0x100000, .vrcp .always .rne 1 2),
    (word 0x16 1 1 2 0 0 0x100000, .vrsq .always .rne 1 2),
    (word 0x16 2 1 2 0 0 0x100000, .vexp2 .always .rne 1 2),
    (word 0x16 3 1 2 0 0 0x100000, .vlog2 .always .rne 1 2),
    (word 0x16 4 1 2 0 0 0x100000, .vtanh .always .rne 1 2)] = true := by decide

/-- VCMP to VSCAN. -/
theorem test_decode_vector_lanes : allDecode [
    (0x5C00810802100000, .vcmp .always .lt .f32 2 1 2),
    (0x6000420830000000, .vsel .always 1 2 2 3),
    (0x6402090030118000, .vcvt .always .f32 .g8x4 .rne false 8 9 3),
    (0x6400000000188000, .vcvt .always .bf16x2 .f32 .rne false 0 0 0),
    (0x6800810800000000, .vperm .always 2 1 2),
    (0x6800810001000000, .vbcast .always 2 1),
    (0x6800810002000005, .vbl .always 2 1 5),
    (0x680081000300003F, .vins .always 2 1 63),
    (0x6800810004000005, .vext .always 2 1 5),
    (0x6800810005000005, .vshfu .always 2 1 5),
    (0x6800810006000005, .vshfd .always 2 1 5),
    (0x6800810007000000, .vmov .always 2 1),
    (0x6C01030000100000, .vred .always .add .f32 4 3),
    (0x6C00C20008100000, .vscan .always .add .f32 3 2),
    (0x6C00C2000C080000, .vscan .always .or .n32 3 2)] = true := by decide

/-- MMA to MCHKR. -/
theorem test_decode_matrix : allDecode [
    (0x80000820C008403F, .mma .always ⟨.bf16, .bf16, .overwrite, false, 63⟩ 0 0 (.desc 8) (.desc 8) 12),
    (0x80004828C0C602FF, .mma .always ⟨.bpi8, .bpi8, .overwrite, true, 63⟩ 3 1 (.desc 8) (.desc 10) 12),
    (0x840002106010AFBF, .mmag .always ⟨.gf8, .gf8, .negate, false, 63⟩ 3 7 0 2 4 6),
    (0x8800400000000000, .mzero .always 1),
    (0x88000E00C1000000, .mld .always .f32 0 14 12),
    (0x88000E00C2080000, .mst .always .bf16 0 14 12),
    (0x8800C11403000000, .mrowr .always 3 1 5),
    (0x8800431404000000, .mroww .always 1 3 5),
    (0x8800420005000000, .mtran .always 1 2),
    (0x8C00860070000000, .mchk .always 2 6 7),
    (0x8C00860071000000, .mchkr .always 2 6 7)] = true := by decide

/-- LUF to PRST. -/
theorem test_decode_fact : allDecode [
    (0x9000050000000001, .luf .always true 0 5),
    (0x9000850001000000, .chol .always 2 5),
    (0x9000052002000000, .qrh .always 0 5 8),
    (0x9000460003000001, .trsm .always true false false 1 6 0),
    (0x9000C60803000006, .trsm .always false true true 3 6 2),
    (0x9000470004000001, .qapply .always true 1 7 0),
    (0x9000450005000000, .papply .always 1 5),
    (0x9000450006000000, .papplyt .always 1 5),
    (0x9400000000000000, .prid .always),
    (0x9400090001000000, .prld .always 9),
    (0x9400090002000000, .prst .always 9)] = true := by decide

/-- LD to STH. -/
theorem test_decode_memory : allDecode [
    (0xA001051804020010, .ld .always .i32 4 ⟨5, 6, 2, 16⟩),
    (0xA401050003000008, .st .always .w64 4 ⟨5, 0, 0, 8⟩),
    (0xA800480000000000, .vld .always 1 ⟨8, 0, 0, 0⟩),
    (0xA800480091000000, .vlds .always 1 ⟨8, 0, 0, 0⟩ 9),
    (0xA800850C02020000, .vgath .always 2 ⟨5, 3, 2, 0⟩),
    (0xA80048000300FFFC, .vst .always 1 ⟨8, 0, 0, 0xFFFC⟩),
    (0xA800480094000000, .vsts .always 1 ⟨8, 0, 0, 0⟩ 9),
    (0xA800850C05020000, .vscat .always 2 ⟨5, 3, 2, 0⟩),
    (0xB001C80001000000, .ldh .always .w64 7 ⟨8, 0, 0, 0⟩),
    (0xB001C80000000000, .ldh .always .w32 7 ⟨8, 0, 0, 0⟩),
    (0xB401C80000000008, .sth .always 7 ⟨8, 0, 0, 8⟩)] = true := by decide

/-- LDS to FENCE. -/
theorem test_decode_system : allDecode [
    (0xB800C90000240000, .lds .always .w64 .acquire .package 3 ⟨9, 0, 0, 0⟩),
    (0xB800C90001000000, .lds .always .w32 .relaxed .cell 3 ⟨9, 0, 0, 0⟩),
    (0xB800C90002380000, .sts .always .w64 .release .fabric 3 ⟨9, 0, 0, 0⟩),
    (0xB800C90003180000, .sts .always .w32 .release .gallery 3 ⟨9, 0, 0, 0⟩),
    (0xB801090064280008, .stsMask .always .release .package 4 ⟨9, 0, 0, 8⟩ 6),
    (0xBC00C900502C0000, .aadd .always .acqRel .package 3 ⟨9, 0, 0, 0⟩ 5),
    (0xBC00C900512C0000, .afadd .always .acqRel .package 3 ⟨9, 0, 0, 0⟩ 5),
    (0xBC00C900522C0000, .amin .always .acqRel .package 3 ⟨9, 0, 0, 0⟩ 5),
    (0xBC00C900532C0000, .amax .always .acqRel .package 3 ⟨9, 0, 0, 0⟩ 5),
    (0xBC00C900542C0000, .aand .always .acqRel .package 3 ⟨9, 0, 0, 0⟩ 5),
    (0xBC00C900552C0000, .aor .always .acqRel .package 3 ⟨9, 0, 0, 0⟩ 5),
    (0xBC00C900562C0000, .axchg .always .acqRel .package 3 ⟨9, 0, 0, 0⟩ 5),
    (0xBC00C900572C0000, .acas .always .acqRel .package 3 ⟨9, 0, 0, 0⟩ 5),
    (0xBC00C90051000000, .afadd .always .relaxed .cell 3 ⟨9, 0, 0, 0⟩ 5),
    (0xC000000000000001, .fenceAcq .always .gallery),
    (0xC000000001000002, .fenceRel .always .package),
    (0xC000000002000003, .fenceFull .always .fabric)] = true := by decide

/-- TALLOC to OWNQ. -/
theorem test_decode_tile : allDecode [
    (0xC401000000080000, .talloc .always .bf16 4),
    (0xC400040001000000, .tfree .always 4),
    (0xC401440002000000, .tseal .always 5 4),
    (0xC400C41403000000, .thdr .always 3 4 5),
    (0xC400041464000000, .tseth .always 4 5 6),
    (0xC400C40005000000, .tpres .always 3 4),
    (0xC402040006000000, .tdesc .always 8 4),
    (0xC8000824A0000003, .cparm .always 3 8 9 10),
    (0xC800000001000000, .cpfire .always 0),
    (0xC800841802000000, .cptest .always 2 4 6),
    (0xC800041803000000, .cpwait .always 4 6),
    (0xC800000004000002, .cpcan .always 2),
    (0xC80000740500000B, .cpchain .always 3 1 29),
    (0xCC00040000000000, .give .always .copy 4),
    (0xCC000D0001000001, .recl .always .matrix 13),
    (0xCC00040000000002, .give .always .route 4),
    (0xCC01840002000000, .ownq .always 6 4)] = true := by decide

/-- TBCAST to RESV. -/
theorem test_decode_tree : allDecode [
    (0xD000420000100000, .tbcast .always .f32 1 2 0),
    (0xD000810C01100001, .tred .always .add .f32 true 2 1 3),
    (0xD000810002090000, .tscan .always .min .n32 2 1),
    (0xD000051803000000, .tmcast .always 5 6),
    (0xD000051804000000, .trow .always 5 6),
    (0xD001C00005000000, .trecv .always 7),
    (0xD001040006020000, .tall .always .max .i32 4 4),
    (0xD400810000000000, .symld .always 2 1),
    (0xD400400001000000, .syman .always 1 0),
    (0xD400800002000000, .symcnt .always 2),
    (0xD400040003000000, .emit .always 4),
    (0xD400040004000000, .emitt .always 4),
    (0xD400051805000000, .emitr .always 5 6),
    (0xD400070006000000, .resv .always 7)] = true := by decide

/-- ROUTE to MTS. -/
theorem test_decode_route : allDecode [
    (0xD801050800000000, .route .always 4 5 2),
    (0xD800050001000000, .ratwt .always 5),
    (0xD800051802000000, .ratrd .always 5 6),
    (0xD800C40003000000, .srecv .always 3 4),
    (0xD800041804000000, .sret .always 4 6),
    (0xD800C40005000000, .scap .always 3 4),
    (0xD800C40005000001, .scapSet .always 3 4),
    (0xDC01030800000000, .barj .always 4 3 2),
    (0xDC00031001000000, .barw .always 3 4),
    (0xDC01431802000000, .barq .always 5 3 6),
    (0xDC01430003000000, .grab .always 5 3),
    (0xDC01030004000000, .steal .always 4 3),
    (0xDC00031465000000, .rngset .always 3 5 6),
    (0xDC01C30006000000, .rngq .always 7 3),
    (0xE00080000000000D, .mfs .always 2 0xD),
    (0xE00003000100000E, .mts .always 0xE 3)] = true := by decide
/-- What R87 refuses, in its order: majors and functions that are not assigned and the zero word; reserved bits; values;
registers outside the declaration and odd pairs; special registers. -/
theorem test_decode_refuses :
    ([0x0, word 0x13 0 1 2 3 0 0, word 0x01 15 1 2 3 0 0x480000, word 0x25 3 0 0 0 0 0,
      word 0x00 1 1 0 0 0 0, word 0x14 0 1 2 3 0 0x110001, word 0x01 0 1 2 3 0 0x400000, word 0x11 0 1 2 3 0 0x150000,
      0x9000850001000001, 0x9000060003000000, word 0x38 0 1 0 0 0 0x12, word 0x38 1 0 1 0 0 0x0,
      word 0x20 0 0 2 4 6 0xB000].map fun w => decodeWord .full (BitVec.ofNat 64 w)) =
      [.error .illop, .error .illop, .error .illop, .error .illop, .error .illop, .error .illop, .error .illop,
       .error .illop, .error .illop, .error .illop, .error .illop, .error .illop, .error .illop] ∧
    decodeWord ⟨8, 4, 2⟩ 0x0401040800480000 = .ok (.add .always .i64 false 4 4 2) ∧
    decodeWord ⟨4, 4, 2⟩ 0x0401040800480000 = .error .reggrp ∧
    decodeWord .full (BitVec.ofNat 64 (word 0x31 6 7 4 0 0 0)) = .error .reggrp := by decide

/-! ### The states of the tests: one member of one redex in cell 4 -/

/-- A live member of the redex at row position 64, in context 0. -/
def member : Exec := { ctx := 0, appo := 64, rank := 0, op := 0x0100, status := .live }

/-- Its redex, of one cell. -/
def redex : Redex :=
  { state := .running, op := 0x0100, first := 4, last := 4, appc := 68, len := 5, elems := 1, serial := some 0 }

/-- A running context with that redex. -/
def running : Ctx := { state := .running, redexes := [(64, redex)] }

/-- Two operators: 0x0100 replayable, 0x0101 non-replayable (R94). -/
def operators : Tbl OpImage :=
  [(0x0100, { hdr0 := 0x0010204000010100, hdr1 := 0x4000000001, code := [0x0000000001000000], data := List.replicate 64 7 }),
   (0x0101, { hdr0 := 0x0010204000810101, hdr1 := 1, code := [0x0000000001000000], data := [] })]

/-- A READY part whose context 0 and cell 4 are given, with one member execution in cell 4. -/
def one (e : Exec) (c : Cell) (x : Ctx) : State :=
  { State.reset with
    dev := { State.reset.dev with state := .ready, ops := operators }
    ctxs := #v[x, {}, {}, {}]
    cells := [(4, c)]
    execs := [(1024, e)]
    cur := 4 }

/-- The same with every bridge and link UP. -/
def linked (s : State) : State := { s with links := .replicate 20 { st := .up } }

theorem joined_linked (s : State) (a b : Nat) : (linked s).joined a b = true := by
  have h : ∀ l, l < 4 → (linked s).bridgeUp l = true := by
    intro l hl
    interval_cases l <;> rfl
  have u (i : Nat) : (linked s).bridgeUp (i % 4) = true := h _ (Nat.mod_lt _ (by decide))
  simp only [State.joined, u, Bool.and_self, Bool.or_self, ite_self]

theorem live_one (e : Exec) (c : Cell) (x : Ctx) (h : e.status = .live) : (one e c x).live = some (1024, e) := by
  simp [State.live, State.liveOf, one, h]

theorem issues_one (e : Exec) (c : Cell) (x : Ctx) (h : e.status = .live) : Issues .always (one e c x) 1024 e :=
  ⟨live_one e c x h, rfl⟩

theorem issues_of {s : State} {e : Exec} (hx : s.execs = [(1024, e)]) (hc : s.cur = 4) (h : e.status = .live) :
    Issues .always s 1024 e := ⟨by simp [State.live, State.liveOf, hx, hc, h], rfl⟩

/-! ### What meets the hypotheses of the statements -/

theorem witness_EncodedDecodes : (Instr.add .always .i64 false 4 4 2).wf = true ∧
    encode (.add .always .i64 false 4 4 2) = some 0x0401040800480000 := by decide

theorem witness_DecodedEncodes :
    decodeWord ⟨5, 0, 0⟩ 0x0401040800480000 = .ok (.add .always .i64 false 4 4 2) := by decide

theorem witness_StepRunsDecoded : ∃ c dt rest k e i,
    let s := State.reset.withFetchWord 64 0x0401040800480000
    let u : State := State.departRows { s with agenda := rest, clk := s.clk + BitVec.ofNat 64 dt }
    let v : State := { u with cur := c }
    s.agenda = ⟨dt, .cell c false⟩ :: rest ∧ v.live = some (k, e) ∧ e.wait = .nothing ∧ isBuiltin e.op = false ∧
    decodeWord (v.opDecl e.op) (v.fetchWord e) = .ok i ∧ v.canIssue k e i = true :=
  ⟨0, 0, [], 0, { ctx := 0, appo := 0, rank := 0, op := 0x0100, status := .live }, .add .always .i64 false 4 4 2, rfl, rfl,
    rfl, by decide, by decide, by decide⟩

theorem witness_IllegalWord : (one member {} running).live = some (1024, member) ∧
    (one member {} running).getRedex member.ctx member.appo = some redex := ⟨live_one _ _ _ rfl, rfl⟩

theorem witness_MemoryCanonical : MemoryInv (State.reset.withFetchWord 64 0x0401040800480000) ∧
    ∃ t, step (State.reset.withFetchWord 64 0x0401040800480000) = .next t := ⟨⟨rfl, rfl, by decide⟩, _, rfl⟩

/-- A member whose word issues under no guard and under a false one: what the statements of registers ask, with the
types that they range over. -/
theorem witness_Writes : (one member {} running).live = some (1024, member) ∧ member.guardOn .always = true ∧
    member.guardOn (.ifTrue 0) = false ∧ member.guardOn (.ifFalse 15) = true := ⟨live_one _ _ _ rfl, rfl, rfl, rfl⟩

theorem witness_IntegerAddShift : ([.i64, .i32, .n32] : List Ty).all Ty.scalarInt = true ∧
    (one member {} running).live = some (1024, member) := ⟨rfl, live_one _ _ _ rfl⟩

theorem witness_IntegerMinMaxBits : ([.i64, .i32, .n32] : List Ty).all Ty.scalarInt = true ∧
    (one member {} running).live = some (1024, member) := ⟨rfl, live_one _ _ _ rfl⟩

theorem witness_IntegerMultiply : ([.i64, .i32, .n32] : List Ty).all Ty.scalarInt = true ∧
    ([.i64, .i32] : List Ty).all Ty.scalarSigned = true ∧ ([.i64, .n32] : List Ty).all Ty.scalarUnsigned = true ∧
    (one member {} running).live = some (1024, member) := ⟨rfl, rfl, rfl, live_one _ _ _ rfl⟩

theorem witness_IntegerDivide : ([.i64, .i32] : List Ty).all Ty.scalarSigned = true ∧
    ([.i64, .n32] : List Ty).all Ty.scalarUnsigned = true ∧
    (one member {} running).live = some (1024, member) := ⟨rfl, rfl, live_one _ _ _ rfl⟩

/-- The corners: division by zero, and the least number by -1, in each type. -/
theorem witness_DivisionCorners :
    let e := ((member.setG 1 0x8000000000000000).setG 2 0xFFFFFFFF80000000).setG 3 (-1)
    (one e {} running).live = some (1024, e) ∧ e.guardOn .always = true ∧
    valueOf .i64 (e.getG 0) = 0 ∧ wide1 .n32 (fun _ x => x) (e.getG 1) = 0 ∧
    valueOf .i64 (e.getG 1) = leastOf .i64 ∧ valueOf .i64 (e.getG 3) = -1 ∧
    valueOf .i32 (e.getG 2) = leastOf .i32 ∧ valueOf .i32 (e.getG 3) = -1 :=
  ⟨live_one _ _ _ rfl, rfl, by decide, by decide, by decide, by decide, by decide, by decide⟩

theorem witness_SaturateImmediates : ([.i64, .i32, .n32] : List Ty).all Ty.scalarInt = true ∧
    (one member {} running).live = some (1024, member) := ⟨rfl, live_one _ _ _ rfl⟩

theorem witness_ComparePredicates : ([.i64, .i32, .n32] : List Ty).all Ty.scalarInt = true ∧
    (64 : BitVec 7).toNat ≤ 64 ∧ (one member {} running).live = some (1024, member) :=
  ⟨rfl, by decide, live_one _ _ _ rfl⟩

/-- An event of the mask stands, and none does, with the matrix queue empty and not. -/
theorem witness_NopWaitev :
    let e : Exec := { member with events := 0x21 }
    (one e {} running).live = some (1024, e) ∧ e.guardOn .always = true ∧ e.events &&& 1 ≠ 0 ∧ e.events &&& 0x1E = 0 ∧
    e.mq = [] ∧ ({ e with mq := [default] } : Exec).mq ≠ [] :=
  ⟨live_one _ _ _ rfl, rfl, by decide, by decide, rfl, by decide⟩

/-- A cell with room for the frame, and one whose chunks are all taken, with save area 0 or only area 2 free. -/
theorem witness_Parking :
    let n := (frameBytes ((one member {} running).opDecl member.op) member + 511) / 512
    let full : Cell := { tiles := [(0, { base := 0, count := 1568, state := .priv })] }
    (({} : Cell).topChunks n).isSome = true ∧ full.topChunks n = none ∧
    (one member full running).freeArea 4 = some 0 ∧
    (one member { full with areas := [(0, 0), (1, 1)] } running).freeArea 4 = some 2 := by decide +kernel

/-- A halt of the first of two members, and one of the last with one expression, of the declared length. -/
theorem witness_YieldHalt :
    let e := member
    let s (r : Redex) : State := one e {} { running with redexes := [(64, r)] }
    let r : Redex := { redex with last := 5 }
    let z : Redex := { redex with out := [(0, [0xD000000000000014])], resv := some 1 }
    (s r).live = some (1024, e) ∧ e.mq = [] ∧ (s r).enginesIdle 1024 e = true ∧ (s r).openColl e false = false ∧
    (s r).openColl e true = false ∧ (s r).getRedex e.ctx e.appo = some r ∧ r.halts.length + 1 < State.width r ∧
    (s z).live = some (1024, e) ∧ (s z).getRedex e.ctx e.appo = some z ∧ z.halts.length + 1 = State.width z ∧
    oneExpr (State.result z) = true ∧ ∀ l, z.resv = some l → l.toNat = (State.result z).length := by
  refine ⟨live_one _ _ _ rfl, rfl, by decide, by decide, by decide, rfl, by decide, live_one _ _ _ rfl, rfl, by decide,
    by decide, fun l h => ?_⟩
  cases h; decide

/-- BKEN clear and set; a masked class of a replayable operator, and the trap otherwise; a TMASK written in the cycle of
the fault, which the one before still governs. -/
theorem witness_Traps :
    let x : Ctx := { running with regs := { bken := true, tmask := 4 } }
    (one member {} running).live = some (1024, member) ∧ member.guardOn .always = true ∧
    (one member {} x).getRedex member.ctx member.appo = some redex ∧
    ((one member {} running).getCtx member.ctx).regs.bken = false ∧ ((one member {} x).getCtx member.ctx).regs.bken = true ∧
    ((one member {} x).getCtx member.ctx).state = .running ∧ ((one member {} x).getCtx member.ctx).traps.length < 16 ∧
    (one member {} x).opNR redex.op = false ∧
    (classOf 0x10 (isBuiltin member.op)).masked ((one member {} x).tmaskNow member.ctx) = true ∧ member.wait = .nothing ∧
    member.met = false ∧
    (one member {} { running with regs := { tmask := 0, tmaskOld := 4, tmaskAt := some 0 } }).tmaskNow 0 = 4 :=
  ⟨live_one _ _ _ rfl, rfl, rfl, rfl, rfl, rfl, by decide, by decide, by decide, rfl, rfl, by decide⟩

/-- Fifteen records and sixteen; a record of the same cycle in a higher cell, which the new one comes before, and one of
the same cell, which it follows. -/
theorem witness_TakingTrap :
    let x (n : Nat) : Ctx := { running with traps := List.replicate n default }
    let inOrder (a b : TrapRec) : Prop := a.time.toNat < b.time.toNat ∨ a.time = b.time ∧ a.cell ≤ b.cell
    let t (c : Nat) (m : Word) : TrapRec := { (default : TrapRec) with cell := c, time := m }
    (one member {} (x 15)).getRedex 0 64 = some redex ∧ ((one member {} (x 15)).getCtx 0).state ≠ .evicting ∧
    ((one member {} (x 15)).getCtx 0).traps.length < 16 ∧ 16 ≤ ((one member {} (x 16)).getCtx 0).traps.length ∧
    [t 9 0, t 3 1, t 5 1].Pairwise inOrder ∧
    State.insertTrap { t 4 1 with pos := 7 } [t 9 0, t 3 1, t 5 1] = [t 9 0, t 3 1, { t 4 1 with pos := 7 }, t 5 1] ∧
    State.insertTrap { t 5 1 with pos := 7 } [t 9 0, t 3 1, t 5 1] = [t 9 0, t 3 1, t 5 1, { t 5 1 with pos := 7 }] :=
  ⟨rfl, by decide, by decide, by decide, by decide, by decide, by decide⟩

/-- A redex that a recorded fault discarded, and one that none did. -/
theorem witness_ReleaseFromTrap :
    let d : Redex := { redex with state := .discarded, fate := .trapped 0x10 }
    let s := one member {} { running with state := .trapped, redexes := [(64, d), (96, redex)] }
    s.getRedex 0 64 = some d ∧ d.fate = .trapped 0x10 ∧ s.getRedex 0 96 = some redex ∧ ∀ c, redex.fate ≠ .trapped c :=
  ⟨rfl, rfl, rfl, fun _ h => by simp [redex] at h⟩

/-- The last word of one loop, with another iteration to come and without. -/
theorem witness_BranchesLoopEnd :
    let e : Exec := { member with pc := 3, loops := #v[{ start := 2, last := 3, count := 2, active := true }, {}, {}, {}] }
    (∀ c, ¬((member.getLoop c).active = true ∧ (member.getLoop c).last = member.pc)) ∧
    (e.getLoop 0).active = true ∧ (e.getLoop 0).last = e.pc ∧
    (∀ d, d ≠ 0 → ¬((e.getLoop d).active = true ∧ (e.getLoop d).last = e.pc)) ∧
    (e.getCnt 0).toNat + 1 < (e.getLoop 0).count.toNat ∧
    (e.getLoop 0).count.toNat ≤ ((e.setCnt 0 1).getCnt 0).toNat + 1 := by
  refine ⟨by decide, by decide, by decide, by decide, by decide, by decide⟩

/-- A count of 65,535 and one of 65,536; a false guard; an active loop and one that is not. -/
theorem witness_Loops :
    let e : Exec := { (member.setG 1 0xFFFF).setG 2 0x10000 with loops := #v[{ last := 3, active := true }, {}, {}, {}] }
    (one e {} running).live = some (1024, e) ∧ e.guardOn .always = true ∧ e.guardOn (.ifTrue 0) = false ∧
    (e.getG 1).toNat < 2 ^ 16 ∧ 2 ^ 16 ≤ (e.getG 2).toNat ∧ (e.getLoop 0).active = true ∧ (e.getLoop 1).active = false :=
  ⟨live_one _ _ _ rfl, rfl, rfl, by decide, by decide, rfl, rfl⟩

theorem witness_SpecialRegisters : (0x00D : BitVec 12) ≠ 0x00E ∧ (one member {} running).live = some (1024, member) :=
  ⟨by decide, live_one _ _ _ rfl⟩

/-- The first cell of the row, and the last. -/
theorem witness_SpanRegisters :
    let r : Redex := { redex with first := 0, last := 2047 }
    let e : Exec := { member with rank := 2047 }
    (one e {} { running with redexes := [(64, r)] }).getRedex e.ctx e.appo = some r ∧ r.first ≤ r.last ∧ r.last < 2048 ∧
    e.rank < 2048 := ⟨rfl, by decide, by decide, by decide⟩

theorem witness_ScalarFloat : (one member {} running).live = some (1024, member) := live_one _ _ _ rfl

/-- A quiet and a signalling NaN; one divided by -0; numbers. -/
theorem witness_FloatSpecials : isNanF32 0x7FC00000 = true ∧ isNanF32 0x7F800001 = true ∧
    (0x3F800000 : Lane).extractLsb' 23 8 ≠ 0xFF ∧ (0x3F800000 : Lane) &&& 0x7FFFFFFF ≠ 0 ∧
    (0x80000000 : Lane) &&& 0x7FFFFFFF = 0 ∧ isNanF32 0x7F800000 = false := by decide

theorem witness_FloatClass : (one member {} running).live = some (1024, member) := live_one _ _ _ rfl

theorem witness_VectorLanes : ([.i32, .n32, .i16x2, .n16x2, .i8x4, .n8x4] : List Ty).all Ty.vecInt = true ∧
    (one member {} running).live = some (1024, member) := ⟨rfl, live_one _ _ _ rfl⟩

theorem witness_VectorIntegers : ([.i32, .n32, .i16x2, .n16x2, .i8x4, .n8x4] : List Ty).all Ty.vecInt = true ∧
    (one member {} running).live = some (1024, member) := ⟨rfl, live_one _ _ _ rfl⟩

theorem witness_VectorFloats : elemOf .f32 = .float .f32 ∧ elemOf .bf16x2 = .float .bf16 ∧ elemOf .g8x4 = .float .gf8 ∧
    (one member {} running).live = some (1024, member) := ⟨rfl, rfl, rfl, live_one _ _ _ rfl⟩

/-- A lane whose guard is true and one whose guard is false. -/
theorem witness_VectorCompareConvert : (one member {} running).live = some (1024, member) ∧
    (member.setQ 1 1).guardLane (.ifTrue 1) 0 = true ∧ (member.setQ 1 1).guardLane (.ifTrue 1) 63 = false :=
  ⟨live_one _ _ _ rfl, rfl, rfl⟩

theorem witness_VectorReduce : (one member {} running).live = some (1024, member) ∧
    (member.setQ 1 1).guardLane (.ifTrue 1) 0 = true ∧ (member.setQ 1 1).guardLane (.ifTrue 1) 63 = false :=
  ⟨live_one _ _ _ rfl, rfl, rfl⟩

theorem witness_RegisterFrame : ∃ t f, (Instr.nop .always).isCell = true ∧ (one member {} running).live = some (1024, member) ∧
    (one member {} running).getExec 1024 = some member ∧ exec (.nop .always) (one member {} running) = .next t ∧
    t.getExec 1024 = some f := ⟨_, _, rfl, live_one _ _ _ rfl, rfl, rfl, rfl⟩

/-- No word of a firing stands outside, so that nothing is cancelled. -/
theorem witness_MemoryFrame : ∃ t, (Instr.nop .always).isCell = true ∧ (one member {} running).live = some (1024, member) ∧
    exec (.nop .always) (one member {} running) = .next t ∧ (one member {} running).mem.copyOut = [] :=
  ⟨_, rfl, live_one _ _ _ rfl, rfl, rfl⟩

/-! A cell whose tile 0, of 64 chunks, is the matrix engine's, and a member with a descriptor of it in g2 and g3. -/

def matrixCell : Cell := { tiles := [(0, { base := 0, count := 64, state := .matrix, owner := some 64 })] }

def matrixMember : Exec :=
  ((((member.setG 2 0x100000000).setG 4 0x4040).setG 5 0x101).setG 6 0x40).setG 7 0x400540

/-- Shapes of 64 by 64 and of 1 by 1; a descriptor whose rows the engine's tile holds; sizes of 64, all steps to come,
some done, and no step left; an accumulator of a vector group. -/
theorem witness_MatrixIssue :
    let e := matrixMember
    let s := one e matrixCell running
    let d := Desc.ofPair (e.getG 2) (e.getG 3)
    let f (n : Word) : Exec := { e with fprog := n }
    let last (w : Word) : Nat := if field w 14 8 = 0 then field w 6 0 else field w 14 8
    Issues .always s 1024 e ∧ e.mq.length < 4 ∧
    (1 ≤ field (e.getG 4) 15 8 ∧ field (e.getG 4) 15 8 ≤ 64 ∧ 1 ≤ field (e.getG 4) 7 0 ∧ field (e.getG 4) 7 0 ≤ 64) ∧
    (1 ≤ field (e.getG 5) 15 8 ∧ 1 ≤ field (e.getG 5) 7 0) ∧ field (e.getG 4) 7 0 * elemBytes .f32 ≤ d.pitch ∧ d.rho = 0 ∧
    InMatrixTile s 4 e.ctx (d.runs .f32 0 0 64 0 64) ∧ InMatrixTile s 4 e.ctx [(d.base, 4 * 64)] ∧
    (1 ≤ field (e.getG 6) 6 0 ∧ field (e.getG 6) 6 0 ≤ 64 ∧ field (e.getG 6) 14 8 ≤ field (e.getG 6) 6 0) ∧
    (1 ≤ field (e.getG 7) 22 16 ∧ field (e.getG 7) 22 16 ≤ 64 ∧ field (e.getG 7) 51 32 = 0) ∧
    (field (f 0).fprog 6 0 = 0 ∧ field (f 0).fprog 6 0 < last (e.getG 6)) ∧
    (field (f 0x13F).fprog 11 8 = 0 + 1 ∧ field (f 0x13F).fprog 6 0 < field (e.getG 6) 6 0 ∧
      field (f 0x13F).fprog 6 0 < last (e.getG 6)) ∧
    (field (f 0x105).fprog 11 8 = 0 + 1 ∧ last (e.getG 7) ≤ field (f 0x105).fprog 6 0) := by
  refine ⟨issues_one _ _ _ rfl, by decide, by decide, by decide, by decide, by decide, ⟨by decide, 0, ?_⟩, ⟨by decide, 0, ?_⟩,
    by decide, by decide, by decide, by decide, by decide⟩ <;> decide +kernel

/-- One rank alone, with no collective open; and rank 0 of two, after rank 1 has joined. -/
theorem witness_MmagIssue :
    let e := matrixMember
    let d := Desc.ofPair (e.getG 2) (e.getG 3)
    let s := one e matrixCell running
    let r : Redex := { redex with last := 5 }
    let j : Join :=
      { rank := 1, word := .mmag .always ⟨.f32, .f32, .overwrite, false, 63⟩ 1 0 0 2 2 4, vec := zeroVec, gb := 0x4040 }
    let t := one e matrixCell { running with redexes := [(64, r)], colls := [⟨64, 0, true, [j], false⟩] }
    Issues .always s 1024 e ∧ e.mq.length < 4 ∧ s.getRedex e.ctx e.appo = some redex ∧ redex.halts = [] ∧
    e.rank < 1 ∧ 1 ≤ State.width redex ∧ planesOk .f32 .f32 ((e.getG 4).extractLsb' 16 3) = true ∧
    InMatrixTile s 4 e.ctx (d.runs .f32 0 0 64 0 64) ∧ s.findColl e.ctx e.appo e.mmags true = none ∧
    Issues .always t 1024 e ∧ t.getRedex e.ctx e.appo = some r ∧ 2 ≤ State.width r ∧
    t.findColl e.ctx e.appo e.mmags true = some ⟨64, 0, true, [j], false⟩ ∧ j.gb = e.getG 4 &&& 0x7FFFF := by
  refine ⟨issues_one _ _ _ rfl, by decide, rfl, rfl, by decide, by decide, by decide, ⟨by decide, 0, ?_⟩, by decide,
    issues_one _ _ _ rfl, rfl, by decide, by rfl, by decide⟩
  decide +kernel

/-- The state in which the engine of cell 4 has m at its head. -/
def engineState (m : MatOp) (cell : Cell) : State :=
  { one { matrixMember with mq := [m] } cell running with arg := { cell := 4 } }

theorem head_engineState (m : MatOp) (cell : Cell) :
    (engineState m cell).matHead (engineState m cell).arg.cell.val = some (1024, { matrixMember with mq := [m] }, m) := by
  have h : (engineState m cell).liveOf 4 = some (1024, { matrixMember with mq := [m] }) :=
    live_one { matrixMember with mq := [m] } cell running rfl
  rw [State.matHead, show (engineState m cell).arg.cell.val = 4 from rfl, h]

/-- Every instruction that the engine takes from its head, with no firing in the cell; descriptors of F32 and GF8 without
rotation, and one of BF16 with. -/
theorem witness_MatrixMoves (m : MatOp) :
    (engineState m matrixCell).matHead (engineState m matrixCell).arg.cell.val =
      some (1024, { matrixMember with mq := [m] }, m) ∧
    (∀ i, i < 8 → ((engineState m matrixCell).getTmpl (1024 / 256) i).firing = none) ∧
    (Desc.ofPair 0x100000000 0).rho = 0 ∧ field 0x4040 7 0 * elemBytes .f32 ≤ (Desc.ofPair 0x100000000 0).pitch ∧
    field 0x4040 7 0 * elemBytes .gf8 ≤ (Desc.ofPair 0x40000000 0).pitch ∧
    (Desc.ofPair 0x800000000 0x100000).rho = 1 ∧ (Desc.ofPair 0x800000000 0x100000).pitch % 2048 = 0 ∧
    (Desc.ofPair 0x800000000 0x100000).base % 2048 = 0 ∧
    field 0x4040 7 0 * elemBytes .bf16 ≤ (Desc.ofPair 0x800000000 0x100000).pitch ∧ field 0x400040 6 0 ≤ 64 :=
  ⟨head_engineState _ _, fun i h => by interval_cases i <;> rfl, by decide, by decide, by decide, by decide, by decide,
    by decide, by decide, by decide⟩

/-- A block of an MMA of 64 by 64 by 64 in a window with no cap, and with a cap of 1 that is not reached, where none
waits and where the cell is the first that waits; block 0 with
more to come, and the last. -/
theorem witness_MatrixBlocks :
    let m : MatOp :=
      { pc := 0, instr := .mma .always ⟨.i8, .i8, .overwrite, false, 63⟩ 0 0 (.desc 2) (.desc 2) 4
        ga := 0x100000000, gb := 0x100000000, gc := 0x4040, started := true }
    let s := engineState m matrixCell
    let t : State := { s with gals := #v[{ capNow := 1, waiting := [4] }, {}, {}, {}] }
    s.matHead s.arg.cell.val = some (1024, { matrixMember with mq := [m] }, m) ∧ m.started = true ∧
    (∀ i, i < 8 → (s.getTmpl (1024 / 256) i).firing = none) ∧ (s.getGal 0).win = s.clk.toNat / 1024 ∧
    (s.getGal 0).capNow = 0 ∧ (t.getGal 0).count < (t.getGal 0).capNow ∧ s.arg.bad = false ∧
    (∀ x, (s.getGal 0).waiting.head? = some x → x = 4) ∧ (∀ x, (t.getGal 0).waiting.head? = some x → x = 4) ∧ m.strays = [] ∧
    m.next + 1 < ((63 : Nat) + 32) / 32 ∧ ((63 : Nat) + 32) / 32 ≤ ({ m with next := 1 } : MatOp).next + 1 :=
  ⟨head_engineState _ _, rfl, fun i h => by interval_cases i <;> rfl, by decide, by decide, by decide, rfl,
    fun x h => (by cases h), fun x h => (by cases h; rfl), rfl, by decide, by decide⟩

/-- An MMAG of one rank, whose panels it sends in its first block, and one of two ranks of which the other has yet to
issue it. -/
theorem witness_MatrixBlocks_mmag :
    let m (nb1 : BitVec 3) : MatOp :=
      { pc := 0, instr := .mmag .always ⟨.i8, .i8, .overwrite, false, 63⟩ 0 nb1 0 2 2 4
        ga := 0x100000000, gb := 0x100000000, gc := 0x4040, started := true }
    let j : Join := { rank := 0, word := (m 0).instr, vec := zeroVec, gb := 0x4040 }
    let s (nb1 : BitVec 3) (r : Redex) : State :=
      { one { matrixMember with mq := [m nb1] } matrixCell
          { running with redexes := [(64, r)], colls := [⟨64, 0, true, [j], false⟩] } with arg := { cell := 4 } }
    let e (nb1 : BitVec 3) : Exec := { matrixMember with mq := [m nb1] }
    let two : Redex := { redex with last := 5 }
    (s 0 redex).matHead (s 0 redex).arg.cell.val = some (1024, e 0, m 0) ∧
    (((s 0 redex).sendPanels 1024 (e 0) (m 0) ⟨.i8, .i8, .overwrite, false, 63⟩ 1).ranksPanels (e 0) (m 0) 1
      (mmagRanks 0 0)).isSome = true ∧
    (s 0 redex).joinOf (e 0).ctx (e 0).appo (m 0).mmag (e 0).rank = some j ∧ j.rank = (e 0).rank ∧ j.sent ≤ (m 0).next ∧
    (∀ i, i < 8 → ((s 0 redex).getTmpl (1024 / 256) i).firing = none) ∧ (e 0).rank % 1 = 0 ∧
    (s 1 two).matHead (s 1 two).arg.cell.val = some (1024, e 1, m 1) ∧
    (((s 1 two).sendPanels 1024 (e 1) (m 1) ⟨.i8, .i8, .overwrite, false, 63⟩ 2).ranksPanels (e 1) (m 1) 2
      (mmagRanks 0 1)).isNone = true :=
  ⟨rfl, by decide +kernel, rfl, rfl, by decide, fun i h => by interval_cases i <;> rfl, rfl, rfl, by decide +kernel⟩

/-- The first step of 64 and the last; a diagonal of +0, of a NaN, below zero and above it. -/
theorem witness_FactorSteps :
    let m : MatOp := { pc := 0, instr := .chol .always 0 6, ga := 0x40, started := true }
    let s := engineState m matrixCell
    s.matHead s.arg.cell.val = some (1024, { matrixMember with mq := [m] }, m) ∧ m.started = true ∧ field m.ga 6 0 ≤ 64 ∧
    0 = field matrixMember.fprog 6 0 ∧ 0 < field m.ga 6 0 ∧
    63 = field ({ matrixMember with fprog := 0x23F } : Exec).fprog 6 0 ∧ 63 < field m.ga 6 0 ∧
    melem (matrixMember.getA 0) 0 0 &&& 0x7FFFFFFF = 0 ∧ isNanF32 0x7FC00000 = true ∧ (0xBF800000 : Lane).getLsbD 31 = true ∧
    isNanF32 0x3F800000 = false ∧ (0x3F800000 : Lane) &&& 0x7FFFFFFF ≠ 0 ∧ (0x3F800000 : Lane).getLsbD 31 = false :=
  ⟨head_engineState _ _, rfl, by decide, by decide, by decide, by decide, by decide, by decide, by decide, by decide,
    by decide, by decide, by decide⟩

/-- A LUF with ZC and one without at a zero pivot; a QRH whose column is zero below its head, and one that it is not; a
QAPPLY whose factor is +0 and one whose factor is not, with no bytes of them on their way. -/
theorem witness_FactorSteps_more :
    let at' (i : Instr) (b : List (Nat × Byte)) : State :=
      engineState { pc := 0, instr := i, ga := 0x40, started := true } { matrixCell with scratch := b }
    let x : Mat := vset zeroMat 1 (vset zeroVec 0 0x3F800000)
    (∀ i : Instr, (at' i []).matHead (at' i []).arg.cell.val =
      some (1024, { matrixMember with mq := [{ pc := 0, instr := i, ga := 0x40, started := true }] },
        { pc := 0, instr := i, ga := 0x40, started := true })) ∧
    (∀ i, i < 64 → melem (matrixMember.getA 0) i 0 = 0) ∧ melem x 1 0 &&& 0x7FFFFFFF ≠ 0 ∧
    (at' (.qapply .always true 0 6 1) []).trailing (1024 / 256) [(field 0x40 51 32, 4 * 64)] = false ∧
    leNat ((at' (.qapply .always true 0 6 1) []).getCell 4 |>.scratch.readBytes 0 4) = 0 ∧
    leNat ((at' (.qapply .always true 0 6 1) [(0, 1)]).getCell 4 |>.scratch.readBytes 0 4) = 1 :=
  ⟨fun _ => head_engineState _ _, by decide, by decide, by decide +kernel, by decide +kernel, by decide +kernel⟩

/-- A cell whose tile 0, of 33 chunks, is the member's. -/
def ownCell : Cell := { tiles := [(0, { base := 0, count := 33, state := .priv, owner := some 64, ownx := 0 })] }

theorem scratchOk_own (e : Exec) (a size align : Nat) (w : Bool) (h : a % align = 0) (hs : 0 < size)
    (ha : a + size ≤ 33 * 512) (hc : e.ctx = 0) (ho : e.appo = 64) :
    ScratchOk (one e ownCell running) 1024 e a size align w := by
  refine ⟨h, by omega, 0, ?_, ?_, by rw [hc]; rfl, .inl ⟨rfl, by rw [ho]; rfl⟩⟩
  · have : a / 512 < 33 := by omega
    simp [one, ownCell, State.getCell, Tbl.get, Cell.tileAt, this]
  · have : (a + size - 1) / 512 < 33 := by omega
    simp [one, ownCell, State.getCell, Tbl.get, Cell.tileAt, this]

/-- The first offset, the last that fits, and an odd one. -/
theorem witness_PermutationRegister :
    let e (x : Word) : Exec := member.setG 1 x
    Issues .always (one (e 0) ownCell running) 1024 (e 0) ∧
    ScratchOk (one (e 0) ownCell running) 1024 (e 0) (field ((e 0).getG 1) 19 0) 512 2 false ∧
    ScratchOk (one (e 0x4000) ownCell running) 1024 (e 0x4000) (field ((e 0x4000).getG 1) 19 0) 512 2 true ∧
    field ((e 1).getG 1) 19 0 % 2 = 1 :=
  ⟨issues_one _ _ _ rfl, scratchOk_own _ _ _ _ _ (by decide) (by decide) (by decide) rfl rfl,
    scratchOk_own _ _ _ _ _ (by decide) (by decide) (by decide) rfl rfl, by decide⟩

/-- 512 bytes at the end of the scratchpad, in no tile, and over the end of a tile; in a tile of another context, of
another member, and in one that is shared. -/
theorem witness_PermutationRegister_tiles :
    let t (x : Tile) : Cell := { tiles := [(0, { x with base := 0, count := 33 })] }
    let p : Cell := t { state := .priv, ctx := 1 }
    0xC4000 < field 0xC3E02 19 0 + 512 ∧ ({} : Cell).tileAt 0 = none ∧ ownCell.tileAt (0x4002 + 511) ≠ ownCell.tileAt 0x4002 ∧
    p.tileAt 0 = some 0 ∧ p.tileAt (0 + 511) = some 0 ∧ (p.getTile 0).state ≠ .free ∧ (p.getTile 0).state ≠ .pendfree ∧
    (p.getTile 0).ctx ≠ member.ctx ∧
    (let q := (t { state := .priv, ctx := 0, owner := some 65 }).getTile 0
     q.ctx = member.ctx ∧ q.state = .priv ∧ q.owner ≠ some member.appo) ∧
    (let q := (t { state := .shared, ctx := 0 }).getTile 0
     q.ctx = member.ctx ∧ q.state = .shared) := by decide

/-- Offsets 0 and the last of the tile; an offset that is not aligned; tiles that the access may not use; all 64 lanes of
VLD, VLDS with a stride of 4, and VGATH; a stride that is no multiple of 4. -/
theorem witness_ScratchLoads :
    let e : Exec := (((member.setG 1 16888).setG 2 1).setG 3 4).setQ 1 1
    let s := one e ownCell running
    let z : Mem := ⟨0, 0, 0, 0⟩
    let t (x : Tile) : Cell := { tiles := [(0, { x with base := 0, count := 33 })] }
    s.live = some (1024, e) ∧ e.guardOn .always = true ∧
    ScratchOk s 1024 e (e.ea z).toNat 8 8 false ∧ ScratchOk s 1024 e (e.ea ⟨1, 0, 0, 0⟩).toNat 8 8 false ∧
    (e.ea ⟨2, 0, 0, 0⟩).toNat % 2 ≠ 0 ∧
    (t { state := .priv, ctx := 1 }).tileAt 0 = some 0 ∧ (t { state := .priv, ctx := 1 }).tileAt 7 = some 0 ∧
    ((t { state := .priv, ctx := 1 }).getTile 0).ctx ≠ e.ctx ∧
    ((t { state := .priv, owner := some 65 }).getTile 0).owner ≠ some e.appo ∧
    ((t { state := .matrix, owner := some 64 }).getTile 0).state = .matrix ∧
    (∀ j, j < 64 → ScratchOk s 1024 e (e.ea z + BitVec.ofNat 64 (4 * j)).toNat 4 4 false) ∧
    ((e.getG 3).toNat % 4 = 0 ∧
      ∀ j, j < 64 → ScratchOk s 1024 e (e.ea z + BitVec.ofNat 64 j * e.getG 3).toNat 4 4 false) ∧
    (∀ j, j < 64 → ScratchOk s 1024 e
      (e.getG 0 + ((lane (e.getV 0) j).setWidth 64 <<< 2) + (0 : BitVec 16).signExtend 64).toNat 4 4 false) ∧
    (e.getG 2).toNat % 4 ≠ 0 ∧ e.guardLane (.ifTrue 1) 0 = true ∧ e.guardLane (.ifTrue 1) 63 = false := by
  have h1 : ∀ j, j < 64 → (((((member.setG 1 16888).setG 2 1).setG 3 4).setQ 1 1).ea ⟨0, 0, 0, 0⟩ +
      BitVec.ofNat 64 (4 * j)).toNat = 4 * j := by decide
  have h2 : ∀ j, j < 64 → (((((member.setG 1 16888).setG 2 1).setG 3 4).setQ 1 1).ea ⟨0, 0, 0, 0⟩ +
      BitVec.ofNat 64 j * ((((member.setG 1 16888).setG 2 1).setG 3 4).setQ 1 1).getG 3).toNat = 4 * j := by decide
  have h3 : ∀ j, j < 64 → (((((member.setG 1 16888).setG 2 1).setG 3 4).setQ 1 1).getG 0 +
      ((lane (((((member.setG 1 16888).setG 2 1).setG 3 4).setQ 1 1).getV 0) j).setWidth 64 <<< 2) +
        (0 : BitVec 16).signExtend 64).toNat = 0 := by decide +kernel
  refine ⟨live_one _ _ _ rfl, rfl, scratchOk_own _ _ _ _ _ (by decide) (by decide) (by decide) rfl rfl,
    scratchOk_own _ _ _ _ _ (by decide) (by decide) (by decide) rfl rfl, by decide, by decide, by decide, by decide,
    by decide, by decide, fun j h => ?_, ⟨by decide, fun j h => ?_⟩, fun j h => ?_, by decide, rfl, rfl⟩
  · rw [h1 j h]; exact scratchOk_own _ _ _ _ _ (by omega) (by decide) (by omega) rfl rfl
  · rw [h2 j h]; exact scratchOk_own _ _ _ _ _ (by omega) (by decide) (by omega) rfl rfl
  · rw [h3 j h]; exact scratchOk_own _ _ _ _ _ (by decide) (by decide) (by decide) rfl rfl

/-- The same addresses written; two lanes of VSTS and VSCAT that meet; a lane beside the tile. -/
theorem witness_ScratchStores :
    let e : Exec := (((member.setG 1 16888).setG 2 1).setG 3 4).setQ 1 1
    let s := one e ownCell running
    let z : Mem := ⟨0, 0, 0, 0⟩
    s.live = some (1024, e) ∧ e.guardOn .always = true ∧
    ScratchOk s 1024 e (e.ea z).toNat 8 8 true ∧ ScratchOk s 1024 e (e.ea ⟨1, 0, 0, 0⟩).toNat 8 8 true ∧
    (e.ea ⟨2, 0, 0, 0⟩).toNat % 2 ≠ 0 ∧
    (∀ j, j < 64 → ScratchOk s 1024 e (e.ea z + BitVec.ofNat 64 (4 * j)).toNat 4 4 true) ∧ (e.getG 3).toNat % 4 = 0 ∧
    (e.getG 0).toNat % 4 = 0 ∧ e.ea z + BitVec.ofNat 64 0 * e.getG 0 = e.ea z + BitVec.ofNat 64 63 * e.getG 0 ∧
    e.guardLane .always 2 = true ∧ ¬ScratchOk s 1024 e (e.ea ⟨1, 0, 0, 0⟩ + BitVec.ofNat 64 (4 * 2)).toNat 4 4 true ∧
    ¬ScratchOk s 1024 e (e.ea ⟨2, 0, 0, 0⟩).toNat 8 8 true := by
  have h1 : ∀ j, j < 64 → (((((member.setG 1 16888).setG 2 1).setG 3 4).setQ 1 1).ea ⟨0, 0, 0, 0⟩ +
      BitVec.ofNat 64 (4 * j)).toNat = 4 * j := by decide
  refine ⟨live_one _ _ _ rfl, rfl, scratchOk_own _ _ _ _ _ (by decide) (by decide) (by decide) rfl rfl,
    scratchOk_own _ _ _ _ _ (by decide) (by decide) (by decide) rfl rfl, by decide, fun j h => ?_, by decide, by decide,
    by decide, by decide, fun h => ?_, fun h => absurd h.1 (by decide)⟩
  · rw [h1 j h]; exact scratchOk_own _ _ _ _ _ (by omega) (by decide) (by omega) rfl rfl
  · obtain ⟨-, -, i, h, -⟩ := h
    exact nomatch show (none : Option Nat) = some i from h

/-- A translation of the first 64 KiB of context 0 to physical address 0, writable, of the space given. -/
def mapped (space : Nat) : Trans :=
  { ctx := 0, base := 0, size := 2 ^ 16, pte := BitVec.ofNat 64 (0xC400000000000000 + space * 2 ^ 60) }

def mappedCell (space : Nat) : Cell := { tlb := [mapped space] }

/-- Page tables: the root at 0x1000, whose first entry names the table at 0x2000, whose first entry is a leaf of 1 GiB
with the byte given at its top, and whose second entry is malformed. -/
def pageTables (b : Byte) : MemSys :=
  { hbm := [(0x1001, 0x20), (0x1007, 0x80), (0x2007, b), (0x2008, 1), (0x200F, 0x80)] }

def rooted : Ctx := { running with regs := { ptroot := 0x1000 } }

/-- A word that the redex holds by its address and one that it holds by its place in memory alone, one that is present,
and one that is neither; a home slice that the cell reaches; an address that is not aligned; a deferred read of a full
table; a context that RETIRE has made FREE, in which a word is mapped and another is not, one that is not FREE, and one
that is FREE from reset. -/
theorem witness_HeapAccess :
    let e : Exec := (member.setG 1 0xFFF8).setG 2 4
    let r : Redex := { redex with held := [(0, ⟨7, some 0⟩)] }
    let x : Ctx := { running with redexes := [(64, r)] }
    let s : State := linked { one e (mappedCell 0) x with mem := { State.reset.mem with present := [(0x1FFF, true)] } }
    let p := mapped 0
    let f : Exec := { e with status := .parked, wait := .presence 0xFFF8 true }
    let z : Mem := ⟨0, 0, 0, 0⟩
    Issues .always s 1024 e ∧ s.getRedex e.ctx e.appo = some r ∧
    Mapped s 1024 e (e.ea z) .heap false p ∧ Mapped s 1024 e (e.ea ⟨1, 0, 0, 0⟩) .heap true p ∧ (e.ea z).toNat % 8 = 0 ∧
    Tbl.find r.held ((e.ea z).toNat / 8) = some ⟨7, some 0⟩ ∧ Tbl.find r.held ((e.ea ⟨1, 0, 0, 0⟩).toNat / 8) = none ∧
    s.present (Pte.addr p.pte + (e.ea ⟨1, 0, 0, 0⟩).toNat % p.size) = true ∧
    s.present (Pte.addr p.pte + (e.ea z).toNat % p.size) = false ∧ e.mq = [] ∧
    (∀ h ∈ redex.held, h.1 ≠ 0) ∧ (e.ea ⟨2, 0, 0, 0⟩).toNat % 8 ≠ 0 ∧ (e.ea ⟨2, 0, 0, 0⟩).toNat % 4 = 0 ∧
    ({ s with arg := { id := 1024 }, execs := [(1024, f)] } : State).getExec 1024 = some f ∧ s.present 0xFFF8 = true ∧
    (∀ pa, s.joined (1024 / 256 / 512) (homeSlice s pa / 256) = true) ∧
    (s.getCtx 0).state ≠ .free ∧ (s.getCtx 1).state = .free ∧ (s.getCtx 1).retired = false ∧
    (let mine (q : Redex) (va pa : Nat) (h : Nat × Held) : Prop := h ∈ q.held ∧ (h.1 = va / 8 ∨ ∃ a, h.2.pa = some a ∧ a / 8 = pa / 8)
     mine r (e.ea z).toNat 0 (0, ⟨7, some 0⟩) ∧ mine r 0x10000 0 (0, ⟨7, some 0⟩) ∧
     ∀ h, ¬mine r (e.ea ⟨1, 0, 0, 0⟩).toNat 0xFFF8 h) ∧
    (let f : Ctx := { regs := { ptroot := 0x1000 }, retired := true }
     let u : State := { one member {} f with mem := pageTables 0xC4, arg := { ctx := 0, id := 8 } }
     (u.getCtx u.arg.ctx).state = .free ∧ (u.getCtx u.arg.ctx).retired = true ∧ u.access u.arg.ctx u.arg.id .heap false = .at 8 false ∧
     ∀ at' dir, ({ u with arg := { ctx := 0, id := 0x80000000 } } : State).access 0 0x80000000 .heap false ≠ .at at' dir) := by
  refine ⟨issues_of rfl rfl rfl, rfl, ⟨by decide, by decide, by decide, by decide, by decide⟩,
    ⟨by decide, by decide, by decide, by decide, by decide⟩, by decide, by decide, by decide, by decide, by decide, rfl,
    by decide, by decide, by decide, rfl, by decide, fun _ => joined_linked _ _ _, by decide, rfl, rfl,
    ⟨by decide, by decide, fun h hh => ?_⟩, rfl, rfl, by decide, fun at' dir hh => ?_⟩
  · obtain ⟨hm, hh⟩ := hh
    cases List.mem_singleton.1 hm
    rcases hh with hh | ⟨a, ha, hh⟩
    · exact absurd hh (by decide)
    · cases ha; exact absurd hh (by decide)
  · have : ({ one member {} { regs := { ptroot := 0x1000 }, retired := true } with
        mem := pageTables 0xC4, arg := { ctx := 0, id := 0x80000000 } } : State).access 0 0x80000000 .heap false =
          .missing := by decide
    rw [this] at hh; cases hh

/-- An address that no TLB holds, at the limit and above it, with no walk under way to its region and with one; a walk
that finds a leaf, alone and with another that it is merged with, a malformed entry and no entry, with no entry of the
queue for its region and with one. -/
theorem witness_PageWalks :
    let e : Exec := (member.setG 1 0xFFFFFFFFFFF8).setG 2 0x1000000000000
    let w (va : Word) : Walk := { id := 0, ctx := 0, cell := 4, entry := 0, va := va, want := 0, write := false }
    let s (va : Word) : State := { one e {} rooted with mem := { pageTables 0xC4 with walks := [w va] } }
    let q : FqEntry := { region := 0x8000, space := 0, kind := 1, cell := 4 }
    Issues .always (one e {} running) 1024 e ∧ (e.ea ⟨1, 0, 0, 0⟩).toNat % 8 = 0 ∧ (e.ea ⟨1, 0, 0, 0⟩).toNat < 2 ^ 48 ∧
    (one e {} running).tlbFind 4 e.ctx (e.ea ⟨1, 0, 0, 0⟩).toNat = none ∧ 2 ^ 48 ≤ (e.ea ⟨2, 0, 0, 0⟩).toNat ∧
    ((one e {} running).mem.walks.find? fun x =>
      x.cell / 512 == 0 && x.ctx == e.ctx && x.va.toNat / 2 ^ 16 == 0xFFFFFFFF) = none ∧
    (one e {} running).mem.walks.length < 2048 ∧
    ((s 0).mem.walks.find? fun x => x.cell / 512 == 0 && x.ctx == e.ctx && x.va.toNat / 2 ^ 16 == 0) = some (w 0) ∧
    ((s 0).mem.walks.filter fun x => x.id == (s 0).arg.id) = [w 0] ∧
    (∀ x ∈ ([w 0, { w 8 with cell := 5 }] : List Walk), x.id = 0 ∧ ∃ tr, (s 0).walkNow x.ctx x.va.toNat = .leaf tr) ∧
    (s 0).getExec (256 * (w 0).cell + (w 0).entry) = some e ∧
    (s 0).walkNow 0 0 = .leaf { ctx := 0, base := 0, size := 2 ^ 30, pte := 0xC400000000000000 } ∧
    (s 0x40000000).walkNow 0 0x40000000 = .malformed ∧ (s 0x80000000).walkNow 0 0x80000000 = .missing ∧
    (∀ x ∈ ((s 0x80000000).getCtx 0).fq, x.region ≠ 0x80000000 / 2 ^ 16) ∧
    (∃ x ∈ (({ rooted with fq := [q] } : Ctx)).fq, x.region = 0x80000000 / 2 ^ 16) := by
  refine ⟨issues_one _ _ _ rfl, by decide, by decide, by decide, by decide, rfl, by decide, by decide, by decide,
    fun x h => ?_, rfl, by decide, by decide, by decide, by decide, ⟨_, List.mem_singleton.2 rfl, by decide⟩⟩
  rcases List.mem_pair.1 h with rfl | rfl
  · exact ⟨rfl, { ctx := 0, base := 0, size := 2 ^ 30, pte := 0xC400000000000000 }, by decide⟩
  · exact ⟨rfl, { ctx := 0, base := 0, size := 2 ^ 30, pte := 0xC400000000000000 }, by decide⟩

/-- A replayable operator and a non-replayable one; an aligned address and one that is not; nothing under way, so that a
fence issues, and a firing's line that its part has sent and that is not acknowledged, so that one does not. -/
theorem witness_SystemIssue :
    let e : Exec := { (member.setG 1 4).setG 2 2 with op := 0x0101 }
    let s := one e (mappedCell 1) running
    Issues .always s 1024 e ∧ s.opNR e.op = true ∧ s.opNR member.op = false ∧ (e.ea ⟨0, 0, 0, 0⟩).toNat % 8 = 0 ∧
    (e.ea ⟨1, 0, 0, 0⟩).toNat % 4 = 0 ∧ (e.ea ⟨1, 0, 0, 0⟩).toNat % 8 ≠ 0 ∧ (e.ea ⟨2, 0, 0, 0⟩).toNat % 4 ≠ 0 ∧
    Mapped s 1024 e (e.ea ⟨0, 0, 0, 0⟩) .system true (mapped 1) ∧
    Mapped s 1024 e (e.ea ⟨1, 0, 0, 0⟩) .system false (mapped 1) ∧
    s.canIssue 1024 e (.fenceFull .always .fabric) = true ∧ s.canIssue 1024 e (.nop .always) = true ∧
    (let x : FabMsg := { (default : FabMsg) with cell := 4, ctx := 0, appo := 64, firing := 1 }
     ({ s with fab := { s.fab with sent := [x] } } : State).canIssue 1024 e (.fenceFull .always .fabric) = false) := by
  refine ⟨issues_one _ _ _ rfl, by decide, by decide, by decide, by decide, by decide, by decide,
    ⟨by decide, by decide, by decide, by decide, by decide⟩, ⟨by decide, by decide, by decide, by decide, by decide⟩,
    by decide, by decide, by decide⟩

/-- An access that comes first and reaches its home slice, on a line that is held and on one that is not; the last word
of memory; a fill; a host store that ends memory, of a word that is present and of one that is not. -/
theorem witness_SystemOrder :
    let a : Access := { id := 0, cell := 4, entry := 0, kind := .aadd, pa := 2 ^ 40 - 8, wide := true, data := 1, dest := some 3 }
    let s (l : Tbl Bool) : State := linked { one member {} running with mem := { accs := [a], lines := l } }
    let key := lineKey (s []) a.pa
    let b : Access := { a with accepted := some 7, line := key }
    let f : State := linked { one member {} running with mem := { accs := [b], fills := [key] }, arg := { id := key } }
    let h : State := { one member {} running with arg := { id := 2 ^ 40 - 1, bytes := [1] } }
    let c : Access := { a with kind := .afadd, pa := 2 ^ 40 - 4, wide := false }
    let u (l : Tbl Bool) : State := linked { one member {} running with mem := { accs := [c], lines := l } }
    MemoryInv (s []) ∧ (s []).mem.accs.find? (fun x => x.id == (s []).arg.id) = some a ∧ a.accepted = none ∧
    a.direct = false ∧ (s []).mem.accs.find?
      (fun x => x.cell == a.cell && x.entry == a.entry && x.pa / 8 == a.pa / 8 && x.accepted.isNone) = some a ∧
    a.pa + 8 ≤ 2 ^ 40 ∧ a.pa % 8 = 0 ∧ a.wide = true ∧ a.kind ≠ .store ∧ (∀ m, a.kind ≠ .mask m) ∧
    Tbl.get false (s [(key, true)]).mem.lines (lineKey (s [(key, true)]) a.pa) = true ∧
    Tbl.get false (s []).mem.lines (lineKey (s []) a.pa) = false ∧ a.entry < 256 ∧
    (s []).getExec (256 * a.cell + a.entry) = some member ∧ MemoryInv f ∧ f.arg.id ∈ f.mem.fills ∧ f.mem.accs = [b] ∧
    b.line = f.arg.id ∧ f.joined (b.cell / 512) (homeSlice f b.pa / 256) = true ∧ b.accepted = some 7 ∧ b.dest = some 3 ∧ h.arg.id + h.arg.bytes.length ≤ 2 ^ 40 ∧
    (s []).arg.bad = false ∧ (s []).joined (a.cell / 512) (homeSlice (s []) a.pa / 256) = true ∧
    h.present h.arg.id = false ∧
    ({ h with mem := { present := [((2 ^ 40 - 1) / 8, true)] } } : State).present h.arg.id = true ∧
    MemoryInv (u []) ∧ (u []).mem.accs.find? (fun x => x.id == (u []).arg.id) = some c ∧ c.accepted = none ∧
    (u []).mem.accs.find?
      (fun x => x.cell == c.cell && x.entry == c.entry && x.pa / 8 == c.pa / 8 && x.accepted.isNone) = some c ∧
    c.pa + 4 ≤ 2 ^ 40 ∧ c.pa % 4 = 0 ∧ c.wide = false ∧ c.kind = .afadd ∧
    (u []).joined (c.cell / 512) (homeSlice (u []) c.pa / 256) = true ∧
    Tbl.get false (u [(key, true)]).mem.lines (lineKey (u [(key, true)]) c.pa) = true ∧
    Tbl.get false (u []).mem.lines (lineKey (u []) c.pa) = false := by
  refine ⟨⟨by decide, by decide, by decide⟩, rfl, rfl, rfl, rfl, by decide, by decide, rfl, by decide, fun m h => (by cases h),
    by decide, by decide, by decide, rfl, ⟨by decide, by decide, by decide⟩, by decide, rfl, rfl, joined_linked _ _ _, rfl, rfl, by decide, rfl,
    joined_linked _ _ _, by decide, by decide, ⟨by decide, by decide, by decide⟩, rfl, rfl, rfl, by decide, by decide, rfl,
    rfl, joined_linked _ _ _, by decide, by decide⟩

/-- Tiles of one chunk in every entry. -/
def fullCell : Cell := { tiles := (List.range 256).map fun i => (i, { base := i, count := 1, state := .priv, owner := some 64 }) }

def tileCell (t : Tile) : Cell := { tiles := [(0, { t with base := 0, count := 33 })] }

/-- The lowest free entry and run, and no entry free; a tile of the member, shared ones, pinned and read, and one that is
freed but still read; a seal of the member's tile into mapped pages, of which no word is taken, the last is present, or the
first is held; tiles whose seal is being read, the one in COPY, also read by a firing, and one given on. -/
theorem witness_Tiles :
    let s := one member ownCell running
    let c := s.getCell 4
    let t : Tile := { base := 0, count := 33, state := .priv, owner := some 64, ownx := 0 }
    let m := one member { ownCell with tlb := [mapped 0] } running
    Issues .always s 1024 member ∧
    ((c.getTile 1).state = .free ∧ (∀ l, l < 1 → (c.getTile l).state ≠ .free) ∧ 33 + fmtChunks .f32 ≤ 1568 ∧
      (∀ y, y < fmtChunks .f32 → c.chunkFree (33 + y) = true) ∧ ∀ v, v < 33 → ∃ y, y < fmtChunks .f32 ∧ c.chunkFree (v + y) = false) ∧
    (∀ j, j < 256 → (fullCell.getTile j).state ≠ .free) ∧
    ((c.getTile 0).ctx = member.ctx ∧ (c.getTile 0).state = .priv ∧ (c.getTile 0).owner = some member.appo) ∧
    (c.getTile 0).pin = false ∧ (c.getTile 0).reads = 0 ∧
    (((tileCell { state := .shared, pin := true, reads := 1 }).getTile 0).ctx = member.ctx ∧
      ((tileCell { state := .shared, pin := true, reads := 1 }).getTile 0).state = .shared ∧
      ((tileCell { state := .shared, pin := true, reads := 1 }).getTile 0).pin = true ∧
      ((tileCell { state := .shared, pin := true, reads := 1 }).getTile 0).reads ≠ 0) ∧
    (Issues .always m 1024 member ∧ member.arena = none ∧ m.getRedex member.ctx member.appo = some redex ∧
      ((m.getCtx member.ctx).regs.arena.toNat + 511) / 512 * 512 + 512 * t.count ≤ 2 ^ 40 ∧
      Mapped m 1024 member (BitVec.ofNat 64 0) .heap true (mapped 0) ∧
      Mapped (m.tlbUse 4 (mapped 0)) 1024 member (BitVec.ofNat 64 (512 * t.count - 512)) .heap true (mapped 0)) ∧
    (∀ j, ¬(m.present (8 * j) = true ∨ m.holds 0 64 (8 * j) (8 * j) = true)) ∧
    ({ m with mem := { present := [(2111, true)] } } : State).present (8 * (512 * t.count / 8 - 1)) = true ∧
    (one member {} { running with redexes := [(64, { redex with held := [(0, ⟨7, none⟩)] })] }).holds 0 64 0 0 = true ∧
    ((tileCell { state := .pendfree, reads := 1 }).getTile 0).state = .pendfree ∧
    ((tileCell { state := .copy, working := true, sealing := true }).getTile 0).sealing = true ∧
    ((tileCell { state := .matrix, owner := some 64, sealing := true }).getTile 0).sealing = true := by
  refine ⟨issues_one _ _ _ rfl, ⟨by decide, by decide, by decide, by decide, fun v h => ⟨0, by decide, ?_⟩⟩, ?_, by decide,
    rfl, rfl, by decide, ⟨issues_one _ _ _ rfl, rfl, rfl, by decide, ⟨by decide, by decide, by decide, by decide, by decide⟩,
    ⟨by decide, by decide, by decide, by decide, by decide⟩⟩, fun j h => ?_, by decide, by decide, rfl, rfl, rfl⟩
  · revert v; decide
  · decide +kernel
  · rcases h with h | h
    · exact Bool.false_ne_true h
    · exact Bool.false_ne_true h

/-- Tiles of each state that the words tell apart, and a tile on which the copy engine still works. -/
theorem witness_TileOwnership :
    let t (x : Tile) : Tile := (tileCell x).getTile 0
    let s := one member (tileCell { state := .copy, owner := some 64, working := true }) running
    Issues .always s 1024 member ∧ (t { state := .priv, owner := some 64 }).owner = some member.appo ∧
    (t { state := .priv, owner := some 64 }).ctx = member.ctx ∧ (t { state := .copy, owner := some 64 }).state = .copy ∧
    (t { state := .shared }).state = .shared ∧ ((tileCell {}).getTile 1).state = .free ∧
    (t { state := .priv, ctx := 3 }).ctx ≠ member.ctx ∧
    (t { state := .copy, owner := some 64 }).working = false ∧ s.engineWork 4 0 .copy = false ∧
    (s.getCell 4).tiles.length = 1 ∧ ((s.getCell 4).getTile 0).working = true ∧ member.mq = [] ∧
    s.execs.find? (fun p => p.1 / 256 = 4 && p.2.ctx = 0 && p.2.appo == 64) = some (1024, member) := by
  refine ⟨issues_one _ _ _ rfl, rfl, rfl, rfl, rfl, rfl, by decide, rfl, by decide, rfl, rfl, rfl, ?_⟩
  simp [one, member]

/-- Two tiles, and templates: free, the member's, another's, one whose firing from a shared tile is in flight and one
whose firing has landed. -/
def copyCell (f : Option Firing) : Cell :=
  { tiles := [(0, { base := 0, count := 33, state := .copy, owner := some 64, bitmap := 3 }),
      (1, { base := 33, count := 33, state := .shared })]
    tmpls := #v[{ owner := some (0, 64), src := 1, dst := 0, shape := 0x100000000, firing := f },
      { owner := some (0, 96) }, { owner := some (0, 64), src := 0x5000000000000000, dst := 0, shape := 0x100000000 },
      {}, {}, {}, {}, {}] }

/-- What each clause asks of a template and its firing; a word of the template's firing that is on its way at a CPCAN, and
none. -/
theorem witness_CopyEngine :
    let e := (member.setG 2 3).setG 3 4
    let s := one e (copyCell none) running
    let f : Firing := { num := 1, src := 1, dst := 0, shape := 0x100000000, first := 0, last := 0 }
    let u := one e (copyCell (some f)) running
    let v := one e (copyCell (some { f with landed := 1 })) running
    s.live = some (1024, e) ∧ e.guardOn .always = true ∧ (s.getTmpl 4 0).owner = some (e.ctx, e.appo) ∧
    (s.getTmpl 4 0).firing = none ∧ (s.getTmpl 4 3).owner = none ∧ (s.getTmpl 4 1).owner ≠ none ∧
    (s.getTmpl 4 1).owner ≠ some (e.ctx, e.appo) ∧
    (let x := s.getTmpl 4 0; s.fireCheck 1024 e x.src x.dst x.shape = none ∧ field x.src 63 60 = 0) ∧
    (let w : CopyWord := { (default : CopyWord) with cell := 4, tmpl := 0, num := 1 }
     s.mem.copyOut = [] ∧ (u.getTmpl 4 0).firing = some f ∧ (u.getTmpl 4 0).owner = some (e.ctx, e.appo) ∧
     w ∈ ({ u with mem := { u.mem with copyOut := [w] } } : State).mem.copyOut ∧ w.num = f.num) ∧
    (let x := s.getTmpl 4 2; s.fireCheck 1024 e x.src x.dst x.shape = none ∧ field x.dst 63 60 = 0 ∧
      field x.src 63 60 ≠ 0 ∧ field x.src 63 60 ≠ 3 ∧ field x.shape 39 32 ≠ 0) ∧
    (let t := (s.getCell 4).getTile 0
     t.ctx = e.ctx ∧ t.state ≠ .free ∧ t.state ≠ .pendfree ∧ (e.getG 2).toNat < 2 ^ t.count ∧
     (t.bitmap &&& e.getG 2 == e.getG 2) = true ∧ (t.bitmap &&& e.getG 3 == e.getG 3) = false) ∧
    e.met = false ∧ e.mq = [] ∧ e.getG 0 = 0 ∧ e.getG 2 ≠ 0 ∧
    ((u.getTmpl 4 0).firing = some f ∧ u.tmplOwner 4 (u.getTmpl 4 0) = some (1024, e) ∧ f.landed.getLsbD 0 = false ∧
      f.stalled = [] ∧ field f.dst 63 60 = 0 ∧
      0 < ((u.getCell 4).getTile 1).count ∧ (∃ bs, u.readChunk 4 e f 0 = .bytes bs ∧ bs.length = 512) ∧ ∀ j, j < 8 → (u.getTmpl 4 j).chain = none) ∧
    ((v.getTmpl 4 0).firing = some { f with landed := 1 } ∧ ∀ n, n ≤ 0 → n < 64 → (1 : BitVec 64).getLsbD n = true) ∧
    f.unacked = [] ∧ (v.getTmpl 4 0).pending = [] ∧ e.cpEnds.toNat + 1 < 2 ^ 32 ∧
    (u.arg.bad = false ∧ u.arg.idx = 0 ∧ u.arg.val = 0 ∧ Tbl.get [] f.got 0 = [] ∧ u.chunkOut 4 0 f.num 0 = [] ∧
      u.epJoined e.ctx 4 f.src f.first 0 = true) := by
  refine ⟨live_one _ _ _ rfl, rfl, rfl, rfl, rfl, by decide, by decide, by decide, ⟨rfl, rfl, rfl, List.mem_singleton.2 rfl,
    rfl⟩, by decide, by decide, rfl, rfl, by decide, by decide, ⟨rfl, ?_, by decide, rfl, by decide, by decide, ⟨_, rfl, by decide +kernel⟩, by decide⟩,
    ⟨rfl, fun n h _ => by obtain rfl := Nat.le_zero.1 h; rfl⟩, rfl, rfl, by decide,
    ⟨rfl, rfl, rfl, rfl, by decide, by decide⟩⟩
  rfl

/-- A collective that the member opens, alone and with its word resumed; a rank outside the span; a collective that all
have joined; one message to take, none, and one that arrives; a span of one and the last bit of a mask. -/
theorem witness_Collectives :
    let e := (member.setG 1 1).setG 2 0
    let s := one e {} running
    let j : Join := { rank := 0, word := .tall .always .add .i32 1 2, vec := zeroVec, gb := 0 }
    let x : Coll := ⟨64, 0, false, [j], false⟩
    let t : State := { one e {} { running with colls := [x] } with arg := { ctx := 0, id := 64, idx := 0 } }
    let m : MsgFlight := ⟨0, 64, 0, ⟨0, zeroVec⟩⟩
    let a : State := { one e {} { running with msgs := [m] } with arg := { ctx := 0, id := 0 } }
    let f : Exec := { e with recv := [⟨0, zeroVec⟩] }
    Issues .always s 1024 e ∧ s.getRedex e.ctx e.appo = some redex ∧ e.met = false ∧
    ({ e with met := true } : Exec).met = true ∧ (e.getG 2).toNat < redex.last + 1 - redex.first ∧ e.mq = [] ∧
    t.arg.bad = false ∧ t.spanJoined redex = true ∧ a.joined (a.rankGal 0 64 0) 0 = true ∧ a.arg.bad = false ∧
    redex.halts = [] ∧ s.findColl e.ctx e.appo e.spans false = none ∧ redex.last + 1 - redex.first ≤ (e.getG 1).toNat ∧
    Tbl.sorted t.execs = true ∧ t.findColl 0 64 0 false = some x ∧ t.getRedex 0 64 = some redex ∧
    x.joins.length = redex.last + 1 - redex.first ∧ (t.getCtx 0).state ≠ .evicting ∧ t.arg.val = 0 ∧
    (x.joins.map Join.rank).Nodup ∧ (∀ j ∈ x.joins, (t.memberOf 0 x.appo j.rank).isSome = true) ∧ j ∈ x.joins ∧
    t.memberOf 0 x.appo j.rank = some (1024, e) ∧ (∀ p ∈ [(4095, zeroVec)], p.1 < 4096) ∧
    (s.memberOf e.ctx e.appo 0).isSome = true ∧ e.getG 1 = BitVec.ofNat 64 (2 ^ 0) ∧
    (s.memberOf e.ctx e.appo 63).isSome = false ∧ f.recv = ⟨0, zeroVec⟩ :: [] ∧ e.recv = [] ∧
    ((a.getCtx 0).msgs = [m] ∧ m.id = a.arg.id ∧ a.memberOf 0 m.appo m.dst = some (1024, e) ∧
      (a.getCtx 0).state ≠ .evicting ∧ e.recv.length < 8) := by
  refine ⟨issues_one _ _ _ rfl, rfl, rfl, rfl, by decide, rfl, rfl, by decide, by decide, rfl, rfl, rfl, by decide, rfl, rfl,
    rfl, rfl, by decide, rfl,
    by decide, fun j h => (by rw [List.mem_singleton.1 h]; rfl), List.mem_singleton.2 rfl, ?_, by simp, ?_, by decide,
    ?_, rfl, rfl,
    ⟨rfl, rfl, ?_, by decide, by decide⟩⟩
  all_goals rfl

/-- A slot of the member and none; a symbol that may be emitted and words that may not; a chunk of symbols with room, a
full one and the last symbol of all, with a chunk free and with none; tiles that may be emitted and may not, one of
another context; a length declared and not. -/
theorem witness_SymbolWords :
    let e := (((member.setG 1 1).setG 2 0x1000000000000005).setG 3 2).setG 4 0xE000000000000000
    let x : Ctx := { running with pockets := [(64, 0x6000000000000000), (65, 0x1000000000000005), (68, 0x7000000000000000)] }
    let s := one e ownCell x
    let slots := (s.getCtx e.ctx).pockets.filter fun p => p.1 / 16 = 1024 / 256 && e.appo ≤ p.1 && p.1 ≤ redex.appc
    let out (n : Nat) : List Word := List.replicate n 0x1000000000000005
    Issues .always s 1024 e ∧ s.getRedex e.ctx e.appo = some redex ∧ slots.length = 3 ∧ (e.getG 1).toNat < slots.length ∧
    slots.length ≤ (e.getG 2).toNat ∧ slots[(e.getG 1).toNat]? = some (65, 0x1000000000000005) ∧
    (field (e.getG 2) 63 60 ≠ 0 ∧ field (e.getG 2) 63 60 ≠ 0xE ∧ wellFormedSym (e.getG 2) = true) ∧
    field (e.getG 0) 63 60 = 0 ∧ field (e.getG 4) 63 60 = 0xE ∧ wellFormedSym 0x1001000000000000 = false ∧
    ((out 1).length + 1 ≤ 16384 ∧ (out 1).length % 64 ≠ 0 ∧ (out 63).length % 64 + 1 ≤ 64) ∧
    (Tbl.get [] redex.out e.rank).length % 64 = 0 ∧ (Tbl.get [] redex.out e.rank).length < 16384 ∧
    (((s.getCell 4).topChunks 1).isSome = true) ∧ (out 16384).length = 16384 ∧
    ((s.getCell 4).getTile 0).state = .priv ∧ ((s.getCell 4).getTile 1).state = .free ∧
    ((tileCell { state := .matrix }).getTile 0).state = .matrix ∧ (e.getG 1).toNat + (e.getG 3).toNat ≤ slots.length ∧
    slots.length < (e.getG 3).toNat + (e.getG 3).toNat ∧ 1 ≤ (e.getG 1).toNat ∧ (e.getG 1).toNat ≤ 0xFFFFFFFF ∧
    redex.resv = none ∧ ({ redex with resv := some 1 } : Redex).resv = some 1 ∧ (e.getG 0).toNat = 0 ∧
    0xFFFFFFFF < (e.getG 2).toNat ∧
    (let full : Cell := { tiles := [(0, { base := 0, count := 1568, state := .priv, owner := some 64 })] }
     full.topChunks 1 = none ∧ (full.getTile 0).ctx = e.ctx ∧ (full.getTile 0).state = .priv) ∧
    ((tileCell { state := .priv, ctx := 3 }).getTile 0).ctx ≠ e.ctx := by
  refine ⟨issues_one _ _ _ rfl, rfl, by decide, by decide, by decide, by decide, by decide, by decide, by decide, by decide,
    by simp, by decide, by decide, ?_, List.length_replicate .., by decide, by decide, by decide, by decide, by decide,
    by decide, by decide, rfl, rfl, by decide, by decide, ⟨by decide +kernel, rfl, rfl⟩, by decide⟩
  decide +kernel

/-- A cell whose tile 0 is the route engine's, with a header of 64 rows and 64 columns of F32, and whose tile 1 is the
member's. -/
def routeCell : Cell :=
  { scratch := [(1, 64), (2, 64)]
    tiles := [(0, { base := 0, count := 33, state := .route, owner := some 64 }),
      (1, { base := 33, count := 33, state := .priv, owner := some 64, ownx := 0 })] }

/-- Numbers 0, 63, 64 and 255 of stations; unbound and bound; entries free, all taken, open, complete and of another
route; a station with a row, empty, closed and full; a return that its entry misses, in the last cycle of its timeout; a
timeout that is over. -/
theorem witness_Routing :
    let v : Vec := .replicate 64 0xFF3F
    let e : Exec := { ((member.setG 1 0).setG 2 0x70003).setG 3 0x1000001 with v := vset member.v 2 v }
    let s := one e routeCell running
    let h : Word := BitVec.ofNat 64 (leNat ((s.getCell 4).scratch.readBytes 0 8))
    let st : Station := { appo := 64, cell := 4, state := .opened, cap := 1 }
    let row : InboxRow := ⟨0, zeroVec⟩
    let x (st : Station) : Ctx := { running with stations := [(63, st)] }
    let cell (r : Machine.Rat) : Cell := { routeCell with rat := [(3, { r with owner := 64, tag := 7 })] }
    let full : Cell := { routeCell with rat := (List.range 32).map fun i => (i, { state := .opened }) }
    let fl : RowFlight := { id := 0, station := 63, ticket := 0, vec := some zeroVec, tile := 0, src := 512, bound := some 0 }
    let back : RetFlight := { id := 0, src := 4, ticket := 0x8000E300000000, vec := none }
    let opened : Machine.Rat := { state := .opened, rows := 1, got := [(.missing, .dropped)], tmo := 1 }
    Issues .always s 1024 e ∧
    ((s.getCell 4).getTile 0).ctx = e.ctx ∧ ((s.getCell 4).getTile 0).state = .route ∧ headerBad h = false ∧
    fmtOfCode (field h 4 0) = some .f32 ∧ field h 14 8 = 64 ∧ headerBad 0x4141 = true ∧
    (∀ i, i < 64 → (lane (e.getV 2) i).toNat % 256 = 63 ∧ (lane (e.getV 2) i).toNat / 256 % 256 = 255) ∧
    (64 ≤ (0x40 : Lane).toNat % 256 ∧ (0x40 : Lane).toNat % 256 ≠ 255) ∧
    (s.getRat 4 0).state = .free ∧ ((s.getCell 4).topChunks 32).isSome = true ∧
    (∀ j, j < 32 → ((one e full running).getRat 4 j).state ≠ .free) ∧
    Tbl.find (s.getCtx 0).stations 63 = none ∧ (Tbl.find ((one e routeCell (x st)).getCtx 0).stations 63).isSome = true ∧
    s.trailing 4 [(0, 8)] = false ∧ (st.lastRow = none) ∧
    (let r := (one e (cell { state := .complete }) running).getRat 4 (field (e.getG 2) 4 0)
     r.state = .complete ∧ r.owner = e.appo ∧ r.ctx = e.ctx ∧ r.tag.toNat = field (e.getG 2) 31 16) ∧
    ((one e (cell opened) running).getRat 4 3).state = .opened ∧ (s.getRat 4 3).state = .free ∧
    (let w := (s.getCell 4).getTile ((e.getG 3).toNat % 256)
     w.ctx = e.ctx ∧ w.state = .priv ∧ w.owner = some e.appo ∧ w.fmt = .f32) ∧
    s.stationOf e.ctx e.appo = none ∧ (e.getG 1).getLsbD 8 = false ∧ (0x100 : Word).getLsbD 8 = true ∧
    (one e routeCell (x st)).stationOf e.ctx e.appo = some (63, st) ∧
    field (e.getG 3) 30 24 = 1 ∧ field (e.getG 3) 21 16 < 64 ∧ ({ st with rows := [row] } : Station).rows = row :: [] ∧
    fmtOfCode (field row.ticket 8 4) = some .f32 ∧ Tbl.find e.tickets 0 = none ∧ st.rows = [] ∧ st.quiescent = false ∧
    ({ st with state := .closed } : Station).state = .closed ∧
    1 ≤ field 0x4000 14 8 ∧ field 0x4000 5 0 + field 0x4000 14 8 ≤ 64 ∧
    (s.operator e.op).map OpImage.stcap = some 0 ∧ field (e.getG 1) 15 0 ≤ 0 ∧ st.rows.length ≤ st.cap ∧
    (({ x st with rowsIn := [fl] } : Ctx).rowsIn.find? fun z => z.id == 0) = some fl ∧ fl.vec = some zeroVec ∧
    st.rows.length < st.cap ∧ ({ st with rows := [row] } : Station).cap ≤ ({ st with rows := [row] } : Station).rows.length ∧
    (let t := one e (cell opened) { running with rets := [back] }
     let z := t.getRat (field back.ticket 63 53) (field back.ticket 36 32)
     (t.getCtx 0).rets.find? (fun z => z.id == 0) = some back ∧ z.state = .opened ∧ z.ctx = 0 ∧
     z.tag.toNat = field back.ticket 52 37 ∧ z.choice (field back.ticket 31 26) (field back.ticket 25 25) = .missing ∧
     t.joined (back.src / 512) 0 = true ∧ t.retHeld 0 back = false ∧ t.arg.bad = false ∧
     z.tmo ≠ 0 ∧ ¬(z.issued.toNat + z.tmo < ({ t with clk := 1 } : State).clk.toNat) ∧ z.missing ≠ 0 ∧
     z.issued.toNat + z.tmo < ({ t with clk := 2 } : State).clk.toNat) := by
  refine ⟨issues_one _ _ _ rfl, rfl, rfl, by decide, by decide, by decide, by decide, by decide, by decide, by decide, ?_,
    by decide, by decide, by decide, by decide, by decide, by decide, by decide, by decide, by decide, by decide, by decide,
    by decide, rfl, by decide, by decide, rfl, by decide, by decide, rfl, rfl, rfl, by decide, by decide, by decide,
    by decide, by decide, rfl, rfl, by decide, by decide, ⟨rfl, by decide, by decide, by decide, by decide, by decide,
    by decide, rfl, by decide, by decide, by decide, by decide⟩⟩
  decide +kernel

/-- A row that is to leave, to a bound number and to one that is not, from chunks of its tile and beyond them, and a row of an entry that is no longer OPEN; one
that arrives, first of its cycle, after a row of a lower place and before one of a higher; one whose station has gone; an
entry whose choices have all come, with a row, a DROP and nothing routed; an inbox that has had a row in this cycle. -/
theorem witness_RoutingRows :
    let tk : Word := 0x8000E300000000
    let rat : Machine.Rat := { state := .opened, owner := 64, tag := 7, rows := 1, got := [(.missing, .unrouted)] }
    let cell : Cell := { routeCell with rat := [(3, rat)] }
    let st (l : Option (Word × Nat)) : Station := { appo := 64, cell := 4, state := .opened, cap := 1, lastRow := l }
    let fl (b : Option Nat) (v : Option Vec) : RowFlight :=
      { id := 0, station := 63, ticket := tk, vec := v, tile := 0, src := 512, bound := b, dst := 4 }
    let s (r : RowFlight) (l : List (Nat × Station)) : State :=
      one member cell { running with rowsIn := [r], stations := l }
    let place := ((field tk 63 53 * 65536 + field tk 52 37) * 64 + field tk 31 26) * 2 + field tk 25 25
    let inOrder (x : Station) (n : Word) : Prop := ∀ q, x.lastRow = some q → q.1 = n → q.2 < place
    let full : Machine.Rat := { rat with got := [(.row zeroVec, .dropped)] }
    let done : State := one member { cell with rat := [(3, full)] } running
    (let u := s (fl none none) []
     let z := u.getRat (field tk 63 53) (field tk 36 32)
     z.state = .opened ∧ z.ctx = 0 ∧ z.tag.toNat = field tk 52 37 ∧ fmtOfCode (field tk 8 4) = some .f32 ∧
     u.rowTrails 4 ((u.getCell 4).getTile 0) 512 (elemBytes .f32) = false ∧
     ¬(512 + 64 * elemBytes .f32 ≤ 512 * (((u.getCell 5).getTile 0).base + ((u.getCell 5).getTile 0).count)) ∧ Tbl.find (u.getCtx 0).stations 63 = none ∧
     Tbl.find ((s (fl none none) [(63, st none)]).getCtx 0).stations 63 = some (st none)) ∧
    (let u := s (fl (some 0) (some zeroVec)) [(63, st none)]
     (u.getCtx 0).rowsIn.find? (fun z => z.id == u.arg.id) = some (fl (some 0) (some zeroVec)) ∧ u.arg.bad = false ∧
     (u.getCtx 0).state ≠ .evicting ∧ Tbl.find (u.getCtx 0).stations 63 = some (st none) ∧
     (fl (some 0) none).dst = (st none).cell ∧ u.joined (field tk 63 53 / 512) (4 / 512) = true ∧ u.rowHeld 0 (fl (some 0) (some zeroVec)) 0 = false) ∧
    inOrder (st none) 0 ∧ inOrder (st (some (0, place - 1))) 0 ∧ ¬inOrder (st (some (0, place))) 0 ∧
    inOrder (st (some (0, place))) 1 ∧
    (∀ x, Tbl.find ((s (fl (some 1) (some zeroVec)) [(63, st none)]).getCtx 0).stations 63 = some x → some 1 ≠ some x.id) ∧
    (let u := s (fl (some 1) (some zeroVec)) [(63, st none)]
     (u.getCtx 0).rowsIn.find? (fun z => z.id == u.arg.id) = some (fl (some 1) (some zeroVec)) ∧
     u.joined (field tk 63 53 / 512) (4 / 512) = true ∧ u.rowHeld 0 (fl (some 1) (some zeroVec)) (4 / 512) = false) ∧
    (done.getRat 4 3).state = .opened ∧ (done.getRat 4 3).missing = 0 ∧ done.passTrails 4 (done.getRat 4 3) = false ∧
    full.choice 0 0 = .row zeroVec ∧ full.choice 0 1 = .dropped ∧ rat.choice 0 1 = .unrouted ∧
    (∃ q, (st (some (0, 5))).lastRow = some q ∧ q.1 = (0 : Word)) := by
  refine ⟨⟨by decide, by decide, by decide, by decide, by decide, by decide, by decide, by decide⟩,
    ⟨by decide, by decide, by decide, by decide, by decide, by decide, by decide⟩, fun q h => (by cases h), fun q h _ => ?_,
    fun h => absurd (h _ rfl rfl) (by decide), fun q h g => ?_, fun x h => ?_, ⟨by decide, by decide, by decide⟩, by decide,
    by decide, by decide, by decide, by decide, by decide, ⟨_, rfl, rfl⟩⟩
  · cases h; decide
  · cases h; exact absurd g (by decide)
  · cases h; decide

/-- The part with a non-replayable member whose g0 names the block at address 0, and with some bytes of memory. -/
def syncState (e : Exec) (hbm : Memory) : State :=
  linked { one e { tlb := [mapped 1] } rooted with mem := { State.reset.mem with hbm := hbm } }

theorem reach_sync (e : Exec) (hbm : Memory) (pa : Nat) :
    (syncState e hbm).joined (1024 / 256 / 512) (homeSlice (syncState e hbm) pa / 256) = true := joined_linked _ _ _

def syncMember : Exec := { member with op := 0x0101 }

/-- Page tables as before, whose leaf is a page of system space. -/
def systemTables : Memory := [(0x1001, 0x20), (0x1007, 0x80), (0x2007, 0xD4)]

/-- A block of two members: none has arrived, one has, and the member itself has; a member outside it; no block; a
generation that is over, the one under way, and one half the counter away; record and word of BARQ; the first and the
last arrival at a home block, and one whose page is missing; a release; a higher member that has arrived in this cycle, and one in an earlier cycle. -/
theorem witness_Barriers :
    let e := ((((syncMember.setG 1 1).setG 2 2).setG 3 0xFFFFFFFF).setG 4 0x80000000).setG 5 0x8000000000000007
    let two : Memory := [(4, 2), (7, 0x80)]
    let last : Memory := [(4, 2), (7, 0x80), (12, 1)]
    let has : Memory := [(4, 2), (7, 0x80), (12, 1), (67, 1)]
    let s (m : Memory) : State := syncState e m
    let f : FlitWords := Flit.make 2 Flit.tArrive 0 1 1 0 [0]
    let r : FlitWords := Flit.make 2 Flit.tRelease 0 1 1 0 [0, 0]
    let t (m : Memory) : State := { s (m ++ systemTables) with fab := { State.reset.fab with inbox := [f] } }
    let rel : State := { s [(4, 1), (7, 0xA0), (12, 1)] with
      fab := { State.reset.fab with inbox := [r] }
      mem := { hbm := [(4, 1), (7, 0xA0), (12, 1)], lastArr := [(0, (0, 0))] } }
    Issues .always (s two) 1024 e ∧ (s two).opNR e.op = true ∧ MemoryInv (s two) ∧ (e.getG 0).toNat % 64 = 0 ∧
    Mapped (s two) 1024 e (e.getG 0) .system true (mapped 1) ∧ Mapped (s two) 1024 e (e.getG 0) .system false (mapped 1) ∧
    (s two).openAccs 1024 = [] ∧ (s two).firingsOut 1024 e .fabric = false ∧
    (let w := (s two).unitWord 0 0
     w.getLsbD 63 = true ∧ field w 62 61 = 0 ∧ field w 44 32 = 2 ∧ (e.getG 1).toNat < field w 44 32 ∧
     field w 44 32 ≤ (e.getG 2).toNat) ∧
    ((s two).loadWord 64).getLsbD 24 = false ∧ field ((s two).unitWord 0 1) 44 32 + 1 < 2 ∧
    field ((s last).unitWord 0 1) 44 32 + 1 = 2 ∧ field ((s last).unitWord 0 4) 47 0 = 0 ∧ MemoryInv (s last) ∧
    ((s has).loadWord 64).getLsbD 24 = true ∧ MemoryInv (s has) ∧ e.mq = [] ∧ ((s []).unitWord 0 0).getLsbD 63 = false ∧
    ({ e with met := true } : Exec).met = true ∧ e.met = false ∧
    (let gen : BitVec 32 := ((s two).unitWord 0 1).setWidth 32
     1 ≤ (gen - (e.getG 3).setWidth 32).toNat ∧ (gen - (e.getG 3).setWidth 32).toNat < 2 ^ 31 ∧
     (gen - (e.getG 0).setWidth 32).toNat = 0 ∧ 2 ^ 31 ≤ (gen - (e.getG 4).setWidth 32).toNat) ∧
    (e.getG 5).getLsbD 63 = true ∧ (e.getG 1).getLsbD 63 = false ∧ field (e.getG 1) 12 0 < 2 ∧
    (let x := t [(4, 2), (7, 0xC0)]
     x.fabReady Flit.tArrive x.arrivalReady = some f ∧ x.access (targetCtx f) (targetVa f) .system true = .at 0 false ∧ MemoryInv x ∧
     (x.unitWord 0 0).getLsbD 63 = true ∧ field (x.unitWord 0 0) 62 61 = 2 ∧ (Flit.pay f 0).toNat % 4096 < 2 ∧
     (x.loadWord 64).getLsbD 24 = false ∧ field (x.unitWord 0 1) 44 32 + 1 < field (x.unitWord 0 0) 44 32) ∧
    (let x := t [(4, 1), (7, 0xC0)]
     field (x.unitWord 0 1) 44 32 + 1 = field (x.unitWord 0 0) 44 32 ∧ field (x.unitWord 0 4) 47 0 = 0) ∧
    (let x := t [(7, 0xC0)]
     let y : State := { x with mem := { x.mem with hbm := [] } }
     y.fabReady Flit.tArrive y.arrivalReady = some f ∧ y.access (targetCtx f) (targetVa f) .system true = .missing) ∧
    (rel.fabReady Flit.tRelease (fun f => rel.portJoined f (releaseBlock f)) = some r ∧ field (rel.unitWord 0 0) 62 61 = 1 ∧
      field (rel.unitWord 0 1) 44 32 = field (rel.unitWord 0 0) 44 32 ∧
      (rel.unitWord 0 1).setWidth 32 = (Flit.pay r 1).setWidth 32 ∧ Tbl.find rel.mem.lastArr 0 = some (0, 0)) ∧
    (s two).arrivedAbove 0 1 = false ∧
    (let up (n : Word) : State := { s [(4, 3), (7, 0x80), (12, 1), (83, 1)] with
      mem := { hbm := [(4, 3), (7, 0x80), (12, 1), (83, 1)], lastArr := [(0, (2, 0))], arrivals := [(10, { time := n })] } }
     (up 0).arrivedAbove 0 1 = true ∧ (up 0).arrivedAbove 0 2 = false ∧ (up 1).arrivedAbove 0 1 = false ∧
     MemoryInv (up 0) ∧ field ((up 0).unitWord 0 0) 44 32 = 3) ∧
    (∀ pa, (s two).joined (1024 / 256 / 512) (homeSlice (s two) pa / 256) = true) := by
  refine ⟨issues_of rfl rfl rfl, by decide, ⟨by decide, by decide, by decide⟩, by decide,
    ⟨by decide, by decide, by decide, by decide, by decide⟩, ⟨by decide, by decide, by decide, by decide, by decide⟩,
    by decide, by decide, by decide, by decide, by decide, by decide, by decide, ⟨by decide, by decide, by decide⟩,
    by decide, ⟨by decide, by decide, by decide⟩, rfl, by decide, rfl, rfl, by decide, by decide, by decide, by decide,
    ⟨by decide, by decide, ⟨by decide, by decide, by decide⟩, by decide, by decide, by decide, by decide, by decide⟩,
    by decide, by decide, by decide, by decide,
    ⟨by decide, by decide, by decide, ⟨by decide, by decide, by decide⟩, by decide⟩, fun pa => reach_sync _ _ pa⟩

/-- A range with items and one with none; no range, one in TRANSFER and a proxy; a thief's range that has items and one
that has none, a victim that may be stolen from, one that may not and one in TRANSFER; a range to write and one to end; a
request and a reply. -/
theorem witness_Ranges :
    let e := ((syncMember.setG 2 64).setG 3 0x0000000100010001).setG 4 0x0000000100000000
    let thief : Memory := [(64, 1), (66, 1), (68, 1), (71, 0x80)]
    let s (top : Byte) (m : Memory) : State := syncState e ([(0, 1), (2, 1), (4, 1), (7, top)] ++ m)
    let full := s 0xC0 ([(12, 2)] ++ thief)
    let f : FlitWords := Flit.make 0 Flit.tRangeReq 0 1 1 0 [0]
    let r : FlitWords := Flit.make 2 Flit.tRangeRep 0 1 1 0 [5, 0, 7]
    let t : State := { s 0x80 ([(12, 2)] ++ systemTables) with fab := { State.reset.fab with inbox := [f] } }
    let y : Exec := { e with wait := .reply 5 }
    let x : Ask := { id := 5, exec := some 1024 }
    let u : State := { syncState y [] with fab := { State.reset.fab with inbox := [r], asks := [x] } }
    Issues .always full 1024 e ∧ full.opNR e.op = true ∧ MemoryInv full ∧ (e.getG 0).toNat % 64 = 0 ∧
    full.openAccs 1024 = [] ∧ e.met = false ∧ ({ e with met := true, reply := some (false, 3) } : Exec).reply = some (false, 3) ∧
    Mapped full 1024 e (e.getG 0) .system true (mapped 1) ∧ Mapped full 1024 e (e.getG 0) .system false (mapped 1) ∧
    (let w := full.unitWord 0 0
     w.getLsbD 60 = false ∧ w.getLsbD 61 = false ∧ w.getLsbD 63 = true ∧ field w 47 32 ≠ 0 ∧ field w 23 16 ≠ 0 ∧
     field w 12 0 ≠ 0 ∧ w.getLsbD 62 = true ∧
     field (full.unitWord 0 1) 31 0 < field (full.unitWord 0 1) 63 32 ∧
     2 * field w 47 32 ≤ field (full.unitWord 0 1) 63 32 - field (full.unitWord 0 1) 31 0) ∧
    ((s 0x80 []).unitWord 0 0).getLsbD 62 = false ∧
    field ((s 0x80 []).unitWord 0 1) 63 32 ≤ field ((s 0x80 []).unitWord 0 1) 31 0 ∧ MemoryInv (s 0x80 []) ∧
    ((s 0x40 []).unitWord 0 0).getLsbD 63 = false ∧ ((s 0xA0 []).unitWord 0 0).getLsbD 61 = true ∧
    ((s 0x90 []).unitWord 0 0).getLsbD 60 = true ∧
    ((e.getG 2).toNat % 64 = 0 ∧ e.getG 2 ≠ e.getG 0 ∧ 0 + 64 ≤ (e.getG 2).toNat ∧
      Mapped (full.tlbUse 4 (mapped 1)) 1024 e (e.getG 2) .system true (mapped 1) ∧
      (full.unitWord 64 0).getLsbD 63 = true ∧ (full.unitWord 64 0).getLsbD 60 = false ∧
      (full.unitWord 64 0).getLsbD 61 = false ∧ field (full.unitWord 64 1) 31 0 = field (full.unitWord 64 1) 63 32 ∧
      field ((s 0xC0 (thief ++ [(76, 1)])).unitWord 64 1) 31 0 ≠ field ((s 0xC0 (thief ++ [(76, 1)])).unitWord 64 1) 63 32) ∧
    (field (e.getG 0) 12 0 = 0 ∧ 1 ≤ field (e.getG 3) 12 0 ∧ field (e.getG 3) 47 32 ≠ 0 ∧ field (e.getG 3) 23 16 ≠ 0 ∧
      field (e.getG 0) 31 0 ≤ field (e.getG 0) 63 32 ∧ field (e.getG 2) 63 32 < field (e.getG 2) 31 0 ∧
      4096 < field 0x1FFF 12 0) ∧
    (t.fabReady Flit.tRangeReq t.requestReady = some f ∧ t.access (targetCtx f) (targetVa f) .system true = .at 0 false ∧
      Flit.pay f 0 = 0 ∧ (t.unitWord 0 0).getLsbD 61 = false ∧
      field (t.unitWord 0 1) 31 0 < field (t.unitWord 0 1) 63 32) ∧
    (u.arg.bad = false ∧ u.fabReady Flit.tRangeRep u.replyReady = some r ∧ x.thief = none ∧ x.asker = none ∧
      u.fab.asks.find? (fun z => z.id == (Flit.pay r 0).toNat) = some x ∧ u.getExec 1024 = some y) ∧
    (let v := s 0xA0 thief
     (v.rngWord 0 0).getLsbD 61 = true ∧ (v.rngWord 0 0).getLsbD 63 = true ∧ (v.rngWord 64 0).getLsbD 61 = false ∧
     field (v.rngWord 64 1) 31 0 = field (v.rngWord 64 1) 63 32 ∧ MemoryInv v ∧ 64 + 64 ≤ 2 ^ 40) ∧
    (∀ pa, full.joined (1024 / 256 / 512) (homeSlice full pa / 256) = true) := by
  refine ⟨issues_of rfl rfl rfl, by decide, ⟨by decide, by decide, by decide⟩, by decide, by decide, rfl, rfl,
    ⟨by decide, by decide, by decide, by decide, by decide⟩, ⟨by decide, by decide, by decide, by decide, by decide⟩,
    by decide, by decide, by decide, ⟨by decide, by decide, by decide⟩, by decide, by decide, by decide,
    ⟨by decide, by decide, by decide, ⟨by decide, by decide, by decide, by decide, by decide⟩, by decide, by decide,
      by decide, by decide, by decide⟩, by decide, by decide, ⟨rfl, by decide, rfl, rfl, by decide, rfl⟩,
    ⟨by decide, by decide, by decide, by decide, ⟨by decide, by decide, by decide⟩, by decide⟩, fun pa => reach_sync _ _ pa⟩

/-- Context 0 in a state, with registers, a member and no redex of its own at a walk, an access or an engine. -/
def commandState (st : CtxState) (r : CtxRegs) : State := one member {} { running with state := st, regs := r }

/-- A free command register of a READY part, in each state and with the arguments at their limits; a live member at an
instruction boundary, inside a word, and one whose HALT has issued; a register that is BUSY, to which a soft HOLD, an urgent one and
a code that is not listed come; each command as it ends, with
and without an error; a WAKE of a context that is EVICTING; a RELEASE with a redex whose load it drops, and one that has
none. -/
theorem witness_ContextCommands :
    let s := commandState
    let a (n : Word) : CtxRegs := { arg0 := n }
    let failed : State := { s .held (a 1) with cells := [(4, { failed := true })] }
    let q : FqEntry := { region := 0, space := 0, kind := 1, cell := 4, seq := some 7 }
    let woken := one { member with status := .parked, wait := .page 8 false } {} { running with regs := a 7, fq := [q] }
    let b (code : Byte) : CtxRegs := { busy := true, code := code }
    let rb (n : Word) : State := one member {} { running with regs := b 0xA, cmd0 := n }
    let quiet : State := { s .evicting (b 7) with execs := [], ctxs := #v[{ state := .evicting, regs := b 7 }, {}, {}, {}] }
    (∀ st n, ((s st (a n)).getCtx 0).regs.busy = false ∧ (s st (a n)).dev.state = .ready ∧
      ((s st (a n)).getCtx 0).state = st ∧ ((s st (a n)).getCtx 0).regs.arg0 = n) ∧
    ((0xFFFFFFFE00 : Word).toNat % 512 = 0 ∧ (0xFFFFFFFE00 : Word).toNat < 2 ^ 40) ∧ ((0 : Word).toNat = 0) ∧
    (1 ≤ (15 : Word).toNat ∧ (15 : Word).toNat < 16 ∧ 16 ≤ (16 : Word).toNat) ∧ ((1 : Word).toNat < 2) ∧
    (s .held (a 1)).cellFailed = false ∧ failed.cellFailed = true ∧ (s .running (a 1)).inPass 0 = false ∧
    Tbl.sorted (s .running (a 1)).execs = true ∧ (s .running (a 1)).getExec 1024 = some member ∧ member.ctx = 0 ∧
    member.status = .live ∧ ((s .running (a 15)).getCtx 0).drain = none ∧ ((s .running (a 15)).getCtx 0).ckptAsked = none ∧
    (some 3 : Option (BitVec 4)) ≠ none ∧ (2 : Word).toNat ≤ 2 ∧ (0x3FFFF : Word).toNat < 2 ^ 18 ∧
    ((woken.getCtx 0).fq.find? (fun x => x.seq == some ((woken.getCtx 0).regs.arg0.setWidth 32)) = some q ∧
      woken.getExec 1024 = some { member with status := .parked, wait := .page 8 false } ∧ (8 : Word).toNat / 2 ^ 16 = q.region) ∧
    (∀ x ∈ ((s .running (a 9)).getCtx 0).fq, x.seq ≠ some 9) ∧ (0xFFFFFFFFFFFF : Word).toNat < 2 ^ 48 ∧
    ((0xFC : Word).setWidth 8 : Byte).toNat > 0xB ∧ ((s .held (b 3)).getCtx 0).regs.busy = true ∧
    ((one member {} { running with regs := b 1, pendStatus := 2 }).getCtx 0).pendStatus ≠ 0 ∧
    ((s .running (b 2)).getCtx 0).pendStatus = 0 ∧ (one member {} { running with regs := b 5, cmd0 := 1 }).ctxs.size = 4 ∧
    ((rb 1).readWindow 0 (field ((rb 1).getCtx 0).cmd0 7 0) (field ((rb 1).getCtx 0).cmd0 47 8)).isSome = true ∧
    (rb 0xFF).readWindow 0 (field ((rb 0xFF).getCtx 0).cmd0 7 0) (field ((rb 0xFF).getCtx 0).cmd0 47 8) = none ∧
    (s .loading (b 1)).arg.bad = false ∧ ({ s .loading (b 1) with arg := { bad := true } } : State).arg.bad = true ∧
    (quiet.evictReady 0 = true ∧ (quiet.getCtx 0).drain = none ∧ (quiet.getCtx 0).unplaced = [] ∧
      quiet.cellFailed = false ∧ field (quiet.getCtx 0).cmd1 1 0 ≠ 2) ∧
    quiet.heldStill 0 = true ∧ (s .held (b 3)).heldStill 0 = false ∧
    (member.wait ≠ .engines ∧ member.insideWord = false ∧ ({ member with wait := .engines } : Exec).wait = .engines ∧
      ({ member with wait := .reply 0 } : Exec).insideWord = true ∧ ({ member with met := true } : Exec).insideWord = true) ∧
    (let ev := one member {} { running with state := .evicting, regs := a 7, fq := [q] }
     (ev.getCtx 0).state = .evicting ∧
       (ev.getCtx 0).fq.find? (fun x => x.seq == some ((ev.getCtx 0).regs.arg0.setWidth 32)) = some q) ∧
    ((s .held (b 0xB)).inPass 0 = false ∧ ∀ x ∈ (s .held (b 0xB)).mem.copyOut, x.ctx ≠ 0) ∧
    (let rel := one member {} { running with state := .trapped, redexes := [(64, redex), (96, { redex with state := .loading })] }
     Tbl.sorted (rel.getCtx 0).redexes = true ∧ (rel.getRedex 0 64).map Redex.state = some .running ∧
       (rel.getRedex 0 96).map Redex.state = some .loading ∧ rel.getRedex 0 0 = none) ∧
    (((s .running { b 3 with arg0 := 2 }).getCtx 0).regs.arg0.getLsbD 0 = false ∧
      ((s .running { b 3 with arg0 := 1 }).getCtx 0).regs.arg0.getLsbD 0 = true ∧
      (((s .running (b 3)).arg.val.setWidth 8 : Byte)).toNat = 0) := by
  refine ⟨fun _ _ => ⟨rfl, rfl, rfl, rfl⟩, by decide, rfl, by decide, by decide, by decide, by decide, by decide, rfl, rfl,
    rfl, rfl, rfl, rfl, by decide, by decide, by decide, ⟨rfl, rfl, by decide⟩, fun x h => (by cases h), by decide,
    by decide, rfl, by decide, rfl, rfl, by decide, by decide, rfl, rfl, ⟨by decide, rfl, rfl, by decide, by decide⟩,
    by decide, by decide, ⟨by decide, by decide, rfl, rfl, rfl⟩, ⟨rfl, rfl⟩, ⟨rfl, fun x h => (by cases h)⟩,
    ⟨rfl, rfl, rfl, rfl⟩, ⟨by decide, by decide, rfl⟩⟩

/-- The part with a device in the state given. -/
def deviceState (d : Device) : State := { one member {} rooted with dev := d }

/-- An image of one NOP in host memory at 0, for operator 0x0100. -/
def imageBytes : Memory := [(1, 1), (2, 1), (4, 0x40), (5, 0x20), (6, 0x10), (8, 1), (19, 1)]

/-- Each device state; commands of a READY part, and of one that is BUSY or not READY; a firmware image below 4,096
bytes and one of 4,096, of which the core finds what it finds (DESIGN CHOICE, log 11): exactly one clause applies; a dirty line of the
gigabyte; a heap word that is absent, present and unmapped; an image that registers and one whose number is below 0x100;
every bridge UP, and bridges in TRAINING; a self-test that fails; a power above the limit or below it, as the part draws (DESIGN CHOICE, log 18). -/
theorem witness_DeviceCommands :
    let c (code : Byte) (x y z : Word) : Device := { state := .ready, busy := true, code := code, cmd0 := x, cmd1 := y, cmd2 := z }
    let fw : List Byte := List.replicate 4096 0
    let key := lineKey State.reset 128
    let heap (p : Tbl Bool) (va : Word) : State := { deviceState (c 4 0 va 7) with mem := { pageTables 0xC4 with present := p } }
    let reg (h : Memory) : State := { deviceState (c 2 0 1 24) with mem := { host := h }, ctxs := #v[running, {}, {}, {}] }
    let up : State := { State.reset with links := .replicate 20 { st := .up } }
    ((deviceState { state := .locked, reason := 1 }).dev.busy = false ∧ (1 : Byte) ≠ 8) ∧
    (deviceState { state := .ready }).dev.state ≠ .locked ∧ (deviceState { state := .locked, reason := 8 }).dev.reason = 8 ∧
    (deviceState { state := .ready, busy := true }).dev.busy = true ∧ 6 < (7 : Byte).toNat ∧
    (deviceState { state := .loading }).arg.bad = false ∧ (deviceState { state := .verifying, fw := fw }).dev.state = .verifying ∧
    fw.length = 4096 ∧ ([0] : List Byte).length < 4096 ∧ (Config.firmwareHeaderOk fw = false ∨ Config.firmwareHeaderOk fw = true) ∧
    (lineKey State.reset 128 = key ∧ (List.replicate 128 (7 : Byte)).length = 128 ∧
      key % 2 ^ 33 * 128 / 2 ^ 38 = field 0 1 0 ∧ key % 2 ^ 33 * 128 / 2 ^ 30 % 256 = field 0 9 2) ∧
    (MemoryInv (heap [] 8) ∧ (heap [] 8).access (Fin.ofNat 4 0) 8 .heap true = .at 8 false ∧ (heap [] 8).present 8 = false ∧
      (heap [(1, true)] 8).present 8 = true ∧ (heap [] 0x80000000).access (Fin.ofNat 4 0) 0x80000000 .heap true = .missing ∧
      (0xFFFFFFFFFFF8 : Word).toNat < 2 ^ 48 ∧ (0xFFFFFFFFFFF8 : Word).toNat % 8 = 0 ∧ (3 : Word).toNat < 4) ∧
    ((let o := (reg imageBytes).readOffer 0 24
      ({ reg imageBytes with dev := c 2 0 0 24 } : State).opregFaults o 0 = [] ∧ field o.hdr0 15 0 = 0x100) ∧
      (reg []).opregFaults ((reg []).readOffer 0 24) 1 ≠ []) ∧
    (up.dev.state = .reset ∧ ∀ l, l < 4 → (up.getLink l).st = .up) ∧
    ((State.reset.getLink 0).st = .training ∧ State.reset.arg.bad = false ∧
      ({ State.reset with arg := { bad := true } } : State).arg.bad = true) ∧
    (State.reset.getGal 0).power = 0 ∧ (1 : BitVec 16) ≠ 0 ∧
    (let p := (Config.packagePower 0).toNat; 3000 < p ∨ p < 3000 ∨ p = 3000) ∧
    ({ State.reset with clk := 1024 } : State).clk.toNat / 1024 ≠ (State.reset.getGal 0).win := by
  refine ⟨by decide, by decide, rfl, rfl, by decide, rfl, rfl, List.length_replicate .., by decide, ?_,
    ⟨rfl, List.length_replicate .., by decide, by decide⟩,
    ⟨⟨by decide, by decide, by decide⟩, by decide, by decide, by decide, by decide, by decide, by decide, by decide⟩,
    ⟨⟨by decide, by decide⟩, by decide⟩, ⟨rfl, fun l h => (by interval_cases l <;> rfl)⟩, ⟨rfl, rfl, rfl⟩, rfl, by decide, by omega, by decide⟩
  cases Config.firmwareHeaderOk (List.replicate 4096 0) <;> simp

/-- A register that may be written and one that may not; an invalidation with no access and no copy before it, of a
context with a held word that has its address; a pending entry and a ring with one free place; links that carry traffic
and none; a limiter window that is under way and one that has begun; a reduction group that stands, which a write leaves, and one that is free, with a write of word 0 and of word 1. -/
theorem witness_HostRegisters :
    let q : FqEntry := { region := 0, space := 0, kind := 1, cell := 4 }
    let s := one member (mappedCell 0) { running with regs := { tlbBusy := true, tlbinv := 3, fqCons := 2 }, fq := [q] }
    let up : State := { s with links := .replicate 20 { st := .up } }
    let down : State := { s with links := .replicate 20 { st := .down } }
    let grp : State := { s with fab := { groups := [(0, (0x8000000000000000, 0))] } }
    (s.getCtx 0).state = .running ∧ (s.getCtx 0).state ≠ .free ∧ field 0x1 3 0 ≠ 0 ∧ field 0x10000 3 0 = 0 ∧
    ((s.getCtx 1).state ≠ .running ∧ (s.getCtx 1).state ≠ .loading ∧ (s.getCtx 1).state ≠ .restoring ∧
      (s.getCtx 1).state ≠ .evicting) ∧ (s.getCtx 1).regs.tlbBusy = false ∧ (s.getCtx 0).regs.tlbBusy = true ∧
    (∀ a ∈ s.mem.accs, a.ctx = 0 → a.accepted ≠ none) ∧ field (s.getCtx 0).regs.tlbinv 1 0 = 3 ∧ Tbl.sorted s.cells = true ∧
    (s.getCtx 0).fq.find? (fun x => x.seq.isNone) = some q ∧
    (field (s.getCtx 0).regs.fqProd 7 0 + 1) % 256 ≠ field (s.getCtx 0).regs.fqCons 7 0 ∧
    (∀ l, 4 ≤ l → l < 20 → (down.getLink l).usable = false) ∧ (up.getLink 19).usable = true ∧
    (Tbl.get (0, 0) grp.fab.groups 0).1.getLsbD 63 = true ∧ (Tbl.get (0, 0) grp.fab.groups 63).1.getLsbD 63 = false ∧
    (∀ x ∈ s.mem.copyOut, x.ctx ≠ 0) ∧
    (let r : Redex := { redex with held := [(0, ⟨7, some 0⟩)] }
     Tbl.find r.held 0 = some ⟨7, some 0⟩ ∧ (one member {} { running with redexes := [(64, r)] }).getRedex 0 64 = some r) ∧
    ((0 : Nat) % 4 = 0 ∧ (1 : Nat) % 4 ≠ 0 ∧ (0 : Word).getLsbD 63 = false ∧ (0x8000000000000000 : Word).getLsbD 63 = true) ∧
    ((s.getGal 0).win = s.clk.toNat / 1024 ∧ (s.getGal 0).power = 0 ∧
      (s.getGal 0).win ≠ ({ s with clk := 1024 } : State).clk.toNat / 1024) ∧
    (0x10000 + 0x400 * 3 + 0x68 = 0x10C68) := by
  refine ⟨rfl, by decide, by decide, by decide, by decide, rfl, rfl, fun a h => (by cases h), by decide, rfl, rfl, by decide,
    fun l _ h => (by interval_cases l <;> rfl), rfl, by decide, by decide, fun x h => (by cases h), ⟨rfl, rfl⟩, by decide, ⟨rfl, rfl, by decide⟩, rfl⟩

/-- Context 0 in a phase of its pass, over bridges that are UP; the redex at 64 was HALTED as it began. -/
def passState (ph : Phase) (x : Ctx) : State :=
  linked { one member {} x with execs := [], pass := some { ctx := 0, phase := ph, halted := [64] } }

/-- The row of one application of operator 0x0100 in cell 4: APPO, OP, BOT or INT, APPC. -/
def appRow (arg : Word) : Tbl Word :=
  [(64, 0x5000000000000000), (65, 0x4000010000000000), (66, arg), (67, 0x7000000000000000)]

def innermostRedex : Redex := { redex with state := .innermost, appc := 67, len := 4, serial := none }

/-- A context that asks for a pass over bridges that are UP, one that is HELD and whose request stands, and a bridge that
is DOWN and one in TRAINING; a phase that disagrees, the first two times and the third; a halted redex with room for its
symbols, which halted before the pass, and one that has halted since; a WAIT whose word has come; rows of symbols; an
application with a BOT and one whose code its cell holds; a queue with an entry and none; an urgent context, and the
places at which its cell's execution may stand; chunks of a checkpoint with room, without room, and all written. -/
theorem witness_Passes :
    let a := linked { one member {} { running with request := true } with
      ctxs := #v[{ running with request := true }, { running with state := .held, request := true }, {}, {}] }
    let links (st : LinkSt) : State := { a with links := .replicate 20 { st := st } }
    let bad (n : Nat) : State :=
      { linked (one member {} running) with pass := some { ctx := 0, phase := .tidy, repeats := n }, arg := { bad := true } }
    let halted : Redex := { redex with state := .halted, appc := 67, out := [(0, [0x1000000000000005])] }
    let h := passState .commit { running with redexes := [(64, halted)], pockets := appRow 0x1000000000000001 }
    let w : State := { passState .commit { rooted with redexes := [], pockets := [(5, 0xC000000000000008)] } with
      mem := { hbm := [(8, 5), (15, 0x10), (0x1001, 0x20), (0x1007, 0x80), (0x2007, 0xC4)], present := [(1, true)] } }
    let t := passState .tidy { running with redexes := [], pockets := appRow 0x1000000000000001 }
    let l (arg : Word) : State := { passState .launch
        { running with redexes := [(64, innermostRedex)], pockets := appRow arg, ops := [0x0100] } with
      cells := [(4, { cache := [(0x0100, 0)] })] }
    let q : State := { one { member with status := .queued } {} running with arg := { cell := 4 } }
    let two : State := { q with
      execs := [(1024, member), (1025, { member with ctx := 1, status := .queued })]
      ctxs := #v[running, { running with regs := { urg := true, bp := 1 } }, {}, {}] }
    let d : Drain := { buf := 0, target := 1, addr := 0, fab := 0, chunks := [List.replicate 64 0, List.replicate 64 7], room := 2 }
    let dr (x : Drain) (c : Nat) : State := { one member {} { running with drain := some x } with arg := { id := c } }
    (a.nextServed = some 0 ∧ a.pass = none ∧ (∀ l, l < 4 → (a.getLink l).st ≠ .down ∧ (a.getLink l).st ≠ .training) ∧
      ((links .down).getLink 0).st = .down ∧ ((links .training).getLink 3).st = .training ∧ a.requestStands 1 = true ∧
      (a.getCtx 1).state = .held ∧ a.requestStands 2 = false) ∧
    ((bad 1).pass = some { ctx := 0, phase := .tidy, repeats := 1 } ∧ (bad 1).arg.bad = true ∧
      ((bad 2).getCtx 0).state = .running ∧ ((bad 2).getCtx 0).traps.length < 16) ∧
    ((64 ∈ [64] ∧ 96 ∉ [64]) ∧ Tbl.sorted (h.getCtx 0).redexes = true ∧ h.pass.map Pass.halted = some [64] ∧
      (h.getCtx 0).redexes = [(64, halted)] ∧ halted.state = .halted ∧ halted.held = [] ∧ halted.granted = 0 ∧
      halted.chunks = [] ∧ (h.getCtx 0).ckptAsked = none ∧ halted.op ≠ 0x50 ∧ Tbl.sorted (h.getCtx 0).pockets = true ∧
      (∀ x ∈ appRow 0x1000000000000001, field x.2 63 60 ≠ 0xC) ∧ (halted.out.flatMap fun x => x.2).length ≤ halted.len ∧
      (halted.out.flatMap fun x => x.2).length ≤
        ((h.getCtx 0).pockets.filter fun x => 64 ≤ x.1 && x.1 ≤ halted.appc).length ∧ h.arg.bad = false) ∧
    ((w.getCtx 0).redexes = [] ∧ Tbl.find (w.getCtx 0).pockets 5 = some 0xC000000000000008 ∧ (w.getCtx 0).waitStall = [] ∧
      w.access 0 (field 0xC000000000000008 47 0) .heap false = .at 8 false ∧ w.present 8 = true ∧
      w.loadWord 8 = 0x1000000000000005 ∧ isAtom 0x1000000000000005 = true ∧ wellFormedSym 0x1000000000000005 = true) ∧
    ((∀ x ∈ (t.getCtx 0).pockets, x.1 < 32768 ∧ field x.2 63 60 ≠ 0xE) ∧ (t.getCtx 0).unplaced = [] ∧
      (t.getCtx 0).pockets.length ≤ capacity 0 (0, 32768) ∧ State.innermost (State.rowItems (t.getCtx 0)) = [(64, 67)] ∧
      ∀ x ∈ ([(5, 0x1000000000000001)] : Tbl Word), field x.2 63 60 ≠ 5) ∧
    (let ws := (Row.between (appRow 0xD000000000000014) 64 67).map Prod.snd
     (∀ x ∈ ws, field x 63 60 ≠ 0xC) ∧ ws.find? (fun x => field x 63 60 == 0xD) = some 0xD000000000000014) ∧
    (let s := l 0x1000000000000001
     let ws := (Row.between (s.getCtx 0).pockets 64 67).map Prod.snd
     (s.getCtx 0).redexes = [(64, innermostRedex)] ∧ innermostRedex.state = .innermost ∧ (s.getCtx 0).state = .running ∧
     (∀ x ∈ ws, field x 63 60 ≠ 0xC ∧ field x 63 60 ≠ 0xD) ∧
     s.planOf 0 ws = .ok { op := 0x0100, gang := 1, code := 1 } ∧
     s.heldBack 0 innermostRedex { op := 0x0100, gang := 1, code := 1 } = none ∧ s.members 0 64 = [] ∧
     (∀ x ∈ s.execs, x.2.newCode = false) ∧
     (Tbl.find (s.getCell 4).cache 0x0100).isSome = true) ∧
    (q.liveOf 4 = none ∧ (q.getCell 4).failed = false ∧ q.pick 4 = some (1024, { member with status := .queued }) ∧
      ({ q with execs := [] } : State).pick 4 = none) ∧
    (two.liveOf 4 = some (1024, member) ∧ two.preempts 4 member = true ∧
      (one member {} running).preempts 4 member = false ∧ member.wait ≠ .engines ∧ member.insideWord = false ∧
      ({ member with wait := .reply 0 } : Exec).insideWord = true) ∧ (t.arg.idx = 0 ∧ (2048 : Nat) ≠ 0) ∧
    ((dr d 1).getCtx 0).drain = some d ∧ d.evict = false ∧ 1 < d.chunks.length ∧ d.written.contains 1 = false ∧
    (∀ m ∈ (dr d 1).fab.sent, m.ctx ≠ 0) ∧ ({ d with room := 1 } : Drain).room ≤ 1 ∧ 1 < d.room ∧
    (d.chunks.getD 1 []).length = 64 ∧ d.addr + 512 * 1 + 512 ≤ 2 ^ 64 ∧
    (∀ i, i < 2 → ({ d with written := [0, 1] } : Drain).written.contains i = true) := by
  refine ⟨⟨by decide, rfl, fun l h => (by interval_cases l <;> decide), rfl, rfl, by decide, rfl, by decide⟩,
    ⟨rfl, rfl, rfl, by decide⟩,
    ⟨by decide, rfl, rfl, rfl, rfl, rfl, rfl, rfl, rfl, by decide, by decide, by decide, by decide, by decide, rfl⟩,
    ⟨rfl, by decide, rfl, by decide, by decide, by decide, by decide, by decide⟩,
    ⟨by decide, rfl, ?_, by decide, by decide⟩, ⟨?_, by decide⟩,
    ⟨rfl, rfl, rfl, ?_, by decide, by decide, rfl, fun x h => (by cases h), by decide⟩, ⟨rfl, rfl, rfl, rfl⟩,
    ⟨?_, by decide, by decide, by decide, rfl, rfl⟩, by decide, rfl, rfl,
    by decide, by decide, fun m h => (by cases h), by decide, by decide, by decide, by decide, by decide⟩
  · decide +kernel
  · simp [appRow, Row.between]; decide
  · have h : (Row.between (appRow 0x1000000000000001) 64 67).map Prod.snd =
        [0x5000000000000000, 0x4000010000000000, 0x1000000000000001, 0x7000000000000000] := by decide
    intro x hx
    replace hx : x ∈ (Row.between (appRow 0x1000000000000001) 64 67).map Prod.snd := hx
    rw [h] at hx
    simp only [List.mem_cons, List.not_mem_nil, or_false] at hx
    rcases hx with rfl | rfl | rfl | rfl <;> decide
  · rfl

/-- The part with one flit to act on, page tables for system space, and messages sent. -/
def fabState (f : FlitWords) (sent : List FabMsg) : State :=
  { one member {} rooted with mem := { hbm := systemTables }, fab := { State.reset.fab with inbox := [f], sent := sent } }

/-- The line-write flit that the argument idx picks. -/
def pickedLine (s : State) : Option FlitWords :=
  let now := State.linesNow s.lineReady [] s.fab.inbox
  now[s.arg.idx % now.length]?

/-- A link DOWN, in training, in time and late, and UP; lane counts at the limits; flits that are expected, duplicates,
beyond a gap that has been answered and that has not, and acknowledgements; idle flits with the number expected, with one
beyond a gap and with one before it; a resent flit; lines, also one of which one word alone is written and one whose page is missing, reducing lines and image
parts; messages that are acknowledged, and lost here and in a part in between; flits of another part that are lost and
that are not; a group whose child has a line, with two mismatches and three. -/
theorem witness_LinksFabric :
    let ls (x : Link) : State := { State.reset with links := .replicate 20 x, arg := { link := 4, idx := 4 } }
    let late : State := { ls { st := .training } with clk := 0x1000000 }
    let f (t : Nat) (p : List Word) : FlitWords := Flit.make 0 t 0 1 1 0 p
    let ack : FlitWords := [0, 0x18000]
    let m (w : FlitWords) : FabMsg := { num := 1, dst := 1, vc := 0, words := w }
    let a : FlitWords := f 3 [0, 1, 0]
    let fl (w : FlitWords) : State := { fabState a [m w] with clk := 0x1000000 }
    let between (w : FlitWords) : State := { fabState a [{ m w with link := some 4 }] with arg := { bad := true, idx := 1, id := 1 } }
    let pass : State := { State.reset with clk := 0x1000000, fab := { transit := [(0, f 4 []), (1, f 4 [])] } }
    let waits : Exec := { member with wait := .reply 5 }
    let red : FabMsg := { m (f 2 [0x31]) with firing := 1 }
    let fail : FlitWords := f 9 [0, 1, 2]
    let rs : State := { fabState fail [red] with
      cells := [(0, { tmpls := #v[{ owner := some (0, 64), firing := some { num := 1, src := 0, dst := 0, shape := 0, first := 0, last := 0 } },
        {}, {}, {}, {}, {}, {}, {}] })], execs := [(0, member)] }
    let grp : State := { State.reset with fab := { groups := [(0, (0x8000000000000000, 0x10000))], rfq := [(0, 0, 0, [f 2 [0x31]])] } }
    ((ls { st := .down }).getLink 4).st = .down ∧ ((ls { st := .up }).getLink 4).st ≠ .down ∧ (1 : Word).getLsbD 1 = false ∧
    (1 : Word).getLsbD 0 = true ∧ ((3 : Word).getLsbD 1 = true ∧ (3 : Word).getLsbD 0 = true) ∧
    (((ls { st := .training }).getLink 4).st = .training ∧ ((ls { st := .training }).getLink 4).en = true ∧
      ¬ 2 ^ 24 ≤ (ls { st := .training }).clk.toNat - 0 ∧ 2 ^ 24 ≤ late.clk.toNat - (late.getLink 4).began.toNat) ∧
    (4 ≤ (ls {}).arg.idx ∧ 2 ≤ 2 ∧ 1 < 2) ∧ (((ls { st := .up, lanes := 64 }).getLink 4).usable = true ∧ (4 : Nat) < (64 : Byte).toNat) ∧
    ((ls { st := .retrying, fails := 6 }).getLink 4).fails < 7 ∧ 7 ≤ ((ls { st := .retrying, fails := 7 }).getLink 4).fails ∧
    ((ls { st := .up }).getLink 4).resent = none ∧ ((ls { st := .up }).getLink 4).waiting = [] ∧
    (((ls { st := .up }).getLink 4).nakSent = false ∧ ((ls { st := .up, nakSent := true }).getLink 4).nakSent = true) ∧
    ((∀ x ∈ (ls { st := .up }).fab.sent, x.link ≠ none ∨ x.queued = true ∨ x.dst = (ls { st := .up }).fab.fabid) ∧
      (ls { st := .up }).fab.transit = []) ∧
    ({ resent := some 1 } : Link).resent = some (BitVec.ofNat 16 (Flit.ack ack)) ∧
    (({ retry := [(3, f 1 [0])] } : Link).retry.filter (fun p => !(p.1 != 3 && (3 - p.1).toNat < 2 ^ 15)) ≠ [] ∧
      ({ retry := [(2, f 1 [0])] } : Link).retry.filter (fun p => !(p.1 != 3 && (3 - p.1).toNat < 2 ^ 15)) = []) ∧
    (Flit.ackv (f 1 [0]) = false ∧ Flit.type (f 1 [0]) ≠ 0 ∧ Flit.type (f 1 [0]) < 10 ∧ BitVec.ofNat 16 (Flit.seq (f 1 [0])) = 0 ∧
      (ls { st := .up }).rfTakes 0 (State.unstamp (f 1 [0])) = none ∧ Flit.dst (f 1 [0]) = (ls { st := .up }).fab.fabid.toNat ∧
      Flit.msg (f 1 [0]) ∉ Tbl.get [] (ls { st := .up }).fab.seen (Flit.flow (f 1 [0]))) ∧
    (((1 : BitVec 16) - 0).toNat < 2 ^ 15 ∧ 2 ^ 15 ≤ ((0x8000 : BitVec 16) - 0).toNat) ∧
    (Flit.ackv ack = true ∧ Flit.nak ack = false ∧ Flit.type ack = 0 ∧
      (BitVec.ofNat 16 (Flit.seq ack) : BitVec 16) = ((ls { st := .up }).getLink 4).rxSeq) ∧
    (let idle (n : Word) : FlitWords := [n <<< 48, 0]
     let q (n : Word) : BitVec 16 := BitVec.ofNat 16 (Flit.seq (idle n))
     Flit.ackv (idle 1) = false ∧ Flit.type (idle 1) = 0 ∧ q 1 ≠ 0 ∧ (q 1 - 0).toNat < 2 ^ 15 ∧ q 0xFFFF ≠ 0 ∧
       2 ^ 15 ≤ (q 0xFFFF - 0).toNat) ∧ ({ nak := some 3 } : Link).nak = some 3 ∧
    (MemoryInv (fabState (f 1 [0]) []) ∧ (fabState (f 1 [0]) []).fabNext 1 (fabState (f 1 [0]) []).lineReady = some (f 1 [0]) ∧
      pickedLine (fabState (f 1 [0]) []) = some (f 1 [0]) ∧
      (fabState (f 1 [0]) []).flitLine (f 1 [0]) = .at 0 false ∧ field (Flit.pay (f 1 [0]) 0) 2 0 = 0 ∧
      (fabState (f 1 [0]) []).arg.val = 0 ∧ (fabState (f 1 [0]) []).fab.partly = [] ∧
      (let one : State := { fabState (f 1 [0]) [] with arg := { val := 0x8000 } }
       pickedLine one = some (f 1 [0]) ∧ one.flitLine (f 1 [0]) = .at 0 false ∧
         one.arg.val = BitVec.ofNat 64 (2 ^ 15)) ∧
      (let none : State := { fabState (f 1 [0]) [] with mem := {} }
       MemoryInv none ∧ pickedLine none = some (f 1 [0]) ∧ none.flitLine (f 1 [0]) = .missing)) ∧
    ((fabState (f 2 [0x31]) []).fabNext 2 (fabState (f 2 [0x31]) []).lineReady = some (f 2 [0x31]) ∧ (fabState (f 2 [0x31]) []).flitLine (f 2 [0x31]) = .at 0 false ∧
      field (Flit.pay (f 2 [0x31]) 0) 2 0 = 1 ∧ field (Flit.pay (f 2 [0x31]) 0) 7 4 = 3) ∧
    ((fabState (f 8 []) []).fabNext 8 (fun x => (fabState (f 8 []) []).portJoined x (State.imageAddr x)) = some (f 8 [])) ∧
    ((fabState a [m (f 1 [0])]).fabReady 3 (fabState a [m (f 1 [0])]).ackReady = some a ∧ Flit.type (m (f 1 [0])).words ≠ 8 ∧
      ((fabState a [m (f 1 [0])]).fabDone a).sentMsg (Flit.src a) (Flit.pay a 0).toNat (Flit.pay a 1).toNat = some (m (f 1 [0])) ∧
      (m (f 1 [0])).firing = 0 ∧ red.firing ≠ 0 ∧ red.tmpl < 8 ∧
      ((rs.getTmpl red.cell red.tmpl).firing.map Firing.num) = some red.firing) ∧
    ((fl (f 4 [])).fab.sent = [m (f 4 [])] ∧ (m (f 4 [])).dst ≠ (fl (f 4 [])).fab.fabid ∧
      2 ^ 24 ≤ (fl (f 4 [])).clk.toNat - (m (f 4 [])).since.toNat ∧ (fl (f 4 [])).routable 1 = false ∧
      (fl (f 4 [])).fab.transit = [] ∧ (m (f 4 [])).acks = [] ∧ (fl (f 4 [])).arg.bad = false ∧
      (between (f 4 [])).fab.sent = [{ m (f 4 []) with link := some 4 }] ∧ (between (f 4 [])).arg.bad = true ∧
      (m (f 4 [])).dst.toNat = (between (f 4 [])).arg.idx ∧ (m (f 4 [])).vc = (between (f 4 [])).arg.val.toNat ∧
      (m (f 4 [])).num = (between (f 4 [])).arg.id ∧
      (pass.fab.sent = [] ∧ pass.routable (Flit.dst (f 4 [])) = false ∧ 2 ^ 24 ≤ pass.clk.toNat - (0 : Word).toNat ∧
        ¬ 2 ^ 24 ≤ pass.clk.toNat - (1 : Word).toNat) ∧
      Flit.type (f 4 []) = 4 ∧ Flit.type (f 8 []) = 8 ∧ Flit.type (f 6 []) = 6) ∧
    (({ running with drain := some { buf := 0, target := 2, addr := 0, fab := 1, chunks := [], room := 0 } } : Ctx).drain.map
      Drain.evict) = some false ∧
    ((one waits {} running).getExec 1024 = some waits ∧ waits.wait = .reply 5) ∧
    (rs.fabReady 9 rs.ackReady = some fail ∧ Flit.pay fail 2 ≠ 0 ∧
      ((rs.fabDone fail).fabAck fail none).sentMsg ((Flit.pay fail 2).toNat - 1) (Flit.pay fail 0).toNat (Flit.pay fail 1).toNat = some red ∧
      red.acks = [] ∧ rs.tmplOwner 0 (rs.getTmpl 0 0) = some (0, member)) ∧
    (grp.rfHeads 0 0 (State.rfChildren (Tbl.get (0, 0) grp.fab.groups 0)) = some [f 2 [0x31]] ∧
      ((State.rfChildren (0x8000000000000000, 0x10000)).zip [f 2 [0x31]]).all (fun p => grp.rfJoined (0x8000000000000000, 0x10000) p.1 p.2) = true ∧ (2 : Word).toNat < 3 ∧
      3 ≤ (3 : Word).toNat) := by
  refine ⟨rfl, by decide, by decide, by decide, by decide, ⟨rfl, rfl, by decide, by decide⟩, by decide, ⟨rfl, by decide⟩,
    by decide, by decide, rfl, rfl, ⟨rfl, rfl⟩, ⟨fun x h => (by cases h), rfl⟩, rfl, ⟨by decide, by decide⟩, by decide,
    by decide, ⟨by decide, by decide, by decide, by decide⟩,
    ⟨by decide, by decide, by decide, by decide, by decide, by decide⟩, rfl,
    ⟨⟨by decide, by decide, by decide⟩, by decide, by decide, by decide, by decide, rfl, rfl, ⟨by decide, by decide, by decide⟩,
      ⟨by decide, by decide, by decide⟩, by decide, by decide⟩, by decide, by decide, by decide, by decide, rfl,
    ⟨rfl, rfl⟩, ⟨by decide, by decide, by decide, rfl, rfl⟩, by decide⟩

/-! ### Single steps: the values that the chapters work out -/

/-- The execution of entry 0 of cell 4 after one instruction. -/
def next? (i : Instr) (s : State) : Option State :=
  match exec i s with
  | .next t => some t
  | _ => none

def after (s : State) (i : Instr) : Option Exec := (next? i s).bind fun t => t.getExec 1024

/-- Register d after one instruction of the member. -/
def gAfter (e : Exec) (i : Instr) (d : GReg) : Option Word := (after (one e {} running) i).map (Exec.getG · d)

/-- MLP2 (chapter 26): m of a header, by SHRI and ANDI, and the shape 2 by 64, by SHLI and ORI. -/
theorem test_result_immediates :
    let e := (member.setG 32 0x402010).setG 33 2
    gAfter (member.setG 32 0x400201) (.shri .always 32 32 8) 32 = some 0x4002 ∧
    gAfter (member.setG 32 0x4002) (.andi .always 32 32 0x7F) 32 = some 2 ∧
    gAfter e (.shli .always 30 33 8) 30 = some 0x200 ∧
    gAfter (member.setG 30 0x200) (.ori .always 30 30 0x40) 30 = some 0x240 ∧
    gAfter member (.lih .always 7 0x50000000) 7 = some 0x5000000000000000 := by decide +kernel

/-- R425 (chapter 25): g14 of the three checks, where the immediate is negative. -/
theorem test_result_addi : gAfter (member.setG 14 0x30009) (.addi .always 14 14 (-6)) 14 = some 0x30003 ∧
    gAfter ((member.setG 15 0x10001).setG 9 3) (.mul .always .i64 false 15 9 15) 15 = some 0x30003 := by decide +kernel

/-- R193 and R196: 32-bit results are sign-extended or zero-extended; a divisor of zero, and the one quotient that
overflows. -/
theorem test_result_corners :
    let e := (((member.setG 1 0x7FFFFFFF).setG 2 1).setG 3 0x80000000).setG 4 0xFFFFFFFF
    gAfter e (.add .always .i32 false 5 1 2) 5 = some 0xFFFFFFFF80000000 ∧
    gAfter e (.add .always .n32 false 5 1 2) 5 = some 0x80000000 ∧
    gAfter e (.add .always .i32 true 5 1 2) 5 = some 0x7FFFFFFF ∧
    gAfter e (.div .always .i64 5 1 0) 5 = some (-1) ∧ gAfter e (.rem .always .i64 5 1 0) 5 = some 0x7FFFFFFF ∧
    gAfter e (.div .always .i32 5 3 4) 5 = some 0xFFFFFFFF80000000 ∧ gAfter e (.rem .always .i32 5 3 4) 5 = some 0 := by
  decide +kernel

/-- The conversions to GF8 that chapter 03 works: 1.0, 0.3, 245, 248, -0.0005, -0.0004, minus infinity. -/
theorem test_result_gf8 :
    ([0x3F800000, 0x3E99999A, 0x43750000, 0x43780000, 0xBA03126F, 0xB9D1B717, 0xFF800000] : List Lane).map
        (fun x => ((toGF8 (ofF32 x) .rne).1, (toGF8 (ofF32 x) .rne).2.1)) =
      [(0x40, false), (0x32, false), (0x7F, false), (0x7F, true), (0x81, false), (0x00, false), (0xFF, true)] := by
  decide +kernel

/-- R200: 1 / -0 is minus infinity and raises DZ; the root of -1 is the canonical NaN and raises NV; R201: the class of
a signalling NaN. -/
theorem test_result_float :
    let e := (((member.setG 1 0x3F800000).setG 2 0x80000000).setG 3 0xBF800000).setG 4 0x7F800001
    (after (one e {} running) (.fdiv .always .rne 5 1 2)).map (fun f => (f.getG 5, fpcsrFlags f.fpcsr)) =
      some (0xFF800000, 0b10000) ∧
    (after (one e {} running) (.fsqrt .always .rne 5 3)).map (fun f => (f.getG 5, fpcsrFlags f.fpcsr)) =
      some (0x7FC00000, 0b01000) ∧
    gAfter e (.fclass .always .rne 5 4) 5 = some 0x100 := by decide +kernel

/-- 2^24 and then seven ones (R55, chapter 12): VSCAN gives 2^24 in lane 2 and 2^24 + 2 in lane 3. -/
theorem test_result_scan :
    let v : Vec := Vector.ofFn fun i => if i.val = 0 then 0x4B800000 else if i.val < 8 then 0x3F800000 else 0
    let e : Exec := { member.setQ 1 0xFF with v := vset member.v 2 v }
    (after (one e {} running) (.vscan (.ifTrue 1) .add .f32 3 2)).map
      (fun f => (lane (f.getV 3) 2, lane (f.getV 3) 3)) = some (0x4B800000, 0x4B800001) := by decide +kernel

/-- MLP2: the BF16 words 0xC4FA_C4FA become -2000.0 in every lane; the sum with 1008.0 is -992.0. -/
theorem test_result_bf16 :
    let e : Exec := { member with v := vset (vset member.v 0 (.replicate 64 0xC4FAC4FA)) 1 (.replicate 64 0x447C0000) }
    (after (one e {} running) (.vcvt .always .bf16x2 .f32 .rne false 0 0 0)).map
      (fun f => (lane (f.getV 0) 0, lane (f.getV 0) 63)) = some (0xC4FA0000, 0xC4FA0000) ∧
    (after (one { e with v := vset e.v 0 (.replicate 64 0xC4FA0000) } {} running) (.vadd .always .f32 .rne false 1 1 0)).map
      (fun f => lane (f.getV 1) 63) = some 0xC4780000 := by decide +kernel

/-- MLP2: the descriptor of tx, a BF16 tile at chunk 0, and the symbol of entry 6 of cell 0, here of cell 4. -/
theorem test_result_tiles :
    let c : Cell := { tiles := [(0, { base := 0, count := 17, fmt := .bf16, state := .priv, owner := some 64, ownx := 0 }),
      (6, { base := 102, count := 33, state := .priv, owner := some 64, ownx := 0 })] }
    (after (one (member.setG 13 6) c running) (.tdesc .always 14 13)).map (fun f => (f.getG 14, f.getG 15)) =
      some (0x000000010000CE00, 0x4000) ∧
    (after (one member c running) (.tdesc .always 14 7)).map (fun f => (f.getG 14, f.getG 15)) =
      some (0x0000000080000200, 0x2000) ∧
    (next? (.emitt .always 13) (one (member.setG 13 6) c running)).map (fun t => (t.getRedex 0 64).map Redex.out) =
      some (some [(0, [0x3000000400000006])]) := by decide +kernel

/-- The last word of the body of a loop of 10 words: LOOP at word 1 ends at word 11. -/
theorem test_result_loop :
    (after (one { member.setG 2 1 with pc := 1 } {} running) (.loop .always 0 2 10)).map
      (fun f => (f.pc, (f.getLoop 0).start, (f.getLoop 0).last)) = some (2, 2, 11) := by decide +kernel

/-- TRAP with 0x41 of an execution at word 7 (R110, R207): the context is TRAPPED, and the record holds the cause and the
PC. -/
theorem test_result_trap :
    (next? (.trap .always 0x41) (one { member with pc := 7 } {} running)).map
      (fun t => ((t.getCtx 0).state, (t.getCtx 0).traps.map fun r => (r.cause.toNat, r.pc))) =
      some (.trapped, [(0x41, 7)]) := by decide +kernel

/-- START of a HELD context with the priority in ARG0 (R100): it is RUNNING, and BUSY until CMD_COMPLETE. -/
theorem test_result_start :
    (next? .start { commandState .held { arg0 := 8 } with arg := { ctx := 0 } }).map
      (fun t => ((t.getCtx 0).state, (t.getCtx 0).regs.busy, (t.getCtx 0).regs.bp)) = some (.running, true, 8) := by
  decide +kernel

/-- ROUNDS (chapter 29): a chunk of 4 items of member 2's range, GRAB at item 0x60, in two words. -/
theorem test_result_grab :
    let hbm : Memory := [(0, 4), (2, 0xFF), (4, 4), (7, 0x80), (8, 0x60), (12, 0x90)]
    (next? (.grab .always 5 0) (syncState syncMember hbm)).map
      (fun t => ((t.getExec 1024).map (Exec.getG · 5), t.unitWord 0 1)) =
      some (some 0x6400000060, 0x0000009000000064) := by decide +kernel
end Sys2Proof.Tests
end

/-! SUPPORT. O25: the fields of SPN0, SPN1 and ITER (R91). SPN0 and SPN1 are sums of shifted fields, so each bound that
the span gives keeps one field clear of the next; ITER is an append of counters. -/

namespace Sys2Proof.Proofs

open Sys2Proof Machine

/-! ### The special registers that MFS reads -/

theorem sreg_spn0 {s : State} {e : Exec} {r : Redex} (k : Nat) (h : s.getRedex e.ctx e.appo = some r) :
    s.sreg k e 0x002 = spn0 r := by
  simp [State.sreg, h]

theorem sreg_spn1 {s : State} {e : Exec} {r : Redex} (k : Nat) (h : s.getRedex e.ctx e.appo = some r) :
    s.sreg k e 0x003 = spn1 r e.rank := by
  simp [State.sreg, h]

theorem sreg_iter (s : State) (k : Nat) (e : Exec) : s.sreg k e 0x00D = e.iter := rfl

/-! ### SPN0 and SPN1 of a span within the 2048 cells -/

theorem spn0_toNat {r : Redex} (hspan : r.first ≤ r.last) (hlast : r.last < 2048) :
    (spn0 r).toNat = r.last * 2 ^ 32 + r.first := by
  rw [spn0, BitVec.toNat_ofNat, Nat.mod_eq_of_lt (by omega)]

theorem width_le {r : Redex} (hlast : r.last < 2048) : State.width r ≤ 2048 := by
  unfold State.width; omega

theorem spn1_toNat {r : Redex} {rank : Nat} (hlast : r.last < 2048) (hrank : rank < 2048) :
    (spn1 r rank).toNat =
      min r.elems 0xFFFF * 2 ^ 48 + min r.len 0xFFFF * 2 ^ 32 + State.width r * 2 ^ 16 + rank := by
  have hwidth := width_le hlast
  rw [spn1, BitVec.toNat_ofNat, Nat.mod_eq_of_lt (by omega)]

theorem spn0_fields {r : Redex} (hspan : r.first ≤ r.last) (hlast : r.last < 2048) :
    field (spn0 r) 42 32 = r.last ∧ field (spn0 r) 10 0 = r.first ∧ field (spn0 r) 63 43 = 0 ∧
      field (spn0 r) 31 11 = 0 := by
  simp only [field, spn0_toNat hspan hlast]
  refine ⟨?_, ?_, ?_, ?_⟩ <;> omega

theorem spn1_fields {r : Redex} {rank : Nat} (hlast : r.last < 2048) (hrank : rank < 2048) :
    field (spn1 r rank) 63 48 = min r.elems 0xFFFF ∧ field (spn1 r rank) 47 32 = min r.len 0xFFFF ∧
      field (spn1 r rank) 27 16 = State.width r ∧ field (spn1 r rank) 10 0 = rank ∧
      field (spn1 r rank) 31 28 = 0 ∧ field (spn1 r rank) 15 11 = 0 := by
  have hwidth := width_le hlast
  simp only [field, spn1_toNat hlast hrank]
  refine ⟨?_, ?_, ?_, ?_, ?_, ?_⟩ <;> omega

/-! ### ITER -/

theorem halfwords_of_append (a b c d : BitVec 16) :
    (a ++ b ++ c ++ d).extractLsb' 48 16 = a ∧ (a ++ b ++ c ++ d).extractLsb' 32 16 = b ∧
      (a ++ b ++ c ++ d).extractLsb' 16 16 = c ∧ (a ++ b ++ c ++ d).extractLsb' 0 16 = d := by
  refine ⟨?_, ?_, ?_, BitVec.extractLsb'_append_eq_right⟩
  · rw [BitVec.extractLsb'_append_eq_of_le (by decide), BitVec.extractLsb'_append_eq_of_le (by decide),
      BitVec.extractLsb'_append_eq_left]
  · rw [BitVec.extractLsb'_append_eq_of_le (by decide), BitVec.extractLsb'_append_eq_of_le (by decide),
      BitVec.extractLsb'_append_eq_right]
  · rw [BitVec.extractLsb'_append_eq_of_le (by decide), BitVec.extractLsb'_append_eq_right]

theorem iter_counters (e : Exec) :
    e.iter.extractLsb' 48 16 = e.getCnt 3 ∧ e.iter.extractLsb' 32 16 = e.getCnt 2 ∧
      e.iter.extractLsb' 16 16 = e.getCnt 1 ∧ e.iter.extractLsb' 0 16 = e.getCnt 0 :=
  halfwords_of_append _ _ _ _

/-- Settles O25: each register is a packed word, and no field of it reaches into the next. -/
theorem spanRegisters : Obligations.SpanRegisters := by
  intro s k e r hredex hspan hlast hrank spn0' spn1' iter'
  simp only [spn0', spn1', iter', sreg_spn0 k hredex, sreg_spn1 k hredex, sreg_iter]
  obtain ⟨last, first, above, between⟩ := spn0_fields hspan hlast
  obtain ⟨elems, len, width, rank, gap, gap'⟩ := spn1_fields hlast hrank
  exact ⟨last, first, above, between, elems, len, width, rank, gap, gap', iter_counters e⟩

end Sys2Proof.Proofs

/-! SUPPORT. O28: the class that FCLASS writes (R201). The model tells a signalling NaN from the value of the low 31 bits
and the statement from the exponent and fraction fields, which isNanF32_iff joins. -/

namespace Sys2Proof.Proofs

open Sys2Proof Machine Laws

/-! ### Words that change only their execution's registers -/

/-- An instruction that the model runs as scalar writes the registers, and nothing else, under lane 0 of its guard. -/
theorem writes_of_scalar {g : Guard} {i : Instr} {s : State} {f : Exec → Exec} (h : exec i s = scalar g s f) :
    Writes g i s f :=
  fun _ _ hlive => h.trans (issue_eq _ hlive)

/-! ### The fields of a binary32 -/

theorem exponent_toNat (x : Lane) : (x.extractLsb' 23 8).toNat = x.toNat / 2 ^ 23 % 2 ^ 8 := by
  rw [BitVec.extractLsb'_toNat, Nat.shiftRight_eq_div_pow]

theorem fraction_toNat (x : Lane) : (x.extractLsb' 0 23).toNat = x.toNat % 2 ^ 23 := by
  rw [BitVec.extractLsb'_toNat, Nat.shiftRight_zero]

theorem magnitude_toNat (x : Lane) : (x &&& 0x7FFFFFFF).toNat = x.toNat % 2 ^ 31 := by
  rw [BitVec.toNat_and]
  exact Nat.and_two_pow_sub_one_eq_mod x.toNat 31

/-- A NaN has the exponent of all ones and a fraction other than 0 (R30). -/
theorem isNanF32_iff (x : Lane) :
    isNanF32 x = true ↔ x.extractLsb' 23 8 = 0xFF ∧ x.extractLsb' 0 23 ≠ 0 := by
  have bound := x.isLt
  simp only [isNanF32, magnitude_toNat, decide_eq_true_eq]
  simp only [ne_eq, ← BitVec.toNat_inj, exponent_toNat, fraction_toNat, BitVec.ofNat_eq_ofNat, BitVec.toNat_ofNat]
  omega

/-- A NaN is quiet or signalling by the top bit of its fraction (R32). -/
theorem isSnanF32_of_nan {x : Lane} (hexp : x.extractLsb' 23 8 = 0xFF) (hfrac : x.extractLsb' 0 23 ≠ 0) :
    isSnanF32 x = !(x.extractLsb' 0 23).getLsbD 22 := by
  simp [isSnanF32, (isNanF32_iff x).mpr ⟨hexp, hfrac⟩]

/-! ### The class mask -/

theorem fClass_nan {x : Lane} (hexp : x.extractLsb' 23 8 = 0xFF) (hfrac : x.extractLsb' 0 23 ≠ 0) :
    fClass x = if (x.extractLsb' 0 23).getLsbD 22 then 0x200 else 0x100 := by
  simp only [fClass, hexp, hfrac, isSnanF32_of_nan hexp hfrac]
  cases (x.extractLsb' 0 23).getLsbD 22 <;> rfl

theorem fClass_inf {x : Lane} (hexp : x.extractLsb' 23 8 = 0xFF) (hfrac : x.extractLsb' 0 23 = 0) :
    fClass x = if x.getLsbD 31 then 0x1 else 0x80 := by
  simp only [fClass, hexp, hfrac]
  cases x.getLsbD 31 <;> rfl

theorem fClass_zero {x : Lane} (hexp : x.extractLsb' 23 8 = 0) (hfrac : x.extractLsb' 0 23 = 0) :
    fClass x = if x.getLsbD 31 then 0x8 else 0x10 := by
  simp only [fClass, hexp, hfrac]
  cases x.getLsbD 31 <;> rfl

theorem fClass_denormal {x : Lane} (hexp : x.extractLsb' 23 8 = 0) (hfrac : x.extractLsb' 0 23 ≠ 0) :
    fClass x = if x.getLsbD 31 then 0x4 else 0x20 := by
  simp only [fClass, hexp, hfrac]
  cases x.getLsbD 31 <;> rfl

theorem fClass_normal {x : Lane} (hmax : x.extractLsb' 23 8 ≠ 0xFF) (hexp : x.extractLsb' 23 8 ≠ 0) :
    fClass x = if x.getLsbD 31 then 0x2 else 0x40 := by
  simp only [fClass, hmax, hexp]
  cases x.getLsbD 31 <;> rfl

/-- Settles O28: the five kinds of value, each with its two bits, make up the table of R201. -/
theorem floatClass : Obligations.FloatClass := by
  intro g rm d a s
  refine writes_of_scalar (congrArg (scalar g s) (funext fun e => congrArg (e.setG d) ?_))
  generalize (e.getG a).setWidth 32 = x
  by_cases hmax : x.extractLsb' 23 8 = 0xFF
  · by_cases hfrac : x.extractLsb' 0 23 = 0
    · simp only [fClass_inf hmax hfrac, hmax, hfrac, ne_eq, not_true_eq_false, and_false, if_true, if_false]
    · simp only [fClass_nan hmax hfrac, hmax, hfrac, ne_eq, not_false_eq_true, and_self, if_true]
  · simp only [hmax, false_and, if_false]
    by_cases hexp : x.extractLsb' 23 8 = 0
    · by_cases hfrac : x.extractLsb' 0 23 = 0
      · simp only [fClass_zero hexp hfrac, hexp, hfrac, and_self, if_true]
      · simp only [fClass_denormal hexp hfrac, hexp, hfrac, and_false, if_true, if_false]
    · simp only [fClass_normal hmax hexp, hexp, false_and, if_false]

end Sys2Proof.Proofs

/-! SUPPORT. O13: the borderline cases of scalar division (R196). The statement reads an operand by valueOf and wide1, the
model by intOf and extend; once the two are joined, each case is one value of divTrunc. -/

namespace Sys2Proof.Proofs

open Sys2Proof Machine Laws

/-! ### The types of the scalar integer unit (R193, R195) -/

theorem scalarInt_cases {ty : Ty} (h : ty.scalarInt = true) : ty = .i64 ∨ ty = .i32 ∨ ty = .n32 := by
  cases ty <;> simp_all [Ty.scalarInt]

theorem scalarSigned_cases {ty : Ty} (h : ty.scalarSigned = true) : ty = .i64 ∨ ty = .i32 := by
  cases ty <;> simp_all [Ty.scalarSigned]

theorem scalarUnsigned_cases {ty : Ty} (h : ty.scalarUnsigned = true) : ty = .i64 ∨ ty = .n32 := by
  cases ty <;> simp_all [Ty.scalarUnsigned]

theorem scalarInt_of_signed {ty : Ty} (h : ty.scalarSigned = true) : ty.scalarInt = true := by
  obtain rfl | rfl := scalarSigned_cases h <;> rfl

theorem scalarInt_of_unsigned {ty : Ty} (h : ty.scalarUnsigned = true) : ty.scalarInt = true := by
  obtain rfl | rfl := scalarUnsigned_cases h <;> rfl

/-! ### The value of an operand, and the extension of a result (R193, R194) -/

theorem intOf_unsigned (w x : Nat) : intOf false w x = (x % 2 ^ w : Nat) := by simp [intOf]

theorem intOf_signed {w : Nat} (hw : 0 < w) (x : Nat) : intOf true w x = (BitVec.ofNat w x).toInt := by
  obtain ⟨v, rfl⟩ : ∃ v, w = v + 1 := ⟨w - 1, by omega⟩
  have hpow := Nat.pow_succ 2 v
  simp only [intOf, Bool.true_and, decide_eq_true_eq, BitVec.toInt_eq_toNat_cond, BitVec.toNat_ofNat,
    Nat.add_sub_cancel]
  split <;> split <;> omega

theorem intOf_mod (signed : Bool) (w x : Nat) : intOf signed w (x % 2 ^ w) = intOf signed w x := by
  simp [intOf]

theorem extend_mod (ty : Ty) (x : Nat) : extend ty (x % 2 ^ scalarWidth ty) = extend ty x := by
  rw [extend, intOf_mod, extend]

/-- The value that TY reads, in the model's terms. -/
theorem intOf_eq_valueOf {ty : Ty} (hty : ty.scalarInt = true) (x : Word) :
    intOf (scalarSigned ty) (scalarWidth ty) x.toNat = valueOf ty x := by
  obtain rfl | rfl | rfl := scalarInt_cases hty
  · exact (intOf_signed (by decide) _).trans (by simp [valueOf, scalarWidth])
  · exact (intOf_signed (by decide) _).trans (by simp [valueOf, scalarWidth])
  · exact (intOf_unsigned _ _).trans (by simp [valueOf, scalarWidth])

theorem intOf_true_eq_valueOf {ty : Ty} (hty : ty.scalarSigned = true) (x : Word) :
    intOf true (scalarWidth ty) x.toNat = valueOf ty x := by
  rw [← intOf_eq_valueOf (scalarInt_of_signed hty)]
  obtain rfl | rfl := scalarSigned_cases hty <;> rfl

theorem intOf_false_eq_wide1 {ty : Ty} (hty : ty.scalarUnsigned = true) (x : Word) :
    intOf false (scalarWidth ty) x.toNat = (wide1 ty (fun _ x => x) x).toNat := by
  rw [intOf_unsigned]
  obtain rfl | rfl := scalarUnsigned_cases hty
  · simp only [wide1, scalarWidth]; omega
  · simp only [wide1, scalarWidth, BitVec.toNat_setWidth]; omega

theorem extend_toNat_eq_ofInt {ty : Ty} (hty : ty.scalarInt = true) (x : Word) :
    extend ty x.toNat = BitVec.ofInt 64 (valueOf ty x) := by
  rw [extend, intOf_eq_valueOf hty]

theorem extend_toNat_eq_wide1 {ty : Ty} (hty : ty.scalarInt = true) (x : Word) :
    extend ty x.toNat = wide1 ty (fun _ x => x) x := by
  rw [extend_toNat_eq_ofInt hty]
  obtain rfl | rfl | rfl := scalarInt_cases hty
  · exact BitVec.ofInt_toInt
  · rfl
  · apply BitVec.eq_of_toNat_eq
    simp only [valueOf, wide1, BitVec.toNat_ofInt, BitVec.toNat_setWidth]
    omega

theorem leastOf_eq {ty : Ty} (hty : ty.scalarSigned = true) : leastOf ty = -2 ^ (scalarWidth ty - 1) := by
  obtain rfl | rfl := scalarSigned_cases hty <;> rfl

theorem extend_least {ty : Ty} (hty : ty.scalarSigned = true) :
    extend ty (2 ^ (scalarWidth ty - 1)) = BitVec.ofInt 64 (leastOf ty) := by
  obtain rfl | rfl := scalarSigned_cases hty <;> decide

theorem extend_zero {ty : Ty} (hty : ty.scalarInt = true) : extend ty 0 = 0 := by
  obtain rfl | rfl | rfl := scalarInt_cases hty <;> decide

theorem extend_allOnes_signed {ty : Ty} (hty : ty.scalarSigned = true) :
    extend ty (2 ^ scalarWidth ty - 1) = -1 := by
  obtain rfl | rfl := scalarSigned_cases hty <;> decide

theorem extend_allOnes_unsigned {ty : Ty} (hty : ty.scalarUnsigned = true) :
    extend ty (2 ^ scalarWidth ty - 1) = wide1 ty (fun w _ => BitVec.allOnes w) 0 := by
  obtain rfl | rfl := scalarUnsigned_cases hty <;> decide

/-! ### Division in w bits -/

theorem divTrunc_by_zero {signed : Bool} {w y : Nat} (x : Nat) (hy : intOf signed w y = 0) :
    divTrunc signed w x y = (2 ^ w - 1, x % 2 ^ w) := by
  simp [divTrunc, hy]

theorem bitsOf_of_lt {w n : Nat} (h : n < 2 ^ w) : bitsOf w n = n := by
  rw [bitsOf, ← Int.natCast_emod, Int.toNat_natCast, Nat.mod_eq_of_lt h]

/-- The one quotient that w bits do not hold wraps to its dividend. -/
theorem divTrunc_least_by_neg_one {w x y : Nat} (hw : 0 < w) (hx : intOf true w x = -2 ^ (w - 1))
    (hy : intOf true w y = -1) : divTrunc true w x y = (2 ^ (w - 1), 0) := by
  have hquot : Int.tdiv (-2 ^ (w - 1)) (-1) = (2 ^ (w - 1) : Nat) := by simp
  have hrem : Int.tmod (-2 ^ (w - 1)) (-1) = (0 : Nat) := by simp
  simp only [divTrunc, hx, hy, hquot, hrem]
  rw [if_neg (by decide), bitsOf_of_lt (Nat.pow_lt_pow_right (by decide) (by omega)), bitsOf_of_lt (Nat.two_pow_pos w)]

/-! ### The four instructions -/

/-- What DIV and REM, or DIVU and REMU, deliver to gD from gA and gB. -/
def quotient (signed : Bool) (ty : Ty) (x y : Word) : Word :=
  extend ty (divTrunc signed (scalarWidth ty) x.toNat y.toNat).1

def remainder (signed : Bool) (ty : Ty) (x y : Word) : Word :=
  extend ty (divTrunc signed (scalarWidth ty) x.toNat y.toNat).2

section
variable {g : Guard} {s : State} {k : Nat} {e : Exec} (hlive : s.live = some (k, e)) (hg : e.guardOn g = true)
  (ty : Ty) (d a b : GReg)
include hlive hg

theorem exec_div_on : exec (.div g ty d a b) s =
    .next (s.setExec k (e.setG d (quotient true ty (e.getG a) (e.getG b))).advance) := scalar_on _ hlive hg

theorem exec_rem_on : exec (.rem g ty d a b) s =
    .next (s.setExec k (e.setG d (remainder true ty (e.getG a) (e.getG b))).advance) := scalar_on _ hlive hg

theorem exec_divu_on : exec (.divu g ty d a b) s =
    .next (s.setExec k (e.setG d (quotient false ty (e.getG a) (e.getG b))).advance) := scalar_on _ hlive hg

theorem exec_remu_on : exec (.remu g ty d a b) s =
    .next (s.setExec k (e.setG d (remainder false ty (e.getG a) (e.getG b))).advance) := scalar_on _ hlive hg

end

/-! ### The table of R196 -/

section
variable {ty : Ty} {x y : Word}

theorem division_signed_by_zero (hty : ty.scalarSigned = true) (hy : valueOf ty y = 0) :
    quotient true ty x y = -1 ∧ remainder true ty x y = BitVec.ofInt 64 (valueOf ty x) := by
  have hzero := divTrunc_by_zero x.toNat ((intOf_true_eq_valueOf hty y).trans hy)
  rw [quotient, remainder, hzero, extend_mod]
  exact ⟨extend_allOnes_signed hty, extend_toNat_eq_ofInt (scalarInt_of_signed hty) x⟩

theorem division_unsigned_by_zero (hty : ty.scalarUnsigned = true) (hy : wide1 ty (fun _ x => x) y = 0) :
    quotient false ty x y = wide1 ty (fun w _ => BitVec.allOnes w) 0 ∧
      remainder false ty x y = wide1 ty (fun _ x => x) x := by
  have hzero := divTrunc_by_zero x.toNat ((intOf_false_eq_wide1 hty y).trans (by rw [hy]; rfl))
  rw [quotient, remainder, hzero, extend_mod]
  exact ⟨extend_allOnes_unsigned hty, extend_toNat_eq_wide1 (scalarInt_of_unsigned hty) x⟩

theorem division_least_by_neg_one (hty : ty.scalarSigned = true) (hx : valueOf ty x = leastOf ty)
    (hy : valueOf ty y = -1) :
    quotient true ty x y = BitVec.ofInt 64 (leastOf ty) ∧ remainder true ty x y = 0 := by
  have hwidth : 0 < scalarWidth ty := by obtain rfl | rfl := scalarSigned_cases hty <;> decide
  have hwrap := divTrunc_least_by_neg_one hwidth
    ((intOf_true_eq_valueOf hty x).trans (hx.trans (leastOf_eq hty))) ((intOf_true_eq_valueOf hty y).trans hy)
  rw [quotient, remainder, hwrap]
  exact ⟨extend_least hty, extend_zero (scalarInt_of_signed hty)⟩

end

/-- Settles O13: each division is a register write whatever its operands, and the table of R196 gives what it writes. -/
theorem divisionCorners : Obligations.DivisionCorners := by
  intro g ty d a b s k e hlive hg
  rw [exec_div_on hlive hg, exec_rem_on hlive hg, exec_divu_on hlive hg, exec_remu_on hlive hg]
  refine ⟨fun _ => ⟨⟨_, rfl⟩, _, rfl⟩, fun _ => ⟨⟨_, rfl⟩, _, rfl⟩, fun hty hy => ?_, fun hty hy => ?_,
    fun hty hx hy => ?_⟩
  · obtain ⟨hq, hr⟩ := division_signed_by_zero (x := e.getG a) hty hy
    rw [hq, hr]; exact ⟨rfl, rfl⟩
  · obtain ⟨hq, hr⟩ := division_unsigned_by_zero (x := e.getG a) hty hy
    rw [hq, hr]; exact ⟨rfl, rfl⟩
  · obtain ⟨hq, hr⟩ := division_least_by_neg_one hty hx hy
    rw [hq, hr]; exact ⟨rfl, rfl⟩

end Sys2Proof.Proofs
